-- ==== Sys2Proof/Word.lean ====
section
/-! DEFINITION. Word types of the flight link and the unit of time. -/

namespace Sys2Proof

/-- One byte of a payload, a record or a configuration record. -/
abbrev Byte := BitVec 8

/-- A 5-bit link address (R1): 0 to 15 stations, 30 the desk, 31 broadcast. -/
abbrev Addr := BitVec 5

/-- A batch key byte (12.2): bit 7 the admitting end, bits 6 to 0 the number, 0 none. -/
abbrev BatchKey := BitVec 8

/-- A span of time in bit times of 4 microseconds (1.4), the unit every rule's time is a whole multiple of. -/
abbrev Span := Nat

/-- `n` milliseconds in bit times. -/
abbrev ms (n : Nat) : Span := 250 * n

/-- `n` seconds in bit times. -/
abbrev sec (n : Nat) : Span := 250000 * n

/-- `n` backoff slots of 128 bit times (1.4). -/
abbrev backoffSlots (n : Nat) : Span := 128 * n

/-- A timer: stopped, or running with the time left. -/
abbrev Timer := Option Span

/-- The desk's link address (R1). -/
abbrev deskAddr : Addr := 30

/-- The broadcast address (R1). -/
abbrev broadcastAddr : Addr := 31

end Sys2Proof
end

