-- ==== Sys2Proof/Syntax.lean ====
section
/-! DEFINITION. The commands: one constructor per row of spec/opcode_table.json. -/

namespace Sys2Proof

/-- A level line (R57): the chamber's, or an end station's outer level. -/
inductive LevelLine where
  | chamber
  | outer
  deriving DecidableEq, Repr

/-- The elements by their codes 1 to 4 (5.1). -/
inductive Element where
  | lowerGate
  | lowerSluice
  | headGate
  | headSluice
  deriving DecidableEq, Repr

/-- The end a motion drives an element toward (5.1). -/
inductive Target where
  | toOpen
  | toClosed
  deriving DecidableEq, Repr

/-- A boundary unit of the station: the lower one, or the head station's head unit (R100). -/
inductive UnitId where
  | lower
  | head
  deriving DecidableEq, Repr

/-- A direction of crossing (3.2 of 00_scope.md). -/
inductive Direction where
  | up
  | down
  deriving DecidableEq, Repr

/-- The panel key switch (R50). -/
inductive KeyPos where
  | auto
  | localPos
  deriving DecidableEq, Repr

/-- A party with a widen slot (R15) or a hold entry (R135): a station address, or the desk. -/
inductive Party where
  | station (a : Fin 16)
  | desk
  deriving DecidableEq, Repr

/-- The commands. A frame command is a frame accepted under R2: its source, its destination and its payload bytes.
An expiry command is the spec's event of that timer running out. -/
inductive Instr where
  | start
  | strapSample (straps : BitVec 4)
  | configRecordRead (bytes : List Byte)
  | frameDiscarded (wholeFrame : Bool) (bytes : List Byte)
  | frameNotTaken (src dst : Addr)
  | unknownKind (src dst : Addr) (kind : BitVec 6) (payload : List Byte)
  | widen (src dst : Addr) (payload : List Byte)
  | echo (src dst : Addr) (payload : List Byte)
  | echoBack (src dst : Addr) (payload : List Byte)
  | refuse (src dst : Addr) (payload : List Byte)
  | beacon (src dst : Addr) (payload : List Byte)
  | statusAsk (src dst : Addr) (payload : List Byte)
  | statusReply (src dst : Addr) (payload : List Byte)
  | flightStop (src dst : Addr) (payload : List Byte)
  | resume (src dst : Addr) (payload : List Byte)
  | rest (src dst : Addr) (payload : List Byte)
  | wake (src dst : Addr) (payload : List Byte)
  | restart (src dst : Addr) (payload : List Byte)
  | claimAsk (src dst : Addr) (payload : List Byte)
  | claimDrop (src dst : Addr) (payload : List Byte)
  | levelFeed (src dst : Addr) (payload : List Byte)
  | alarmClose (src dst : Addr) (payload : List Byte)
  | crossAsk (src dst : Addr) (payload : List Byte)
  | crossTaken (src dst : Addr) (payload : List Byte)
  | crossDeny (src dst : Addr) (payload : List Byte)
  | claimGive (src dst : Addr) (payload : List Byte)
  | claimWait (src dst : Addr) (payload : List Byte)
  | claimDeny (src dst : Addr) (payload : List Byte)
  | xferAsk (src dst : Addr) (payload : List Byte)
  | recSeg (src dst : Addr) (payload : List Byte)
  | xferEnd (src dst : Addr) (payload : List Byte)
  | xferBad (src dst : Addr) (payload : List Byte)
  | hold (src dst : Addr) (payload : List Byte)
  | exitNote (src dst : Addr) (payload : List Byte)
  | tokenOffer (src dst : Addr) (payload : List Byte)
  | tokenTake (src dst : Addr) (payload : List Byte)
  | tokenDecline (src dst : Addr) (payload : List Byte)
  | vesselSet (src dst : Addr) (payload : List Byte)
  | vesselDel (src dst : Addr) (payload : List Byte)
  | vesselInfo (src dst : Addr) (payload : List Byte)
  | time (src dst : Addr) (payload : List Byte)
  | rateSet (src dst : Addr) (payload : List Byte)
  | rateCommit (src dst : Addr) (payload : List Byte)
  | tollRead (src dst : Addr) (payload : List Byte)
  | tollRemove (src dst : Addr) (payload : List Byte)
  | faultNote (src dst : Addr) (payload : List Byte)
  | faultClear (src dst : Addr) (payload : List Byte)
  | clear (src dst : Addr) (payload : List Byte)
  | vesselQuery (src dst : Addr) (payload : List Byte)
  | tollReady (src dst : Addr) (payload : List Byte)
  | tollEnd (src dst : Addr) (payload : List Byte)
  | logFull (src dst : Addr) (payload : List Byte)
  | headFrameStart
  | frameSent
  | collision
  | backoffExpiry
  | widenResendExpiry
  | widenHoldExpiry (dst : Addr)
  | widenSlotExpiry (party : Party)
  | replyDeadlineExpiry (tag : Nat)
  | beaconTimerExpiry
  | peerSilenceTimeout (station : Fin 16)
  | deskSilenceTimeout
  | clashCalmExpiry
  | wakeSettleExpiry
  | resumeSettleExpiry
  | stopButtonPress (pressed : Bool)
  | keySwitchTurn (pos : KeyPos)
  | selectorChange (pos : UnitId)
  | elementKeyPress (element : Element) (target : Target)
  | levelReading (line : LevelLine) (value : BitVec 16) (valid : Bool)
  | levelStaleTimeout (line : LevelLine)
  | levelLossExpiry (line : LevelLine)
  | selfWaitExpiry
  | claimWaitExpiry
  | cancelledTagExpiry (tag : Nat)
  | levelFeedTimerExpiry
  | fedLevelStale
  | switchChange (element : Element) (closedSwitch openSwitch : Bool)
  | travelAllowanceExpiry
  | onwardRetryExpiry
  | onwardRepeatExpiry
  | claimRetryExpiry (boundary : UnitId)
  | equalizeTimerExpiry (boundary : UnitId)
  | entryTimeLimitExpiry (boundary : UnitId)
  | detectorPassage (boundary : UnitId) (direction : Direction)
  | call (registration : BitVec 32) (lengthClass : Byte)
  | cancel (registration : BitVec 32) (lengthClass : Byte)
  | callRecordBad (bytes : List Byte)
  | callAnswerSent
  | resolutionTimerExpiry (registration : BitVec 32)
  | holdEntryExpiry (party : Party)
  | sweepTimerExpiry
  | recoveryTimerExpiry
  | gapTimerExpiry
  | attemptWaitExpiry
  | lowStoreRepeatExpiry
  | minuteTimerExpiry
  | flasherToggle
  deriving DecidableEq, Repr

end Sys2Proof
end

