-- ==== Sys2Proof/Decode.lean ====
section
/-! DEFINITION. The decoder of the opcode table's bits. -/

namespace Sys2Proof

/-- The command a word spells by the table's bits: no row of the opcode table gives bits, so no word spells one. -/
def decodeTableWord (_nbits _w : Nat) : Option Instr := none

end Sys2Proof
end

