-- ==== Sys2Proof/Config.lean ====
section
/-! DEFINITION. The free values: what the spec leaves open while the station goes on. Nothing in Lean can evaluate them. -/

namespace Sys2Proof

/-- The number drawn at the `n`-th collision (R13): "the choice within the window is made afresh at each collision
and is not the station's to predict". The meaning reduces it to the window. Log entry 8. -/
opaque Config.backoffDraw : Nat → Nat

/-- The 32-bit amount that results where an exact sum of fee units is 2^32 or more: R156 and R178 state no result
there. Log entry 9. -/
opaque Config.feesBeyondRange : Nat → BitVec 32

end Sys2Proof
end

