-- ==== Sys2Proof/Machine/Names.lean ====
section
/-! DEFINITION. The named values of the spec and the codes its layouts give them (12.1, 12.2). -/

namespace Sys2Proof.Machine
open Sys2Proof

/-- Station modes (R40). -/
inductive Mode where
  | loading | unconfigured | waking | inService | localMode | held | resting
  deriving DecidableEq, Repr

/-- Stop states (R43). -/
inductive StopState where
  | stopClear | stopActive | stopSettling
  deriving DecidableEq, Repr

/-- Beacon intervals (R32). -/
inductive Interval where
  | normal | rest | fast
  deriving DecidableEq, Repr

/-- What last woke the station (R48, R49, R56). -/
inductive WakeSource where
  | start | restart | desk | call | claim | cross | alarm | panel | fault
  deriving DecidableEq, Repr

/-- Local working (3.4). -/
inductive LocalState where
  | auto | pending | refused | working | closing
  deriving DecidableEq, Repr

/-- Chamber occupancy (R61). -/
inductive Occupancy where
  | empty | arriving | occupied | leaving
  deriving DecidableEq, Repr

/-- The kind of a claim holder, as reported (R63). -/
inductive HolderKind where
  | free | self | upper | orphaned
  deriving DecidableEq, Repr

/-- The kind of a claim waiter, as reported (R63). -/
inductive WaiterKind where
  | none | self | upper
  deriving DecidableEq, Repr

/-- Token states (R140). -/
inductive TokenState where
  | held | offered | absent
  deriving DecidableEq, Repr

/-- Purposes of a claim (4.3). -/
inductive Purpose where
  | gateUp | gateDown | localWork
  deriving DecidableEq, Repr

/-- The fourteen fault causes (11.1). -/
inductive Cause where
  | levelAlarm | levelSensor | positionConflict | motionTimeout | equalizeTimeout | detectorMismatch
  | claimOrphaned | peerLost | claimTimeout | transferFail | addressClash | tokenClash | linkDegraded
  | configInvalid
  deriving DecidableEq, Repr

/-- Levels a fault is taken at (R185). -/
inductive FaultLevel where
  | localLevel | flight | desk
  deriving DecidableEq, Repr

/-- The boundary a fault names (R184). -/
inductive Bound where
  | none | lower | head
  deriving DecidableEq, Repr

/-- The steps of a crossing (6.3). -/
inductive Step where
  | reserve | claim | equalize | openGate | transit | closeGate | release
  deriving DecidableEq, Repr

/-- Vessel classes (7.2). -/
inductive VClass where
  | commercial | service | pleasure | exempt
  deriving DecidableEq, Repr

/-- Kinds of a record's line (9.2). -/
inductive LineKind where
  | chamber | assist
  deriving DecidableEq, Repr

/-- Record states (9.2). -/
inductive RecState where
  | created | resident | sending | receiving | closed
  deriving DecidableEq, Repr

/-- Reasons of a REFUSE (12.1). -/
inductive Reason where
  | unknownKind | wrongRole | badField | busy | noSpace | notHeld
  deriving DecidableEq, Repr

/-- Reasons of a CLAIM_DENY or CROSS_DENY (12.1). -/
inductive DenyReason where
  | busy | noSpace | mode | faulted
  deriving DecidableEq, Repr

/-- Service ratios (R25, R129). -/
inductive Ratio where
  | two | four | eight | strict
  deriving DecidableEq, Repr

/-- The blocks that send frames (2.2, R5). -/
inductive Block where
  | link | presence | control | chamber | lowerUnit | record | approach | vessel | toll | fault
  deriving DecidableEq, Repr

/-- The frame kinds (12.1). -/
inductive Kind where
  | beacon | widen | refuse | echo | echoBack | statusAsk | statusReply
  | claimAsk | claimGive | claimWait | claimDeny | claimDrop | levelFeed | alarmClose
  | crossAsk | crossTaken | crossDeny | xferAsk | recSeg | xferEnd | xferBad
  | hold | exitNote | tokenOffer | tokenTake | tokenDecline
  | flightStop | resume | faultNote | faultClear | clear
  | time | rest | wake | restart | vesselSet | vesselDel | vesselQuery | vesselInfo
  | rateSet | rateCommit | tollReady | tollEnd | tollRead | tollRemove | logFull
  deriving DecidableEq, Repr

/-- Sender roles (R6). -/
inductive Role where
  | desk | neighbour | upper | lower | endStation | any
  deriving DecidableEq, Repr

/-- Mode codes of a BEACON's byte 0 (12.2). -/
def Mode.code : Mode → Nat
  | .loading => 0 | .unconfigured => 1 | .waking => 2 | .inService => 3 | .localMode => 4 | .held => 5 | .resting => 6

/-- The mode a code names (12.2). -/
def Mode.ofCode? : Nat → Option Mode
  | 0 => some .loading | 1 => some .unconfigured | 2 => some .waking | 3 => some .inService
  | 4 => some .localMode | 5 => some .held | 6 => some .resting | _ => none

/-- Stop state codes (12.2). -/
def StopState.code : StopState → Nat
  | .stopClear => 0 | .stopActive => 1 | .stopSettling => 2

/-- The stop state a code names (12.2). -/
def StopState.ofCode? : Nat → Option StopState
  | 0 => some .stopClear | 1 => some .stopActive | 2 => some .stopSettling | _ => none

/-- Interval codes (12.2). -/
def Interval.code : Interval → Nat
  | .normal => 0 | .rest => 1 | .fast => 2

/-- The interval a code names (12.2). -/
def Interval.ofCode? : Nat → Option Interval
  | 0 => some .normal | 1 => some .rest | 2 => some .fast | _ => none

/-- The lengths of the intervals (R32): 2 s, 10 s and 250 ms. -/
def Interval.span : Interval → Span
  | .normal => sec 2 | .rest => sec 10 | .fast => ms 250

/-- Wake source codes of STATUS_REPLY byte 14 (12.2). -/
def WakeSource.code : WakeSource → Nat
  | .start => 0 | .restart => 1 | .desk => 2 | .call => 3 | .claim => 4 | .cross => 5 | .alarm => 6 | .panel => 7
  | .fault => 8

/-- Occupancy codes of STATUS_REPLY byte 2 (12.2). -/
def Occupancy.code : Occupancy → Nat
  | .empty => 0 | .arriving => 1 | .occupied => 2 | .leaving => 3

/-- Claim holder codes in the order FREE, SELF, UPPER, ORPHANED (12.2). -/
def HolderKind.code : HolderKind → Nat
  | .free => 0 | .self => 1 | .upper => 2 | .orphaned => 3

/-- The holder kind a 2-bit code names (12.2). -/
def HolderKind.ofCode : Nat → HolderKind
  | 0 => .free | 1 => .self | 2 => .upper | _ => .orphaned

/-- Claim waiter codes in the order NONE, SELF, UPPER (12.2). -/
def WaiterKind.code : WaiterKind → Nat
  | .none => 0 | .self => 1 | .upper => 2

/-- The waiter kind a code names (12.2). -/
def WaiterKind.ofCode? : Nat → Option WaiterKind
  | 0 => some .none | 1 => some .self | 2 => some .upper | _ => Option.none

/-- Token state codes in the order HELD, OFFERED, ABSENT (12.2). -/
def TokenState.code : TokenState → Nat
  | .held => 0 | .offered => 1 | .absent => 2

/-- The token state a code names (12.2). -/
def TokenState.ofCode? : Nat → Option TokenState
  | 0 => some .held | 1 => some .offered | 2 => some .absent | _ => none

/-- Purpose codes (12.2). -/
def Purpose.code : Purpose → Nat
  | .gateUp => 0 | .gateDown => 1 | .localWork => 2

/-- The purpose a code names (12.2). -/
def Purpose.ofCode? : Nat → Option Purpose
  | 0 => some .gateUp | 1 => some .gateDown | 2 => some .localWork | _ => none

/-- Cause codes, which are the priorities (11.1, R185). -/
def Cause.code : Cause → Nat
  | .levelAlarm => 1 | .levelSensor => 2 | .positionConflict => 3 | .motionTimeout => 4 | .equalizeTimeout => 5
  | .detectorMismatch => 6 | .claimOrphaned => 7 | .peerLost => 8 | .claimTimeout => 9 | .transferFail => 10
  | .addressClash => 11 | .tokenClash => 12 | .linkDegraded => 13 | .configInvalid => 14

/-- The cause a code names (11.1). -/
def Cause.ofCode? : Nat → Option Cause
  | 1 => some .levelAlarm | 2 => some .levelSensor | 3 => some .positionConflict | 4 => some .motionTimeout
  | 5 => some .equalizeTimeout | 6 => some .detectorMismatch | 7 => some .claimOrphaned | 8 => some .peerLost
  | 9 => some .claimTimeout | 10 => some .transferFail | 11 => some .addressClash | 12 => some .tokenClash
  | 13 => some .linkDegraded | 14 => some .configInvalid | _ => none

/-- The causes in order of priority, highest first (R185). -/
def Cause.byPriority : List Cause :=
  [.levelAlarm, .levelSensor, .positionConflict, .motionTimeout, .equalizeTimeout, .detectorMismatch, .claimOrphaned,
   .peerLost, .claimTimeout, .transferFail, .addressClash, .tokenClash, .linkDegraded, .configInvalid]

/-- The delegable causes (R185). -/
def Cause.delegable : Cause → Bool
  | .positionConflict | .motionTimeout | .equalizeTimeout | .detectorMismatch | .peerLost | .claimTimeout
  | .transferFail | .linkDegraded => true
  | .levelAlarm | .levelSensor | .claimOrphaned | .addressClash | .tokenClash | .configInvalid => false

/-- Fault level codes (12.2). -/
def FaultLevel.code : FaultLevel → Nat
  | .localLevel => 1 | .flight => 2 | .desk => 3

/-- The fault level a code names (12.2). -/
def FaultLevel.ofCode? : Nat → Option FaultLevel
  | 1 => some .localLevel | 2 => some .flight | 3 => some .desk | _ => none

/-- Boundary codes (12.2). -/
def Bound.code : Bound → Nat
  | .none => 0 | .lower => 1 | .head => 2

/-- The boundary of a unit, as a fault names it (R100). -/
def Bound.ofUnit : UnitId → Bound
  | .lower => .lower | .head => .head

/-- Vessel class codes (12.2). -/
def VClass.code : VClass → Nat
  | .commercial => 0 | .service => 1 | .pleasure => 2 | .exempt => 3

/-- The class a 2-bit code names (12.2). -/
def VClass.ofCode : Nat → VClass
  | 0 => .commercial | 1 => .service | 2 => .pleasure | _ => .exempt

/-- HIGH priority is COMMERCIAL and SERVICE (7.2). -/
def VClass.high : VClass → Bool
  | .commercial | .service => true
  | .pleasure | .exempt => false

/-- Line kind codes (12.2). -/
def LineKind.code : LineKind → Nat
  | .chamber => 0 | .assist => 1

/-- REFUSE reason codes (12.1). -/
def Reason.code : Reason → Nat
  | .unknownKind => 1 | .wrongRole => 2 | .badField => 3 | .busy => 4 | .noSpace => 5 | .notHeld => 6

/-- The REFUSE reason a code names (12.1). -/
def Reason.ofCode? : Nat → Option Reason
  | 1 => some .unknownKind | 2 => some .wrongRole | 3 => some .badField | 4 => some .busy | 5 => some .noSpace
  | 6 => some .notHeld | _ => none

/-- Denial reason codes (12.1). -/
def DenyReason.code : DenyReason → Nat
  | .busy => 1 | .noSpace => 2 | .mode => 3 | .faulted => 4

/-- The denial reason a code names (12.1). -/
def DenyReason.ofCode? : Nat → Option DenyReason
  | 1 => some .busy | 2 => some .noSpace | 3 => some .mode | 4 => some .faulted | _ => none

/-- The service ratio a configuration code names (12.2). -/
def Ratio.ofCode? : Nat → Option Ratio
  | 0 => some .two | 1 => some .four | 2 => some .eight | 3 => some .strict | _ => none

/-- Element codes (5.1). -/
def elementCode : Element → Nat
  | .lowerGate => 1 | .lowerSluice => 2 | .headGate => 3 | .headSluice => 4

/-- The index of an element in a table of four. -/
def elementIdx : Element → Fin 4
  | .lowerGate => 0 | .lowerSluice => 1 | .headGate => 2 | .headSluice => 3

/-- The boundary unit an element belongs to (5.1). -/
def elementUnit : Element → UnitId
  | .lowerGate | .lowerSluice => .lower
  | .headGate | .headSluice => .head

/-- Whether an element is a gate (5.1). -/
def elementIsGate : Element → Bool
  | .lowerGate | .headGate => true
  | .lowerSluice | .headSluice => false

/-- The element a code names (5.1). -/
def elementOfCode? : Nat → Option Element
  | 1 => some .lowerGate | 2 => some .lowerSluice | 3 => some .headGate | 4 => some .headSluice | _ => none

/-- The gate of a unit's boundary (6.3). -/
def gateOf : UnitId → Element
  | .lower => .lowerGate | .head => .headGate

/-- The sluice of a unit's boundary (6.3). -/
def sluiceOf : UnitId → Element
  | .lower => .lowerSluice | .head => .headSluice

/-- The target codes of MOTION_TIMEOUT's value 2 (R84). -/
def targetCode : Target → Nat
  | .toOpen => 1 | .toClosed => 2

/-- The direction codes of DETECTOR_MISMATCH's value 2 (R111). -/
def directionCode : Direction → Nat
  | .up => 1 | .down => 2

/-- The index of a party's widen slot (R15) or hold entry (R135): 0 to 15 the stations, 16 the desk. -/
def partyIdx : Party → Fin 17
  | .station a => a.castSucc
  | .desk => 16

/-- The party at a source address that passed R3. -/
def partyOf (src : Addr) : Party :=
  if src = deskAddr then .desk else .station ⟨src.toNat % 16, Nat.mod_lt _ (by decide)⟩

end Sys2Proof.Machine
end

