-- ==== Sys2Proof/Machine/Operands.lean ====
section
/-! DEFINITION. The operand forms: kind codes and sender roles (12.1), the byte layouts of the payloads, the call
record and the configuration record (12.2), the 16-bit check, and the range tests of R7. -/

namespace Sys2Proof.Machine
open Sys2Proof

/-- The 6-bit kind codes (12.1). -/
def Kind.code : Kind → Nat
  | .beacon => 0x01
  | .widen => 0x02
  | .refuse => 0x03
  | .echo => 0x04
  | .echoBack => 0x05
  | .statusAsk => 0x06
  | .statusReply => 0x07
  | .claimAsk => 0x10
  | .claimGive => 0x11
  | .claimWait => 0x12
  | .claimDeny => 0x13
  | .claimDrop => 0x14
  | .levelFeed => 0x15
  | .alarmClose => 0x16
  | .crossAsk => 0x18
  | .crossTaken => 0x19
  | .crossDeny => 0x1A
  | .xferAsk => 0x1C
  | .recSeg => 0x1D
  | .xferEnd => 0x1E
  | .xferBad => 0x1F
  | .hold => 0x20
  | .exitNote => 0x21
  | .tokenOffer => 0x22
  | .tokenTake => 0x23
  | .tokenDecline => 0x24
  | .flightStop => 0x28
  | .resume => 0x29
  | .faultNote => 0x2A
  | .faultClear => 0x2B
  | .clear => 0x2C
  | .time => 0x30
  | .rest => 0x31
  | .wake => 0x32
  | .restart => 0x33
  | .vesselSet => 0x34
  | .vesselDel => 0x35
  | .vesselQuery => 0x36
  | .vesselInfo => 0x37
  | .rateSet => 0x38
  | .rateCommit => 0x39
  | .tollReady => 0x3A
  | .tollEnd => 0x3B
  | .tollRead => 0x3D
  | .tollRemove => 0x3E
  | .logFull => 0x3F

/-- The kind a code names; every other code is unknown (12.1, R5). -/
def Kind.ofCode? : Nat → Option Kind
  | 0x01 => some .beacon
  | 0x02 => some .widen
  | 0x03 => some .refuse
  | 0x04 => some .echo
  | 0x05 => some .echoBack
  | 0x06 => some .statusAsk
  | 0x07 => some .statusReply
  | 0x10 => some .claimAsk
  | 0x11 => some .claimGive
  | 0x12 => some .claimWait
  | 0x13 => some .claimDeny
  | 0x14 => some .claimDrop
  | 0x15 => some .levelFeed
  | 0x16 => some .alarmClose
  | 0x18 => some .crossAsk
  | 0x19 => some .crossTaken
  | 0x1A => some .crossDeny
  | 0x1C => some .xferAsk
  | 0x1D => some .recSeg
  | 0x1E => some .xferEnd
  | 0x1F => some .xferBad
  | 0x20 => some .hold
  | 0x21 => some .exitNote
  | 0x22 => some .tokenOffer
  | 0x23 => some .tokenTake
  | 0x24 => some .tokenDecline
  | 0x28 => some .flightStop
  | 0x29 => some .resume
  | 0x2A => some .faultNote
  | 0x2B => some .faultClear
  | 0x2C => some .clear
  | 0x30 => some .time
  | 0x31 => some .rest
  | 0x32 => some .wake
  | 0x33 => some .restart
  | 0x34 => some .vesselSet
  | 0x35 => some .vesselDel
  | 0x36 => some .vesselQuery
  | 0x37 => some .vesselInfo
  | 0x38 => some .rateSet
  | 0x39 => some .rateCommit
  | 0x3A => some .tollReady
  | 0x3B => some .tollEnd
  | 0x3D => some .tollRead
  | 0x3E => some .tollRemove
  | 0x3F => some .logFull
  | _ => none

/-- The sender role of each kind (12.1, R6). -/
def Kind.role : Kind → Role
  | .beacon => .any
  | .widen => .any
  | .refuse => .any
  | .echo => .any
  | .echoBack => .any
  | .statusAsk => .any
  | .statusReply => .any
  | .claimAsk => .upper
  | .claimGive => .lower
  | .claimWait => .lower
  | .claimDeny => .lower
  | .claimDrop => .upper
  | .levelFeed => .lower
  | .alarmClose => .lower
  | .crossAsk => .lower
  | .crossTaken => .upper
  | .crossDeny => .upper
  | .xferAsk => .neighbour
  | .recSeg => .neighbour
  | .xferEnd => .neighbour
  | .xferBad => .neighbour
  | .hold => .any
  | .exitNote => .endStation
  | .tokenOffer => .endStation
  | .tokenTake => .endStation
  | .tokenDecline => .endStation
  | .flightStop => .any
  | .resume => .desk
  | .faultNote => .any
  | .faultClear => .any
  | .clear => .desk
  | .time => .desk
  | .rest => .desk
  | .wake => .desk
  | .restart => .desk
  | .vesselSet => .desk
  | .vesselDel => .desk
  | .vesselQuery => .endStation
  | .vesselInfo => .desk
  | .rateSet => .desk
  | .rateCommit => .desk
  | .tollReady => .endStation
  | .tollEnd => .endStation
  | .tollRead => .desk
  | .tollRemove => .desk
  | .logFull => .endStation

/-- The kinds the desk alone receives (R6). -/
def Kind.deskOnly : Kind → Bool
  | .vesselQuery | .tollReady | .tollEnd | .logFull => true
  | _ => false

/-- The kinds taken by end stations alone (R6). -/
def Kind.endOnly : Kind → Bool
  | .hold | .exitNote | .tokenOffer | .tokenTake | .tokenDecline | .vesselSet | .vesselDel | .vesselInfo | .tollRead
  | .tollRemove => true
  | _ => false

/-- The request kinds of R8. -/
def Kind.isRequest : Kind → Bool
  | .claimAsk | .crossAsk | .xferAsk | .statusAsk | .echo | .vesselQuery | .tollRead | .tokenOffer => true
  | _ => false

/-- The kinds whose payload carries a tag in byte 0 (12.2). -/
def Kind.hasTag : Kind → Bool
  | .echo | .echoBack | .statusAsk | .statusReply | .claimAsk | .claimGive | .claimWait | .claimDeny | .claimDrop
  | .levelFeed | .crossAsk | .crossTaken | .crossDeny | .xferAsk | .tokenOffer | .tokenTake | .tokenDecline
  | .vesselQuery | .vesselInfo | .tollEnd | .tollRead => true
  | _ => false

/-- The URGENT kinds (R10). -/
def Kind.urgent : Kind → Bool
  | .flightStop | .alarmClose | .faultNote | .claimAsk | .claimGive | .claimWait | .claimDeny | .claimDrop => true
  | _ => false

/-- The kinds with a widenable field (1.5). -/
def Kind.widenable : Kind → Bool
  | .recSeg | .tollEnd | .vesselQuery | .vesselDel | .vesselSet | .vesselInfo => true
  | _ => false

/-- The reply kinds that end a request's entry (1.6); a REC_SEG is matched by batch key apart (R19). -/
def Kind.isReplyOf (reply request : Kind) : Bool :=
  match request with
  | .claimAsk => reply = .claimGive || reply = .claimWait || reply = .claimDeny
  | .crossAsk => reply = .crossTaken || reply = .crossDeny
  | .statusAsk => reply = .statusReply
  | .echo => reply = .echoBack
  | .vesselQuery => reply = .vesselInfo
  | .tokenOffer => reply = .tokenTake || reply = .tokenDecline
  | _ => false

/-! ### Bytes -/

/-- Byte `i` of a payload as a number. -/
def byteAt (p : List Byte) (i : Nat) : Nat := (p.getD i 0).toNat

/-- The two bytes from `i`, most significant first (12.2). -/
def be16 (p : List Byte) (i : Nat) : Nat := byteAt p i * 256 + byteAt p (i + 1)

/-- The three bytes from `i`, most significant first. -/
def be24 (p : List Byte) (i : Nat) : Nat := be16 p i * 256 + byteAt p (i + 2)

/-- The four bytes from `i`, most significant first. -/
def be32 (p : List Byte) (i : Nat) : Nat := be16 p i * 65536 + be16 p (i + 2)

/-- The field of `width` bits of `x` whose lowest bit is bit `low`. -/
def field (x low width : Nat) : Nat := x / 2 ^ low % 2 ^ width

/-- A number as a byte. -/
def byte (n : Nat) : Byte := BitVec.ofNat 8 n

/-- A number as two bytes, most significant first. -/
def bytes16 (n : Nat) : List Byte := [byte (n / 256), byte n]

/-- A number as three bytes, most significant first. -/
def bytes24 (n : Nat) : List Byte := [byte (n / 65536), byte (n / 256), byte n]

/-- A number as four bytes, most significant first. -/
def bytes32 (n : Nat) : List Byte := [byte (n / 16777216), byte (n / 65536), byte (n / 256), byte n]

/-- A Bool as a bit. -/
def bit (b : Bool) : Nat := if b then 1 else 0

/-- One bit of the CRC of 12.2: generator x^16 + x^12 + x^5 + 1. -/
def crcBit (crc : Nat) : Nat :=
  if crc < 32768 then 2 * crc else (2 * crc - 65536) ^^^ 0x1021

/-- One byte of the CRC, most significant bit first. -/
def crcByte (crc : Nat) (b : Byte) : Nat :=
  crcBit (crcBit (crcBit (crcBit (crcBit (crcBit (crcBit (crcBit (crc ^^^ (b.toNat * 256)))))))))

/-- The 16-bit check of frames, call records and the configuration record (12.2): initial value FFFF, no final
inversion. -/
def crc16 (p : List Byte) : Nat := p.foldl crcByte 0xFFFF

/-- A key byte as read: 80 is read as none (12.2). -/
def readKey (b : Byte) : BatchKey := if b = 0x80 then 0 else b

/-- The batch key in byte `i`. -/
def keyAt (p : List Byte) (i : Nat) : BatchKey := readKey (p.getD i 0)

/-- Whether a key names a batch admitted at the head (12.2: bit 7). -/
def keyFromHead (k : BatchKey) : Bool := 128 ≤ k.toNat

/-- The direction of a batch: UP when admitted at the foot, DOWN at the head (R102). -/
def keyDirection (k : BatchKey) : Direction := if keyFromHead k then .down else .up

/-- The key of an admitting end and a number (12.2). -/
def mkKey (fromHead : Bool) (n : Nat) : BatchKey := BitVec.ofNat 8 (128 * bit fromHead + n % 128)

/-- A level field: 0 to 2000 cm, FFFF unknown (12.2). -/
def levelAt? (p : List Byte) (i : Nat) : Option Nat := if be16 p i ≤ 2000 then some (be16 p i) else none

/-- The bytes of a level or of unknown. -/
def levelBytes (l : Option Nat) : List Byte := bytes16 (l.getD 0xFFFF)

/-! ### Reception of a whole frame (R1, R2) -/

/-- Byte 0 and byte 1 of the frame header (12.2). -/
def headerBytes (dst src : Addr) (kind len : Nat) : List Byte :=
  [byte (dst.toNat * 8 + src.toNat / 4), byte (src.toNat % 4 * 64 + kind), byte len]

/-- A frame as bytes on the line (R1, 12.2). -/
def frameBytes (dst src : Addr) (kind : Nat) (payload : List Byte) : List Byte :=
  let body := headerBytes dst src kind payload.length ++ payload
  body ++ bytes16 (crc16 body)

/-- The acceptance test of R2: a whole frame, a payload length of 16 or less, as many payload bytes as the length
field says, and an agreeing check. -/
def frameAccepted (wholeFrame : Bool) (bs : List Byte) : Bool :=
  wholeFrame && decide (5 ≤ bs.length) && decide (byteAt bs 2 ≤ 16) && decide (bs.length = byteAt bs 2 + 5)
    && decide (crc16 (bs.take (bs.length - 2)) = be16 bs (bs.length - 2))

/-! ### Beacons (12.2, R33) -/

/-- The contents of a BEACON (R33). -/
structure BeaconContents where
  mode : Mode
  stop : StopState
  interval : Interval
  level : Option Nat
  holder : HolderKind
  waiter : WaiterKind
  token : TokenState
  chamberKey : BatchKey
  custodyKey : BatchKey
  high : Nat
  low : Nat
  epoch : BitVec 14
  cause : Option Cause
  pendingCount : Nat
  freeMinusReserved : Nat
  serial : BitVec 24
  deriving DecidableEq, Repr

/-- The code of an active cause, 0 for none (12.2). -/
def causeCode (c : Option Cause) : Nat := match c with
  | some c => c.code
  | none => 0

/-- The payload of a BEACON (12.2). -/
def renderBeacon (b : BeaconContents) : List Byte :=
  [byte (b.mode.code * 32 + b.stop.code * 8 + b.interval.code * 2)]
    ++ levelBytes b.level
    ++ [byte (b.holder.code * 64 + b.waiter.code * 16 + b.token.code * 4), b.chamberKey, b.custodyKey,
        byte (b.high * 16 + b.low)]
    ++ bytes16 b.epoch.toNat
    ++ [byte (causeCode b.cause * 16 + b.pendingCount), byte b.freeMinusReserved]
    ++ bytes24 b.serial.toNat

/-- The contents of a BEACON payload, or none where a field lies outside its range (R7, R33, R34). Of bytes 7 and 8 the whole
16-bit field is tested to lie below 16384, the two bits shown as 0 with it. Log entry 14. -/
def parseBeacon? (p : List Byte) : Option BeaconContents :=
  if p.length ≠ 14 then none else
  match Mode.ofCode? (field (byteAt p 0) 5 3), StopState.ofCode? (field (byteAt p 0) 3 2),
    Interval.ofCode? (field (byteAt p 0) 1 2), WaiterKind.ofCode? (field (byteAt p 3) 4 2),
    TokenState.ofCode? (field (byteAt p 3) 2 2) with
  | some m, some st, some iv, some w, some tk =>
    if (be16 p 1 ≤ 2000 ∨ be16 p 1 = 0xFFFF) ∧ field (byteAt p 6) 4 4 ≤ 12 ∧ field (byteAt p 6) 0 4 ≤ 12
        ∧ be16 p 7 < 16384 ∧ field (byteAt p 9) 4 4 ≤ 14 ∧ field (byteAt p 9) 0 4 ≤ 13 ∧ byteAt p 10 ≤ 96 then
      some { mode := m, stop := st, interval := iv, level := levelAt? p 1,
             holder := HolderKind.ofCode (field (byteAt p 3) 6 2), waiter := w, token := tk,
             chamberKey := keyAt p 4, custodyKey := keyAt p 5,
             high := field (byteAt p 6) 4 4, low := field (byteAt p 6) 0 4, epoch := BitVec.ofNat 14 (be16 p 7),
             cause := Cause.ofCode? (field (byteAt p 9) 4 4), pendingCount := field (byteAt p 9) 0 4,
             freeMinusReserved := byteAt p 10, serial := BitVec.ofNat 24 (be24 p 11) }
    else none
  | _, _, _, _, _ => none

/-! ### The range tests of R7 -/

/-- A request's tag lies in 1 to 15 (R7). -/
def tagOk (p : List Byte) : Bool := decide (1 ≤ byteAt p 0) && decide (byteAt p 0 ≤ 15)

/-- A level field that may not be unknown (12.2, R7). -/
def levelOk (p : List Byte) (i : Nat) : Bool := decide (be16 p i ≤ 2000)

/-- A level field that may be unknown: BEACON and STATUS_REPLY alone (12.2). -/
def levelOrUnknownOk (p : List Byte) (i : Nat) : Bool := decide (be16 p i ≤ 2000) || decide (be16 p i = 0xFFFF)

/-- The fields of a REC_SEG (12.2). -/
def recSegOk (p : List Byte) : Bool :=
  decide (3 ≤ p.length) && decide (1 ≤ field (byteAt p 1) 4 2) && decide (byteAt p 2 ≤ 23) &&
  match field (byteAt p 1) 6 2 with
  | 0 => decide (p.length = 7) && decide (1 ≤ field (byteAt p 6) 4 4) && decide (field (byteAt p 6) 4 4 ≤ 8)
      && decide (1 ≤ field (byteAt p 6) 2 2)
  | 1 => decide (p.length = 11) && decide (be16 p 7 < 1440) && decide (byteAt p 10 ≤ 20)
  | 2 => decide (p.length = 5)
  | _ => decide (p.length = 6)

/-- The fields of a STATUS_REPLY (12.2, R38). -/
def statusReplyOk (p : List Byte) : Bool :=
  decide (p.length = 15) && (Mode.ofCode? (field (byteAt p 1) 5 3)).isSome
    && (Mode.ofCode? (field (byteAt p 1) 2 3)).isSome && (StopState.ofCode? (field (byteAt p 1) 0 2)).isSome
    && (WaiterKind.ofCode? (field (byteAt p 2) 1 2)).isSome && levelOrUnknownOk p 3 && levelOrUnknownOk p 5
    && decide (byteAt p 7 ≤ 96) && decide (byteAt p 8 ≤ 96) && decide (field (byteAt p 9) 4 4 ≤ 12)
    && decide (field (byteAt p 9) 0 4 ≤ 12) && (TokenState.ofCode? (field (byteAt p 10) 6 2)).isSome
    && decide (field (byteAt p 12) 4 4 ≤ 14) && decide (field (byteAt p 12) 0 4 ≤ 13) && decide (byteAt p 14 ≤ 8)

/-- Test 4 of R5: the payload length and every field whose range the kind's layout fixes (R7, 12.1, 12.2).
Log entry 14. -/
def fieldsOk (k : Kind) (p : List Byte) : Bool :=
  match k with
  | .beacon => (parseBeacon? p).isSome
  | .widen => decide (p.length = 2)
  | .refuse => decide (p.length = 3) && decide (1 ≤ byteAt p 0) && decide (byteAt p 0 ≤ 6)
  | .echo => decide (1 ≤ p.length) && decide (p.length ≤ 16) && tagOk p
  | .echoBack => decide (1 ≤ p.length) && decide (p.length ≤ 16)
  | .statusAsk => decide (p.length = 1) && tagOk p
  | .statusReply => statusReplyOk p
  | .claimAsk => decide (p.length = 4) && tagOk p && decide (byteAt p 1 ≤ 2) && decide (byteAt p 2 ≤ 18)
  | .claimGive => decide (p.length = 3) && levelOk p 1
  | .claimWait => decide (p.length = 1)
  | .claimDeny => decide (p.length = 2) && decide (1 ≤ byteAt p 1) && decide (byteAt p 1 ≤ 4)
  | .claimDrop => decide (p.length = 3)
  | .levelFeed => decide (p.length = 3) && levelOk p 1
  | .alarmClose => decide (p.length = 0)
  | .crossAsk => decide (p.length = 4) && tagOk p && decide (1 ≤ byteAt p 2) && decide (byteAt p 2 ≤ 3)
      && decide (byteAt p 3 ≤ 18)
  | .crossTaken => decide (p.length = 1)
  | .crossDeny => decide (p.length = 2)
      && (decide (byteAt p 1 = 1) || decide (byteAt p 1 = 3) || decide (byteAt p 1 = 4))
  | .xferAsk => decide (p.length = 3) && tagOk p && decide (1 ≤ byteAt p 2) && decide (byteAt p 2 ≤ 3)
  | .recSeg => recSegOk p
  | .xferEnd | .xferBad | .exitNote => decide (p.length = 1)
  | .hold => decide (p.length = 1)
  | .tokenOffer => decide (p.length = 3) && tagOk p && decide (be16 p 1 < 16384)
  | .tokenTake | .tokenDecline => decide (p.length = 3) && decide (be16 p 1 < 16384)
  | .flightStop | .resume | .clear | .rest | .wake | .restart => decide (p.length = 0)
  | .faultNote => decide (p.length = 10) && (Cause.ofCode? (byteAt p 0)).isSome
      && (FaultLevel.ofCode? (field (byteAt p 1) 6 2)).isSome && decide (field (byteAt p 1) 4 2 ≤ 2)
  | .faultClear => decide (p.length = 1) && (Cause.ofCode? (byteAt p 0)).isSome
  | .time => decide (p.length = 4) && decide (be16 p 2 < 1440)
  | .vesselSet => decide (p.length = 8) && decide (1 ≤ byteAt p 7) && decide (byteAt p 7 ≤ 8)
  | .vesselDel => decide (p.length = 2)
  | .vesselQuery => decide (p.length = 3) && tagOk p
  | .vesselInfo => decide (p.length = 9) && decide (1 ≤ byteAt p 8) && decide (byteAt p 8 ≤ 8)
  | .rateSet => decide (p.length = 3)
  | .rateCommit => decide (p.length = 1) && decide (byteAt p 0 ≤ 8)
  | .tollReady => decide (p.length = 3) && decide (byteAt p 0 ≤ 8)
  | .tollEnd => decide (p.length = 5)
  | .tollRead => decide (p.length = 1) && tagOk p
  | .tollRemove => decide (p.length = 2)
  | .logFull => decide (p.length = 3) && decide (1 ≤ byteAt p 0) && decide (byteAt p 0 ≤ 3)

/-! ### Call records (12.2, R121, R197) -/

/-- A call record's 9 bytes: kind, registration, length class or result, position, check (12.2). -/
def callRecordBytes (kind : Nat) (registration : BitVec 32) (b5 b6 : Nat) : List Byte :=
  let body := [byte kind] ++ bytes32 registration.toNat ++ [byte b5, byte b6]
  body ++ bytes16 (crc16 body)

/-- The line check of R197: 9 bytes and an agreeing check over bytes 0 to 6. -/
def callLineCheck (bs : List Byte) : Bool :=
  decide (bs.length = 9) && decide (crc16 (bs.take 7) = be16 bs 7)

/-- A record that R121 reads: the line check passes, the kind is CALL or CANCEL, and the length class is 1 to 8. -/
def callRecordReadable (bs : List Byte) : Bool :=
  callLineCheck bs && (decide (byteAt bs 0 = 1) || decide (byteAt bs 0 = 2)) && decide (1 ≤ byteAt bs 5)
    && decide (byteAt bs 5 ≤ 8)

/-! ### The configuration record (R24, R25, 12.2) -/

/-- The configured values of a record that passed its checks (R26). Times are whole seconds. -/
structure Settings where
  flight : Nat
  serial : BitVec 24
  capacity : Nat
  tolerance : Nat
  overflow : Nat
  floor : Nat
  gateLimit : Nat
  sluiceLimit : Nat
  equalizeLimit : Nat
  claimWait : Nat
  wakeSettle : Nat
  entryLimit : Nat
  deferral : Nat
  ratio : Ratio
  quota : Nat
  recoveryDelay : Nat
  agePeriod : Nat
  defaultGroup : Nat
  assistFee : Nat
  band1 : Nat
  band2 : Nat
  band3 : Nat
  rates : Vector (BitVec 16) 32
  delegation : BitVec 32
  deriving DecidableEq, Repr

/-- The settings a record's bytes hold (12.2). -/
def settingsOf (p : List Byte) : Settings :=
  { flight := byteAt p 1, serial := BitVec.ofNat 24 (be24 p 2), capacity := byteAt p 5, tolerance := byteAt p 6,
    overflow := be16 p 7, floor := be16 p 9, gateLimit := be16 p 11, sluiceLimit := be16 p 13,
    equalizeLimit := be16 p 15, claimWait := be16 p 17, wakeSettle := byteAt p 19, entryLimit := be16 p 20,
    deferral := byteAt p 22, ratio := (Ratio.ofCode? (byteAt p 23)).getD .strict, quota := byteAt p 24,
    recoveryDelay := be16 p 25, agePeriod := byteAt p 27, defaultGroup := byteAt p 28, assistFee := be16 p 29,
    band1 := be16 p 31, band2 := be16 p 33, band3 := be16 p 35,
    rates := Vector.ofFn (fun i => BitVec.ofNat 16 (be16 p (37 + 2 * i.val))),
    delegation := BitVec.ofNat 32 (be32 p 102) }

/-- The range tests of check 4 of R25, each with the position of its field in the order of R24. -/
def fieldTests (p : List Byte) : List (Nat × Bool) :=
  let c := settingsOf p
  [(4, decide (4 ≤ c.capacity ∧ c.capacity ≤ 12)),
   (5, decide (1 ≤ c.tolerance ∧ c.tolerance ≤ 20)),
   (6, decide (c.overflow ≤ 2000)),
   (7, decide (c.floor ≤ 2000 ∧ c.floor < c.overflow)),
   (8, decide (30 ≤ c.gateLimit ∧ c.gateLimit ≤ 600)),
   (9, decide (10 ≤ c.sluiceLimit ∧ c.sluiceLimit ≤ 300)),
   (10, decide (60 ≤ c.equalizeLimit ∧ c.equalizeLimit ≤ 1800)),
   (11, decide (10 ≤ c.claimWait ∧ c.claimWait ≤ 600)),
   (12, decide (5 ≤ c.wakeSettle ∧ c.wakeSettle ≤ 60)),
   (13, decide (120 ≤ c.entryLimit ∧ c.entryLimit ≤ 900)),
   (14, decide (2 ≤ c.deferral ∧ c.deferral ≤ 15)),
   (15, (Ratio.ofCode? (byteAt p 23)).isSome),
   (16, decide (1 ≤ c.quota ∧ c.quota ≤ 8)),
   (17, decide (30 ≤ c.recoveryDelay ∧ c.recoveryDelay ≤ 600)),
   (18, decide (1 ≤ c.agePeriod ∧ c.agePeriod ≤ 48)),
   (19, decide (c.defaultGroup ≤ 7)),
   (21, decide (c.band1 < 1440)),
   (22, decide (c.band2 < 1440 ∧ c.band1 < c.band2)),
   (23, decide (c.band3 < 1440 ∧ c.band2 < c.band3))]

/-- The outcome of the checks of R25. -/
inductive RecordVerdict where
  | passed (settings : Settings)
  | failed (reason : Nat) (fieldPos : Nat) (serial : Option (BitVec 24))
  deriving DecidableEq, Repr

/-- The checks of R25 in order: read whole, CRC, format, size, ranges. Reasons are coded as R27 gives: NO_RECORD 1,
CHECK 2, FORMAT 3, SIZE 4, FIELD 5. A record that passes the CRC gives a known serial. -/
def checkRecord (strap : BitVec 4) (p : List Byte) : RecordVerdict :=
  if p.length < 108 then .failed 1 0 none
  else if crc16 (p.take 106) ≠ be16 p 106 then .failed 2 0 none
  else
    let c := settingsOf p
    if byteAt p 0 ≠ 1 then .failed 3 1 (some c.serial)
    else if ¬ (2 ≤ c.flight ∧ c.flight ≤ 16 ∧ strap.toNat < c.flight) then .failed 4 2 (some c.serial)
    else match (fieldTests p).find? (fun t => !t.2) with
      | some t => .failed 5 t.1 (some c.serial)
      | none => .passed c

end Sys2Proof.Machine
end

