-- ==== Sys2Proof/Machine/State.lean ====
section
/-! DEFINITION. The state of the station: everything the spec gives it, block by block, as plain data; the outcomes'
reasons; and the state right after reset. -/

namespace Sys2Proof.Machine
open Sys2Proof

/-- Why a command stops the station with a fault. No constructor: the spec gives every row of its table an effect, and
the station's own faults (chapter 11) are state. -/
inductive Fault where
  deriving DecidableEq, Repr

/-- Why a command has no meaning. -/
inductive Refusal where
  /-- Raised by exec for a command whose meaning is not written yet; safe, since nothing can be proved of its effect. No arm of exec raises it. -/
  | notModelled (mnemonic : String)
  deriving DecidableEq, Repr

/-! ### Pins and Start Loader -/

/-- The two end switches of an element (5.1). -/
structure Switches where
  closed : Bool
  opened : Bool
  deriving DecidableEq, Repr

/-- The inputs read by level: panel (R50, R45) and end switches (R80). -/
structure Pins where
  key : KeyPos
  selector : UnitId
  stopButton : Bool
  switches : Vector Switches 4
  deriving DecidableEq, Repr

/-- The last good placing (R26): strap address and flight size. -/
structure Placing where
  strap : BitVec 4
  flight : Nat
  deriving DecidableEq, Repr

/-- The Start Loader (R22 to R31, R39). -/
structure Loader where
  strap : BitVec 4
  sampled : Bool
  settings : Option Settings
  placing : Option Placing
  serial : Option (BitVec 24)
  fromRestart : Bool
  deriving DecidableEq, Repr

/-! ### Link Controller -/

/-- What an offered frame carries. The contents of a BEACON, a STATUS_REPLY and a TOLL_READY are taken when the frame is
placed in the transmit queue (R33, R38, R179). -/
inductive Body where
  | bytes (payload : List Byte)
  | beacon
  | statusReply (tag : Nat)
  | tollReady
  deriving DecidableEq, Repr

/-- A frame offered to the Link Controller (R10, R11). `upper` is the upper half of a widenable field that is not zero
(R17); `tag` the tag of a request, the tag a CLAIM_DROP frees or cancels (R73, R74), or the number of the stream a REC_SEG or
TOLL_END belongs to (R159, R181), else 0; `cancels` marks a CLAIM_DROP whose tag is cancelled (R73); `again` a frame that
has been offered once more (R45, R180, R190). -/
structure Offer where
  block : Block
  kind : Kind
  dst : Addr
  body : Body
  upper : Option (BitVec 16)
  tag : Nat
  cancels : Bool
  again : Bool
  deriving DecidableEq, Repr

/-- A frame in the transmit queue (R10). `widenAge` is the time since its WIDEN was last sent, none while it has not
been sent; `widenDue` says that the WIDEN is to be sent before the frame's next attempt (R17). -/
structure TxFrame where
  id : Nat
  block : Block
  kind : Kind
  dst : Addr
  payload : List Byte
  upper : Option (BitVec 16)
  widenAge : Option Span
  widenDue : Bool
  tag : Nat
  cancels : Bool
  again : Bool
  deriving DecidableEq, Repr

/-- A request that waits for a pending-reply entry (R18). `body` is its payload after the tag byte; `key` the batch key
of an XFER_ASK (R19). -/
structure Request where
  block : Block
  kind : Kind
  dst : Addr
  body : List Byte
  upper : Option (BitVec 16)
  key : BatchKey
  deriving DecidableEq, Repr

/-- What a block keeps back, in its own order, while it has a waiting offer (R11): a frame, or a request that has no entry
yet (R18). -/
inductive Held where
  | frame (o : Offer)
  | ask (r : Request)
  deriving DecidableEq, Repr

/-- An entry of the pending-reply table (R18). `upper` and `body` keep what a VESSEL_QUERY asked for (R125). -/
structure ReplyEntry where
  tag : Nat
  block : Block
  kind : Kind
  peer : Addr
  deadline : Timer
  key : BatchKey
  body : List Byte
  upper : Option (BitVec 16)
  deriving DecidableEq, Repr

/-- A widen slot (R15). -/
inductive WidenSlot where
  | empty
  | pending (upper : BitVec 16) (age : Span) (passes : Nat)
  deriving DecidableEq, Repr

/-- A running 100 ms hold of R17. -/
structure WidenHold where
  dst : Addr
  left : Span
  deriving DecidableEq, Repr

/-- The Link Controller (chapter 1). `onLine` says that the head frame is on the line (R12), and `lineWiden` that it is
the WIDEN of its pair that is on the line (R17). `waiting` holds the waiting offers and `backlog` what their blocks keep back
(R11); `requests` waits for entries (R18). `nextId` and `nextStream` are the model's own numbers for queued frames and for
streams of segments. -/
structure Link where
  txq : List TxFrame
  nextId : Nat
  nextStream : Nat
  headId : Option Nat
  onLine : Bool
  lineWiden : Bool
  attempts : Nat
  backoff : Timer
  waiting : List Offer
  backlog : List Held
  requests : List Request
  entries : List ReplyEntry
  lastTag : Nat
  widenSlots : Vector WidenSlot 17
  holds : List WidenHold
  deriving DecidableEq, Repr

/-! ### Presence Monitor -/

/-- Presence of a party (2.4). -/
inductive PeerState where
  | absent | present | lost
  deriving DecidableEq, Repr

/-- A station entry of the peer table (R34, R35, R191). -/
structure Peer where
  presence : PeerState
  interval : Option Interval
  since : Span
  contents : Option BeaconContents
  faulted : Bool
  deriving DecidableEq, Repr

/-- The Presence Monitor (chapter 2). -/
structure Presence where
  peers : Vector Peer 16
  desk : PeerState
  deskSince : Span
  clash : Bool
  calmTimer : Timer
  beaconTimer : Timer
  interval : Interval
  deriving DecidableEq, Repr

/-! ### Mode Control -/

/-- How far the claims of local working have come while PENDING (R51). -/
inductive LocalPhase where
  | idle | crossings | own | lower
  deriving DecidableEq, Repr

/-- Mode Control (chapter 3). -/
structure Control where
  mode : Mode
  stop : StopState
  latch : Bool
  resumeTimer : Timer
  wakeTimer : Timer
  pumpReady : Bool
  wakeSource : WakeSource
  localState : LocalState
  localUnit : UnitId
  localPhase : LocalPhase
  notedKey : BatchKey
  deriving DecidableEq, Repr

/-! ### Chamber Unit -/

/-- A level (R57, R58): a value that is VALID or UNKNOWN, the last valid value, and its two timers. -/
structure Level where
  valid : Bool
  value : Nat
  lastValid : Nat
  staleTimer : Timer
  lossTimer : Timer
  deriving DecidableEq, Repr

/-- The alarm state (R59). -/
inductive AlarmState where
  | normal | high | low
  deriving DecidableEq, Repr

/-- The details of a claim from the station above (R63). -/
structure UpperClaim where
  tag : Nat
  purpose : Purpose
  key : BatchKey
  need : Nat
  deriving DecidableEq, Repr

/-- The details of a claim of the station's own boundary units (R63). -/
structure SelfClaim where
  claimant : UnitId
  purpose : Purpose
  key : BatchKey
  deriving DecidableEq, Repr

/-- The holder of the claim register (R63). -/
inductive Holder where
  | free
  | self (c : SelfClaim)
  | upper (c : UpperClaim)
  | orphaned (c : UpperClaim)
  deriving DecidableEq, Repr

/-- The waiter of the claim register (R63). -/
inductive Waiter where
  | none
  | self (c : SelfClaim)
  | upper (c : UpperClaim)
  deriving DecidableEq, Repr

/-- The lower claim's states (4.4). -/
inductive LowerState where
  | none | deferred | asked | waiting | held
  deriving DecidableEq, Repr

/-- The lower claim (R70). The tag is 0 until the Link Controller has chosen one. -/
structure LowerClaim where
  state : LowerState
  tag : Nat
  purpose : Purpose
  key : BatchKey
  need : Nat
  timer : Timer
  heldFor : Span
  deriving DecidableEq, Repr

/-- The fed level (R76). -/
structure FedLevel where
  value : Nat
  age : Span
  fresh : Bool
  deriving DecidableEq, Repr

/-- A cancelled tag with its 2 s, which run from the sending of the drop (R73). -/
structure CancelledTag where
  tag : Nat
  left : Timer
  deriving DecidableEq, Repr

/-- The Chamber Unit (chapter 4). -/
structure Chamber where
  level : Level
  outer : Level
  alarm : AlarmState
  occupancy : Occupancy
  key : BatchKey
  holder : Holder
  waiter : Waiter
  selfTimer : Timer
  lower : LowerClaim
  fed : Option FedLevel
  cancelled : List CancelledTag
  feedTimer : Timer
  lastFed : Nat
  deriving DecidableEq, Repr

/-! ### Drive Arbiter -/

/-- Element states (R79); `unheld` while the states are not held (R80, R99). -/
inductive ElementState where
  | unheld | closed | opening | opened | closing | halted | failed
  deriving DecidableEq, Repr

/-- Motion sources (5.3). -/
inductive Source where
  | safety | panel | seqHead | seqLower
  deriving DecidableEq, Repr

/-- Where a motion stands (R85, R93). -/
inductive Phase where
  | pending | running | frozen | stacked
  deriving DecidableEq, Repr

/-- The motion of a request slot (R84, R85). -/
structure Motion where
  element : Element
  target : Target
  phase : Phase
  allowance : Span
  deriving DecidableEq, Repr

/-- Classes of the safety close set (5.6). -/
inductive SafetyClass where
  | lower | head | remote
  deriving DecidableEq, Repr

/-- The Drive Arbiter (chapter 5): element states, the four request slots by source, the motion stack (top first) and
the safety close set in class order. -/
structure Drive where
  elements : Vector ElementState 4
  slots : Vector (Option Motion) 4
  stack : List Source
  safetySet : List SafetyClass
  deriving DecidableEq, Repr

/-- How a motion ended, or what a request was answered at once (R85, R86). -/
inductive MotionNotice where
  | complete | timedOut | failed | cancelled | noClaim | withdrawn | busy
  deriving DecidableEq, Repr

/-! ### Boundary units -/

/-- Kinds of crossing (6.1). -/
inductive CrossKind where
  | entry | inner | exit
  deriving DecidableEq, Repr

/-- Who asked for a crossing (R100). -/
inductive Requester where
  | approach
  | ownChamber
  | lowerStation (tag : Nat)
  deriving DecidableEq, Repr

/-- A crossing held in a slot (R100). `requeued` says that it has been begun before, and stands or stood WAITING again (R119,
R133). -/
structure Crossing where
  kind : CrossKind
  direction : Direction
  key : BatchKey
  vessels : Nat
  need : Nat
  requester : Requester
  mark : Nat
  requeued : Bool
  deriving DecidableEq, Repr

/-- A crossing slot (R100). -/
inductive CrossSlot where
  | empty
  | waiting (c : Crossing)
  | active (c : Crossing)
  deriving DecidableEq, Repr

/-- The hold of an active crossing apart from FROZEN (R100). -/
inductive Hold where
  | none | alarmWait | recoveryWait
  deriving DecidableEq, Repr

/-- A boundary unit (chapter 6). The hold FROZEN is `frozenHeld` (R116) or `frozenPeer` (R117), with the hold
remembered beneath it. -/
structure BoundaryUnit where
  below : CrossSlot
  above : CrossSlot
  nextMark : Nat
  step : Option Step
  hold : Hold
  frozenHeld : Bool
  frozenPeer : Bool
  atClaimStart : Bool
  busyOwn : Bool
  waitPeer : Bool
  reclaim : Bool
  agreed : Bool
  logWait : Bool
  mismatch : Bool
  wanted : Option (Element × Target)
  recovery : Option Element
  recoveryRunning : Bool
  count : Nat
  equalizeTimer : Timer
  entryTimer : Timer
  retryTimer : Timer
  deriving DecidableEq, Repr

/-- The onward request (R102). -/
inductive OnwardState where
  | unasked
  | asking (tag : Nat)
  | taken
  | placed
  deriving DecidableEq, Repr

/-- The onward request with its timers (R102). -/
structure Onward where
  state : OnwardState
  retryTimer : Timer
  repeatTimer : Timer
  repeatDue : Bool
  deriving DecidableEq, Repr

/-! ### Approach Unit and token -/

/-- An entry of the approach queue (7.2). -/
structure QueueEntry where
  registration : BitVec 32
  ready : Bool
  cls : VClass
  group : Nat
  account : BitVec 32
  lengthClass : Nat
  deferral : Nat
  order : Nat
  defaultGroup : Bool
  resolution : Timer
  deriving DecidableEq, Repr

/-- A member's state (7.4). -/
inductive MemberState where
  | admitted | entered | noShow
  deriving DecidableEq, Repr

/-- A member of the batch in admission; its queue entry as it stood at forming is kept for a return (R133). -/
structure Member where
  entry : QueueEntry
  state : MemberState
  deriving DecidableEq, Repr

/-- The batch in admission (7.4). -/
structure Batch where
  key : BatchKey
  members : List Member
  deriving DecidableEq, Repr

/-- A hold entry (R135): the remaining time, running while the entry is active, and the renewal count. -/
structure HoldEntry where
  left : Timer
  renewals : Nat
  deriving DecidableEq, Repr

/-- Results of an answer record (7.1). -/
inductive CallResult where
  | accepted | queueFull | duplicate | barred | notQueued | closed
  deriving DecidableEq, Repr

/-- An answer record (R121, R197). -/
structure Answer where
  registration : BitVec 32
  result : CallResult
  position : Nat
  deriving DecidableEq, Repr

/-- The Approach Unit (chapter 7). -/
structure Approach where
  queue : List QueueEntry
  nextOrder : Nat
  batch : Option Batch
  service : Nat
  counter : Nat
  holds : Vector HoldEntry 17
  answers : List Answer
  deriving DecidableEq, Repr

/-- A key of the in-flight list with its miss count (R140). -/
structure InFlight where
  key : BatchKey
  misses : Nat
  deriving DecidableEq, Repr

/-- The recovery timer (R149): stopped, running, or run out with its conditions still holding. -/
inductive RecoveryTimer where
  | stopped
  | running (left : Span)
  | ranOut
  deriving DecidableEq, Repr

/-- The token record (R140). -/
structure Token where
  state : TokenState
  epoch : BitVec 14
  turns : Nat
  inFlight : List InFlight
  offer : Option (BitVec 14)
  clashMark : Bool
  sweepTimer : Timer
  recovery : RecoveryTimer
  deriving DecidableEq, Repr

/-! ### Record Store -/

/-- A line of a passage record (9.2). -/
structure Line where
  kind : LineKind
  chamber : Nat
  band : Nat
  amount : BitVec 32
  deriving DecidableEq, Repr

/-- A passage record (9.2) with its page chain (R154). `logNumber` and `total` are set at closing (R178). -/
structure Record where
  key : BatchKey
  position : Nat
  state : RecState
  registration : BitVec 32
  cls : VClass
  group : Nat
  account : BitVec 32
  lengthClass : Nat
  entryDay : BitVec 16
  entryMinute : Nat
  timeUnknown : Bool
  defaultGroup : Bool
  truncated : Bool
  assisted : Bool
  carry : BitVec 32
  lines : List Line
  pages : List Nat
  logNumber : Nat
  total : BitVec 32
  deriving DecidableEq, Repr

/-- An entry of the reservation list (R153). -/
structure Reservation where
  key : BatchKey
  promise : Nat
  deriving DecidableEq, Repr

/-- An owed-assist count (R158). -/
structure Owed where
  key : BatchKey
  count : Nat
  deriving DecidableEq, Repr

/-- A segment of a stream: its payload and the upper half of its widenable field. -/
structure Segment where
  payload : List Byte
  upper : Option (BitVec 16)
  deriving DecidableEq, Repr

/-- The outbound stream of a transfer (R159, R160): its number, and its segments not yet offered. -/
structure Stream where
  number : Nat
  key : BatchKey
  dst : Addr
  attempt : Nat
  segments : List Segment
  deriving DecidableEq, Repr

/-- States of the inbound transfer (R161). -/
inductive InboundState where
  | none | paused | asking | streaming | failed
  deriving DecidableEq, Repr

/-- The inbound transfer (R161, R162): `position` and `index` of the next segment expected, the number of records in
the batch, and of the record under way its announced line count and whether a CARRY follows. -/
structure Inbound where
  state : InboundState
  key : BatchKey
  sender : Addr
  attempt : Nat
  position : Nat
  index : Nat
  records : Nat
  lineCount : Nat
  carryFollows : Bool
  deriving DecidableEq, Repr

/-- A hand-in (R161): a batch whose records are owed, and the neighbour it came from. -/
structure HandIn where
  key : BatchKey
  sender : Addr
  deriving DecidableEq, Repr

/-- The Record Store (chapter 9). -/
structure Store where
  free : List Nat
  records : List Record
  reservations : List Reservation
  owed : List Owed
  custody : BatchKey
  stream : Option Stream
  inbound : Inbound
  handIns : List HandIn
  gapTimer : Timer
  attemptWait : Timer
  low : Bool
  lowTimer : Timer
  deriving DecidableEq, Repr

/-! ### Vessel Table, Tariff Unit, Toll Log -/

/-- An entry of the Vessel Table (10.1). `lastSeen` is a day and a minute, or unknown. -/
structure Vessel where
  registration : BitVec 32
  cls : VClass
  group : Nat
  account : BitVec 32
  lengthClass : Nat
  barred : Bool
  static : Bool
  lastSeen : Option (BitVec 16 × Nat)
  deriving DecidableEq, Repr

/-- The Vessel Table (R167): 256 home slots and 16 overflow entries. -/
structure VesselTable where
  home : Vector (Option Vessel) 256
  overflow : Vector (Option Vessel) 16
  deriving DecidableEq, Repr

/-- The Tariff Unit (R173, R175). Entry 4g + b of a rate table is group g, band b. -/
structure Tariff where
  day : BitVec 16
  minute : Nat
  known : Bool
  minuteTimer : Timer
  staged : Vector (BitVec 16) 32
  active : Vector (BitVec 16) 32
  deriving DecidableEq, Repr

/-- The read stream (R181): its number, what its TOLL_END carries, and its segments not yet offered. It lasts until its
TOLL_END is placed. -/
structure ReadStream where
  number : Nat
  tag : Nat
  logNumber : Nat
  total : BitVec 32
  segments : List Segment
  deriving DecidableEq, Repr

/-- The Toll Log (R177); its closed records are the CLOSED records of the Record Store, oldest first. -/
structure Toll where
  next : Nat
  stream : Option ReadStream
  deriving DecidableEq, Repr

/-! ### Fault Unit -/

/-- A place (R184): a batch key, and for a boundary's crossing the boundary and the step. -/
structure Place where
  key : BatchKey
  bound : Bound
  step : Option Step
  deriving DecidableEq, Repr

/-- The fault record (11.3). -/
structure FaultRecord where
  cause : Cause
  level : FaultLevel
  bound : Bound
  value1 : BitVec 32
  value2 : BitVec 32
  step : Option Step
  prior : Mode
  valuesLost : Bool
  deriving DecidableEq, Repr

/-- A pending cause with its level (R188). -/
structure PendingCause where
  cause : Cause
  level : FaultLevel
  deriving DecidableEq, Repr

/-- A repeat mark (R186). -/
structure RepeatMark where
  cause : Cause
  place : Place
  deriving DecidableEq, Repr

/-- A recovery under way (R187): its place, the element it closes, or the peer it waits for. -/
structure Recovery where
  cause : Cause
  place : Option Place
  element : Option Element
  peer : Nat
  deriving DecidableEq, Repr

/-- The Fault Unit (chapter 11). -/
structure FaultUnit where
  record : Option FaultRecord
  pendingSet : List PendingCause
  marks : List RepeatMark
  recoveries : List Recovery
  deriving DecidableEq, Repr

/-! ### Notices between the blocks -/

/-- What a unit is told about the own chamber claim (R64). -/
inductive OwnNotice where
  | held | waiting | busy | timedOut
  deriving DecidableEq, Repr

/-- What the lower unit is told about the lower claim (R70, R71, R72, R77). -/
inductive LowerNotice where
  | held | waiting
  | denied (reason : DenyReason)
  | refused (reason : Reason)
  | notSent | noReply | peerLost | timedOut | claimLost | busy
  deriving DecidableEq, Repr

/-- What one block tells another inside a step. Log entry 3. -/
inductive Notice where
  | modeChanged (old new : Mode)
  | stopChanged (old new : StopState)
  | raise (cause : Cause) (value1 value2 : BitVec 32) (bound : Bound)
  | takePending
  | elementClosed (element : Element)
  | transitRecovered (unit : UnitId)
  | requeue (unit : UnitId)
  | stepDone (unit : UnitId) (key : BatchKey) (step : Step)
  | grantDecision
  | motion (source : Source) (element : Element) (target : Target) (notice : MotionNotice) (atOnce : Bool)
  | alarmWaitTest
  | peerPresent (station : Fin 16)
  | peerLost (station : Fin 16)
  | beaconTaken (station : Fin 16)
  | markSet (station : Fin 16)
  | markCleared (station : Fin 16)
  | deskPresent
  | deskLost
  | holderFree
  | ownClaim (unit : UnitId) (purpose : Purpose) (notice : OwnNotice)
  | lowerClaim (purpose : Purpose) (notice : LowerNotice)
  | levelsChanged
  | occupancyChanged
  | localClaims
  | localResume
  | beginCrossing (unit : UnitId)
  | enterStep (unit : UnitId)
  | logWaitTest
  | slotFree (unit : UnitId)
  | onwardTest
  | admissionTest
  | entryEnded (key : BatchKey)
  | pagesChanged
  | handIn (key : BatchKey) (sender : Addr)
  | transferDone (key : BatchKey)
  | streamNext
  | readNext
  | notSent (f : Offer)
  | requestRefused (e : ReplyEntry) (reason : Reason)
  | noReply (e : ReplyEntry)
  deriving DecidableEq, Repr

/-! ### The whole state -/

/-- The station. -/
structure State where
  pending : List Instr
  notices : List Notice
  draws : Nat
  pins : Pins
  loader : Loader
  link : Link
  presence : Presence
  ctl : Control
  chamber : Chamber
  drive : Drive
  lowerUnit : BoundaryUnit
  headUnit : BoundaryUnit
  onward : Onward
  approach : Approach
  token : Token
  store : Store
  vessels : VesselTable
  tariff : Tariff
  toll : Toll
  fault : FaultUnit
  flasherOn : Bool
  flasherTimer : Timer
  deriving DecidableEq, Repr

/-! ### The START state of each block -/

/-- Input pins at reset: DESIGN CHOICE, log entry 6. -/
def Pins.initial : Pins :=
  { key := .auto, selector := .lower, stopButton := false, switches := Vector.replicate 4 ⟨false, false⟩ }

/-- The Start Loader after START (R22, R39). -/
def Loader.initial : Loader :=
  { strap := 0, sampled := false, settings := none, placing := none, serial := none, fromRestart := false }

/-- The Link Controller after START and RESTART (R21). The model's own frame number starts at 0 and its stream number at 1:
DESIGN CHOICE, log entry 30. -/
def Link.initial : Link :=
  { txq := [], nextId := 0, nextStream := 1, headId := none, onLine := false, lineWiden := false, attempts := 0,
    backoff := none, waiting := [], backlog := [], requests := [], entries := [], lastTag := 0,
    widenSlots := Vector.replicate 17 .empty, holds := [] }

/-- An ABSENT entry of the peer table (R39). -/
def Peer.initial : Peer := { presence := .absent, interval := none, since := 0, contents := none, faulted := false }

/-- The Presence Monitor after START and RESTART (R39). -/
def Presence.initial : Presence :=
  { peers := Vector.replicate 16 Peer.initial, desk := .absent, deskSince := 0, clash := false, calmTimer := none,
    beaconTimer := none, interval := .normal }

/-- Mode Control after START (R56). -/
def Control.initial : Control :=
  { mode := .loading, stop := .stopClear, latch := false, resumeTimer := none, wakeTimer := none, pumpReady := false,
    wakeSource := .start, localState := .auto, localUnit := .lower, localPhase := .idle, notedKey := 0 }

/-- A level after START and RESTART: UNKNOWN, its timers not yet started (R78). -/
def Level.initial : Level := { valid := false, value := 0, lastValid := 0, staleTimer := none, lossTimer := none }

/-- The lower claim NONE (R78). -/
def LowerClaim.initial : LowerClaim :=
  { state := .none, tag := 0, purpose := .gateUp, key := 0, need := 0, timer := none, heldFor := 0 }

/-- The Chamber Unit after START (R78). -/
def Chamber.initial : Chamber :=
  { level := Level.initial, outer := Level.initial, alarm := .normal, occupancy := .empty, key := 0, holder := .free,
    waiter := .none, selfTimer := none, lower := LowerClaim.initial, fed := none, cancelled := [], feedTimer := none,
    lastFed := 0 }

/-- The Drive Arbiter after START and RESTART (R99). -/
def Drive.initial : Drive :=
  { elements := Vector.replicate 4 .unheld, slots := Vector.replicate 4 none, stack := [], safetySet := [] }

/-- A boundary unit after START and RESTART (R120). -/
def BoundaryUnit.initial : BoundaryUnit :=
  { below := .empty, above := .empty, nextMark := 0, step := none, hold := .none, frozenHeld := false,
    frozenPeer := false, atClaimStart := false, busyOwn := false, waitPeer := false, reclaim := false, agreed := false,
    logWait := false, mismatch := false, wanted := none, recovery := none, recoveryRunning := false, count := 0,
    equalizeTimer := none, entryTimer := none, retryTimer := none }

/-- The onward request after START and RESTART (R120). -/
def Onward.initial : Onward := { state := .unasked, retryTimer := none, repeatTimer := none, repeatDue := false }

/-- The Approach Unit after START (R138). -/
def Approach.initial : Approach :=
  { queue := [], nextOrder := 0, batch := none, service := 0, counter := 1, holds := Vector.replicate 17 ⟨none, 0⟩,
    answers := [] }

/-- The token record before its state is taken at the end of LOADING (R142); log entry 30. -/
def Token.initial : Token :=
  { state := .absent, epoch := 0, turns := 0, inFlight := [], offer := none, clashMark := false, sweepTimer := none,
    recovery := .stopped }

/-- The inbound transfer NONE (R166). -/
def Inbound.initial : Inbound :=
  { state := .none, key := 0, sender := 0, attempt := 0, position := 1, index := 0, records := 0, lineCount := 0,
    carryFollows := false }

/-- The Record Store after START (R166). -/
def Store.initial : Store :=
  { free := List.range 96, records := [], reservations := [], owed := [], custody := 0, stream := none,
    inbound := Inbound.initial, handIns := [], gapTimer := none, attemptWait := none, low := false, lowTimer := none }

/-- The Vessel Table after START (R183). -/
def VesselTable.initial : VesselTable :=
  { home := Vector.replicate 256 none, overflow := Vector.replicate 16 none }

/-- The Tariff Unit after START, before its rates are loaded (R183); log entry 30. -/
def Tariff.initial : Tariff :=
  { day := 0, minute := 0, known := false, minuteTimer := none, staged := Vector.replicate 32 0,
    active := Vector.replicate 32 0 }

/-- The Toll Log after START (R183). -/
def Toll.initial : Toll := { next := 1, stream := none }

/-- The Fault Unit after START and RESTART (R195). -/
def FaultUnit.initial : FaultUnit := { record := none, pendingSet := [], marks := [], recoveries := [] }

/-- The station right after reset: every block in its START state, the mode LOADING (R22). The flasher stands in its off half
until LOADING ends, when R198 starts it: DESIGN CHOICE, log entry 30. -/
def State.reset : State :=
  { pending := [], notices := [], draws := 0, pins := Pins.initial, loader := Loader.initial, link := Link.initial,
    presence := Presence.initial, ctl := Control.initial, chamber := Chamber.initial, drive := Drive.initial,
    lowerUnit := BoundaryUnit.initial, headUnit := BoundaryUnit.initial, onward := Onward.initial,
    approach := Approach.initial, token := Token.initial, store := Store.initial, vessels := VesselTable.initial,
    tariff := Tariff.initial, toll := Toll.initial, fault := FaultUnit.initial, flasherOn := false,
    flasherTimer := none }

end Sys2Proof.Machine
end

