-- ==== Sys2Proof/Machine/Ops.lean ====
section
/-! DEFINITION. The named operations over the state: who the station is, its entries and units, and the notices its
blocks hand one another. The spec gives the station no addressed memory. -/

namespace Sys2Proof.Machine
open Sys2Proof

/-! ### Notices -/

/-- Hand a notice to the block it is for; it is acted on before the command ends (log entry 3). -/
def State.emit (t : Notice) (s : State) : State := { s with notices := s.notices ++ [t] }

/-- Hand several notices, the first acted on first. -/
def State.emits (ts : List Notice) (s : State) : State := { s with notices := s.notices ++ ts }

/-- Do `f` when the condition holds, else nothing. -/
def State.doIf (c : Bool) (f : State → State) (s : State) : State := if c then f s else s

/-! ### The station and its neighbours (3.1, 3.2 of 00_scope.md) -/

/-- The strap address k. -/
def State.k (s : State) : Nat := s.loader.strap.toNat

/-- A record of zeros, read only where no settings are held; no rule reads a configured value there (R27). -/
def blankSettings : Settings :=
  { flight := 0, serial := 0, capacity := 0, tolerance := 0, overflow := 0, floor := 0, gateLimit := 0,
    sluiceLimit := 0, equalizeLimit := 0, claimWait := 0, wakeSettle := 0, entryLimit := 0, deferral := 0,
    ratio := .strict, quota := 0, recoveryDelay := 0, agePeriod := 0, defaultGroup := 0, assistFee := 0, band1 := 0,
    band2 := 0, band3 := 0, rates := Vector.replicate 32 0, delegation := 0 }

/-- The configured values (R26). -/
def State.cfg (s : State) : Settings := s.loader.settings.getD blankSettings

/-- The flight size n, 0 while it is not known (R4). -/
def State.n (s : State) : Nat := s.cfg.flight

/-- The blocks take part in the flight's work: the mode is neither LOADING nor UNCONFIGURED (R22, R28). -/
def State.works (s : State) : Bool := s.ctl.mode ≠ .loading && s.ctl.mode ≠ .unconfigured

/-- The foot station is station 0. -/
def State.isFoot (s : State) : Bool := s.k = 0

/-- The head station is station n-1. -/
def State.isHead (s : State) : Bool := s.k + 1 = s.n

/-- An end station is the foot or the head station. -/
def State.isEnd (s : State) : Bool := s.isFoot || s.isHead

/-- A station number as a link address (R1). -/
def stationAddr (i : Nat) : Addr := BitVec.ofNat 5 i

/-- This station's own link address (R1). -/
def State.ownAddr (s : State) : Addr := stationAddr s.k

/-- The other end of the flight (R140). -/
def State.otherEnd (s : State) : Nat := if s.isFoot then s.n - 1 else 0

/-- The address as an index of the peer table. -/
def peerIdx (i : Nat) : Fin 16 := ⟨i % 16, Nat.mod_lt _ (by decide)⟩

/-- The peer entry of station `i`; an address of 16 or more has none, and reads as ABSENT. -/
def State.peer (s : State) (i : Nat) : Peer :=
  if i < 16 then s.presence.peers[peerIdx i] else Peer.initial

/-- Station `i` is PRESENT in the peer table. -/
def State.isPresent (s : State) (i : Nat) : Bool := (s.peer i).presence = .present

/-- Station `i` carries a faulted mark (R191). -/
def State.isMarked (s : State) (i : Nat) : Bool := (s.peer i).faulted

/-- A stored beacon of a PRESENT station `i`. -/
def State.presentBeacon (s : State) (i : Nat) : Option BeaconContents :=
  if s.isPresent i then (s.peer i).contents else none

/-- The station has a station above it, k+1. -/
def State.hasUpper (s : State) : Bool := s.k + 1 < s.n

/-- The station has a station below it, k-1. -/
def State.hasLower (s : State) : Bool := 1 ≤ s.k

/-! ### Boundary units -/

/-- A boundary unit by name (R100). -/
def State.unit (s : State) : UnitId → BoundaryUnit
  | .lower => s.lowerUnit
  | .head => s.headUnit

/-- Change a boundary unit. -/
def State.modUnit (u : UnitId) (f : BoundaryUnit → BoundaryUnit) (s : State) : State :=
  match u with
  | .lower => { s with lowerUnit := f s.lowerUnit }
  | .head => { s with headUnit := f s.headUnit }

/-- The crossing of an ACTIVE slot. -/
def CrossSlot.active? : CrossSlot → Option Crossing
  | .active c => some c
  | _ => none

/-- The crossing of a WAITING slot. -/
def CrossSlot.waiting? : CrossSlot → Option Crossing
  | .waiting c => some c
  | _ => none

/-- The crossing a slot holds, WAITING or ACTIVE. -/
def CrossSlot.crossing? : CrossSlot → Option Crossing
  | .active c | .waiting c => some c
  | .empty => none

/-- The active crossing of a unit (R100). -/
def BoundaryUnit.active? (b : BoundaryUnit) : Option Crossing :=
  match b.below.active? with
  | some c => some c
  | none => b.above.active?

/-- A unit with no ACTIVE slot is IDLE (R100). -/
def BoundaryUnit.idle (b : BoundaryUnit) : Bool := b.active?.isNone

/-- The crossing is FROZEN (R116, R117). -/
def BoundaryUnit.frozen (b : BoundaryUnit) : Bool := b.frozenHeld || b.frozenPeer

/-- The active crossing has hold NONE: it may request and test (R100). -/
def BoundaryUnit.free (b : BoundaryUnit) : Bool := !b.frozen && b.hold = .none

/-- The unit's active crossing stands in the step, with hold NONE. -/
def BoundaryUnit.worksIn (b : BoundaryUnit) (st : Step) : Bool := b.step = some st && b.free && !b.idle

/-- Replace the crossing of the ACTIVE slot. -/
def BoundaryUnit.mapActive (f : Crossing → Crossing) (b : BoundaryUnit) : BoundaryUnit :=
  match b.below, b.above with
  | .active c, _ => { b with below := .active (f c) }
  | _, .active c => { b with above := .active (f c) }
  | _, _ => b

/-- The unit's motion source (6.3). -/
def seqOf : UnitId → Source
  | .lower => .seqLower
  | .head => .seqHead

/-- The unit of a sequencer source. -/
def unitOfSource? : Source → Option UnitId
  | .seqLower => some .lower
  | .seqHead => some .head
  | _ => none

/-- The boundary lies between two chambers, so the chamber below is claimed too (R105). -/
def State.needsLower (s : State) (u : UnitId) : Bool := u = .lower && s.hasLower

/-- The approach boundary's unit: the lower unit at the foot, the head unit at the head (R127). -/
def State.approachUnit (s : State) : UnitId := if s.isFoot then .lower else .head

/-- The water-side slot of the approach boundary: BELOW at the foot, ABOVE at the head (R127). -/
def State.entrySlot (s : State) : CrossSlot :=
  if s.isFoot then s.lowerUnit.below else s.headUnit.above

/-! ### Elements (R79, R80) -/

/-- The station drives the element: the lower ones everywhere, the head ones at the head station (5.1). -/
def State.drives (s : State) (e : Element) : Bool := elementUnit e = .lower || s.isHead

/-- The state of an element. -/
def State.element (s : State) (e : Element) : ElementState := s.drive.elements[elementIdx e]

/-- Set the state of an element. -/
def State.setElement (e : Element) (x : ElementState) (s : State) : State :=
  { s with drive := { s.drive with elements := s.drive.elements.set (elementIdx e) x } }

/-- Every element the station drives is CLOSED (R29, R46, R54). -/
def State.allClosed (s : State) : Bool :=
  [Element.lowerGate, .lowerSluice, .headGate, .headSluice].all (fun e => !s.drives e || s.element e = .closed)

/-! ### Money (9.2, R156, R178) -/

/-- An exact sum of fee units as the 32-bit amount it is held in; the free value where it does not fit (log entry 9). -/
def feesOf (exact : Nat) : BitVec 32 :=
  if exact < 4294967296 then BitVec.ofNat 32 exact else Config.feesBeyondRange exact

/-- The upper half of a 32-bit field, none when it is zero (R17). -/
def upperHalf (v : BitVec 32) : Option (BitVec 16) :=
  if v.toNat / 65536 = 0 then none else some (BitVec.ofNat 16 (v.toNat / 65536))

/-- The lower half of a 32-bit field as two bytes (R17). -/
def lowerHalf (v : BitVec 32) : List Byte := bytes16 (v.toNat % 65536)

/-- A widenable field's value: the upper half applied at step 3, and the carried lower half (R15). -/
def widened (upper : BitVec 16) (lower : Nat) : BitVec 32 := BitVec.ofNat 32 (upper.toNat * 65536 + lower)

end Sys2Proof.Machine
end

