-- ==== Sys2Proof/Machine/Flags.lean ====
section
/-! DEFINITION. What the station's state shows: page counts, claims held, the grant permission, the contents of a
BEACON and a STATUS_REPLY, and the outputs (pump, drives, signals and lamps). -/

namespace Sys2Proof.Machine
open Sys2Proof

/-! ### Pages and the log (R152, R153, R177) -/

/-- The free pages (R152). -/
def Store.freePages (st : Store) : Nat := st.free.length

/-- The pages held by the RECEIVING records of a batch (R153). -/
def Store.receivingPages (st : Store) (key : BatchKey) : Nat :=
  ((st.records.filter (fun r => r.key = key && r.state = .receiving)).map (fun r => r.pages.length)).sum

/-- The remaining pages of a reservation (R153). -/
def Store.remaining (st : Store) (r : Reservation) : Nat := r.promise - st.receivingPages r.key

/-- The reserved count (R153). -/
def Store.reserved (st : Store) : Nat := (st.reservations.map st.remaining).sum

/-- The free pages less the reserved count. -/
def Store.available (st : Store) : Nat := st.freePages - st.reserved

/-- The pages held by all records (R152). -/
def Store.heldPages (st : Store) : Nat := (st.records.map (fun r => r.pages.length)).sum

/-- The CLOSED records, oldest first: the toll log (R177). -/
def Store.log (st : Store) : List Record := st.records.filter (fun r => r.state = .closed)

/-- The pages held by CLOSED records (R65). -/
def Store.closedPages (st : Store) : Nat := (st.log.map (fun r => r.pages.length)).sum

/-- The free places of the toll log (R177). -/
def Store.logFree (st : Store) : Nat := 8 - st.log.length

/-- The log number of the oldest record, 0 when the log is empty (R179). -/
def Store.oldest (st : Store) : Nat := match st.log with
  | r :: _ => r.logNumber
  | [] => 0

/-- The records of a batch that are not CLOSED, in position order (R152). -/
def Store.batch (st : Store) (key : BatchKey) : List Record :=
  [1, 2, 3].flatMap (fun p => st.records.filter (fun r => r.key = key && r.state ≠ .closed && r.position = p))

/-- A reservation can be made (R153). -/
def Store.canReserve (st : Store) (key : BatchKey) (need : Nat) : Bool :=
  st.reservations.any (fun r => r.key = key) || decide (need ≤ st.available)

/-! ### Claims (R63, R88) -/

/-- The holder's kind (R63). -/
def Holder.kind : Holder → HolderKind
  | .free => .free | .self _ => .self | .upper _ => .upper | .orphaned _ => .orphaned

/-- The waiter's kind (R63). -/
def Waiter.kind : Waiter → WaiterKind
  | .none => .none | .self _ => .self | .upper _ => .upper

/-- The own chamber is held as SELF by the unit (R88). -/
def State.holdsOwn (s : State) (u : UnitId) : Bool :=
  match s.chamber.holder with
  | .self c => c.claimant = u
  | _ => false

/-- The claim of every chamber the unit's boundary touches is held (R88). -/
def State.claimsHeld (s : State) (u : UnitId) : Bool :=
  s.holdsOwn u && (!s.needsLower u || s.chamber.lower.state = .held)

/-- The grant permission of R42. -/
def State.permits (s : State) (src : Source) (t : Target) : Bool :=
  s.ctl.pumpReady &&
  match s.ctl.mode with
  | .inService => src = .safety || (s.ctl.stop = .stopClear && (src = .seqHead || src = .seqLower))
  | .localMode => src = .safety || (s.ctl.stop = .stopClear && src = .panel
      && (s.ctl.localState = .working || (s.ctl.localState = .closing && t = .toClosed)))
  | .held => src = .safety
  | _ => false

/-! ### Reports -/

/-- The level as reported: its value when VALID, else unknown (R57). -/
def Level.report (l : Level) : Option Nat := if l.valid then some l.value else none

/-- HIGH priority: a READY entry of class COMMERCIAL or SERVICE (7.2). -/
def QueueEntry.high (e : QueueEntry) : Bool := e.ready && e.cls.high

/-- The queue count of HIGH priority (R124). -/
def State.highCount (s : State) : Nat := (s.approach.queue.filter (fun e => e.high)).length

/-- The queue count of LOW priority (R124). -/
def State.lowCount (s : State) : Nat := (s.approach.queue.filter (fun e => !e.high)).length

/-- The active fault cause (R33). -/
def State.activeCause (s : State) : Option Cause := s.fault.record.map (fun r => r.cause)

/-- The contents of a BEACON placed now (R33). -/
def State.beaconNow (s : State) : BeaconContents :=
  if s.works then
    { mode := s.ctl.mode, stop := s.ctl.stop, interval := s.presence.interval, level := s.chamber.level.report,
      holder := s.chamber.holder.kind, waiter := s.chamber.waiter.kind,
      token := if s.isEnd then s.token.state else .absent, chamberKey := s.chamber.key,
      custodyKey := s.store.custody, high := s.highCount, low := s.lowCount,
      epoch := if s.isEnd then s.token.epoch else 0, cause := s.activeCause,
      pendingCount := s.fault.pendingSet.length, freeMinusReserved := s.store.available,
      serial := s.loader.serial.getD 0 }
  else
    { mode := s.ctl.mode, stop := s.ctl.stop, interval := s.presence.interval, level := none, holder := .free,
      waiter := .none, token := .absent, chamberKey := 0, custodyKey := 0, high := 0, low := 0, epoch := 0,
      cause := some .configInvalid, pendingCount := s.fault.pendingSet.length, freeMinusReserved := 0,
      serial := s.loader.serial.getD 0 }

/-- The prior mode of a STATUS_REPLY: in HELD the mode saved by the Fault Unit, otherwise the mode (R38). -/
def State.priorNow (s : State) : Mode :=
  match s.ctl.mode, s.fault.record with
  | .held, some r => r.prior
  | m, _ => m

/-- The code of the record's level, 0 when the record is empty (12.2). -/
def State.levelCode (s : State) : Nat := match s.fault.record with
  | some r => r.level.code
  | none => 0

/-- The payload of a STATUS_REPLY placed now (R38, 12.2). In UNCONFIGURED its free pages and its reserved pages are both 0:
DESIGN CHOICE, log entry 55. -/
def State.statusReplyNow (s : State) (tag : Nat) : List Byte :=
  let b := s.beaconNow
  [byte tag, byte (s.ctl.mode.code * 32 + s.priorNow.code * 4 + s.ctl.stop.code),
   byte (bit s.ctl.latch * 128 + (if s.works then s.chamber.occupancy.code else 0) * 32 + b.holder.code * 8
     + b.waiter.code * 2)]
    ++ levelBytes b.level
    ++ levelBytes (if s.works && s.isEnd then s.chamber.outer.report else none)
    ++ [byte (if s.works then s.store.freePages else 0), byte (if s.works then s.store.reserved else 0),
        byte (b.high * 16 + b.low)]
    ++ bytes16 (b.token.code * 16384 + b.epoch.toNat)
    ++ [byte (causeCode b.cause * 16 + b.pendingCount), byte (s.levelCode * 64), byte s.ctl.wakeSource.code]

/-- The payload of a TOLL_READY placed now (R179). -/
def State.tollReadyNow (s : State) : List Byte := [byte s.store.log.length] ++ bytes16 s.store.oldest

/-- The payload of an offered frame when it is placed (R33, R38, R179). -/
def State.renderBody (s : State) : Body → List Byte
  | .bytes p => p
  | .beacon => renderBeacon s.beaconNow
  | .statusReply tag => s.statusReplyNow tag
  | .tollReady => s.tollReadyNow

/-! ### Outputs (R40, R79, R115, R134, R198) -/

/-- The pump runs in WAKING, IN_SERVICE, LOCAL and HELD (R40, R83). -/
def State.pumpOutput (s : State) : Bool :=
  match s.ctl.mode with
  | .waking | .inService | .localMode | .held => true
  | .loading | .unconfigured | .resting => false

/-- The open drive output of an element (R79). -/
def State.openDrive (s : State) (e : Element) : Bool := s.pumpOutput && s.element e = .opening

/-- The close drive output of an element (R79). -/
def State.closeDrive (s : State) (e : Element) : Bool := s.pumpOutput && s.element e = .closing

/-- The move light of a unit on one side shows GO: the source side of a crossing in TRANSIT with hold NONE, the stop
state STOP_CLEAR (R110, R115, R116). The lower side is the source side of an UP crossing. -/
def State.showsGo (s : State) (u : UnitId) (lowerSide : Bool) : Bool :=
  let b := s.unit u
  match b.active? with
  | some c => b.worksIn .transit && !b.reclaim && s.ctl.stop = .stopClear && s.works
      && (decide (c.direction = .up) == lowerSide)
  | none => false

/-- The lamp outputs are driven: they are low from START until the Start Loader begins its work, which the model takes to be
the strap sample (R198). DESIGN CHOICE, log entry 54. -/
def State.lampsDriven (s : State) : Bool := s.ctl.mode ≠ .loading || s.loader.sampled || s.loader.fromRestart

/-- The station drives the move lights of the unit's gate: in LOADING and UNCONFIGURED those of both gates show STOP, since
the flight size is not known (R22, R28, log entry 54). -/
def State.hasMoveLights (s : State) (u : UnitId) : Bool := !s.works || u = .lower || s.isHead

/-- The red lamp of a move light: lit while it shows STOP (R198). -/
def State.moveRed (s : State) (u : UnitId) (lowerSide : Bool) : Bool :=
  s.lampsDriven && s.hasMoveLights u && !s.showsGo u lowerSide

/-- The green lamp of a move light: lit while it shows GO (R198). -/
def State.moveGreen (s : State) (u : UnitId) (lowerSide : Bool) : Bool := s.hasMoveLights u && s.showsGo u lowerSide

/-- The aspects of the approach signal (R134). -/
inductive Aspect where
  | dark | redFlash | green | redGreen | red
  deriving DecidableEq, Repr

/-- The entry crossing: the crossing of kind ENTRY in the water-side slot of the approach boundary. -/
def State.entryCrossing (s : State) : Option Crossing :=
  s.entrySlot.crossing?.bind (fun c => if c.kind = .entry then some c else none)

/-- The entry crossing's step: none while it is WAITING (R134). -/
def State.entryStep (s : State) : Option Step :=
  match s.entrySlot with
  | .active _ => (s.unit s.approachUnit).step
  | _ => none

/-- The approach signal (R134); none at an inner station, which does not drive it. -/
def State.approachSignal (s : State) : Option Aspect :=
  if s.ctl.mode = .loading ∨ (s.ctl.mode = .unconfigured ∧ ¬ s.isFoot) then some .dark
  else if s.ctl.mode = .unconfigured then some .redFlash
  else if !s.isEnd then none
  else if s.ctl.mode = .resting then some .redFlash
  else
    let b := s.unit s.approachUnit
    if s.entryCrossing.isSome ∧ s.entryStep = some .transit ∧ b.free ∧ s.element (gateOf s.approachUnit) = .opened
        ∧ s.ctl.mode = .inService ∧ s.ctl.stop = .stopClear ∧ s.token.state = .held then some .green
    else if s.approach.batch.isSome ∧ s.entryCrossing.isSome ∧ (s.entryStep = none ∨ s.entryStep = some .reserve
        ∨ s.entryStep = some .claim ∨ s.entryStep = some .equalize ∨ s.entryStep = some .openGate) then some .redGreen
    else if s.token.state = .absent ∧ s.approach.batch.isNone then some .redFlash
    else some .red

/-- The red lamp of the approach signal (R198). -/
def State.signalRed (s : State) : Bool :=
  match s.approachSignal with
  | some .red | some .redGreen => true
  | some .redFlash => s.flasherOn
  | _ => false

/-- The green lamp of the approach signal (R198). -/
def State.signalGreen (s : State) : Bool :=
  match s.approachSignal with
  | some .green | some .redGreen => true
  | _ => false

/-- The LOCAL panel lamp: flashing in PENDING, steady in WORKING and CLOSING (3.4, R198). -/
def State.localLamp (s : State) : Bool :=
  match s.ctl.localState with
  | .pending => s.flasherOn
  | .working | .closing => true
  | .auto | .refused => false

/-- The "close elements" lamp (R54). -/
def State.closeLamp (s : State) : Bool := s.ctl.localState = .closing

/-- The "local refused" lamp (R50, R52). -/
def State.refusedLamp (s : State) : Bool := s.ctl.localState = .refused

end Sys2Proof.Machine
end

