-- ==== Sys2Proof/Machine/Link.lean ====
section
/-! DEFINITION. The Link Controller (chapter 1): the transmit queue, the waiting offers, tags and the pending-reply
table, the widen slots, and the tests a received frame passes. -/

namespace Sys2Proof.Machine
open Sys2Proof

/-! ### The transmit queue (R10 to R12) -/

/-- The queue places a frame takes: two for a pair, also after its WIDEN was sent (R10, R17). -/
def TxFrame.places (f : TxFrame) : Nat := if f.upper.isSome then 2 else 1

/-- The queue places an offer needs (R10). -/
def Offer.places (o : Offer) : Nat := if o.upper.isSome then 2 else 1

/-- The places in use (R10). -/
def Link.used (l : Link) : Nat := (l.txq.map TxFrame.places).sum

/-- The frame of a pair whose WIDEN has been sent: it keeps the head position (R12, R17). -/
def TxFrame.locked (f : TxFrame) : Bool := f.widenAge.isSome

/-- The next thing sent for this frame is the WIDEN of its pair (R17). -/
def TxFrame.widenNext (f : TxFrame) : Bool := f.upper.isSome && (f.widenAge.isNone || f.widenDue)

/-- A frame with a widenable field to a destination under a 100 ms hold is not started (R17). Log entry 16. -/
def Link.blocked (l : Link) (f : TxFrame) : Bool := f.kind.widenable && l.holds.any (fun h => h.dst = f.dst)

/-- The frame that has the head position (R10, R12, R17). -/
def Link.head? (l : Link) : Option TxFrame :=
  match l.txq.find? TxFrame.locked with
  | some f => some f
  | none => l.txq.find? (fun f => !l.blocked f)

/-- The frame is on the line (R12). -/
def Link.isOnLine (l : Link) (f : TxFrame) : Bool := l.onLine && l.headId = some f.id

/-- While no frame is on the line, the frame in the head position is the head frame; a new one starts with attempt
count 0 and no backoff wait (R12). -/
def Link.refreshHead (l : Link) : Link :=
  if l.onLine then l
  else if l.head?.map TxFrame.id = l.headId then l
  else { l with headId := l.head?.map TxFrame.id, attempts := 0, backoff := none }

/-- Put a frame at the tail of its class (R10). -/
def Link.insert (f : TxFrame) (l : Link) : Link :=
  if f.kind.urgent then
    { l with txq := l.txq.filter (fun g => g.kind.urgent) ++ f :: l.txq.filter (fun g => !g.kind.urgent) }
  else { l with txq := l.txq ++ [f] }

/-- Take a frame out of the queue. -/
def Link.remove (id : Nat) (l : Link) : Link := { l with txq := l.txq.filter (fun g => g.id ≠ id) }

/-- An offered frame as it stands in the queue. -/
def Offer.toFrame (o : Offer) (id : Nat) (payload : List Byte) : TxFrame :=
  { id := id, block := o.block, kind := o.kind, dst := o.dst, payload := payload, upper := o.upper, widenAge := none,
    widenDue := false, tag := o.tag, cancels := o.cancels, again := o.again }

/-- A queued frame as the offer its block is told "not sent" of. -/
def TxFrame.toOffer (f : TxFrame) : Offer :=
  { block := f.block, kind := f.kind, dst := f.dst, body := .bytes f.payload, upper := f.upper, tag := f.tag,
    cancels := f.cancels, again := f.again }

/-- Start the claim wait timer when the ask is sent (R70). -/
def State.askSent (tag : Nat) (s : State) : State :=
  if s.chamber.lower.state = .asked ∧ s.chamber.lower.tag = tag then
    { s with chamber := { s.chamber with lower := { s.chamber.lower with timer := some (sec s.cfg.claimWait) } } }
  else s

/-- Start the 2 s of a cancelled tag when its drop is sent (R73). A drop that was not sent and is placed again (R74) starts them
anew while the tag is still held, and does not hold a tag again that is freed: DESIGN CHOICE, log entry 65. -/
def State.cancelSent (tag : Nat) (s : State) : State :=
  let f := fun (t : CancelledTag) => if t.tag = tag then { t with left := some (sec 2) } else t
  { s with chamber := { s.chamber with cancelled := s.chamber.cancelled.map f } }

/-- The tag of an UPPER or ORPHANED holder. -/
def Holder.upperTag? : Holder → Option Nat
  | .upper c | .orphaned c => some c.tag
  | _ => none

/-- Start the 1 s to the next feed when a feed, or the CLAIM_GIVE that counts as the first, is sent (R75). -/
def State.feedSent (tag : Nat) (s : State) : State :=
  if s.chamber.holder.upperTag? = some tag then
    { s with chamber := { s.chamber with feedTimer := some (sec 1) } }
  else s

/-- The read stream ends when its TOLL_END is sent (R181). -/
def State.readSent (number : Nat) (s : State) : State :=
  s.doIf (s.toll.stream.any (fun r => r.number = number)) (fun s => { s with toll := { s.toll with stream := none } })

/-- What the placing of a frame with payload `p` starts in the block that offered it: a frame is sent, for every block but
the Link Controller, when it is placed (00_scope.md 3.4, log entry 10). The timers of R70, R73 and R75 start, a read stream
ends with its TOLL_END (R181), and the next segment of a stream is offered (R159, R181). -/
def State.onPlaced (o : Offer) (p : List Byte) (s : State) : State :=
  match o.kind with
  | .claimAsk => s.askSent o.tag
  | .claimDrop => s.doIf o.cancels (State.cancelSent o.tag)
  | .claimGive | .levelFeed => s.feedSent (byteAt p 0)
  | .tollEnd => s.readSent o.tag
  | .recSeg =>
    if o.block = .toll then s.doIf (s.toll.stream.any (fun r => r.number = o.tag)) (State.emit .readNext)
    else s.doIf (s.store.stream.any (fun r => r.number = o.tag)) (State.emit .streamNext)
  | _ => s

/-- Place a frame at the tail of its class; its contents are taken now (R10, R33). -/
def State.place (o : Offer) (s : State) : State :=
  let p := s.renderBody o.body
  let f := o.toFrame s.link.nextId p
  State.onPlaced o p { s with link := Link.refreshHead (Link.insert f { s.link with nextId := s.link.nextId + 1 }) }

/-- A frame has room in the queue (R10). -/
def Link.hasRoom (l : Link) (o : Offer) : Bool := l.used + o.places ≤ 8

/-- The youngest NORMAL frame an URGENT one may displace: not on the line, nor the frame of a pair whose WIDEN has been
sent (R11). A pair whose WIDEN is on the line for the first time is kept as a whole: DESIGN CHOICE, log entry 43. -/
def Link.displaceable (l : Link) : Option TxFrame :=
  l.txq.reverse.find? (fun f => !f.kind.urgent && !l.isOnLine f && !f.locked)

/-- Remove the pending entry of a request (R14, R18). -/
def State.dropEntry (tag : Nat) (s : State) : State :=
  { s with link := { s.link with entries := s.link.entries.filter (fun e => e.tag ≠ tag) } }

/-- A segment of this stream of the block, or its TOLL_END. -/
def Offer.ofStream (o : Offer) (b : Block) (number : Nat) : Bool :=
  o.block = b && (o.kind = .recSeg || o.kind = .tollEnd) && o.tag = number

/-- A segment of this stream that is kept back, and so not yet offered (R11, R159). -/
def Held.ofStream (b : Block) (number : Nat) : Held → Bool
  | .frame o => o.ofStream b number
  | .ask _ => false

/-- A stream is broken off: what its block keeps back of it is not offered, and a TOLL_END of it that waits for a place is
not sent (R159, R181). A segment that waits for a place has been offered and is sent (log entry 53). -/
def Link.breakStream (b : Block) (number : Nat) (l : Link) : Link :=
  { l with waiting := l.waiting.filter (fun o => !(o.ofStream b number && o.kind = .tollEnd)),
           backlog := l.backlog.filter (fun h => !Held.ofStream b number h) }

/-- A segment that was not sent breaks its stream off before the place it frees is filled (R159, R181). -/
def Link.breakAt (f : TxFrame) (l : Link) : Link := if f.kind = .recSeg then l.breakStream f.block f.tag else l

/-- A frame that was not sent leaves the queue, its pending entry is removed, and its block is told (R11, R14, R18). -/
def State.removeUnsent (f : TxFrame) (s : State) : State :=
  State.emit (.notSent f.toOffer)
    (State.doIf (f.kind.isRequest) (State.dropEntry f.tag)
      { s with link := Link.refreshHead ((s.link.breakAt f).remove f.id) })

/-- Refuse an offer: it becomes its block's waiting offer (R11). -/
def State.refuseOffer (o : Offer) (s : State) : State :=
  { s with link := { s.link with waiting := s.link.waiting ++ [o] } }

/-- Offer a frame of a block that has no waiting offer (R10, R11). -/
def State.tryPlace (o : Offer) (s : State) : State :=
  if s.link.hasRoom o then s.place o
  else if o.kind.urgent && o.upper.isNone then
    match s.link.displaceable with
    | some f => (s.removeUnsent f).place o
    | none => s.refuseOffer o
  else s.refuseOffer o

/-- The waiting offer placed next: URGENT first, then NORMAL, each in the order of refusal (R11). -/
def Link.nextWaiting (l : Link) : Option Offer :=
  match l.waiting.find? (fun o => o.kind.urgent) with
  | some o => some o
  | none => l.waiting.head?

/-- The waiting offer for which there is room now (R11). -/
def Link.placeable (l : Link) : Option Offer := l.nextWaiting.filter l.hasRoom

/-- The block has a waiting offer and offers nothing further (R11). -/
def Link.blockWaits (l : Link) (b : Block) : Bool := l.waiting.any (fun o => o.block = b)

/-- The block that keeps something back. -/
def Held.block : Held → Block
  | .frame o => o.block
  | .ask r => r.block

/-- The first thing kept back whose block no longer waits (R11). -/
def Link.nextHeld (l : Link) : Option Held := l.backlog.find? (fun h => !l.blockWaits h.block)

/-! ### Requests and tags (R18) -/

/-- The frames that wait for a place, or behind one that does (R11). -/
def Link.unplaced (l : Link) : List Offer :=
  l.waiting ++ l.backlog.filterMap (fun h => match h with
    | .frame o => some o
    | .ask _ => none)

/-- The requests that wait for an entry, or behind an offer that waits for a place (R11, R18). -/
def Link.unasked (l : Link) : List Request :=
  l.requests ++ l.backlog.filterMap (fun h => match h with
    | .frame _ => none
    | .ask r => some r)

/-- The tags held by the Chamber Unit's claim wait: that of a WAITING or HELD claim (R71), the cancelled ones (R73), and
those of releases not yet sent (R74). The drop that answers a late give holds no tag (R73, log entry 47). -/
def State.claimTags (s : State) : List Nat :=
  (if s.chamber.lower.state = .waiting ∨ s.chamber.lower.state = .held then [s.chamber.lower.tag] else [])
    ++ s.chamber.cancelled.map CancelledTag.tag
    ++ (s.link.unplaced.filter (fun o => o.kind = .claimDrop)).map Offer.tag

/-- The tag chosen next: the first after the last-tag number, from 1 to 15 around, that is free (R18). -/
def State.nextTag (s : State) : Option Nat :=
  ((List.range 15).map (fun i => (s.link.lastTag + i) % 15 + 1)).find?
    (fun t => !(s.link.entries.any (fun e => e.tag = t)) && !(s.claimTags.contains t))

/-- The request that gets an entry now, with its tag: the first to wait whose block may offer (R11, R18). -/
def State.nextAsk (s : State) : Option (Request × Nat) :=
  if s.link.entries.length < 4 then
    match s.link.requests.find? (fun r => !s.link.blockWaits r.block), s.nextTag with
    | some r, some tag => some (r, tag)
    | _, _ => none
  else none

/-- The block learns the tag of its request. -/
def State.onTagged (k : Kind) (tag : Nat) (s : State) : State :=
  match k with
  | .claimAsk =>
    if s.chamber.lower.state = .asked ∧ s.chamber.lower.tag = 0 then
      { s with chamber := { s.chamber with lower := { s.chamber.lower with tag := tag } } }
    else s
  | .crossAsk =>
    if s.onward.state = .asking 0 then { s with onward := { s.onward with state := .asking tag } } else s
  | _ => s

/-- The entry of a request (R18). -/
def Request.toEntry (r : Request) (tag : Nat) : ReplyEntry :=
  { tag := tag, block := r.block, kind := r.kind, peer := r.dst, deadline := none, key := r.key, body := r.body,
    upper := r.upper }

/-- A waiting request gets its entry and its tag, before it is offered (R18). -/
def State.enter (r : Request) (tag : Nat) (s : State) : State :=
  State.onTagged r.kind tag { s with link := { s.link with
    requests := s.link.requests.erase r, entries := s.link.entries ++ [r.toEntry tag], lastTag := tag } }

/-- A frame of a block with a payload of bytes. -/
def frame (b : Block) (k : Kind) (dst : Addr) (p : List Byte) : Offer :=
  { block := b, kind := k, dst := dst, body := .bytes p, upper := none, tag := 0, cancels := false, again := false }

/-- The frame of a request that has its tag (R18). -/
def Request.toOffer (r : Request) (tag : Nat) : Offer :=
  { frame r.block r.kind r.dst (byte tag :: r.body) with upper := r.upper, tag := tag }

/-- Take something out of what the blocks keep back. -/
def State.takeHeld (h : Held) (s : State) : State :=
  { s with link := { s.link with backlog := s.link.backlog.erase h } }

/-- A request joins those that wait for an entry (R18). -/
def State.await (r : Request) (s : State) : State := { s with link := { s.link with requests := s.link.requests ++ [r] } }

/-- While places are free: the waiting offers are placed, then each block that no longer waits offers what it kept back,
and its requests get their entries (R11, R18). The first argument bounds the number of turns. -/
def State.placeWaiting : Nat → State → State
  | 0, s => s
  | fuel + 1, s =>
    match s.link.placeable with
    | some o => State.placeWaiting fuel (State.place o { s with link := { s.link with waiting := s.link.waiting.erase o } })
    | none =>
      match s.link.nextHeld with
      | some (.frame o) => State.placeWaiting fuel ((s.takeHeld (.frame o)).tryPlace o)
      | some (.ask r) => State.placeWaiting fuel ((s.takeHeld (.ask r)).await r)
      | none =>
        match s.nextAsk with
        | some (r, tag) => State.placeWaiting fuel ((s.enter r tag).tryPlace (r.toOffer tag))
        | none => s

/-- Place what waits, as far as there is room (R11). Each turn of `placeWaiting` takes at least one from the sum that bounds
it: a frame kept back may come to wait, and a request kept back may first wait for its entry. -/
def State.fillQueue (s : State) : State :=
  if s.link.waiting.isEmpty && s.link.backlog.isEmpty then s
  else s.placeWaiting (s.link.waiting.length + 2 * s.link.requests.length + 3 * s.link.backlog.length)

/-- Keep something back behind its block's waiting offer (R11). -/
def State.keepBack (h : Held) (s : State) : State := { s with link := { s.link with backlog := s.link.backlog ++ [h] } }

/-- Offer a frame (R10, R11). -/
def State.offer (o : Offer) (s : State) : State :=
  if s.link.blockWaits o.block then s.keepBack (.frame o) else (s.tryPlace o).fillQueue

/-- Give pending-reply entries to the waiting requests in the order in which they began to wait, and offer them (R18). The
first argument bounds the number of requests served. -/
def State.serveRequests : Nat → State → State
  | 0, s => s
  | fuel + 1, s =>
    match s.nextAsk with
    | some (r, tag) => State.serveRequests fuel ((s.enter r tag).offer (r.toOffer tag))
    | none => s

/-- Serve every waiting request there is an entry for. -/
def State.serveAll (s : State) : State := s.serveRequests s.link.requests.length

/-- Offer a request: it waits for its entry, unless its block may offer nothing (R11, R18). -/
def State.request (r : Request) (s : State) : State :=
  if s.link.blockWaits r.block then s.keepBack (.ask r) else (s.await r).serveAll

/-! ### Offering a frame -/

/-- Send a frame of a block. -/
def State.send (b : Block) (k : Kind) (dst : Addr) (p : List Byte) (s : State) : State := s.offer (frame b k dst p)

/-- Send a frame with a widenable field: a pair when the upper half is not zero (R17). -/
def State.sendWide (b : Block) (k : Kind) (dst : Addr) (p : List Byte) (upper : Option (BitVec 16)) (s : State) :
    State :=
  s.offer { frame b k dst p with upper := upper }

/-- Send one of the Link Controller's own frames, unless one of them waits for a place (R8, R20). -/
def State.sendOwn (k : Kind) (dst : Addr) (p : List Byte) (s : State) : State :=
  if s.link.blockWaits .link then s else s.send .link k dst p

/-- Whether a frame of this block and kind stands in the queue, not on the line. -/
def Link.hasQueued (l : Link) (b : Block) (k : Kind) : Bool :=
  l.txq.any (fun f => f.block = b && f.kind = k && !l.isOnLine f)

/-- Whether an offer of this block and kind waits for a place. -/
def Link.hasWaiting (l : Link) (b : Block) (k : Kind) : Bool :=
  l.unplaced.any (fun o => o.block = b && o.kind = k)

/-- Replace the contents of the block's queued frames of this kind, which keep their places; a frame on the line is not
replaced (R33, R75, R179). Log entry 18. -/
def Link.replaceQueued (b : Block) (k : Kind) (p : List Byte) (l : Link) : Link :=
  let g := fun (f : TxFrame) => if f.block = b && f.kind = k && !l.isOnLine f then { f with payload := p } else f
  { l with txq := l.txq.map g }

/-- Change a frame that is kept back. -/
def Held.mapFrame (f : Offer → Offer) : Held → Held
  | .frame o => .frame (f o)
  | .ask r => .ask r

/-- Replace the contents of the block's waiting offers of this kind (R75). Log entry 19. -/
def Link.replaceWaiting (b : Block) (k : Kind) (p : List Byte) (l : Link) : Link :=
  let f := fun (o : Offer) => if o.block = b && o.kind = k then { o with body := .bytes p } else o
  { l with waiting := l.waiting.map f, backlog := l.backlog.map (Held.mapFrame f) }

/-- A frame of this kind. -/
def Held.isFrame (k : Kind) : Held → Bool
  | .frame o => o.kind = k
  | .ask _ => false

/-- Take out the frames of a kind that are not yet placed, and so not yet sent (R11, 00_scope.md 3.4). -/
def Link.dropUnplaced (k : Kind) (l : Link) : Link :=
  { l with waiting := l.waiting.filter (fun o => o.kind ≠ k), backlog := l.backlog.filter (fun h => !h.isFrame k) }

/-- Take out of what the blocks keep back the frames and requests that are not offered after all (R159, log entry 20). -/
def State.dropHeld (p : Held → Bool) (s : State) : State :=
  { s with link := { s.link with backlog := s.link.backlog.filter (fun h => !p h) } }

/-- Offer a BEACON: a queued one is replaced in its place, a waiting one carries fresh contents when placed (R33). -/
def State.offerBeacon (s : State) : State :=
  if s.link.hasQueued .presence .beacon then
    { s with link := s.link.replaceQueued .presence .beacon (renderBeacon s.beaconNow) }
  else if s.link.hasWaiting .presence .beacon then s
  else s.offer { frame .presence .beacon broadcastAddr [] with body := .beacon }

/-- Offer a TOLL_READY; a queued or waiting one is replaced with fresh contents (R179). -/
def State.offerTollReady (s : State) : State :=
  if s.link.hasQueued .toll .tollReady then
    { s with link := s.link.replaceQueued .toll .tollReady s.tollReadyNow }
  else if s.link.hasWaiting .toll .tollReady then s
  else s.offer { frame .toll .tollReady deskAddr [] with body := .tollReady }

/-! ### The pending-reply table (R18, R19) -/

/-- End an entry and free its tag (R18, R19). -/
def State.endEntry (tag : Nat) (s : State) : State := (s.dropEntry tag).serveAll

/-- The entry a reply matches: its source is the peer, its tag the tag, and its kind a reply of the request (R19). -/
def State.matchReply (k : Kind) (src : Addr) (tag : Nat) (s : State) : Option ReplyEntry :=
  s.link.entries.find? (fun e => e.peer = src && e.tag = tag && k.isReplyOf e.kind)

/-! ### Sending (R12 to R14, R17) -/

/-- The head frame is started on the line (R12). -/
def State.startHead (s : State) : State :=
  if s.ctl.mode = .loading ∨ s.link.onLine ∨ s.link.backoff.isSome then s
  else match s.link.head? with
    | some f => { s with link := { s.link with onLine := true, lineWiden := f.widenNext, headId := some f.id } }
    | none => s

/-- The frame on the line. -/
def Link.lineFrame? (l : Link) : Option TxFrame := if l.onLine then l.txq.find? (fun f => l.headId = some f.id) else none

/-- The bytes on the line (R1, 12.2): the head frame, or the WIDEN that goes before it (R17), from this station's strap
address; none while the station does not send. -/
def State.lineBytes (s : State) : List Byte :=
  match s.link.lineFrame? with
  | none => []
  | some f =>
    if s.link.lineWiden then frameBytes f.dst s.ownAddr Kind.widen.code (bytes16 (f.upper.getD 0).toNat)
    else frameBytes f.dst s.ownAddr f.kind.code f.payload

/-- Change one queued frame. -/
def Link.mapFrame (id : Nat) (f : TxFrame → TxFrame) (l : Link) : Link :=
  { l with txq := l.txq.map (fun g => if g.id = id then f g else g) }

/-- The deadline of a request's entry starts when the request is sent (R12, R18). -/
def State.startDeadline (tag : Nat) (s : State) : State :=
  { s with link := { s.link with
      entries := s.link.entries.map (fun e => if e.tag = tag then { e with deadline := some (ms 500) } else e) } }

/-- What the last bit of a frame on the line starts: a request's reply deadline (R12, R18). Log entry 10. -/
def State.onSent (f : TxFrame) (s : State) : State := s.doIf f.kind.isRequest (State.startDeadline f.tag)

/-- The last bit of the frame on the line is sent with no collision (R12). A sent WIDEN leaves its place taken and its
frame at the head (R17). -/
def State.lineSent (s : State) : State :=
  match s.link.lineFrame? with
  | none => s
  | some f =>
    if s.link.lineWiden then
      { s with link := Link.refreshHead ({ s.link with onLine := false, lineWiden := false, attempts := 0 }.mapFrame f.id
          (fun g => { g with widenAge := some 0, widenDue := false })) }
    else
      State.fillQueue (State.onSent f
        { s with link := Link.refreshHead ({ s.link with onLine := false, attempts := 0 }.remove f.id) })

/-- The 100 ms hold after a frame is dropped whose WIDEN had been sent (R17). -/
def Link.addHold (f : TxFrame) (l : Link) : Link :=
  match f.widenAge with
  | some a => if a < ms 100 then
      { l with holds := l.holds.filter (fun h => h.dst ≠ f.dst) ++ [⟨f.dst, ms 100 - a⟩] } else l
  | none => l

/-- The head frame is dropped at its 12th collision (R14, R17); LINK_DEGRADED carries the kind code of the frame that was
on the line, the WIDEN of a pair being that frame while it is sent (log entry 17). -/
def State.dropHead (f : TxFrame) (s : State) : State :=
  let code := if s.link.lineWiden then Kind.widen.code else f.kind.code
  let s := State.removeUnsent f
    { s with link := Link.addHold f { s.link with onLine := false, lineWiden := false, attempts := 0, backoff := none } }
  State.emit (.raise .linkDegraded (BitVec.ofNat 32 code) (BitVec.ofNat 32 f.dst.toNat) .none) (s.fillQueue.serveAll)

/-- The number of slots drawn after a collision: the free value in the window 0 to 2^min(a,7) - 1 (R13). -/
def backoffWait (draw attempts : Nat) : Nat := Config.backoffDraw draw % 2 ^ min attempts 7

/-- A collision of the frame on the line (R13, R14). A WIDEN that fell due while its frame was on the line takes the head
position now (R17, log entry 15). -/
def State.lineCollision (s : State) : State :=
  match s.link.lineFrame? with
  | none => s
  | some f =>
    if s.link.attempts + 1 = 12 then s.dropHead f
    else if f.widenDue ∧ ¬ s.link.lineWiden then
      { s with link := { s.link with onLine := false, lineWiden := false, attempts := 0, backoff := none } }
    else
      { s with draws := s.draws + 1,
               link := Link.refreshHead { s.link with
                 onLine := false, lineWiden := false, attempts := s.link.attempts + 1,
                 backoff := some (backoffSlots (backoffWait s.draws (s.link.attempts + 1))) } }

/-- 50 ms after a WIDEN was sent with its frame unsent, it is placed back at the head with attempt count 0; any running
backoff wait is abandoned (R12, R17, log entry 15). -/
def State.resendWiden (s : State) : State :=
  match s.link.txq.find? (fun f => f.locked && !f.widenDue) with
  | none => s
  | some f =>
    let l := s.link.mapFrame f.id (fun g => { g with widenDue := true })
    { s with link := if l.onLine then l else { l with attempts := 0, backoff := none } }

/-! ### Reception (R2 to R9) -/

/-- A received frame as its owner sees it: source, whether it came by broadcast, payload, and the upper half applied to
its widenable field (R5, R15). -/
structure Rx where
  src : Addr
  broadcast : Bool
  payload : List Byte
  upper : BitVec 16
  deriving DecidableEq, Repr

/-- The tag a REFUSE returns: the refused frame's, or 0 where its kind carries none (R8). A frame of a kind with a tag whose
payload is empty has none to return, and 0 stands for it: DESIGN CHOICE, log entry 71. -/
def refusedTag (k : Kind) (p : List Byte) : Nat := if k.hasTag then byteAt p 0 else 0

/-- Answer a frame REFUSE under the conditions of R8. -/
def State.refuse (src : Addr) (broadcast : Bool) (kind : BitVec 6) (tag : Nat) (r : Reason) (s : State) : State :=
  if broadcast || decide (kind = BitVec.ofNat 6 Kind.refuse.code) then s
  else s.sendOwn .refuse src [byte r.code, byte kind.toNat, byte tag]

/-- An owner refuses a frame (R5, R8). -/
def State.refuseRx (k : Kind) (rx : Rx) (r : Reason) (s : State) : State :=
  s.refuse rx.src rx.broadcast (BitVec.ofNat 6 k.code) (refusedTag k rx.payload) r

/-- The station hears the line: not in LOADING (R4), and not while it sends (R21). -/
def State.hears (s : State) : Bool := s.ctl.mode ≠ .loading && !s.link.onLine

/-- A source of 16 to 29 or 31 is discarded (R3). -/
def validSource (src : Addr) : Bool := src.toNat < 16 || src = deskAddr

/-- The Presence Monitor is told of a source; a frame of the desk makes its entry PRESENT (R3, R36). -/
def State.reportSource (src : Addr) (s : State) : State :=
  if src = deskAddr then
    State.doIf (s.presence.desk ≠ .present) (State.emit .deskPresent)
      { s with presence := { s.presence with desk := .present, deskSince := 0 } }
  else s

/-- The frame is bound for this station or for all (R3). -/
def State.isTaken (s : State) (dst : Addr) : Bool := dst = s.ownAddr || dst = broadcastAddr

/-- The sender stands in the kind's role (R6). -/
def State.roleMet (s : State) (r : Role) (src : Addr) : Bool :=
  match r with
  | .desk => src = deskAddr
  | .neighbour => (src.toNat + 1 = s.k || src.toNat = s.k + 1) && src.toNat < s.n
  | .upper => src.toNat = s.k + 1 && s.k + 1 < s.n
  | .lower => src.toNat + 1 = s.k
  | .endStation => src.toNat = 0 || src.toNat + 1 = s.n
  | .any => true

/-- The station is a receiver of the kind and the sender stands in its role (R6). -/
def State.roleTest (s : State) (k : Kind) (src : Addr) : Bool :=
  !k.deskOnly && (!k.endOnly || s.isEnd) && s.roleMet k.role src

/-- Step 3 of R5: the sender's widen slot is applied to a widenable field, or its pass count rises, or it lapses at the
fourth (R15, R16). -/
def WidenSlot.advance (widenable : Bool) : WidenSlot → WidenSlot
  | .empty => .empty
  | .pending upper age passes =>
    if widenable then .empty else if passes = 3 then .empty else .pending upper age (passes + 1)

/-- The upper half a widen slot gives a widenable field: zero from an EMPTY slot (R15). -/
def WidenSlot.upper (widenable : Bool) : WidenSlot → BitVec 16
  | .empty => 0
  | .pending upper _ _ => if widenable then upper else 0

/-- The sender's widen slot (R15). -/
def State.widenSlot (s : State) (src : Addr) : WidenSlot := s.link.widenSlots[partyIdx (partyOf src)]

/-- Set the sender's widen slot. -/
def State.setWidenSlot (src : Addr) (w : WidenSlot) (s : State) : State :=
  { s with link := { s.link with widenSlots := s.link.widenSlots.set (partyIdx (partyOf src)) w } }

/-- The kinds an UNCONFIGURED station acts on when they are addressed to it (R9). -/
def Kind.takenUnconfigured : Kind → Bool
  | .echo | .statusAsk | .restart | .flightStop | .resume => true
  | _ => false

/-- The broadcast kinds whose owners act in UNCONFIGURED (R28). -/
def Kind.broadcastUnconfigured : Kind → Bool
  | .beacon | .flightStop | .resume | .faultNote | .faultClear => true
  | _ => false

/-- A taken frame of known kind while the mode is UNCONFIGURED: a broadcast one goes to its owner without any test of R5
(R9, R28). Log entry 13. -/
def State.takeUnconfigured (k : Kind) (src dst : Addr) (p : List Byte) (owner : Rx → State → State) (s : State) :
    State :=
  let rx : Rx := { src := src, broadcast := dst = broadcastAddr, payload := p, upper := 0 }
  if dst = broadcastAddr then
    if k.broadcastUnconfigured then owner rx s else s
  else if k.takenUnconfigured then
    if k = .restart || k = .flightStop || k = .resume || (k = .statusAsk && 1 ≤ p.length)
        || (k = .echo && 1 ≤ p.length) then owner rx s else s
  else s.refuse src false (BitVec.ofNat 6 k.code) (refusedTag k p) .busy

/-- The tests 2 to 4 of R5 and the handing over. -/
def State.takeFrame (k : Kind) (src dst : Addr) (p : List Byte) (owner : Rx → State → State) (s : State) : State :=
  let bc : Bool := dst = broadcastAddr
  if !s.roleTest k src then s.refuse src bc (BitVec.ofNat 6 k.code) (refusedTag k p) .wrongRole
  else
    let upper := (s.widenSlot src).upper k.widenable
    let s := s.setWidenSlot src ((s.widenSlot src).advance k.widenable)
    if !fieldsOk k p then s.refuse src bc (BitVec.ofNat 6 k.code) (refusedTag k p) .badField
    else if bc && k.isRequest then s
    else owner { src := src, broadcast := bc, payload := p, upper := upper } s

/-- A frame accepted under R2 of a known kind, from the filter of R3 to its owner (R3 to R9). -/
def State.receive (k : Kind) (src dst : Addr) (p : List Byte) (owner : Rx → State → State) (s : State) : State :=
  if !s.hears || !validSource src then s
  else
    let s := s.reportSource src
    if !s.isTaken dst then s
    else if s.ctl.mode = .unconfigured then s.takeUnconfigured k src dst p owner
    else s.takeFrame k src dst p owner

/-- A frame accepted under R2 of an unknown kind (R5 test 1, R9). -/
def State.receiveUnknown (src dst : Addr) (kind : BitVec 6) (s : State) : State :=
  if !s.hears || !validSource src then s
  else
    let s := s.reportSource src
    if !s.isTaken dst then s
    else s.refuse src (dst = broadcastAddr) kind 0 .unknownKind

/-- The Link Controller's owner of WIDEN: the sender's slot becomes PENDING (R15). -/
def State.onWiden (rx : Rx) (s : State) : State :=
  s.setWidenSlot rx.src (.pending (BitVec.ofNat 16 (be16 rx.payload 0)) 0 0)

/-- The Link Controller's owner of ECHO (R20). -/
def State.onEcho (rx : Rx) (s : State) : State :=
  if rx.broadcast then s else s.sendOwn .echoBack rx.src rx.payload

/-- The reason a REFUSE gives (R8, 12.2); R7 lets the six named ones pass alone. -/
def refusedReason (p : List Byte) : Reason := (Reason.ofCode? (byteAt p 0)).getD .unknownKind

/-- The Link Controller's owner of REFUSE: a match ends its entry, and the block is told "refused" with the reason (R19). -/
def State.onRefuse (rx : Rx) (s : State) : State :=
  match s.link.entries.find? (fun e => e.peer = rx.src && e.tag = byteAt rx.payload 2) with
  | some e => State.emit (.requestRefused e (refusedReason rx.payload)) (s.endEntry e.tag)
  | none => s

/-- An ECHO_BACK or STATUS_REPLY: a match ends its entry; the station makes no such request itself (log entry 26), and
the block it is handed to does nothing with it. -/
def State.onPlainReply (k : Kind) (rx : Rx) (s : State) : State :=
  match s.matchReply k rx.src (byteAt rx.payload 0) with
  | some e => s.endEntry e.tag
  | none => s

end Sys2Proof.Machine
end

