-- ==== Sys2Proof/Machine/Tariff.lean ====
section
/-! DEFINITION. The Vessel Table (R167 to R172) and the Tariff Unit (R173 to R176). -/

namespace Sys2Proof.Machine
open Sys2Proof

/-! ### The Vessel Table -/

/-- The present time of the station clock, or unknown (R168). -/
def State.clockNow (s : State) : Option (BitVec 16 × Nat) :=
  if s.tariff.known then some (s.tariff.day, s.tariff.minute) else none

/-- The home slot: the exclusive-or of the registration's four bytes (R167). -/
def homeSlot (r : BitVec 32) : Fin 256 :=
  ⟨(r.extractLsb' 0 8 ^^^ r.extractLsb' 8 8 ^^^ r.extractLsb' 16 8 ^^^ r.extractLsb' 24 8).toNat, BitVec.isLt _⟩

/-- A slot of the table: a home slot or an overflow entry (R167). -/
inductive VesselSlot where
  | home (i : Fin 256)
  | overflow (i : Fin 16)
  deriving DecidableEq, Repr

/-- What a slot holds. -/
def VesselTable.at (t : VesselTable) : VesselSlot → Option Vessel
  | .home i => t.home[i]
  | .overflow i => t.overflow[i]

/-- Put an entry in a slot, or empty it. -/
def VesselTable.put (t : VesselTable) (x : VesselSlot) (v : Option Vessel) : VesselTable :=
  match x with
  | .home i => { t with home := t.home.set i v }
  | .overflow i => { t with overflow := t.overflow.set i v }

/-- The slot holds the registration. -/
def holdsReg (r : BitVec 32) : Option Vessel → Bool
  | some v => v.registration = r
  | none => false

/-- A lookup: the home slot first, then the overflow entries in index order (R167). -/
def VesselTable.find (t : VesselTable) (r : BitVec 32) : Option VesselSlot :=
  if holdsReg r t.home[homeSlot r] then some (.home (homeSlot r))
  else ((List.finRange 16).find? (fun i => holdsReg r t.overflow[i])).map .overflow

/-- The age of an entry in minutes: unknown while the time or its last seen is unknown, 0 for a last seen later than the
present (R167). -/
def Vessel.age (v : Vessel) (now : Option (BitVec 16 × Nat)) : Option Nat :=
  match v.lastSeen, now with
  | some (d, m), some (d', m') => some ((d'.toNat * 1440 + m') - (d.toNat * 1440 + m))
  | _, _ => none

/-- A LEARNED entry whose age is known and greater than half the vessel age period may be replaced (R167). -/
def Vessel.replaceable (v : Vessel) (now : Option (BitVec 16 × Nat)) (periodHours : Nat) : Bool :=
  !v.static && match v.age now with
    | some a => periodHours * 60 < 2 * a
    | none => false

/-- Where an insert is placed, by the first case of R167 that applies; none when it fails. -/
def VesselTable.placeFor (t : VesselTable) (r : BitVec 32) (now : Option (BitVec 16 × Nat)) (periodHours : Nat) :
    Option VesselSlot :=
  match t.home[homeSlot r] with
  | none => some (.home (homeSlot r))
  | some v =>
    match (List.finRange 16).find? (fun i => t.overflow[i].isNone) with
    | some i => some (.overflow i)
    | none => if v.replaceable now periodHours then some (.home (homeSlot r)) else none

/-- The fields a VESSEL_SET or VESSEL_INFO carries after its registration (12.2), at offset `i` of the payload. -/
def vesselOf (p : List Byte) (i : Nat) (upper : BitVec 16) (static : Bool) (seen : Option (BitVec 16 × Nat)) : Vessel :=
  { registration := widened upper (be16 p i), cls := VClass.ofCode (field (byteAt p (i + 2)) 6 2),
    group := field (byteAt p (i + 2)) 3 3, account := BitVec.ofNat 32 (be32 p (i + 3)),
    lengthClass := byteAt p (i + 7), barred := field (byteAt p (i + 2)) 2 1 = 1, static := static, lastSeen := seen }

/-- Change the Vessel Table. -/
def State.setVessels (t : VesselTable) (s : State) : State := { s with vessels := t }

/-- On a hit the entry's last seen becomes the present time, or unknown (R168). -/
def State.touchVessel (r : BitVec 32) (s : State) : State :=
  match s.vessels.find r with
  | some x => s.setVessels (s.vessels.put x ((s.vessels.at x).map (fun v => { v with lastSeen := s.clockNow })))
  | none => s

/-- The entry a lookup finds (R168). -/
def State.lookupVessel (r : BitVec 32) (s : State) : Option Vessel :=
  (s.vessels.find r).bind s.vessels.at

/-- VESSEL_SET makes or overwrites a STATIC entry, or is refused NO_SPACE (R171). -/
def State.onVesselSet (rx : Rx) (s : State) : State :=
  let v := vesselOf rx.payload 0 rx.upper true s.clockNow
  match s.vessels.find v.registration with
  | some x => s.setVessels (s.vessels.put x (some v))
  | none =>
    match s.vessels.placeFor v.registration s.clockNow s.cfg.agePeriod with
    | some x => s.setVessels (s.vessels.put x (some v))
    | none => s.refuseRx .vesselSet rx .noSpace

/-- VESSEL_DEL removes the entry for its registration, if there is one (R171). -/
def State.onVesselDel (rx : Rx) (s : State) : State :=
  match s.vessels.find (widened rx.upper (be16 rx.payload 0)) with
  | some x => s.setVessels (s.vessels.put x none)
  | none => s

/-- The learning of a VESSEL_INFO (R170). -/
def State.learnVessel (v : Vessel) (s : State) : State :=
  match s.vessels.find v.registration with
  | some x =>
    if (s.vessels.at x).any Vessel.static then s else s.setVessels (s.vessels.put x (some v))
  | none =>
    match s.vessels.placeFor v.registration s.clockNow s.cfg.agePeriod with
    | some x => s.setVessels (s.vessels.put x (some v))
    | none => s

/-- An entry stays through the ageing pass: STATIC, of unknown age, or not older than the period (R172). -/
def ageKeeps (now : Option (BitVec 16 × Nat)) (periodHours : Nat) (o : Option Vessel) : Option Vessel :=
  o.filter (fun v => v.static || match v.age now with
    | some a => a ≤ periodHours * 60
    | none => true)

/-- The ageing pass; none is made while the time is unknown (R172). -/
def State.agePass (s : State) : State :=
  if s.tariff.known then
    s.setVessels { home := s.vessels.home.map (ageKeeps s.clockNow s.cfg.agePeriod),
                   overflow := s.vessels.overflow.map (ageKeeps s.clockNow s.cfg.agePeriod) }
  else s

/-- An entry whose last seen is unknown takes the first time set (R172). -/
def seenFirst (now : Option (BitVec 16 × Nat)) (o : Option Vessel) : Option Vessel :=
  o.map (fun v => if v.lastSeen.isNone then { v with lastSeen := now } else v)

/-! ### The station clock -/

/-- TIME sets the clock and "time known", restarts the minute timer, and is followed by the ageing pass (R172, R173). -/
def State.onTime (rx : Rx) (s : State) : State :=
  let first := !s.tariff.known
  let s := { s with tariff := { s.tariff with
      day := BitVec.ofNat 16 (be16 rx.payload 0), minute := be16 rx.payload 2, known := true,
      minuteTimer := some (sec 60) } }
  let s := if first then
      s.setVessels { home := s.vessels.home.map (seenFirst s.clockNow),
                     overflow := s.vessels.overflow.map (seenFirst s.clockNow) }
    else s
  s.agePass

/-- The minute timer runs out while the time is known: the clock advances, day 65535 followed by 0 (R173). -/
def State.minuteExpiry (s : State) : State :=
  if s.tariff.known ∧ s.tariff.minuteTimer.isSome then
    State.agePass { s with tariff := { s.tariff with
      minute := if s.tariff.minute = 1439 then 0 else s.tariff.minute + 1,
      day := if s.tariff.minute = 1439 then s.tariff.day + 1 else s.tariff.day,
      minuteTimer := some (sec 60) } }
  else s

/-! ### Bands, rates and prices -/

/-- The band of a minute (R174). -/
def bandOf (c : Settings) (m : Nat) : Nat :=
  if m < c.band1 then 0 else if m < c.band2 then 1 else if m < c.band3 then 2 else 3

/-- The band now, 0 while the time is unknown (R174). -/
def State.bandNow (s : State) : Nat := if s.tariff.known then bandOf s.cfg s.tariff.minute else 0

/-- The index of a group and a band in a rate table (12.2). -/
def rateIdx (group band : Nat) : Fin 32 := ⟨(4 * group + band) % 32, Nat.mod_lt _ (by decide)⟩

/-- The amount of a line priced now (R176). -/
def State.priceNow (s : State) (kind : LineKind) (cls : VClass) (group lengthClass : Nat) : BitVec 32 :=
  if cls = .exempt then 0
  else match kind with
    | .chamber => feesOf ((s.tariff.active[rateIdx group s.bandNow]).toNat * lengthClass)
    | .assist => feesOf s.cfg.assistFee

/-- RATE_SET writes one staged amount (R175). -/
def State.onRateSet (rx : Rx) (s : State) : State :=
  { s with tariff := { s.tariff with
      staged := s.tariff.staged.set (rateIdx (field (byteAt rx.payload 0) 5 3) (field (byteAt rx.payload 0) 3 2))
        (BitVec.ofNat 16 (be16 rx.payload 1)) } }

/-- RATE_COMMIT copies one group's staged amounts, or all of them, into the active table (R175). -/
def State.onRateCommit (rx : Rx) (s : State) : State :=
  let g := byteAt rx.payload 0
  { s with tariff := { s.tariff with
      active := if g = 8 then s.tariff.staged
        else Vector.ofFn (fun i => if i.val / 4 = g then s.tariff.staged[i] else s.tariff.active[i]) } }

end Sys2Proof.Machine
end

