-- ==== Sys2Proof/Machine/Pages.lean ====
section
/-! DEFINITION. Hold entries (R135), the low-store test (R165), and the page store: allocation, freeing, reservations, records and their lines (R152 to R158). -/

namespace Sys2Proof.Machine
open Sys2Proof

/-! ### The hold table (R135 to R137) -/

/-- The hold entry of a party (R135). -/
def State.holdOf (s : State) (p : Party) : HoldEntry := s.approach.holds[partyIdx p]

/-- Set the hold entry of a party. -/
def State.setHoldEntry (p : Party) (e : HoldEntry) (s : State) : State :=
  { s with approach := { s.approach with holds := s.approach.holds.set (partyIdx p) e } }

/-- Clear a hold entry; the admission test follows (R135). -/
def State.clearHold (p : Party) (s : State) : State := (s.setHoldEntry p ⟨none, 0⟩).emit .admissionTest

/-- A HOLD of `t` seconds acts on its sender's entry (R135). -/
def State.applyHold (p : Party) (t : Nat) (s : State) : State :=
  let e := s.holdOf p
  if t = 0 ∨ e.renewals = 16 then s.clearHold p
  else s.setHoldEntry p { left := some (sec t), renewals := e.renewals + 1 }

/-- This station as a party. -/
def State.ownParty (s : State) : Party := .station ⟨s.k % 16, Nat.mod_lt _ (by decide)⟩

/-! ### The low store (R165) -/

/-- Send HOLD to one end, or enter it directly when it is this station (R137, R165). -/
def State.holdEnd (t : Nat) (i : Nat) (s : State) : State :=
  if i = s.k then s.applyHold s.ownParty t else s.send .record .hold (stationAddr i) [byte t]

/-- Send HOLD to station 0 and to station n-1 (R165). -/
def State.holdEnds (t : Nat) (s : State) : State := (s.holdEnd t 0).holdEnd t (s.n - 1)

/-- The low-store test (R165). -/
def State.lowStoreTest (s : State) : State :=
  if !s.works then s
  else if s.store.available < 18 ∧ ¬ s.store.low then
    State.holdEnds 30 { s with store := { s.store with low := true, lowTimer := some (sec 10) } }
  else if 18 ≤ s.store.available ∧ s.store.low then
    State.holdEnds 0 { s with store := { s.store with low := false, lowTimer := none } }
  else s

/-! ### Pages (R152, R153) -/

/-- Change the Record Store. At a change of the free pages or the reserved count the low-store test is made, and the other
tests that wait on pages are prompted (R152, R165). -/
def State.setStore (st : Store) (s : State) : State :=
  let s' := { s with store := st }
  if st.freePages = s.store.freePages ∧ st.reserved = s.store.reserved then s' else s'.lowStoreTest.emit .pagesChanged

/-- Free those records of a batch, CLOSED ones apart, that satisfy a test: their pages go to the tail of the free list in
position order, chain order within each (R152). -/
def Store.freeWhere (key : BatchKey) (p : Record → Bool) (st : Store) : Store :=
  let gone := fun (r : Record) => r.key = key && r.state ≠ .closed && (r.position = 1 || r.position = 2 || r.position = 3) && p r
  { st with free := st.free ++ ((st.batch key).filter p).flatMap Record.pages,
            records := st.records.filter (fun r => !gone r) }

/-- Free one record: its pages go to the tail of the free list, header page first (R152). -/
def Store.freeOne (r : Record) (st : Store) : Store :=
  { st with free := st.free ++ r.pages, records := st.records.erase r }

/-- Allocate the page at the head of the free list for a record of a batch: drawing on its reservation while the record
is RECEIVING and any remains, else unreserved (R152, R153, R156). None when it cannot be made. -/
def Store.alloc (st : Store) (key : BatchKey) (receiving : Bool) : Option (Nat × List Nat) :=
  let remaining := if receiving then
      (st.reservations.filter (fun r => r.key = key)).map st.remaining |>.sum else 0
  if 1 ≤ remaining ∨ 1 ≤ st.available then
    match st.free with
    | p :: ps => some (p, ps)
    | [] => none
  else none

/-- Make a reservation, or use the one the key already holds (R153). -/
def Store.reserve (key : BatchKey) (need : Nat) (st : Store) : Store :=
  if st.reservations.any (fun r => r.key = key) then st
  else { st with reservations := st.reservations ++ [⟨key, need⟩] }

/-- Return a reservation (R153). -/
def Store.returnReservation (key : BatchKey) (st : Store) : Store :=
  { st with reservations := st.reservations.filter (fun r => r.key ≠ key) }

/-- The record stands at a position of a batch, CLOSED ones apart. -/
def Record.standsAt (key : BatchKey) (pos : Nat) (r : Record) : Bool := r.key = key && r.position = pos && r.state ≠ .closed

/-- Change the first record of a list that satisfies a test. -/
def changeFirst (p : Record → Bool) (f : Record → Record) : List Record → List Record
  | [] => []
  | x :: xs => if p x then f x :: xs else x :: changeFirst p f xs

/-- Change a record, found by its batch key and position, CLOSED ones apart. -/
def Store.update (r : Record) (f : Record → Record) (st : Store) : Store :=
  { st with records := changeFirst (Record.standsAt r.key r.position) f st.records }

/-- The record of a batch at a position. -/
def Store.recordAt (st : Store) (key : BatchKey) (pos : Nat) : Option Record :=
  st.records.find? (Record.standsAt key pos)

/-- The number of ASSIST lines of a record (R154). -/
def Record.assists (r : Record) : Nat := (r.lines.filter (fun l => l.kind = .assist)).length

/-- The record holds the CHAMBER line of a chamber (R156). -/
def Record.hasChamber (r : Record) (c : Nat) : Bool := r.lines.any (fun l => l.kind = .chamber && l.chamber = c)

/-- An amount that finds no line goes to the carry, and lines-truncated is set (R156). -/
def Record.toCarry (amount : BitVec 32) (r : Record) : Record :=
  { r with carry := feesOf (r.carry.toNat + amount.toNat), truncated := true }

/-- Append a line to a record, allocating a line page when the line begins one; its amount goes to the carry when no page
can be allocated (R156). -/
def Store.appendLine (l : Line) (r : Record) (st : Store) : Store :=
  if r.lines.length % 4 = 0 then
    match st.alloc r.key (r.state = .receiving) with
    | some (p, ps) =>
      Store.update r (fun x => { x with lines := x.lines ++ [l], pages := x.pages ++ [p] }) { st with free := ps }
    | none => Store.update r (Record.toCarry l.amount) st
  else Store.update r (fun x => { x with lines := x.lines ++ [l] }) st

/-- Add a line of this station's chamber to the record of a batch at a position, priced now (R156, R176). -/
def State.addLine (kind : LineKind) (key : BatchKey) (pos : Nat) (s : State) : State :=
  match s.store.recordAt key pos with
  | none => s
  | some r =>
    let amount := s.priceNow kind r.cls r.group r.lengthClass
    let l : Line := { kind := kind, chamber := s.k, band := s.bandNow, amount := amount }
    let mark := fun (x : Record) => { x with timeUnknown := x.timeUnknown || !s.tariff.known,
                                             assisted := x.assisted || kind = .assist }
    match kind with
    | .chamber =>
      if r.hasChamber s.k then s else s.setStore (Store.appendLine l (mark r) (s.store.update r mark))
    | .assist =>
      if 4 ≤ r.assists then s.setStore (s.store.update r (fun x => (mark x).toCarry amount))
      else s.setStore (Store.appendLine l (mark r) (s.store.update r mark))

/-- Add a line to each record of a batch in a state, in position order. -/
def State.addLines (kind : LineKind) (key : BatchKey) (st : RecState) (s : State) : State :=
  [1, 2, 3].foldl
    (fun s p => match s.store.recordAt key p with
      | some r => if r.state = st then s.addLine kind key p else s
      | none => s) s

/-- Set the state of every record of a batch that stands in one state. -/
def Store.move (key : BatchKey) (old new : RecState) (st : Store) : Store :=
  { st with records := st.records.map (fun r => if r.key = key && r.state = old then { r with state := new } else r) }

/-- Free the records of a batch that stand in a state, in position order (R152). -/
def State.freeBatch (key : BatchKey) (old : RecState) (s : State) : State :=
  s.setStore (s.store.freeWhere key (fun r => r.state = old))

/-- Create the CREATED record of one member by unreserved allocation (R155). -/
def State.createRecord (key : BatchKey) (pos : Nat) (e : QueueEntry) (s : State) : State :=
  match s.store.alloc key false with
  | none => s
  | some (p, ps) =>
    let r : Record :=
      { key := key, position := pos, state := .created, registration := e.registration, cls := e.cls, group := e.group,
        account := e.account, lengthClass := e.lengthClass, entryDay := s.tariff.day, entryMinute := s.tariff.minute,
        timeUnknown := !s.tariff.known, defaultGroup := e.defaultGroup, truncated := false, assisted := false,
        carry := 0, lines := [], pages := [p], logNumber := 0, total := 0 }
    s.setStore { s.store with free := ps, records := s.store.records ++ [r] }

/-- The pages a batch's records need at the next station: over its records, 1 + ⌈(L+1)/4⌉ (R102, R105). -/
def Store.pageNeed (st : Store) (key : BatchKey) : Nat :=
  ((st.batch key).map (fun r => 1 + (r.lines.length + 4) / 4)).sum

/-- Every record of the batch held here is RESIDENT, and there is one (R102, log entry 21). -/
def Store.allResident (st : Store) (key : BatchKey) : Bool :=
  !(st.batch key).isEmpty && (st.batch key).all (fun r => r.state = .resident)

/-- A key handed over by Mode Control: each RESIDENT record gains one ASSIST line at once, or the owed count for the key
rises by one (R158). -/
def State.owe (key : BatchKey) (s : State) : State :=
  if (s.store.batch key).any (fun r => r.state = .resident) then s.addLines .assist key .resident
  else
    let n := ((s.store.owed.filter (fun o => o.key = key)).map Owed.count).sum
    { s with store := { s.store with owed := s.store.owed.filter (fun o => o.key ≠ key) ++ [⟨key, n + 1⟩] } }

/-- Add the owed ASSIST lines of a batch that has become RESIDENT, one after another, and remove the count (R158): one line to
each record in position order, then the next of each. DESIGN CHOICE, log entry 51. -/
def State.payOwed (key : BatchKey) (s : State) : State :=
  let n := ((s.store.owed.filter (fun o => o.key = key)).map Owed.count).sum
  let s := (List.range n).foldl (fun s _ => s.addLines .assist key .resident) s
  { s with store := { s.store with owed := s.store.owed.filter (fun o => o.key ≠ key) } }

/-- Set the occupancy and the chamber batch key; an owed count whose batch leaves the chamber is removed, and the change
is made known (R61, R158). -/
def State.setOccupancy (o : Occupancy) (key : BatchKey) (s : State) : State :=
  let old := s.chamber.key
  let s := { s with chamber := { s.chamber with occupancy := o, key := key } }
  let s := if key ≠ old then
      { s with store := { s.store with owed := s.store.owed.filter (fun x => x.key ≠ old) } } else s
  State.emit .occupancyChanged s

end Sys2Proof.Machine
end

