-- ==== Sys2Proof/Machine/Drive.lean ====
section
/-! DEFINITION. The Drive Arbiter (chapter 5): requests, grants, preemption, the stack, the safety close set, and the
judging of end switches. -/

namespace Sys2Proof.Machine
open Sys2Proof

/-! ### Slots, levels and limits -/

/-- The index of a source in the default order SAFETY, PANEL, SEQ_HEAD, SEQ_LOWER (5.3). -/
def sourceIdx : Source → Fin 4
  | .safety => 0 | .panel => 1 | .seqHead => 2 | .seqLower => 3

/-- The sources in the default order (5.3). -/
def allSources : List Source := [.safety, .panel, .seqHead, .seqLower]

/-- The level of a source: SAFETY above HIGH above LOW (R85). -/
def sourceLevel : Source → Nat
  | .safety => 3 | .panel => 2 | .seqHead => 1 | .seqLower => 1

/-- The motion in a source's slot. -/
def State.slot (s : State) (src : Source) : Option Motion := s.drive.slots[sourceIdx src]

/-- Set a source's slot. -/
def State.setSlot (src : Source) (m : Option Motion) (s : State) : State :=
  { s with drive := { s.drive with slots := s.drive.slots.set (sourceIdx src) m } }

/-- Set the motion stack. -/
def State.setStack (l : List Source) (s : State) : State := { s with drive := { s.drive with stack := l } }

/-- The source's motion stands in a phase. -/
def State.inPhase (s : State) (src : Source) (p : Phase) : Bool :=
  match s.slot src with
  | some m => m.phase = p
  | none => false

/-- The source whose motion is in the running position, driving or frozen (R83, R93). -/
def State.runningSource (s : State) : Option Source :=
  allSources.find? (fun src => s.inPhase src .running || s.inPhase src .frozen)

/-- The travel allowance of a fresh motion (R84). -/
def State.travelLimit (s : State) (e : Element) : Span :=
  sec (if elementIsGate e then s.cfg.gateLimit else s.cfg.sluiceLimit)

/-- The state of an element driven toward a target (R79). -/
def drivenState : Target → ElementState
  | .toOpen => .opening
  | .toClosed => .closing

/-- The state of an element at rest at a target end (R79). -/
def restState : Target → ElementState
  | .toOpen => .opened
  | .toClosed => .closed

/-- The switch pattern is the one of an end alone (5.1). -/
def atEnd (sw : Switches) : Target → Bool
  | .toOpen => sw.opened && !sw.closed
  | .toClosed => sw.closed && !sw.opened

/-- The switch pattern codes of POSITION_CONFLICT: NONE 0, CLOSED_ONLY 1, OPEN_ONLY 2, BOTH 3 (R80). -/
def patternCode (sw : Switches) : Nat := bit sw.closed + 2 * bit sw.opened

/-- The end switches of an element. -/
def State.switchesOf (s : State) (e : Element) : Switches := s.pins.switches[elementIdx e]

/-- POSITION_CONFLICT with the values of R80. -/
def State.conflict (e : Element) (s : State) : Notice :=
  .raise .positionConflict (BitVec.ofNat 32 (elementCode e)) (BitVec.ofNat 32 (patternCode (s.switchesOf e)))
    (Bound.ofUnit (elementUnit e))

/-! ### Ending motions (R86) -/

/-- Empty a source's slot, wherever its motion stands, and take it off the stack. -/
def State.clearSlot (src : Source) (s : State) : State :=
  (s.setSlot src none).setStack (s.drive.stack.filter (fun x => x ≠ src))

/-- A sequencer's unit learns that its slot has become empty (R114, R187). -/
def State.tellFree (src : Source) (s : State) : State :=
  match unitOfSource? src with
  | some u => s.emit (.slotFree u)
  | none => s

/-- Tell a source how its motion ended (R86); a sequencer's unit also learns that its slot is empty (R114). -/
def State.tell (src : Source) (m : Motion) (n : MotionNotice) (s : State) : State :=
  (s.emit (.motion src m.element m.target n false)).tellFree src

/-- An element has reached CLOSED: Mode Control and the Fault Unit learn of it (R54, R79, R187). -/
def State.reachClosed (e : Element) (s : State) : State := (s.setElement e .closed).emit (.elementClosed e)

/-- An element comes to rest at an end. -/
def State.reachEnd (e : Element) (t : Target) (s : State) : State :=
  match t with
  | .toClosed => s.reachClosed e
  | .toOpen => s.setElement e .opened

/-- Stop the drive of a motion in the running position: its element becomes HALTED (R84, R87, R90, R93), one that was FAILED
before its closing motion too: DESIGN CHOICE, log entry 66. -/
def State.haltMotion (m : Motion) (s : State) : State := s.setElement m.element .halted

/-- Withdraw a source's motion (R87). The notice is given only where the source did not withdraw it itself. The grant
decision for the freed pump comes after the unit has asked its next motion: DESIGN CHOICE, log entry 4. -/
def State.withdraw (src : Source) (notify : Bool) (s : State) : State :=
  match s.slot src with
  | none => s
  | some m =>
    let s := if m.phase = .running ∨ m.phase = .frozen then s.haltMotion m else s
    let s := s.clearSlot src
    let s := if notify then s.tell src m .withdrawn else s.tellFree src
    s.emit .grantDecision

/-! ### The safety close set (R95 to R97) -/

/-- The sluice of a class (5.6). -/
def classElement : SafetyClass → Element
  | .lower | .remote => .lowerSluice
  | .head => .headSluice

/-- The set with a demand placed, in class order (R95). -/
def placeClass (c : SafetyClass) (set : List SafetyClass) : List SafetyClass :=
  let has := fun x => set.contains x
  let l := has .lower || c = .lower
  let h := has .head || c = .head
  let r := (has .remote || c = .remote) && !l
  (if l then [.lower] else []) ++ (if h then [.head] else []) ++ (if r then [.remote] else [])

/-- The entry of a sluice leaves the set. -/
def State.leaveSet (e : Element) (s : State) : State :=
  { s with drive := { s.drive with safetySet := s.drive.safetySet.filter (fun c => classElement c ≠ e) } }

/-- Every other source's motion for a closed sluice is removed with the notice "cancelled" (R96). -/
def State.cancelOthers (e : Element) (s : State) : State :=
  [Source.panel, .seqHead, .seqLower].foldl
    (fun s src => match s.slot src with
      | some m => if m.element = e then (s.clearSlot src).tell src m .cancelled else s
      | none => s) s

/-- A completed safety close: its entry leaves the set and the other sources' motions are cancelled (R96). -/
def State.safetyDone (e : Element) (s : State) : State := ((s.leaveSet e).cancelOthers e).emit .alarmWaitTest

/-- The SAFETY slot may be pointed at an entry: it is empty or PENDING (R96). -/
def State.safetyIdle (s : State) : Bool :=
  match s.slot .safety with
  | some m => m.phase = .pending
  | none => true

/-- The SAFETY slot holds a close of this sluice. -/
def State.safetyAt (s : State) (e : Element) : Bool :=
  match s.slot .safety with
  | some m => m.element = e
  | none => false

/-- Point the SAFETY slot, while it is empty or PENDING, at the first entry of the set. A close that the slot is given is
tested by R85: a sluice already CLOSED is complete at once. A PENDING close of the first entry was tested when the slot was
given it, and is not tested again (R96). The first argument bounds the entries taken: the set holds at most three. -/
def State.pointSafety : Nat → State → State
  | 0, s => s
  | fuel + 1, s =>
    if s.safetyIdle then
      match s.drive.safetySet with
      | [] => s.setSlot .safety none
      | c :: _ =>
        if s.safetyAt (classElement c) then s
        else if s.element (classElement c) = .closed then
          State.pointSafety fuel ((s.setSlot .safety none).safetyDone (classElement c))
        else s.setSlot .safety (some ⟨classElement c, .toClosed, .pending, 0⟩)
    else s

/-- The SAFETY slot takes its entry, and a grant decision follows (R89, R96). -/
def State.refreshSafety (s : State) : State := (s.pointSafety 4).emit .grantDecision

/-- Place a demand to close a sluice in the safety close set; one that is taken into a present entry changes nothing
(R95). -/
def State.placeSafety (c : SafetyClass) (s : State) : State :=
  let set := placeClass c s.drive.safetySet
  if set = s.drive.safetySet then s else State.refreshSafety { s with drive := { s.drive with safetySet := set } }

/-- The class in which a unit places its sluice (5.6). -/
def unitClass : UnitId → SafetyClass
  | .lower => .lower
  | .head => .head

/-- Empty a motion's slot and give its notice; a SAFETY motion's goes to the set (R86, R96, R97). -/
def State.retire (src : Source) (m : Motion) (n : MotionNotice) (s : State) : State :=
  let s := s.clearSlot src
  if src = .safety then
    State.pointSafety 4
      (if n = .complete then s.safetyDone m.element else (s.leaveSet m.element).emit .alarmWaitTest)
  else s.tell src m n

/-- End a motion with a notice, then raise the fault for it, if any, then decide the grant (R86, R89). The decision comes
after the unit has asked its next motion: DESIGN CHOICE, log entry 4. -/
def State.endWith (src : Source) (m : Motion) (n : MotionNotice) (raised : List Notice) (s : State) : State :=
  (s.retire src m n).emits (raised ++ [.grantDecision])

/-- End a motion with a notice (R86). -/
def State.endMotion (src : Source) (m : Motion) (n : MotionNotice) (s : State) : State := s.endWith src m n []

/-! ### Requests (R85, R87, R88) -/

/-- A request is taken, or answered at once (R85). A PANEL request replaces the motion in the PANEL slot (R87), one that is
answered at once too: DESIGN CHOICE, log entry 57. -/
def State.requestMotion (src : Source) (e : Element) (t : Target) (s : State) : State :=
  let s := if src = .panel then s.withdraw .panel true else s
  if (s.slot src).isSome then s.emit (.motion src e t .busy true)
  else if s.element e = restState t then s.emit (.motion src e t .complete true)
  else if t = .toOpen ∧ s.element e = .failed then s.emit (.motion src e t .failed true)
  else if t = .toOpen ∧ ¬ s.claimsHeld (elementUnit e) then s.emit (.motion src e t .noClaim true)
  else (s.setSlot src (some ⟨e, t, .pending, 0⟩)).emit .grantDecision

/-- Claims have ceased to be held: openings of their boundaries stop or are removed with "no claim", PENDING ones apart,
which are tested at their grant (R88). -/
def State.claimsCeased (s : State) : State :=
  [Source.panel, .seqHead, .seqLower].foldl
    (fun s src => match s.slot src with
      | some m =>
        if m.target = .toOpen ∧ m.phase ≠ .pending ∧ ¬ s.claimsHeld (elementUnit m.element) then
          let s := if m.phase = .running then s.haltMotion m else s
          s.endMotion src m .noClaim
        else s
      | none => s) s

/-! ### Grant decisions (R89 to R91) -/

/-- Why a motion may not be driven: an opening of a FAILED element, which accepts closing motions alone (R79), or one whose
claims are not held (R88). That the first is removed with "failed" is a DESIGN CHOICE, log entry 56. -/
def State.motionBar (s : State) (m : Motion) : Option MotionNotice :=
  if m.target = .toClosed then none
  else if s.element m.element = .failed then some .failed
  else if s.claimsHeld (elementUnit m.element) then none else some .noClaim

/-- The PENDING requests the permission names, of a level above `floor`, highest first (R89). -/
def State.candidates (s : State) (floor : Nat) : List Source :=
  allSources.filter (fun src => match s.slot src with
    | some m => m.phase = .pending && s.permits src m.target && decide (floor < sourceLevel src)
    | none => false)

/-- Grant a PENDING request: its allowance is set and it drives (R84, R89). -/
def State.grant (src : Source) (m : Motion) (s : State) : State :=
  (s.setSlot src (some { m with phase := .running, allowance := s.travelLimit m.element })).setElement m.element
    (drivenState m.target)

/-- Grant a request, or remove it with "no claim" or "failed" and decide again (R79, R88, R89). -/
def State.grantOrRemove (src : Source) (m : Motion) (s : State) : State :=
  match s.motionBar m with
  | none => s.grant src m
  | some n => s.endMotion src m n

/-- Push the motion in the running position onto the stack, its allowance kept (R90, R94). -/
def State.pushMotion (src : Source) (m : Motion) (s : State) : State :=
  ((s.setSlot src (some { m with phase := .stacked })).haltMotion m).setStack (src :: s.drive.stack)

/-- A suspended motion drives on with the allowance it had (R91, R93). -/
def State.driveOn (src : Source) (m : Motion) (s : State) : State :=
  (s.setSlot src (some { m with phase := .running })).setElement m.element (drivenState m.target)

/-- Resume the stack top, or remove it with "no claim" or "failed" (R79, R88, R91). -/
def State.resumeTop (src : Source) (m : Motion) (s : State) : State :=
  match s.motionBar m with
  | none => (s.driveOn src m).setStack (s.drive.stack.filter (fun x => x ≠ src))
  | some n => s.endMotion src m n

/-- The grant decision with the pump free (R89). -/
def State.grantFree (s : State) : State :=
  match s.drive.stack with
  | top :: _ =>
    match s.candidates (sourceLevel top), s.slot top with
    | src :: _, _ => match s.slot src with
      | some m => s.grantOrRemove src m
      | none => s
    | [], some m => if s.permits top m.target then s.resumeTop top m else s
    | [], none => s
  | [] =>
    match s.candidates 0 with
    | src :: _ => match s.slot src with
      | some m => s.grantOrRemove src m
      | none => s
    | [] => s

/-- The grant decision (R89): with a motion driving, a strictly higher PENDING request preempts it; with one frozen, only
SAFETY does, and not a frozen SAFETY close; with the pump free the choice is made. -/
def State.decideGrant (s : State) : State :=
  match s.runningSource with
  | none => s.grantFree
  | some run =>
    match s.slot run with
    | none => s
    | some rm =>
      let cands := if rm.phase = .frozen then (if run = .safety then [] else s.candidates 2)
        else s.candidates (sourceLevel run)
      match cands with
      | [] => s
      | src :: _ => match s.slot src with
        | none => s
        | some m =>
          match s.motionBar m with
          | none => (s.pushMotion run rm).grant src m
          | some n => s.endMotion src m n

/-! ### Stop and held (R93, R94) -/

/-- On entry into STOP_ACTIVE from STOP_CLEAR the running motion is frozen in place (R93). -/
def State.freezeMotion (s : State) : State :=
  match s.runningSource with
  | some src => match s.slot src with
    | some m => if m.phase = .running then (s.setSlot src (some { m with phase := .frozen })).haltMotion m else s
    | none => s
  | none => s

/-- On entry into STOP_CLEAR the frozen motion drives on where it is permitted and its claims are held, else it is
withdrawn or removed; a grant decision follows (R93). -/
def State.unfreezeMotion (s : State) : State :=
  match s.runningSource with
  | some src => match s.slot src with
    | some m =>
      if m.phase = .frozen then
        if s.permits src m.target then
          match s.motionBar m with
          | none => (s.driveOn src m).emit .grantDecision
          | some n => s.endMotion src m n
        else s.withdraw src true
      else s.emit .grantDecision
    | none => s.emit .grantDecision
  | none => s.emit .grantDecision

/-- When the mode becomes HELD a running or frozen motion of any source but SAFETY is pushed onto the stack (R94). -/
def State.pushAtHeld (s : State) : State :=
  match s.runningSource with
  | some src => match s.slot src with
    | some m => if src = .safety then s.emit .grantDecision else (s.pushMotion src m).emit .grantDecision
    | none => s
  | none => s.emit .grantDecision

/-! ### End switches (R80 to R82) and the allowance (R84) -/

/-- The state an element takes from its switch pattern when LOADING ends (R80). -/
def foundState (sw : Switches) : ElementState :=
  match sw.closed, sw.opened with
  | true, false => .closed
  | false, true => .opened
  | false, false => .halted
  | true, true => .failed

/-- The elements by their index. -/
def allElements : List Element := [.lowerGate, .lowerSluice, .headGate, .headSluice]

/-- When LOADING ends the Drive Arbiter takes the state of every element the station drives from its switches, with no
motion and no demand held, and raises POSITION_CONFLICT for each found FAILED (R80, R99). -/
def State.findElements (s : State) : State :=
  let found := fun (e : Element) => if s.drives e then foundState (s.switchesOf e) else .unheld
  let failed := allElements.filter (fun e => found e = .failed)
  State.emits (failed.map s.conflict)
    { s with drive := { Drive.initial with
        elements := #v[found .lowerGate, found .lowerSluice, found .headGate, found .headSluice] } }

/-- The source whose motion drives the element. -/
def State.drivenBy (s : State) (e : Element) : Option (Source × Motion) :=
  allSources.findSome? (fun src => match s.slot src with
    | some m => if m.element = e ∧ m.phase = .running then some (src, m) else none
    | none => none)

/-- A frozen or stacked motion of the element whose target end the switches now show (R82). Of two such motions the first in
the order of sources is complete and the other stays: DESIGN CHOICE, log entry 58. -/
def State.restedMotion (s : State) (e : Element) : Option (Source × Motion) :=
  allSources.findSome? (fun src => match s.slot src with
    | some m =>
      if m.element = e ∧ (m.phase = .frozen ∨ m.phase = .stacked) ∧ atEnd (s.switchesOf e) m.target then some (src, m)
      else none
    | none => none)

/-- A source holds a motion of the element. -/
def State.hasMotion (s : State) (e : Element) : Bool :=
  allSources.any (fun src => match s.slot src with
    | some m => m.element = e
    | none => false)

/-- Every motion of any source for an element that has become FAILED is removed with "failed" (R82). Where a SAFETY close is
among them R97 would keep the others: DESIGN CHOICE, log entry 46. -/
def State.failMotions (e : Element) (s : State) : State :=
  allSources.foldl
    (fun s src => match s.slot src with
      | some m => if m.element = e then s.retire src m .failed else s
      | none => s) s

/-- The element becomes FAILED: its motions end, POSITION_CONFLICT is raised, and a grant decision follows the removal of a
motion (R82, R86). -/
def State.becomeFailed (e : Element) (s : State) : State :=
  let s' := ((s.setElement e .failed).failMotions e).emit (s.conflict e)
  s'.doIf (s.hasMotion e) (State.emit .grantDecision)

/-- A switch change on a driven element (R81). -/
def State.judgeDriven (src : Source) (m : Motion) (s : State) : State :=
  let sw := s.switchesOf m.element
  if sw.closed && sw.opened then
    (s.setElement m.element .failed).endWith src m .failed [s.conflict m.element]
  else if atEnd sw m.target then (s.reachEnd m.element m.target).endMotion src m .complete
  else s

/-- A switch change on an element that is not driven (R82). A FAILED element that shows the end of a stacked motion is taken
by the first case: DESIGN CHOICE, log entry 48. -/
def State.judgeAtRest (e : Element) (s : State) : State :=
  match s.restedMotion e with
  | some (src, m) => (s.reachEnd e m.target).endMotion src m .complete
  | none =>
    if s.element e = .failed then
      if atEnd (s.switchesOf e) .toClosed then s.reachClosed e else s
    else s.becomeFailed e

/-- A change of an element's end switches; it is acted on from the end of LOADING, not in UNCONFIGURED (R80). -/
def State.onSwitches (e : Element) (sw : Switches) (s : State) : State :=
  let s' := { s with pins := { s.pins with switches := s.pins.switches.set (elementIdx e) sw } }
  if sw = s.switchesOf e ∨ ¬ s.works ∨ ¬ s.drives e then s'
  else match s'.drivenBy e with
    | some (src, m) => s'.judgeDriven src m
    | none => s'.judgeAtRest e

/-- The allowance of the driving motion runs out: the element is HALTED, MOTION_TIMEOUT is raised, the pump is free
(R84). -/
def State.allowanceOut (s : State) : State :=
  match s.runningSource with
  | some src => match s.slot src with
    | some m =>
      if m.phase = .running then
        let r : Notice := .raise .motionTimeout (BitVec.ofNat 32 (elementCode m.element))
          (BitVec.ofNat 32 (targetCode m.target)) (Bound.ofUnit (elementUnit m.element))
        (s.haltMotion m).endWith src m .timedOut [r]
      else s
    | none => s
  | none => s

end Sys2Proof.Machine
end

