-- ==== Sys2Proof/Machine/Mode.lean ====
section
/-! DEFINITION. Mode Control's mode, stop state and wake (R40 to R49), and the beacon interval that follows the mode (R32). -/

namespace Sys2Proof.Machine
open Sys2Proof

/-! ### The beacon interval (R32) -/

/-- The interval R32 gives. -/
def State.intervalDue (s : State) : Interval :=
  if s.presence.clash then .fast else if s.ctl.mode = .resting then .rest else .normal

/-- Offer a beacon at once and start the beacon timer at the interval in use (R32). The timer runs from the offering, and is not
started again when a beacon that waited is placed: DESIGN CHOICE, log entry 73. -/
def State.beaconAtOnce (s : State) : State :=
  State.offerBeacon { s with presence := { s.presence with beaconTimer := some s.presence.interval.span } }

/-- When the interval changes, a beacon is offered at once and the timer restarts at the new interval (R32). -/
def State.refreshInterval (s : State) : State :=
  if s.intervalDue = s.presence.interval then s
  else State.beaconAtOnce { s with presence := { s.presence with interval := s.intervalDue } }

/-! ### The mode (R40, R41) -/

/-- Change the mode. The pump is stopped and not ready on entry into RESTING; the change is made known (R40, R41). Where CLEAR
restores WAKING from HELD the pump has run on, and the wake settle timer that runs is not started afresh: DESIGN CHOICE, log
entry 74. -/
def State.setMode (m : Mode) (s : State) : State :=
  if m = s.ctl.mode then s
  else
    let rests : Bool := m = .resting
    let c := { s.ctl with mode := m, wakeTimer := if rests then none else s.ctl.wakeTimer,
                          pumpReady := if rests then false else s.ctl.pumpReady }
    State.emit (.modeChanged s.ctl.mode m) (State.refreshInterval { s with ctl := c })

/-- Wake a RESTING station: the pump starts, the wake settle timer runs, and the wake source is recorded (R48). -/
def State.wake (src : WakeSource) (s : State) : State :=
  if s.ctl.mode = .resting then
    State.setMode .waking
      { s with ctl := { s.ctl with wakeTimer := some (sec s.cfg.wakeSettle), pumpReady := false, wakeSource := src } }
  else s

/-- The wake settle timer runs out: the pump is ready; WAKING becomes IN_SERVICE, and in HELD a saved prior mode WAKING
does (R41). -/
def State.wakeSettleExpiry (s : State) : State :=
  if s.ctl.wakeTimer.isSome then
    let s := { s with ctl := { s.ctl with wakeTimer := none, pumpReady := true } }
    match s.ctl.mode with
    | .waking => s.setMode .inService
    | .held =>
      let f := fun (r : FaultRecord) => if r.prior = .waking then { r with prior := .inService } else r
      State.emit .grantDecision { s with fault := { s.fault with record := s.fault.record.map f } }
    | _ => s
  else s

/-! ### The stop state (R43 to R45) -/

/-- Change the stop state; the change is made known (R44). -/
def State.setStop (x : StopState) (s : State) : State :=
  if x = s.ctl.stop then s else State.emit (.stopChanged s.ctl.stop x) { s with ctl := { s.ctl with stop := x } }

/-- A FLIGHT_STOP taken, or a press of the stop button, by the table of R43. -/
def State.stopTaken (s : State) : State :=
  match s.ctl.stop with
  | .stopClear => s.setStop .stopActive
  | .stopActive => s
  | .stopSettling => { s with ctl := { s.ctl with latch := true } }

/-- A RESUME taken, by the table of R43. -/
def State.resumeTaken (s : State) : State :=
  match s.ctl.stop with
  | .stopClear => s
  | .stopActive => State.setStop .stopSettling { s with ctl := { s.ctl with resumeTimer := some (sec 2) } }
  | .stopSettling => if s.ctl.latch then { s with ctl := { s.ctl with latch := false, resumeTimer := some (sec 2) } } else s

/-- The resume settle timer runs out, by the table of R43. -/
def State.resumeSettleExpiry (s : State) : State :=
  if s.ctl.resumeTimer.isSome ∧ s.ctl.stop = .stopSettling then
    let latched := s.ctl.latch
    State.setStop (if latched then .stopActive else .stopClear)
      { s with ctl := { s.ctl with resumeTimer := none, latch := false } }
  else s

/-- A FLIGHT_STOP of Mode Control's stands in the queue or waits for a place (R45). -/
def State.stopFrameOut (s : State) : Bool :=
  s.link.txq.any (fun f => f.block = .control && f.kind = .flightStop) || s.link.hasWaiting .control .flightStop

/-- A press of the stop button (R45). -/
def State.stopPress (s : State) : State :=
  let s := s.stopTaken
  if s.stopFrameOut then s else s.send .control .flightStop broadcastAddr []

/-- Mode Control's FLIGHT_STOP was not sent: it is offered once more when the stop state is STOP_ACTIVE (R45). -/
def State.stopNotSent (f : Offer) (s : State) : State :=
  if s.ctl.stop = .stopActive ∧ ¬ f.again then s.offer { frame .control .flightStop broadcastAddr [] with again := true }
  else s

/-- The Mode Control owner of FLIGHT_STOP (R43). -/
def State.onFlightStop (_rx : Rx) (s : State) : State := s.stopTaken

/-- The Mode Control owner of RESUME: one from another source than the desk is discarded (R43). -/
def State.onResume (rx : Rx) (s : State) : State := if rx.src = deskAddr then s.resumeTaken else s

/-! ### REST and WAKE (R46, R49) -/

/-- The claim register is FREE with no waiter (R29, R46). -/
def State.registerFree (s : State) : Bool := s.chamber.holder.kind = .free && s.chamber.waiter.kind = .none

/-- The crossing slot is EMPTY. -/
def CrossSlot.isEmpty (c : CrossSlot) : Bool := c.crossing?.isNone

/-- Both crossing slots of every boundary unit are empty (R46). -/
def State.slotsEmpty (s : State) : Bool :=
  s.lowerUnit.below.isEmpty && s.lowerUnit.above.isEmpty && s.headUnit.below.isEmpty && s.headUnit.above.isEmpty

/-- The conditions of R46. -/
def State.restAllowed (s : State) : Bool :=
  s.ctl.mode = .inService && s.chamber.occupancy = .empty && s.registerFree && s.chamber.lower.state = .none
    && s.slotsEmpty && s.allClosed && s.approach.queue.isEmpty
    && s.store.records.all (fun r => r.state = .closed) && s.pins.key = .auto

/-- The Mode Control owner of REST (R46, R47). -/
def State.onRest (rx : Rx) (s : State) : State :=
  if rx.broadcast then s
  else if s.restAllowed then s.setMode .resting
  else s.refuseRx .rest rx .busy

/-- The Mode Control owner of WAKE (R48, R49). -/
def State.onWake (rx : Rx) (s : State) : State := if rx.broadcast then s else s.wake .desk

end Sys2Proof.Machine
end

