-- ==== Sys2Proof/Machine/Chamber.lean ====
section
/-! DEFINITION. The Chamber Unit (chapter 4): levels and alarm, the claim register, the claim on the lower chamber, and
the level feed. -/

namespace Sys2Proof.Machine
open Sys2Proof

/-- Change the Chamber Unit. -/
def State.modChamber (f : Chamber → Chamber) (s : State) : State := { s with chamber := f s.chamber }

/-- Set the holder of the claim register. -/
def State.setHolder (h : Holder) (s : State) : State := s.modChamber (fun c => { c with holder := h })

/-- Set the waiter of the claim register. -/
def State.setWaiter (w : Waiter) (s : State) : State := s.modChamber (fun c => { c with waiter := w })

/-- The address of station k+1. -/
def State.upperAddr (s : State) : Addr := stationAddr (s.k + 1)

/-- The address of station k-1. -/
def State.lowerAddr (s : State) : Addr := stationAddr (s.k - 1)

/-! ### The level feed (R75) -/

/-- The two conditions of R75: the holder is UPPER, or ORPHANED with station k+1 PRESENT, and the chamber level is
VALID; the tag fed under. -/
def State.feedTag (s : State) : Option Nat :=
  match s.chamber.holder with
  | .upper c => if s.chamber.level.valid then some c.tag else none
  | .orphaned c => if s.chamber.level.valid ∧ s.isPresent (s.k + 1) then some c.tag else none
  | _ => none

/-- Send a feed; one still queued or waiting is replaced (R75, log entry 19). The 1 s to the next runs from its placing, and
from the replacing of a queued one. -/
def State.sendFeed (s : State) : State :=
  match s.feedTag with
  | none => s
  | some tag =>
    let p := byte tag :: bytes16 s.chamber.level.value
    let s := s.modChamber (fun c => { c with lastFed := c.level.value })
    if s.link.hasQueued .chamber .levelFeed then
      State.feedSent tag { s with link := s.link.replaceQueued .chamber .levelFeed p }
    else if s.link.hasWaiting .chamber .levelFeed then { s with link := s.link.replaceWaiting .chamber .levelFeed p }
    else s.send .chamber .levelFeed s.upperAddr p

/-- Where the two conditions of R75 do not hold, no feed is sent: one that is not yet placed is taken back, what waited behind it
goes on, and the feed that was due goes at once when they hold again. One that is placed has been sent: log entry 79. -/
def State.stopFeed (s : State) : State :=
  if s.feedTag.isNone && s.link.hasWaiting .chamber .levelFeed then
    State.serveAll (State.fillQueue { s with
      link := s.link.dropUnplaced .levelFeed, chamber := { s.chamber with feedTimer := none } })
  else s

/-- The 1 s since the last feed has passed (R75). -/
def State.feedTimerExpiry (s : State) : State :=
  if s.chamber.feedTimer.isSome then
    State.sendFeed (s.modChamber (fun c => { c with feedTimer := none }))
  else s

/-- A valid reading changes the level by 1 cm or more from the value last fed (R75). -/
def State.feedOnReading (s : State) : State := if s.chamber.level.value ≠ s.chamber.lastFed then s.sendFeed else s

/-! ### The claim register (R63 to R69) -/

/-- The conditions of R66 for a grant to UPPER. -/
def State.grantConditions (c : UpperClaim) (s : State) : Bool :=
  s.chamber.level.valid && s.ctl.mode ≠ .held && !s.isMarked (s.k + 1)
    && (c.purpose ≠ .gateDown || (s.chamber.occupancy = .empty && s.store.canReserve c.key c.need))

/-- Grant a claim to UPPER: the reservation and ARRIVING for GATE_DOWN, then CLAIM_GIVE, which counts as the first feed and
at its placing starts the 1 s to the next (R62, R66, R75). -/
def State.grantUpper (c : UpperClaim) (s : State) : State :=
  let s := s.setHolder (.upper c)
  let s := if c.purpose = .gateDown then
      (s.setStore (s.store.reserve c.key c.need)).setOccupancy .arriving c.key else s
  let s := s.modChamber (fun x => { x with lastFed := x.level.value })
  s.send .chamber .claimGive s.upperAddr (byte c.tag :: bytes16 s.chamber.level.value)

/-- Test the waiter for a grant, while the holder is FREE (R67). -/
def State.testWaiter (s : State) : State :=
  if s.chamber.holder.kind ≠ .free then s
  else match s.chamber.waiter with
    | .none => s
    | .self c =>
      State.emit (.ownClaim c.claimant c.purpose .held)
        (s.modChamber (fun x => { x with holder := .self c, waiter := .none, selfTimer := none }))
    | .upper c => if s.grantConditions c then (s.setWaiter .none).grantUpper c else s

/-- The holder has become FREE: the level feed stops, openings of boundaries whose claims are gone stop (R88), the waiter
is tested (R67), and the units learn of it (R51, R106). -/
def State.holderFreed (s : State) : State :=
  let s := State.claimsCeased (s.modChamber (fun c => { c with holder := .free, feedTimer := none }))
  s.stopFeed.testWaiter.emits [.holderFree, .localClaims]

/-- The unit stands as the SELF waiter. -/
def State.waitsOwn (s : State) (u : UnitId) : Bool :=
  match s.chamber.waiter with
  | .self c => c.claimant = u
  | _ => false

/-- A boundary unit asks for the own chamber as SELF (R64). -/
def State.askOwn (c : SelfClaim) (s : State) : State :=
  let u := c.claimant
  if s.holdsOwn u || s.waitsOwn u then s.emit (.ownClaim u c.purpose .busy)
  else if s.chamber.holder.kind = .free then (s.setHolder (.self c)).emit (.ownClaim u c.purpose .held)
  else if s.chamber.waiter.kind = .none then
    (s.modChamber (fun x => { x with waiter := .self c, selfTimer := some (sec s.cfg.claimWait) })).emit
      (.ownClaim u c.purpose .waiting)
  else s.emit (.ownClaim u c.purpose .busy)

/-- A unit releases the own chamber claim it holds (R64). -/
def State.releaseOwn (u : UnitId) (s : State) : State := if s.holdsOwn u then s.holderFreed else s

/-- A unit withdraws the own chamber claim it waits for (R64). -/
def State.withdrawOwn (u : UnitId) (s : State) : State :=
  if s.waitsOwn u then s.modChamber (fun x => { x with waiter := .none, selfTimer := none }) else s

/-- The claim wait limit of the SELF waiter runs out (R64). -/
def State.selfWaitExpiry (s : State) : State :=
  match s.chamber.waiter, s.chamber.selfTimer with
  | .self c, some _ =>
    (s.modChamber (fun x => { x with waiter := .none, selfTimer := none })).emits
      [.ownClaim c.claimant c.purpose .timedOut,
       .raise .claimTimeout (BitVec.ofNat 32 s.k) 0 (Bound.ofUnit c.claimant)]
  | _, _ => s

/-- Answer a CLAIM_ASK with a denial (R65). -/
def State.denyClaim (tag : Nat) (r : DenyReason) (s : State) : State :=
  s.send .chamber .claimDeny s.upperAddr [byte tag, byte r.code]

/-- The waiter is UPPER. -/
def Waiter.isUpper : Waiter → Bool
  | .upper _ => true
  | _ => false

/-- The tests of R65 in their order. -/
def State.dealClaimAsk (c : UpperClaim) (s : State) : State :=
  if s.isMarked (s.k + 1) then s.denyClaim c.tag .faulted
  else if s.chamber.holder.kind = .upper ∨ s.chamber.holder.kind = .orphaned ∨ s.chamber.waiter.isUpper then
    s.denyClaim c.tag .busy
  else if s.ctl.mode = .held then s.denyClaim c.tag .mode
  else if c.purpose = .gateDown ∧ 96 - s.store.closedPages < c.need then s.denyClaim c.tag .noSpace
  else if c.purpose = .gateUp ∧ ¬ (s.chamber.occupancy = .occupied ∧ s.chamber.key = c.key) then s.denyClaim c.tag .busy
  else if s.chamber.holder.kind = .free ∧ s.chamber.waiter.kind = .none ∧ s.grantConditions c then s.grantUpper c
  else if s.chamber.waiter.kind = .none then
    (s.setWaiter (.upper c)).send .chamber .claimWait s.upperAddr [byte c.tag]
  else s.denyClaim c.tag .busy

/-- The Chamber Unit's owner of CLAIM_ASK (R65); a RESTING station wakes first (R48). -/
def State.onClaimAsk (rx : Rx) (s : State) : State :=
  let p := rx.payload
  (s.wake .claim).dealClaimAsk
    { tag := byteAt p 0, purpose := (Purpose.ofCode? (byteAt p 1)).getD .gateUp, key := keyAt p 3, need := byteAt p 2 }

/-- A claim from above is released: the occupancy changes as R62 gives, then the register is free (R68, R69). -/
def State.releaseUpper (c : UpperClaim) (arrived : Bool) (s : State) : State :=
  let s := if c.purpose = .gateDown then
      if arrived then (s.setOccupancy .occupied c.key).emit (.handIn c.key s.upperAddr)
      else (s.setStore (s.store.returnReservation c.key)).setOccupancy .empty 0
    else s
  s.holderFreed

/-- The Chamber Unit's owner of CLAIM_DROP (R68). -/
def State.onClaimDrop (rx : Rx) (s : State) : State :=
  let tag := byteAt rx.payload 0
  let arrival : Bool := field (byteAt rx.payload 1) 0 1 = 1
  let key := keyAt rx.payload 2
  let waiterDrop := match s.chamber.waiter with
    | .upper w => if w.tag = tag then s.setWaiter .none else s
    | _ => s
  match s.chamber.holder with
  | .upper c | .orphaned c => if c.tag = tag then s.releaseUpper c (arrival && decide (key = c.key)) else waiterDrop
  | _ => waiterDrop

/-- Station k+1 has become LOST: an UPPER holder becomes ORPHANED, an UPPER waiter is dropped, and the feed waits for the
station's return (R69, R75). -/
def State.upperLost (s : State) : State :=
  let s := if s.chamber.waiter.isUpper then s.setWaiter .none else s
  match s.chamber.holder with
  | .upper c =>
    (s.setHolder (.orphaned c)).stopFeed.emit
      (.raise .claimOrphaned (BitVec.ofNat 32 (s.k + 1)) (BitVec.ofNat 32 c.tag) .none)
  | .orphaned _ => s.stopFeed
  | _ => s

/-- CLEAR for CLAIM_ORPHANED frees a holder that is still ORPHANED (R69, R193). -/
def State.clearOrphan (s : State) : State :=
  match s.chamber.holder with
  | .orphaned c => s.releaseUpper c false
  | _ => s

/-! ### The lower claim (R70 to R74, R77) -/

/-- Set the lower claim. -/
def State.setLower (l : LowerClaim) (s : State) : State := s.modChamber (fun c => { c with lower := l })

/-- Tell the lower unit of its lower claim. -/
def State.tellLower (n : LowerNotice) (s : State) : State := s.emit (.lowerClaim s.chamber.lower.purpose n)

/-- The lower claim becomes NONE and the fed level is discarded; openings that needed it stop (R74, R76, R88). -/
def State.endLower (s : State) : State :=
  let f := fun (c : Chamber) =>
    { c with lower := { c.lower with state := .none, tag := 0, timer := none, heldFor := 0 }, fed := none }
  (State.claimsCeased (s.modChamber f)).emit .localClaims

/-- A CLAIM_DROP for a tag of the lower claim (R71 to R74). -/
def dropOffer (dst : Addr) (tag : Nat) (arrival : Bool) (key : BatchKey) (cancels : Bool) : Offer :=
  { frame .chamber .claimDrop dst [byte tag, byte (bit arrival), key] with tag := tag, cancels := cancels }

/-- Send CLAIM_DROP to station k-1 (R71 to R74). A release frees its tag when it is sent, for a request that waits for one. -/
def State.sendDrop (tag : Nat) (arrival : Bool) (key : BatchKey) (cancels : Bool) (s : State) : State :=
  (s.offer (dropOffer s.lowerAddr tag arrival key cancels)).serveAll

/-- Cancel a tag and send its drop (R73). -/
def State.cancelTag (tag : Nat) (s : State) : State :=
  (s.modChamber (fun c => { c with cancelled := c.cancelled ++ [⟨tag, none⟩] })).sendDrop tag false 0 true

/-- Make the ask (R70). -/
def State.makeLowerAsk (s : State) : State :=
  let l := s.chamber.lower
  let s := s.setLower { l with state := .asked, tag := 0 }
  s.request { block := .chamber, kind := .claimAsk, dst := s.lowerAddr,
              body := [byte l.purpose.code, byte l.need, l.key], upper := none, key := 0 }

/-- The lower boundary unit asks for chamber k-1 (R70). -/
def State.askLower (purpose : Purpose) (key : BatchKey) (need : Nat) (s : State) : State :=
  if s.chamber.lower.state ≠ .none then s.emit (.lowerClaim purpose .busy)
  else if ¬ s.isPresent (s.k - 1) then s.emit (.lowerClaim purpose .peerLost)
  else
    let l : LowerClaim := { state := .deferred, tag := 0, purpose := purpose, key := key, need := need, timer := none,
                            heldFor := 0 }
    if s.isMarked (s.k - 1) then s.setLower l else (s.setLower l).makeLowerAsk

/-- The mark of station k-1 is cleared: a DEFERRED ask is made (R70). -/
def State.lowerUnmarked (s : State) : State := if s.chamber.lower.state = .deferred then s.makeLowerAsk else s

/-- The block's request of this kind stands behind an offer that waits for a place. -/
def Held.isAsk (b : Block) (k : Kind) : Held → Bool
  | .frame _ => false
  | .ask r => r.block = b && r.kind = k

/-- Take an ask that still waits for a pending-reply entry back (log entry 20). -/
def State.dropWaitingRequest (b : Block) (k : Kind) (s : State) : State :=
  State.dropHeld (Held.isAsk b k)
    { s with link := { s.link with requests := s.link.requests.filter (fun r => !(r.block = b && r.kind = k)) } }

/-- Give up an ask in ASKED or WAITING: a drop with its tag, which is cancelled (R72, R74, R77). -/
def State.giveUpAsk (s : State) : State :=
  let tag := s.chamber.lower.tag
  let s := s.endLower
  if tag = 0 then s.dropWaitingRequest .chamber .claimAsk else s.cancelTag tag

/-- The unit withdraws an unanswered claim (R74). -/
def State.withdrawLower (s : State) : State :=
  match s.chamber.lower.state with
  | .asked | .waiting => s.giveUpAsk
  | .deferred => s.endLower
  | _ => s

/-- The unit releases a HELD claim (R74). -/
def State.releaseLower (arrival : Bool) (key : BatchKey) (s : State) : State :=
  if s.chamber.lower.state = .held then
    let tag := s.chamber.lower.tag
    (s.endLower).sendDrop tag arrival key false
  else s

/-- Release the lower claim if it is HELD and withdraw it if it is asked (R52, R119). -/
def State.leaveLower (s : State) : State :=
  if s.chamber.lower.state = .held then s.releaseLower false 0 else s.withdrawLower

/-- A CLAIM_GIVE makes the lower claim HELD (R71). -/
def State.lowerHeld (level : Nat) (s : State) : State :=
  let f := fun (c : Chamber) =>
    { c with lower := { c.lower with state := .held, timer := none, heldFor := 0 },
             fed := some { value := level, age := 0, fresh := true } }
  (s.modChamber f).tellLower .held

/-- The ask ends without a grant (R71). -/
def State.lowerEnded (n : LowerNotice) (s : State) : State :=
  let p := s.chamber.lower.purpose
  s.endLower.emit (.lowerClaim p n)

/-- The ask with this tag stands in ASKED. -/
def State.asksLower (s : State) (tag : Nat) : Bool := s.chamber.lower.state = .asked && s.chamber.lower.tag = tag

/-- The Chamber Unit's owner of CLAIM_GIVE: matched under R19, then dealt with by its tag (R71, R73). The drop that answers
any other give holds no tag (log entry 47). -/
def State.onClaimGive (rx : Rx) (s : State) : State :=
  let tag := byteAt rx.payload 0
  let level := be16 rx.payload 1
  let entry := s.matchReply .claimGive rx.src tag
  let close := fun (x : State) => match entry with
    | some e => x.endEntry e.tag
    | none => x
  if (entry.isSome && s.asksLower tag) || (s.chamber.lower.state = .waiting && s.chamber.lower.tag = tag) then
    close (s.lowerHeld level)
  else if s.chamber.lower.state = .held ∧ s.chamber.lower.tag = tag then close s
  else close (s.send .chamber .claimDrop rx.src [byte tag, 0, 0])

/-- The Chamber Unit's owner of CLAIM_WAIT (R19, R71). -/
def State.onClaimWait (rx : Rx) (s : State) : State :=
  let tag := byteAt rx.payload 0
  match s.matchReply .claimWait rx.src tag with
  | none => s
  | some e =>
    let s := if s.asksLower tag then
        (s.setLower { s.chamber.lower with state := .waiting }).tellLower .waiting else s
    s.endEntry e.tag

/-- The reason a CLAIM_DENY gives (12.2); R7 lets the four named ones pass alone. -/
def deniedReason (p : List Byte) : DenyReason := (DenyReason.ofCode? (byteAt p 1)).getD .busy

/-- The Chamber Unit's owner of CLAIM_DENY: the unit is told "denied" with the reason (R19, R71). -/
def State.onClaimDeny (rx : Rx) (s : State) : State :=
  let tag := byteAt rx.payload 0
  match s.matchReply .claimDeny rx.src tag with
  | none => s
  | some e => (if s.asksLower tag then s.lowerEnded (.denied (deniedReason rx.payload)) else s).endEntry e.tag

/-- The ask was refused: the unit is told so with the reason (R71). -/
def State.claimRefused (tag : Nat) (r : Reason) (s : State) : State :=
  if s.asksLower tag then s.lowerEnded (.refused r) else s

/-- The ask was not sent (R71). -/
def State.claimNotSent (tag : Nat) (s : State) : State := if s.asksLower tag then s.lowerEnded .notSent else s

/-- The ask had no reply: a drop is sent and the tag cancelled (R71). -/
def State.claimNoReply (tag : Nat) (s : State) : State :=
  if s.asksLower tag then
    let p := s.chamber.lower.purpose
    (s.giveUpAsk).emit (.lowerClaim p .noReply)
  else s

/-- The claim wait timer runs out in ASKED or WAITING (R72). -/
def State.claimWaitExpiry (s : State) : State :=
  let l := s.chamber.lower
  if l.timer.isSome ∧ (l.state = .asked ∨ l.state = .waiting) then
    (s.giveUpAsk).emits [.lowerClaim l.purpose .timedOut,
      .raise .claimTimeout (BitVec.ofNat 32 (s.k - 1)) (BitVec.ofNat 32 l.tag) .lower]
  else s

/-- The 2 s of a cancelled tag have passed, and the tag is free (R73). -/
def State.cancelledTagExpiry (tag : Nat) (s : State) : State :=
  if s.chamber.cancelled.any (fun t => t.tag = tag && t.left.isSome) then
    State.serveAll (s.modChamber (fun c =>
      { c with cancelled := c.cancelled.filter (fun t => !(t.tag = tag && t.left.isSome)) }))
  else s

/-- A CLAIM_DROP was not sent: it is offered again (R74). -/
def State.dropNotSent (f : Offer) (s : State) : State := (s.offer f).serveAll

/-- Station k-1 has become LOST (R77). -/
def State.lowerPeerLost (s : State) : State :=
  let p := s.chamber.lower.purpose
  match s.chamber.lower.state with
  | .none => s
  | .held => s.emit (.lowerClaim p .peerLost)
  | .deferred | .asked | .waiting => s.withdrawLower.emit (.lowerClaim p .peerLost)

/-- A beacon of station k-1 that reports its register FREE or SELF while the claim has been HELD for at least two of its
announced intervals: the claim is lost (R77). -/
def State.claimLostTest (b : BeaconContents) (s : State) : State :=
  let l := s.chamber.lower
  if l.state = .held ∧ 2 * b.interval.span ≤ l.heldFor ∧ (b.holder = .free ∨ b.holder = .self) then
    s.endLower.emits [.lowerClaim l.purpose .claimLost,
      .raise .claimOrphaned (BitVec.ofNat 32 (s.k - 1)) (BitVec.ofNat 32 l.tag) .lower]
  else s

/-! ### The fed level (R76) -/

/-- The Chamber Unit's owner of LEVEL_FEED (R76). -/
def State.onLevelFeed (rx : Rx) (s : State) : State :=
  let level := be16 rx.payload 1
  match s.chamber.fed with
  | some old =>
    if s.chamber.lower.state = .held ∧ s.chamber.lower.tag = byteAt rx.payload 0 then
      let s := s.modChamber (fun c => { c with fed := some { value := level, age := 0, fresh := true } })
      if old.fresh ∧ old.value = level then s else s.emit .levelsChanged
    else s
  | none => s

/-- The age of the fed level reaches 3 s (R76). -/
def State.fedStale (s : State) : State :=
  match s.chamber.fed with
  | some f =>
    if f.fresh then (s.modChamber (fun c => { c with fed := some { f with fresh := false } })).emit .levelsChanged else s
  | none => s

/-! ### Levels (R57 to R60) -/

/-- The level of a line. -/
def State.levelOf (s : State) : LevelLine → Level
  | .chamber => s.chamber.level
  | .outer => s.chamber.outer

/-- Set the level of a line. -/
def State.setLevel (l : LevelLine) (x : Level) (s : State) : State :=
  match l with
  | .chamber => s.modChamber (fun c => { c with level := x })
  | .outer => s.modChamber (fun c => { c with outer := x })

/-- The level lines the station reads: the outer one only at an end station (R57). -/
def State.readsLine (s : State) : LevelLine → Bool
  | .chamber => true
  | .outer => s.isEnd

/-- A level that has become VALID with a value (R57, R58). -/
def validLevel (v : Nat) : Level :=
  { valid := true, value := v, lastValid := v, staleTimer := some (sec 1), lossTimer := none }

/-- The level becomes, or stays, UNKNOWN; the loss timer starts when it becomes so (R57, R58). -/
def Level.toUnknown (x : Level) : Level :=
  { x with valid := false, staleTimer := none, lossTimer := if x.valid then some (sec 5) else x.lossTimer }

/-- The alarm state a value gives (R59). -/
def State.alarmOf (s : State) (v : Nat) : AlarmState :=
  if s.cfg.overflow < v then .high else if v < s.cfg.floor then .low else .normal

/-- Raise LEVEL_ALARM: a RESTING station wakes, both ways water moves in the chamber are shut, and the fault is handed on
(R48, R59, R60). -/
def State.raiseAlarm (v limit : Nat) (s : State) : State :=
  let s := (s.wake .alarm).placeSafety .lower
  let s := if s.isHead then s.placeSafety .head else s.send .chamber .alarmClose s.upperAddr []
  s.emit (.raise .levelAlarm (BitVec.ofNat 32 v) (BitVec.ofNat 32 limit) .none)

/-- Test a valid chamber reading against the limits (R59). -/
def State.limitTest (v : Nat) (s : State) : State :=
  let a := s.alarmOf v
  if a = s.chamber.alarm then s
  else
    let s := s.modChamber (fun c => { c with alarm := a })
    let s := match a with
      | .normal => s
      | .high => s.raiseAlarm v s.cfg.overflow
      | .low => s.raiseAlarm v s.cfg.floor
    s.emit .alarmWaitTest

/-- ALARM_CLOSE was not sent: again while the alarm state is HIGH or LOW (R60). -/
def State.alarmCloseNotSent (f : Offer) (s : State) : State := if s.chamber.alarm = .normal then s else s.offer f

/-- A valid chamber reading: the limit test, then the feed, or on a level become VALID the feed at once or, while the
register is FREE, the test of the waiter, whose CLAIM_GIVE is a first feed (R67, R75). -/
def State.chamberReading (wasValid : Bool) (v : Nat) (s : State) : State :=
  let s := s.limitTest v
  if wasValid then s.feedOnReading else if s.chamber.holder.kind = .free then s.testWaiter else s.sendFeed

/-- A reading of a level line; a chamber level become UNKNOWN stops the feed (R57 to R59, R75). -/
def State.onReading (l : LevelLine) (value : BitVec 16) (valid : Bool) (s : State) : State :=
  if s.works && s.readsLine l then
    let old := s.levelOf l
    if valid ∧ value.toNat ≤ 2000 then
      let s := s.setLevel l (validLevel value.toNat)
      let s := match l with
        | .chamber => s.chamberReading old.valid value.toNat
        | .outer => s
      if old.valid ∧ old.value = value.toNat then s else s.emit .levelsChanged
    else
      let s := s.setLevel l old.toUnknown
      if old.valid then s.stopFeed.emit .levelsChanged else s
  else s

/-- 1 s has passed since the last reading of a line: the level becomes UNKNOWN, and no feed is sent (R57, R75). -/
def State.levelStale (l : LevelLine) (s : State) : State :=
  if (s.levelOf l).valid then (s.setLevel l (s.levelOf l).toUnknown).stopFeed.emit .levelsChanged else s

/-- The boundary and code of LEVEL_SENSOR for a line (R58). -/
def State.sensorRaise (s : State) : LevelLine → Notice
  | .chamber => .raise .levelSensor 1 (BitVec.ofNat 32 s.chamber.level.lastValid) .none
  | .outer => .raise .levelSensor 2 (BitVec.ofNat 32 s.chamber.outer.lastValid) (if s.isFoot then .lower else .head)

/-- A loss timer runs out (R58). -/
def State.levelLoss (l : LevelLine) (s : State) : State :=
  if (s.levelOf l).lossTimer.isSome then
    (s.setLevel l { s.levelOf l with lossTimer := none }).emit (s.sensorRaise l)
  else s

/-! ### ALARM_CLOSE (R98) -/

/-- The Drive Arbiter's owner of ALARM_CLOSE: S(k) is placed in the set with class REMOTE; a RESTING station wakes (R48,
R98). -/
def State.onAlarmClose (_rx : Rx) (s : State) : State := (s.wake .alarm).placeSafety .remote

end Sys2Proof.Machine
end

