-- ==== Sys2Proof/Machine/Toll.lean ====
section
/-! DEFINITION. The segments of a record (R159, 12.2) and the Toll Log (R177 to R182). -/

namespace Sys2Proof.Machine
open Sys2Proof

/-! ### Segments (9.3, 12.2) -/

/-- The three bytes common to every segment (12.2). -/
def segmentHead (key : BatchKey) (type pos index : Nat) : List Byte :=
  [key, byte (type * 64 + pos * 16), byte index]

/-- The flags byte of HEADER_B (12.2). -/
def Record.flagsByte (r : Record) : Nat :=
  bit r.timeUnknown + 2 * bit r.defaultGroup + 4 * bit r.truncated + 8 * bit r.assisted + 16 * bit (decide (r.carry ≠ 0))

/-- HEADER_A; `count` is the number of records it gives (12.2). -/
def Record.headerA (r : Record) (count : Nat) : Segment :=
  { payload := segmentHead r.key 0 r.position 0 ++ lowerHalf r.registration
      ++ [byte (r.cls.code * 64 + r.group * 8 + bit (keyFromHead r.key) * 4), byte (r.lengthClass * 16 + count * 4)],
    upper := upperHalf r.registration }

/-- HEADER_B (12.2). -/
def Record.headerB (r : Record) : Segment :=
  { payload := segmentHead r.key 1 r.position 1 ++ lowerHalf r.account ++ bytes16 r.entryDay.toNat
      ++ bytes16 r.entryMinute ++ [byte r.flagsByte, byte r.lines.length],
    upper := upperHalf r.account }

/-- CARRY, sent when the carry is not 0 (R159, 12.2). -/
def Record.carrySegments (r : Record) : List Segment :=
  if r.carry = 0 then []
  else [{ payload := segmentHead r.key 2 r.position 2 ++ lowerHalf r.carry, upper := upperHalf r.carry }]

/-- A LINE segment (12.2). -/
def Record.lineSegment (r : Record) (index : Nat) (l : Line) : Segment :=
  { payload := segmentHead r.key 3 r.position index ++ [byte (l.kind.code * 128 + l.band * 32 + l.chamber)]
      ++ lowerHalf l.amount,
    upper := upperHalf l.amount }

/-- The segments of one record in the order of R159. -/
def Record.segments (r : Record) (count : Nat) : List Segment :=
  let front := r.headerA count :: r.headerB :: r.carrySegments
  front ++ r.lines.mapIdx (fun i l => r.lineSegment (front.length + i) l)

/-- A REC_SEG as it is offered; the stream's number stands in the offer's tag field. -/
def Segment.toOffer (x : Segment) (b : Block) (dst : Addr) (stream : Nat) : Offer :=
  { frame b .recSeg dst x.payload with upper := x.upper, tag := stream }

/-! ### Closing (R177, R178) -/

/-- The log number after a log number: 65535 is followed by 1 (R177). -/
def nextLogNumber (n : Nat) : Nat := if n = 65535 then 1 else n + 1

/-- The total of a record: the sum of its line amounts plus its carry (R177, R178). -/
def Record.totalNow (r : Record) : BitVec 32 := feesOf ((r.lines.map (fun l => l.amount.toNat)).sum + r.carry.toNat)

/-- Close one RESIDENT record: it goes to the youngest end of the log with the next log number (R154, R178). -/
def State.closeRecord (s : State) (r : Record) : State :=
  let closed := { r with state := .closed, logNumber := s.toll.next, total := r.totalNow }
  if r.state = .resident ∧ s.store.records.contains r then
    { s with store := { s.store with records := s.store.records.erase r ++ [closed] },
             toll := { s.toll with next := nextLogNumber s.toll.next } }
  else s

/-- Send EXIT_NOTE to the end that admitted the batch (R178). -/
def State.sendExitNote (key : BatchKey) (s : State) : State :=
  s.send .toll .exitNote (stationAddr (if keyFromHead key then s.n - 1 else 0)) [key]

/-- Close the batch's records at its exit, in position order, then EXIT_NOTE and TOLL_READY (R178, R179). -/
def State.closeBatch (key : BatchKey) (s : State) : State :=
  (((s.store.batch key).foldl State.closeRecord s).sendExitNote key).offerTollReady

/-- TOLL_READY was not sent: again while the log holds a record (R179). -/
def State.tollReadyNotSent (s : State) : State := if s.store.log.isEmpty then s else s.offerTollReady

/-- The desk has become PRESENT: TOLL_READY goes out while the log holds a record (R179). The log belongs to an end
station that takes part in the flight's work. -/
def State.tollDeskPresent (s : State) : State :=
  if s.works && s.isEnd && !s.store.log.isEmpty then s.offerTollReady else s

/-! ### The log wait (R180) -/

/-- Offer LOG_FULL with the places needed (R180). -/
def State.sendLogFull (places : Nat) (again : Bool) (s : State) : State :=
  s.offer { frame .toll .logFull deskAddr ([byte places] ++ bytes16 s.store.oldest) with again := again }

/-- The unit that runs exits at this station: the head unit at the head, the lower unit at the foot (6.1). -/
def State.exitUnit (s : State) : UnitId := if s.isHead then .head else .lower

/-- LOG_FULL was not sent: once more while the crossing still stands in the log wait (R180), be it a later one: DESIGN CHOICE,
log entry 69. -/
def State.logFullNotSent (f : Offer) (s : State) : State :=
  if f.again then s
  else match (s.unit s.exitUnit).logWait, (s.unit s.exitUnit).active? with
    | true, some c => s.sendLogFull c.vessels true
    | _, _ => s

/-! ### The desk reads and removes (R181, R182) -/

/-- Set the read stream. -/
def State.setReadStream (r : Option ReadStream) (s : State) : State := { s with toll := { s.toll with stream := r } }

/-- The TOLL_END of a read stream (R181). -/
def ReadStream.endOffer (r : ReadStream) : Offer :=
  { frame .toll .tollEnd deskAddr ([byte r.tag] ++ bytes16 r.logNumber ++ lowerHalf r.total) with
    upper := upperHalf r.total, tag := r.number }

/-- Take the stream's number. -/
def State.takeStream (s : State) : State := { s with link := { s.link with nextStream := s.link.nextStream + 1 } }

/-- Abandon the read stream: what it has not yet offered is not offered, and its TOLL_END is not sent (R181). A segment that
waits for a place has been offered and is sent (log entry 53). -/
def State.abandonRead (s : State) : State :=
  match s.toll.stream with
  | none => s
  | some r => State.fillQueue { s.setReadStream none with link := s.link.breakStream .toll r.number }

/-- Offer the next segment of the read stream; after the last, TOLL_END (R181). -/
def State.readNext (s : State) : State :=
  match s.toll.stream with
  | none => s
  | some r =>
    match r.segments with
    | x :: xs => (s.setReadStream (some { r with segments := xs })).offer (x.toOffer .toll deskAddr r.number)
    | [] => s.offer r.endOffer

/-- The Toll Log's owner of TOLL_READ (R181). -/
def State.onTollRead (rx : Rx) (s : State) : State :=
  match s.store.log with
  | [] => s.refuseRx .tollRead rx .notHeld
  | r :: _ =>
    let s := s.abandonRead
    State.readNext (s.takeStream.setReadStream (some
      { number := s.link.nextStream, tag := byteAt rx.payload 0, logNumber := r.logNumber, total := r.total,
        segments := r.segments 1 }))

/-- A segment of the read stream was not sent: the stream is abandoned (R181). -/
def State.readNotSent (f : Offer) (s : State) : State :=
  if s.toll.stream.any (fun r => r.number = f.tag) then s.abandonRead else s

/-- The Toll Log's owner of TOLL_REMOVE (R182). -/
def State.onTollRemove (rx : Rx) (s : State) : State :=
  match s.store.log with
  | [] => s.refuseRx .tollRemove rx .badField
  | r :: _ =>
    if r.logNumber = be16 rx.payload 0 then
      let s := if s.toll.stream.any (fun x => x.logNumber = r.logNumber) then s.abandonRead else s
      ((s.setStore (s.store.freeOne r)).emit .logWaitTest).offerTollReady
    else s.refuseRx .tollRemove rx .badField

end Sys2Proof.Machine
end

