-- ==== Sys2Proof/Machine/Units.lean ====
section
/-! DEFINITION. The boundary units (chapter 6): crossing slots, the onward request, the seven steps, holds, restarts and
requeues. -/

namespace Sys2Proof.Machine
open Sys2Proof

/-- The units of the station: the lower one, and at the head station the head one (R100). -/
def State.units (s : State) : List UnitId := if s.isHead then [.lower, .head] else [.lower]

/-- Local working forbids the CLAIM step (R51). -/
def State.localBars (s : State) : Bool :=
  match s.ctl.localState with
  | .pending | .working | .closing => true
  | .auto | .refused => false

/-- Local working forbids sequencer requests (R51). -/
def State.localDrives (s : State) : Bool :=
  match s.ctl.localState with
  | .working | .closing => true
  | _ => false

/-- The crossing of the unit holds the own chamber. -/
def State.crossHoldsOwn (s : State) (u : UnitId) : Bool :=
  match s.chamber.holder with
  | .self c => c.claimant = u && c.purpose ≠ .localWork
  | _ => false

/-- The crossing of the unit holds the lower chamber. -/
def State.crossHoldsLower (s : State) (u : UnitId) : Bool :=
  s.needsLower u && s.chamber.lower.state = .held && s.chamber.lower.purpose ≠ .localWork

/-- The crossing of the unit holds a claim (R51, R118). -/
def State.crossHoldsAny (s : State) (u : UnitId) : Bool := s.crossHoldsOwn u || s.crossHoldsLower u

/-- The crossing of the unit holds every claim it needs (R105). -/
def State.crossHoldsAll (s : State) (u : UnitId) : Bool :=
  s.crossHoldsOwn u && (!s.needsLower u || s.crossHoldsLower u)

/-- The unit works in the step, with the claims of a restarted step asked again (R100, R116). -/
def BoundaryUnit.acts (b : BoundaryUnit) (st : Step) : Bool := b.worksIn st && !b.reclaim

/-- The unit's crossing stands in CLAIM, or asks again for the claims of a restarted step (R105, R116). -/
def BoundaryUnit.claims (b : BoundaryUnit) : Bool :=
  b.active?.isSome && (b.step = some .claim || b.reclaim) && !b.atClaimStart

/-- The purpose of a crossing's claims (R105). -/
def purposeOf : Direction → Purpose
  | .up => .gateUp
  | .down => .gateDown

/-- The crossing stands in EQUALIZE, OPEN or TRANSIT (R117). -/
def BoundaryUnit.midway (b : BoundaryUnit) : Bool :=
  b.step = some .equalize || b.step = some .openGate || b.step = some .transit

/-! ### Slots (R100, R101) -/

/-- Place a crossing in an EMPTY slot: it waits with the latest arrival mark (R101). -/
def State.placeCrossing (u : UnitId) (below : Bool) (c : Crossing) (s : State) : State :=
  let f := fun (b : BoundaryUnit) =>
    let w := CrossSlot.waiting { c with mark := b.nextMark }
    { b with below := if below then w else b.below, above := if below then b.above else w, nextMark := b.nextMark + 1 }
  (s.modUnit u f).emit (.beginCrossing u)

/-- The slot a unit begins with: the WAITING one with the earlier mark; true for BELOW (R101). -/
def BoundaryUnit.pick (b : BoundaryUnit) : Option (Bool × Crossing) :=
  match b.below.waiting?, b.above.waiting? with
  | some x, some y => if x.mark ≤ y.mark then some (true, x) else some (false, y)
  | some x, none => some (true, x)
  | none, some y => some (false, y)
  | none, none => none

/-- A unit as it begins a crossing, or after one has left it: no step, no hold and no timer (R101, R120). -/
def BoundaryUnit.cleared (b : BoundaryUnit) : BoundaryUnit :=
  { b with step := none, hold := .none, frozenHeld := false, frozenPeer := false, atClaimStart := false,
           busyOwn := false, waitPeer := false, reclaim := false, agreed := false, logWait := false, mismatch := false,
           wanted := none, count := 0, equalizeTimer := none, entryTimer := none, retryTimer := none }

/-- Begin a crossing where the conditions of R101 hold. -/
def State.beginCrossing (u : UnitId) (s : State) : State :=
  let b := s.unit u
  if !s.works || s.ctl.mode = .held || !b.idle then s
  else match b.pick with
    | none => s
    | some (below, c) =>
      let f := fun (b : BoundaryUnit) =>
        { b.cleared with below := if below then .active c else b.below,
                         above := if below then b.above else .active c, step := some .reserve }
      (s.modUnit u f).emit (.enterStep u)

/-! ### Going on from step to step (6.3, R186) -/

/-- The step after a step (6.3). -/
def Step.next : Step → Option Step
  | .reserve => some .claim
  | .claim => some .equalize
  | .equalize => some .openGate
  | .openGate => some .transit
  | .transit => some .closeGate
  | .closeGate => some .release
  | .release => none

/-- The unit as it enters a step: its timers and its detector count (R107, R110). -/
def State.entered (s : State) (st : Step) (c : Crossing) (b : BoundaryUnit) : BoundaryUnit :=
  { b with step := some st, hold := .none, atClaimStart := false, busyOwn := false, waitPeer := false, reclaim := false,
           agreed := false, logWait := false, mismatch := false, wanted := none, retryTimer := none,
           count := if st = .transit then 0 else b.count,
           equalizeTimer := if st = .equalize then some (sec s.cfg.equalizeLimit) else none,
           entryTimer := if st = .transit ∧ c.kind = .entry then some (sec s.cfg.entryLimit) else none }

/-- The occupancy at the entry into OPEN (R109, R113). -/
def State.occupyAtOpen (c : Crossing) (s : State) : State :=
  match c.kind, c.direction with
  | .entry, _ | .inner, .up => s.setOccupancy .arriving c.key
  | .inner, .down | .exit, _ => s.setOccupancy .leaving s.chamber.key

/-- The ACTIVE slot becomes EMPTY. -/
def BoundaryUnit.emptyActive (b : BoundaryUnit) : BoundaryUnit :=
  match b.below, b.above with
  | .active _, _ => { b with below := .empty }
  | _, .active _ => { b with above := .empty }
  | _, _ => b

/-- The crossing ends: its slot is EMPTY, the unit IDLE; the Approach Unit learns of the end of its entry, and of any
crossing of the approach boundary (R101, R127, R131). -/
def State.endCrossing (u : UnitId) (c : Crossing) (s : State) : State :=
  (s.modUnit u (fun b => b.emptyActive.cleared)).emits
    [.stepDone u c.key .release, if c.kind = .entry then .entryEnded c.key else .admissionTest, .beginCrossing u,
     .localClaims, .onwardTest]

/-- The step is completed: the Fault Unit learns of it, and the next step begins at once (6.3, R186). -/
def State.advance (u : UnitId) (s : State) : State :=
  let b := s.unit u
  match b.active?, b.step with
  | some c, some st =>
    match st.next with
    | none => s.endCrossing u c
    | some st' =>
      let s := (s.modUnit u (s.entered st' c)).emit (.stepDone u c.key st)
      let s := if st' = .openGate then s.occupyAtOpen c else s
      s.emit (.enterStep u)
  | _, _ => s

/-! ### Motions (R114) -/

/-- Ask for a motion through the unit's own source; while local working drives, the ask waits (R51, R114). -/
def State.askMotion (u : UnitId) (e : Element) (t : Target) (s : State) : State :=
  if s.localDrives then s.modUnit u (fun b => { b with wanted := some (e, t) })
  else (s.modUnit u (fun b => { b with wanted := none })).requestMotion (seqOf u) e t

/-- The unit's source holds a motion of this element toward this end. -/
def State.asksFor (s : State) (u : UnitId) (e : Element) (t : Target) : Bool :=
  match s.slot (seqOf u) with
  | some m => m.element = e && m.target = t
  | none => false

/-- Withdraw the unit's own motion of an element toward an end, if it has one (R87). -/
def State.withdrawMotion (u : UnitId) (e : Element) (t : Target) (s : State) : State :=
  if s.asksFor u e t then s.withdraw (seqOf u) false else s

/-- Set the hold of the active crossing (R100); a FROZEN crossing remembers it (R114). -/
def State.setHold (u : UnitId) (h : Hold) (s : State) : State := s.modUnit u (fun b => { b with hold := h, wanted := none })

/-- A recovery that closes this element is under way (R187). -/
def State.recovers (s : State) (e : Element) : Bool := s.fault.recoveries.any (fun r => r.element = some e)

/-- The gate close that waits for the unit's slot: a recovery's, not yet asked, while the recovery is under way (R187). -/
def State.closeWanted (s : State) (u : UnitId) : Option Element :=
  if (s.unit u).recoveryRunning then none else (s.unit u).recovery.filter s.recovers

/-- The unit's own source's slot is empty: a recovery's gate close is asked first, then the motion wanted again (R114,
R187). A motion that the step asks at once, on the notice of the one that ended, goes before the close: DESIGN CHOICE, log
entry 64. -/
def State.onSlotFree (u : UnitId) (s : State) : State :=
  let b := s.unit u
  if (s.slot (seqOf u)).isSome ∨ s.localDrives then s
  else match s.closeWanted u with
    | some e =>
      (s.modUnit u (fun b => { b with recoveryRunning := true })).requestMotion (seqOf u) e .toClosed
    | none => match b.wanted with
      | some (e, t) => if b.free then s.askMotion u e t else s
      | none => s

/-! ### RESERVE (R104) -/

/-- The test of RESERVE (R104). -/
def State.reserveTest (u : UnitId) (s : State) : State :=
  let b := s.unit u
  match b.acts .reserve, b.active? with
  | true, some c =>
    match c.kind, c.direction with
    | .inner, .up =>
      if s.chamber.occupancy = .empty ∧ s.store.canReserve c.key c.need then
        (s.setStore (s.store.reserve c.key c.need)).advance u
      else s
    | .exit, _ =>
      if c.vessels ≤ s.store.logFree then s.advance u
      else if b.logWait then s
      else (s.modUnit u (fun b => { b with logWait := true })).sendLogFull c.vessels false
    | _, _ => s.advance u
  | _, _ => s

/-! ### EQUALIZE (R107, R108) -/

/-- The level on the upper side of the boundary, when VALID (R107). -/
def State.upperLevel (s : State) : UnitId → Option Nat
  | .lower => s.chamber.level.report
  | .head => s.chamber.outer.report

/-- The fed level's value while one is held. -/
def State.fedValue (s : State) : Option Nat := s.chamber.fed.map FedLevel.value

/-- The fed level is FRESH. -/
def State.fedFresh (s : State) : Bool := s.chamber.fed.any FedLevel.fresh

/-- The level on the lower side of the boundary, when VALID (R107). -/
def State.lowerLevel (s : State) : UnitId → Option Nat
  | .lower => if s.hasLower then s.fedValue else s.chamber.outer.report
  | .head => s.chamber.level.report

/-- The two levels while they are usable (R107). -/
def State.usableLevels (s : State) (u : UnitId) : Option (Nat × Nat) :=
  match s.upperLevel u, s.lowerLevel u with
  | some a, some b => if !s.needsLower u || s.fedFresh then some (a, b) else none
  | _, _ => none

/-- Two levels agree within the tolerance (R107). -/
def State.levelsAgree (s : State) (a b : Nat) : Bool := decide (a - b ≤ s.cfg.tolerance) && decide (b - a ≤ s.cfg.tolerance)

/-- Ask the sluice toward CLOSED unless it is CLOSED or its close is asked already. -/
def State.askSluiceClosed (u : UnitId) (s : State) : State :=
  if s.element (sluiceOf u) = .closed ∨ s.asksFor u (sluiceOf u) .toClosed then s
  else s.askMotion u (sluiceOf u) .toClosed

/-- The level test of EQUALIZE (R107, R108). -/
def State.equalizeTest (u : UnitId) (s : State) : State :=
  let b := s.unit u
  if !b.acts .equalize || b.agreed then s
  else match s.usableLevels u with
    | some (x, y) =>
      if s.levelsAgree x y then
        let s := s.modUnit u (fun b => { b with agreed := true, equalizeTimer := none, wanted := none })
        let s := s.withdrawMotion u (sluiceOf u) .toOpen
        if s.element (sluiceOf u) = .closed then s.advance u else s.askSluiceClosed u
      else if s.element (sluiceOf u) = .opened ∨ s.asksFor u (sluiceOf u) .toOpen then s
      else s.askMotion u (sluiceOf u) .toOpen
    | none =>
      let s := s.modUnit u (fun b => { b with wanted := none })
      (s.withdrawMotion u (sluiceOf u) .toOpen).askSluiceClosed u

/-- The equalize timer runs while the crossing is not FROZEN and no stop holds it (R108, R115, R116). -/
def State.crossTimersRun (s : State) (u : UnitId) : Bool := !(s.unit u).frozen && s.ctl.stop = .stopClear

/-- A level as EQUALIZE_TIMEOUT carries it: 0 if not VALID (R108). Log entry 32. -/
def levelValue (l : Option Nat) : BitVec 32 := BitVec.ofNat 32 (l.getD 0)

/-- The equalize timer runs out (R108). -/
def State.equalizeExpiry (u : UnitId) (s : State) : State :=
  let b := s.unit u
  if b.step = some .equalize ∧ b.equalizeTimer.isSome ∧ s.crossTimersRun u then
    let s := s.modUnit u (fun b => { b with equalizeTimer := none })
    let s := (s.withdrawMotion u (sluiceOf u) .toOpen).withdrawMotion u (sluiceOf u) .toClosed
    ((s.placeSafety (unitClass u)).setHold u .recoveryWait).emit
      (.raise .equalizeTimeout (levelValue (s.upperLevel u)) (levelValue (s.lowerLevel u)) (Bound.ofUnit u))
  else s

/-! ### TRANSIT (R110, R111, R113) -/

/-- The Record Store at the end of an entry's TRANSIT (R157). -/
def State.entryRecords (key : BatchKey) (entered : Nat) (s : State) : State :=
  let noShow := fun (r : Record) => r.state = .created && decide (entered < r.position)
  let s := (s.setStore (s.store.freeWhere key noShow)).addLines .chamber key .created
  { s with store := s.store.move key .created .resident }

/-- The Approach Unit at the end of an entry's TRANSIT: the members up to the count ENTERED, the rest NO_SHOW; the key of
a batch that ended empty leaves the in-flight list at once (R131, R132, R143). -/
def State.entryMembers (key : BatchKey) (entered : Nat) (s : State) : State :=
  let f := fun (b : Batch) =>
    { b with members := b.members.mapIdx (fun i m => { m with state := if i < entered then .entered else .noShow }) }
  let s := { s with approach := { s.approach with batch := s.approach.batch.map f } }
  if entered = 0 then
    State.emit .admissionTest
      { s with token := { s.token with inFlight := s.token.inFlight.filter (fun x => x.key ≠ key) } }
  else s

/-- The hooks at the end of TRANSIT (R110, R113). -/
def State.transitHooks (c : Crossing) (count : Nat) (s : State) : State :=
  match c.kind, c.direction with
  | .entry, _ =>
    let s := (s.entryRecords c.key count).entryMembers c.key count
    if count = 0 then s.setOccupancy .empty 0 else s.setOccupancy .occupied c.key
  | .inner, .up => s.setOccupancy .occupied c.key
  | .inner, .down => s
  | .exit, _ => (s.closeBatch c.key).setOccupancy .empty 0

/-- TRANSIT ends, and CLOSE begins (R110, R113). -/
def State.endTransit (u : UnitId) (s : State) : State :=
  match (s.unit u).active? with
  | some c => (s.transitHooks c (s.unit u).count).advance u
  | none => s

/-- TRANSIT ends when the count equals the vessel count, or at a restart after a DETECTOR_MISMATCH (R110, R111). -/
def State.transitTest (u : UnitId) (s : State) : State :=
  let b := s.unit u
  match b.acts .transit, b.active? with
  | true, some c => if b.mismatch ∨ b.count = c.vessels then s.endTransit u else s
  | _, _ => s

/-- The entry time limit runs out with the count below the vessel count (R110). -/
def State.entryExpiry (u : UnitId) (s : State) : State :=
  let b := s.unit u
  if b.step = some .transit ∧ b.entryTimer.isSome ∧ s.crossTimersRun u then
    let s := s.modUnit u (fun b => { b with entryTimer := none })
    if b.acts .transit then
      (s.modUnit u (fun b => b.mapActive (fun c => { c with vessels := b.count }))).endTransit u
    else s
  else s

/-- Raise DETECTOR_MISMATCH for a boundary (R111). -/
def State.raiseMismatch (u : UnitId) (v1 v2 : Nat) (s : State) : State :=
  s.emit (.raise .detectorMismatch (BitVec.ofNat 32 v1) (BitVec.ofNat 32 v2) (Bound.ofUnit u))

/-- A crossing in TRANSIT takes hold RECOVERY_WAIT before the raise (R111). -/
def State.mismatchHold (u : UnitId) (s : State) : State :=
  (s.setHold u .recoveryWait).modUnit u (fun b => { b with mismatch := true })

/-- A pulse of the crossing detector (R110, R111). -/
def State.onPassage (u : UnitId) (d : Direction) (s : State) : State :=
  let b := s.unit u
  if !s.works || !s.units.contains u then s
  else match b.active?, b.step with
    | some c, some .transit =>
      if d = c.direction then
        let s := s.modUnit u (fun b => { b with count := b.count + 1 })
        if c.vessels < b.count + 1 then (s.mismatchHold u).raiseMismatch u (b.count + 1) c.vessels
        else s.transitTest u
      else if b.count = 0 then (s.mismatchHold u).raiseMismatch u 0 (directionCode d)
      else (s.modUnit u (fun b => { b with count := b.count - 1 })).transitTest u
    | _, _ => s.raiseMismatch u 0 (directionCode d)

/-! ### RELEASE (R112) -/

/-- RELEASE: the claims are given back and the batch is handed on (R112). -/
def State.releaseStep (u : UnitId) (c : Crossing) (s : State) : State :=
  let s := if s.crossHoldsOwn u then s.releaseOwn u else s
  let s := if s.crossHoldsLower u then s.releaseLower (c.direction = .down) c.key else s
  let s := if c.kind = .inner ∧ c.direction = .up then s.emit (.handIn c.key s.lowerAddr) else s
  s.advance u

/-! ### CLAIM and the steps' action (R105, R106, R116) -/

/-- Begin a step's own action, on entry or at a restart (R104 to R112, R116). -/
def State.actStep (u : UnitId) (s : State) : State :=
  let b := s.unit u
  match b.active?, b.step with
  | some c, some st =>
    match st with
    | .reserve => s.reserveTest u
    | .claim => s
    | .equalize => s.equalizeTest u
    | .openGate => s.askMotion u (gateOf u) .toOpen
    | .transit => s.transitTest u
    | .closeGate => s.askMotion u (gateOf u) .toClosed
    | .release => s.releaseStep u c
  | _, _ => s

/-- Every claim is held: CLAIM ends, or the restarted step begins (R105, R116). EQUALIZE and the entry time limit start at
their full value. -/
def State.claimsComplete (u : UnitId) (s : State) : State :=
  let b := s.unit u
  match b.active?, b.step with
  | some _, some .claim => s.advance u
  | some c, some st =>
    let f := fun (b : BoundaryUnit) =>
      { b with reclaim := false, agreed := false,
               equalizeTimer := if st = .equalize then some (sec s.cfg.equalizeLimit) else none,
               entryTimer := if st = .transit ∧ c.kind = .entry then some (sec s.cfg.entryLimit) else none }
    (s.modUnit u f).actStep u
  | _, _ => s

/-- Ask for the claims not yet held (R105); local working holds back a crossing that holds none (R51, R118). -/
def State.claimStep (u : UnitId) (s : State) : State :=
  match (s.unit u).active? with
  | none => s
  | some c =>
    if s.localBars ∧ ¬ s.crossHoldsAny u then s.modUnit u (fun b => { b with atClaimStart := true })
    else
      let s := s.modUnit u (fun b =>
        { b with atClaimStart := false, busyOwn := false, waitPeer := false, retryTimer := none })
      let p := purposeOf c.direction
      if ¬ s.crossHoldsOwn u then
        if s.waitsOwn u then s else s.askOwn { claimant := u, purpose := p, key := c.key }
      else if s.needsLower u ∧ ¬ s.crossHoldsLower u then
        if s.chamber.lower.state = .none then
          s.askLower p c.key (if p = .gateDown then s.store.pageNeed c.key else 0)
        else s
      else s.claimsComplete u

/-- A step is entered: its action begins unless the crossing has been frozen meanwhile (6.3, R116). -/
def State.enterStep (u : UnitId) (s : State) : State :=
  let b := s.unit u
  if !b.free then s
  else if b.step = some .claim then s.claimStep u
  else s.actStep u

/-- Go on with the claims when the crossing is free to (R105, R106). -/
def State.claimOn (u : UnitId) (s : State) : State :=
  if (s.unit u).claims && (s.unit u).free then s.claimStep u else s

/-- Give the own chamber back (R106, R119). -/
def State.giveOwn (u : UnitId) (s : State) : State := if s.crossHoldsOwn u then s.releaseOwn u else s

/-- What a unit does on the notice of its own chamber ask (R105, R106). -/
def State.onOwnClaim (u : UnitId) (n : OwnNotice) (s : State) : State :=
  if !(s.unit u).claims then s
  else match n with
    | .held => s.claimOn u
    | .waiting => s
    | .busy => s.modUnit u (fun b => { b with busyOwn := true })
    | .timedOut => (s.giveOwn u).setHold u .recoveryWait

/-- The register's holder has become FREE: a unit told "busy" asks again (R106). -/
def State.onHolderFree (s : State) : State :=
  s.units.foldl (fun s u => if (s.unit u).busyOwn then s.claimOn u else s) s

/-- Freeze the crossing at the loss of station k-1 (R117). -/
def State.freezePeer (s : State) : State :=
  let b := s.lowerUnit
  let s := s.modUnit .lower (fun b => { b with frozenPeer := true, wanted := none })
  match b.step with
  | some .equalize =>
    let s := (s.withdrawMotion .lower .lowerSluice .toOpen).withdrawMotion .lower .lowerSluice .toClosed
    if s.element .lowerSluice = .closed then s else s.placeSafety .lower
  | some .openGate => s.withdrawMotion .lower .lowerGate .toOpen
  | _ => s

/-- What the lower unit does on the notice of its lower claim (R105, R106, R117). "Claim lost" gives RECOVERY_WAIT to a
crossing in EQUALIZE, OPEN or TRANSIT whether or not it is FROZEN, and a sluice that rests OPEN then is left OPEN: DESIGN
CHOICE, log entry 49. "Peer lost" gives back the own
chamber in CLAIM where the lower claim is HELD too: DESIGN CHOICE, log entry 67. -/
def State.onLowerClaim (n : LowerNotice) (s : State) : State :=
  let b := s.lowerUnit
  match n with
  | .held => s.claimOn .lower
  | .waiting | .busy => s
  | .denied _ | .refused _ | .notSent | .noReply =>
    if b.claims then
      (s.giveOwn .lower).modUnit .lower (fun b => { b with retryTimer := some (sec 2) })
    else s
  | .peerLost =>
    if b.midway && s.chamber.lower.state = .held then s.freezePeer
    else if b.claims then (s.giveOwn .lower).modUnit .lower (fun b => { b with waitPeer := true })
    else s
  | .timedOut => if b.claims then (s.giveOwn .lower).setHold .lower .recoveryWait else s
  | .claimLost =>
    if b.midway then
      (s.modUnit .lower (fun b => { b with frozenPeer := false })).setHold .lower .recoveryWait
    else s

/-- 2 s after an ask ended without a grant, CLAIM begins again (R106). -/
def State.claimRetry (u : UnitId) (s : State) : State :=
  if (s.unit u).retryTimer.isSome then (s.modUnit u (fun b => { b with retryTimer := none })).claimOn u else s

/-! ### Restart and requeue (R116, R119) -/

/-- Requeue the crossing: its claims are given back and its slot waits with a new mark (R119). -/
def State.requeue (u : UnitId) (s : State) : State :=
  match (s.unit u).active? with
  | none => s
  | some _ =>
    let s := s.giveOwn u
    let s := if s.needsLower u ∧ s.chamber.lower.purpose ≠ .localWork then s.leaveLower else s
    let f := fun (b : BoundaryUnit) =>
      let re := fun (x : CrossSlot) => match x with
        | .active c => .waiting { c with mark := b.nextMark, requeued := true }
        | y => y
      { b.cleared with below := re b.below, above := re b.above, nextMark := b.nextMark + 1 }
    (s.modUnit u f).emits [.beginCrossing u, .localClaims]

/-- Withdraw the unit's own motion that is pending, frozen or stacked (R116). -/
def State.withdrawWaiting (u : UnitId) (s : State) : State :=
  match s.slot (seqOf u) with
  | some m => if m.phase = .running then s else s.withdraw (seqOf u) false
  | none => s

/-- The recovery's place is the unit's active crossing (R184). -/
def BoundaryUnit.isPlace (u : UnitId) (b : BoundaryUnit) (r : Recovery) : Bool :=
  r.place.any (fun p => p.bound = Bound.ofUnit u && b.active?.any (fun c => c.key = p.key))

/-- HELD ends for the unit's crossing, and with it every recovery under way that closes the unit's gate is overtaken: each has
that crossing as its place. A recovery of another place, or of none, is not (R187). -/
def State.closeOvertaken (s : State) (u : UnitId) : Bool :=
  (s.unit u).frozenHeld && s.fault.recoveries.all (fun r => r.element ≠ some (gateOf u) || (s.unit u).isPlace u r)

/-- What a restart leaves of a recovery's gate close (R116, R187): one that drives goes on; one that is overtaken, or whose
gate is CLOSED, is not asked again; any other, withdrawn by the restart or not yet asked, is asked when the slot next empties:
DESIGN CHOICE, log entry 76. -/
def BoundaryUnit.recoveryAfter (overtaken withdrawn closed : Bool) (b : BoundaryUnit) : BoundaryUnit :=
  let runs := b.recoveryRunning && !withdrawn
  { b with recovery := if (overtaken || closed) && !runs then none else b.recovery, recoveryRunning := runs }

/-- Restart the step of the active crossing (R116); a crossing found in CLAIM with hold RECOVERY_WAIT is requeued
(R119). -/
def State.restartStep (u : UnitId) (s : State) : State :=
  let b := s.unit u
  match b.step with
  | none => s
  | some st =>
    let asked := (s.slot (seqOf u)).isSome
    let s := s.withdrawWaiting u
    let withdrawn := asked && (s.slot (seqOf u)).isNone
    let closed := decide (s.element (gateOf u) = .closed)
    let overtaken := s.closeOvertaken u
    let f := fun (b : BoundaryUnit) =>
      { b.recoveryAfter overtaken withdrawn closed with
        hold := .none, frozenHeld := false, frozenPeer := false, wanted := none, busyOwn := false, waitPeer := false,
        retryTimer := none, logWait := false, atClaimStart := false }
    let s := s.modUnit u f
    match st with
    | .claim => if b.hold = .recoveryWait then s.requeue u else s.claimStep u
    | .equalize | .openGate | .transit => (s.modUnit u (fun b => { b with reclaim := true })).claimStep u
    | .reserve | .closeGate | .release => s.actStep u

/-- The conditions under which a crossing leaves ALARM_WAIT (R114). -/
def State.alarmOver (s : State) (u : UnitId) : Bool :=
  s.chamber.alarm = .normal && s.activeCause ≠ some .levelAlarm
    && s.drive.safetySet.all (fun c => classElement c ≠ sluiceOf u)
    && (!s.needsLower u || (s.peer (s.k - 1)).contents.all (fun b => b.cause ≠ some .levelAlarm))

/-- Test every crossing in ALARM_WAIT (R114). -/
def State.alarmWaitTest (s : State) : State :=
  s.units.foldl
    (fun s u => if (s.unit u).hold = .alarmWait && !(s.unit u).frozen && s.alarmOver u then s.restartStep u else s) s

/-- Station k-1 is PRESENT and the fed level FRESH: a crossing that R117 holds frozen restarts its step. -/
def State.peerRestartTest (s : State) : State :=
  let b := s.lowerUnit
  if b.frozenPeer && !b.frozenHeld && s.isPresent (s.k - 1) && s.fedFresh then s.restartStep .lower else s

/-- When the mode becomes HELD every active crossing is FROZEN (R116). -/
def State.freezeUnits (s : State) : State :=
  s.units.foldl
    (fun s u => s.modUnit u (fun b => if b.idle then b else { b with frozenHeld := true, wanted := none })) s

/-- When the mode leaves HELD each frozen crossing restarts its step; one that R117 also holds waits for station k-1
(R116, R193). -/
def State.unfreezeUnits (s : State) : State :=
  s.units.foldl
    (fun s u =>
      let b := s.unit u
      if !b.frozenHeld then s
      else if b.frozenPeer then
        let overtaken := s.closeOvertaken u
        (s.modUnit u (fun b => { b.recoveryAfter overtaken false false with frozenHeld := false })).peerRestartTest
      else s.restartStep u) s

/-- A restart asked by a recovery: only if the crossing still stands in that step with hold RECOVERY_WAIT, not FROZEN
(R187). -/
def State.recoveryRestart (u : UnitId) (key : BatchKey) (st : Step) (s : State) : State :=
  let b := s.unit u
  match b.active? with
  | some c =>
    if c.key = key ∧ b.step = some st ∧ b.hold = .recoveryWait ∧ ¬ b.frozen then s.restartStep u else s
  | none => s

/-- The recovery of DETECTOR_MISMATCH: a TRANSIT in RECOVERY_WAIT restarts and accepts the count (R187). -/
def State.transitRecovered (u : UnitId) (s : State) : State :=
  let b := s.unit u
  if b.step = some .transit ∧ b.hold = .recoveryWait ∧ ¬ b.frozen then s.restartStep u else s

/-- The recovery of CLAIM_TIMEOUT: a crossing in CLAIM with hold RECOVERY_WAIT is requeued (R187). -/
def State.timeoutRecovered (u : UnitId) (s : State) : State :=
  let b := s.unit u
  if b.step = some .claim ∧ b.hold = .recoveryWait ∧ ¬ b.frozen then s.requeue u else s

/-- A recovery closes a gate through its unit's source (R187). -/
def State.recoverGate (u : UnitId) (e : Element) (s : State) : State :=
  (s.modUnit u (fun b => { b with recovery := some e, recoveryRunning := false })).onSlotFree u

/-! ### Notices of motions (R114) -/

/-- The step goes on when its motion is complete (R107, R109, R112). -/
def State.motionComplete (u : UnitId) (s : State) : State :=
  let b := s.unit u
  if b.acts .equalize then
    if b.agreed && s.element (sluiceOf u) = .closed then s.advance u else s.equalizeTest u
  else if b.acts .openGate then if s.element (gateOf u) = .opened then s.advance u else s
  else if b.acts .closeGate then if s.element (gateOf u) = .closed then s.advance u else s
  else s

/-- What the unit does on a notice of its step's motion (R114). -/
def State.stepMotion (u : UnitId) (e : Element) (t : Target) (n : MotionNotice) (atOnce : Bool) (s : State) : State :=
  let b := s.unit u
  match n with
  | .complete => s.motionComplete u
  | .cancelled => (s.setHold u .alarmWait).emit .alarmWaitTest
  | .timedOut => s.setHold u .recoveryWait
  | .failed =>
    (s.setHold u .recoveryWait).doIf (atOnce && t = .toOpen) (State.emit (s.conflict e))
  | .noClaim =>
    let s := if s.element (sluiceOf u) = .closed then s else s.placeSafety (unitClass u)
    s.setHold u .recoveryWait
  | .withdrawn => if b.free then s.askMotion u e t else s
  | .busy => if b.free then s.modUnit u (fun b => { b with wanted := some (e, t) }) else s

/-- What the unit does on a notice of a recovery's gate close (R187), "withdrawn" where it is asked again. -/
def State.recoveryMotion (u : UnitId) (e : Element) (n : MotionNotice) (atOnce : Bool) (s : State) : State :=
  let ended := s.modUnit u (fun b => { b with recovery := none, recoveryRunning := false })
  match n with
  | .complete => ended.doIf atOnce (State.emit (.elementClosed e))
  | .withdrawn => s.modUnit u (fun b => { b with recoveryRunning := false })
  | _ => ended

/-- A sequencer's notice (R86, R114, R187). "Busy" answers the step's own ask alone, since a recovery's close is asked into an
empty slot. -/
def State.onMotion (u : UnitId) (e : Element) (t : Target) (n : MotionNotice) (atOnce : Bool) (s : State) : State :=
  let b := s.unit u
  if b.recoveryRunning ∧ b.recovery = some e ∧ t = .toClosed ∧ n ≠ .busy then s.recoveryMotion u e n atOnce
  else if b.idle then s
  else s.stepMotion u e t n atOnce

/-! ### Local working (R51, R118) -/

/-- When PENDING begins, a crossing in CLAIM that holds no claim withdraws its asks and waits at the start of CLAIM
(R118). -/
def State.suspendClaims (s : State) : State :=
  s.units.foldl
    (fun s u =>
      let b := s.unit u
      if b.claims && b.free && !s.crossHoldsAny u then
        let s := s.withdrawOwn u
        let s := if s.needsLower u then s.withdrawLower else s
        s.modUnit u (fun b =>
          { b with atClaimStart := true, busyOwn := false, waitPeer := false, retryTimer := none })
      else s) s

/-- When the local state becomes AUTO or REFUSED the crossings held back proceed (R51, R118). -/
def State.localResume (s : State) : State :=
  if s.localBars then s
  else s.units.foldl
    (fun s u =>
      let s := if (s.unit u).atClaimStart && (s.unit u).free then s.claimStep u else s
      s.onSlotFree u) s

/-- No crossing of the station holds a claim (R51). -/
def State.noCrossingClaims (s : State) : Bool := s.units.all (fun u => !s.crossHoldsAny u)

/-! ### The onward request (R102) and CROSS_ASK (R103) -/

/-- The chamber batch is ready to go on (R102). -/
def State.readyOn (s : State) : Bool :=
  s.chamber.occupancy = .occupied && s.chamber.key ≠ 0 && s.store.allResident s.chamber.key

/-- Change the onward request. -/
def State.modOnward (f : Onward → Onward) (s : State) : State := { s with onward := f s.onward }

/-- The crossing of an onward request placed in this station's own slot (R102). -/
def State.onwardCrossing (s : State) (kind : CrossKind) : Crossing :=
  { kind := kind, direction := keyDirection s.chamber.key, key := s.chamber.key,
    vessels := (s.store.batch s.chamber.key).length, need := 0, requester := .ownChamber, mark := 0,
    requeued := false }

/-- Ask station k+1 for the crossing (R102). -/
def State.askOnward (s : State) : State :=
  if s.isPresent (s.k + 1) && !s.isMarked (s.k + 1) then
    let p := [s.chamber.key, byte (s.store.batch s.chamber.key).length, byte (s.store.pageNeed s.chamber.key)]
    (s.modOnward (fun o => { o with state := .asking 0, retryTimer := none, repeatTimer := none, repeatDue := false })).request
      { block := .lowerUnit, kind := .crossAsk, dst := s.upperAddr, body := p, upper := none, key := 0 }
  else s

/-- Make the onward request of a batch that is ready (R102). -/
def State.makeOnward (s : State) : State :=
  match keyDirection s.chamber.key with
  | .down =>
    if s.lowerUnit.above.isEmpty then
      (s.modOnward (fun o => { o with state := .placed })).placeCrossing .lower false
        (s.onwardCrossing (if s.isFoot then .exit else .inner))
    else s
  | .up =>
    if s.isHead then
      if s.headUnit.below.isEmpty then
        (s.modOnward (fun o => { o with state := .placed })).placeCrossing .head true (s.onwardCrossing .exit)
      else s
    else s.askOnward

/-- The register's holder is UPPER with the chamber batch's key (R102). -/
def State.upperHasBatch (s : State) : Bool :=
  match s.chamber.holder with
  | .upper c => c.key = s.chamber.key
  | _ => false

/-- Make the onward request, or repeat it, where its time has come; a repeat that waited and finds the holder UPPER with the
batch's key is looked at again 30 s later (R102). -/
def State.onwardTest (s : State) : State :=
  if !s.works || s.ctl.mode = .held || !s.readyOn then s
  else match s.onward.state with
    | .unasked => if s.onward.retryTimer.isNone then s.makeOnward else s
    | .taken =>
      if !s.onward.repeatDue then s
      else if s.upperHasBatch then s.modOnward (fun o => { o with repeatTimer := some (sec 30), repeatDue := false })
      else s.askOnward
    | .asking _ | .placed => s

/-- The onward request ends when the occupancy leaves OCCUPIED (R102). An ask that has its tag and waits for a place is still
sent: DESIGN CHOICE, log entry 20. -/
def State.onwardEnd (s : State) : State :=
  if s.chamber.occupancy = .occupied then s
  else { s with onward := Onward.initial }.dropWaitingRequest .lowerUnit .crossAsk

/-- The CROSS_ASK of the onward request waits for its entry or for a queue place: it is not sent yet (00_scope.md 3.4). -/
def State.onwardUnsent (s : State) : Bool :=
  match s.onward.state with
  | .asking tag => tag = 0 || s.link.unplaced.any (fun o => o.kind = .crossAsk && o.tag = tag)
  | _ => false

/-- A request kind has a frame not yet placed, or a request that waits for its entry. -/
def Link.unsentAsk (k : Kind) (l : Link) : Bool := l.unplaced.any (fun o => o.kind = k) || l.unasked.any (fun r => r.kind = k)

/-- Take out the frames of a request kind that are not yet placed, with the entries they hold, and its requests that wait. -/
def Link.takeBack (b : Block) (k : Kind) (l : Link) : Link :=
  let freed := (l.unplaced.filter (fun o => o.kind = k)).map Offer.tag
  { l with waiting := l.waiting.filter (fun o => o.kind ≠ k),
           backlog := l.backlog.filter (fun h => !h.isFrame k && !h.isAsk b k),
           requests := l.requests.filter (fun r => r.kind ≠ k),
           entries := l.entries.filter (fun e => !(e.kind = k && freed.contains e.tag)) }

/-- Station k+1 may not be asked any more, marked or LOST: a CROSS_ASK not yet sent is taken back, and is asked afresh once
the station is PRESENT and unmarked; what waited behind it goes on (R102). -/
def State.withholdOnward (s : State) : State :=
  if s.link.unsentAsk .crossAsk then
    let o := if s.onwardUnsent then { s.onward with state := .unasked, retryTimer := none } else s.onward
    State.serveAll (State.fillQueue { s with onward := o, link := s.link.takeBack .lowerUnit .crossAsk })
  else s

/-- The onward request stands asked under this tag. -/
def State.onwardAsked (s : State) (tag : Nat) : Bool := s.onward.state = .asking tag

/-- An ask that was not taken is made again 2 s later (R102). -/
def State.onwardFailed (tag : Nat) (s : State) : State :=
  if s.onwardAsked tag then
    s.modOnward (fun o => { o with state := .unasked, retryTimer := some (sec 2) })
  else s

/-- The boundary unit's owner of CROSS_TAKEN (R102). -/
def State.onCrossTaken (rx : Rx) (s : State) : State :=
  match s.matchReply .crossTaken rx.src (byteAt rx.payload 0) with
  | none => s
  | some e =>
    let s := if s.onwardAsked e.tag then
        s.modOnward (fun o => { o with state := .taken, repeatTimer := some (sec 30), repeatDue := false }) else s
    s.endEntry e.tag

/-- The boundary unit's owner of CROSS_DENY (R102). -/
def State.onCrossDeny (rx : Rx) (s : State) : State :=
  match s.matchReply .crossDeny rx.src (byteAt rx.payload 0) with
  | none => s
  | some e => (s.onwardFailed e.tag).endEntry e.tag

/-- The 2 s after an ask that was not taken have passed (R102). -/
def State.onwardRetry (s : State) : State :=
  if s.onward.retryTimer.isSome then (s.modOnward (fun o => { o with retryTimer := none })).onwardTest else s

/-- The 30 s of a TAKEN request have passed (R102). -/
def State.onwardRepeat (s : State) : State :=
  if s.onward.repeatTimer.isSome ∧ s.onward.state = .taken then
    (s.modOnward (fun o => { o with repeatTimer := none, repeatDue := true })).onwardTest
  else s

/-- The tests of R103 in their order. -/
def State.dealCrossAsk (tag : Nat) (c : Crossing) (s : State) : State :=
  let answer := fun (k : Kind) (p : List Byte) (s : State) => s.send .lowerUnit k s.lowerAddr p
  if s.isMarked (s.k - 1) then answer .crossDeny [byte tag, byte DenyReason.faulted.code] s
  else if s.ctl.mode = .held then answer .crossDeny [byte tag, byte DenyReason.mode.code] s
  else if c.key = s.chamber.key ∨ s.lowerUnit.below.crossing?.any (fun x => x.key = c.key) then
    answer .crossTaken [byte tag] s
  else if s.lowerUnit.below.isEmpty then (answer .crossTaken [byte tag] s).placeCrossing .lower true c
  else answer .crossDeny [byte tag, byte DenyReason.busy.code] s

/-- The boundary unit's owner of CROSS_ASK (R103); a RESTING station wakes first (R48). -/
def State.onCrossAsk (rx : Rx) (s : State) : State :=
  let p := rx.payload
  let tag := byteAt p 0
  (s.wake .cross).dealCrossAsk tag
    { kind := .inner, direction := .up, key := keyAt p 1, vessels := byteAt p 2, need := byteAt p 3,
      requester := .lowerStation tag, mark := 0, requeued := false }

end Sys2Proof.Machine
end

