-- ==== Sys2Proof/Machine/Local.lean ====
section
/-! DEFINITION. Local working from the panel (R50 to R55). -/

namespace Sys2Proof.Machine
open Sys2Proof

/-- Set the local state; the permission of R42 follows, and crossings and admission are tested where it frees them (R42,
R51, R127). -/
def State.setLocal (x : LocalState) (s : State) : State :=
  { s with ctl := { s.ctl with localState := x } }.emits [.grantDecision, .localResume, .admissionTest]

/-- Set how far the claims of local working have come. -/
def State.setLocalPhase (p : LocalPhase) (s : State) : State := { s with ctl := { s.ctl with localPhase := p } }

/-- The local boundary fixed when PENDING begins (R50). -/
def State.localBoundary (s : State) : UnitId := if s.isHead && s.pins.selector = .head then .head else .lower

/-- Local working begins when the mode is IN_SERVICE and the key is at LOCAL (R50); crossings that hold no claim withdraw
their asks (R51, R118). -/
def State.localTest (s : State) : State :=
  if s.ctl.mode = .inService ∧ s.pins.key = .localPos ∧ s.ctl.localState = .auto then
    let c := { s.ctl with localState := .pending, localUnit := s.localBoundary, localPhase := .crossings }
    (State.suspendClaims { s with ctl := c }).emits [.grantDecision, .localClaims]
  else s

/-- When no crossing of the station holds a claim, the own chamber is asked (R51). -/
def State.localClaims (s : State) : State :=
  if s.ctl.localState = .pending ∧ s.ctl.localPhase = .crossings ∧ s.noCrossingClaims then
    (s.setLocalPhase .own).askOwn { claimant := s.ctl.localUnit, purpose := .localWork, key := 0 }
  else s

/-- Every claim needed is held: the local state is WORKING and the mode LOCAL; the batch in the chamber is noted (R51,
R55). -/
def State.localWorking (s : State) : State :=
  let key := if s.chamber.occupancy = .occupied then s.chamber.key else 0
  let c := { s.ctl with localState := .working, localPhase := .idle, notedKey := key }
  State.setMode .localMode { s with ctl := c }

/-- The local unit gives back the claims of local working, held or asked (R52, R54). -/
def State.localGiveBack (s : State) : State :=
  let u := s.ctl.localUnit
  let s := (s.releaseOwn u).withdrawOwn u
  if s.needsLower u then s.leaveLower else s

/-- Local working is abandoned from PENDING (R52). The own claim is given back only once it has been asked. -/
def State.localAbandon (x : LocalState) (s : State) : State :=
  if s.ctl.localState = .pending then
    let asked : Bool := s.ctl.localPhase = .own || s.ctl.localPhase = .lower
    let s := if asked then s.localGiveBack else s
    (s.setLocalPhase .idle).setLocal x
  else s

/-- The own chamber ask of local working is answered (R51, R52). -/
def State.localOwn (n : OwnNotice) (s : State) : State :=
  if s.ctl.localState = .pending ∧ s.ctl.localPhase = .own then
    match n with
    | .held =>
      if s.needsLower s.ctl.localUnit then (s.setLocalPhase .lower).askLower .localWork 0 0 else s.localWorking
    | .waiting => s
    | .busy | .timedOut => s.localAbandon .refused
  else s

/-- The lower chamber ask of local working is answered (R51, R52). -/
def State.localLower (n : LowerNotice) (s : State) : State :=
  if s.ctl.localState = .pending ∧ s.ctl.localPhase = .lower then
    match n with
    | .held => s.localWorking
    | .waiting => s
    | _ => s.localAbandon .refused
  else s

/-- Local working ends when every element the station drives is CLOSED, in three things done in order (R54, R55). -/
def State.localEndTest (s : State) : State :=
  if s.ctl.mode = .localMode ∧ s.ctl.localState = .closing ∧ s.allClosed then
    let s := if s.ctl.notedKey = 0 then s else s.owe s.ctl.notedKey
    let s := s.localGiveBack
    State.setMode .inService (State.setLocal .auto { s with ctl := { s.ctl with notedKey := 0 } })
  else s

/-- CLEAR restores LOCAL: the key position held is acted on (R53). -/
def State.localRestored (s : State) : State :=
  if s.ctl.mode = .localMode then
    match s.pins.key with
    | .auto => (if s.ctl.localState = .working then s.setLocal .closing else s).localEndTest
    | .localPos => if s.ctl.localState = .closing then s.setLocal .working else s
  else s

/-- The key is turned to LOCAL (R48, R50, R54). -/
def State.keyToLocal (s : State) : State :=
  match s.ctl.mode with
  | .resting => s.wake .panel
  | .inService => s.localTest
  | .localMode => if s.ctl.localState = .closing then s.setLocal .working else s
  | _ => s

/-- The key is turned to AUTO (R50, R52, R54). -/
def State.keyToAuto (s : State) : State :=
  match s.ctl.localState with
  | .pending => s.localAbandon .auto
  | .refused => s.setLocal .auto
  | .working => if s.ctl.mode = .localMode then (s.setLocal .closing).localEndTest else s
  | .auto | .closing => s

/-- A turn of the key switch (R50, R53, R54). It is read, and not acted on, in LOADING and in UNCONFIGURED. -/
def State.onKey (pos : KeyPos) (s : State) : State :=
  let old := s.pins.key
  let s := { s with pins := { s.pins with key := pos } }
  if pos = old ∨ ¬ s.works then s
  else match pos with
    | .localPos => s.keyToLocal
    | .auto => s.keyToAuto

/-- A press of an element key (R53). -/
def State.onElementKey (e : Element) (t : Target) (s : State) : State :=
  if s.ctl.mode = .localMode ∧ elementUnit e = s.ctl.localUnit
      ∧ (s.ctl.localState = .working ∨ (s.ctl.localState = .closing ∧ t = .toClosed)) then
    s.requestMotion .panel e t
  else s

end Sys2Proof.Machine
end

