-- ==== Sys2Proof/Machine/Records.lean ====
section
/-! DEFINITION. What a HOLD and its end do (R135), the low-store repeat (R165), and the transfer of records (R159 to R164). -/

namespace Sys2Proof.Machine
open Sys2Proof

/-! ### The hold table and the low store (R135, R165) -/

/-- The Approach Unit's owner of HOLD (R135). -/
def State.onHold (rx : Rx) (s : State) : State := s.applyHold (partyOf rx.src) (byteAt rx.payload 0)

/-- The remaining seconds of an active entry reach 0 (R135). -/
def State.holdExpiry (p : Party) (s : State) : State := if (s.holdOf p).left.isSome then s.clearHold p else s

/-- The 10 s repeat timer runs out (R165). -/
def State.lowStoreRepeat (s : State) : State :=
  if s.store.low ∧ s.store.lowTimer.isSome then
    State.holdEnds 30 { s with store := { s.store with lowTimer := some (sec 10) } }
  else s

/-- A HOLD was not sent: HOLD(0) again while the store state is NORMAL (R165). -/
def State.holdNotSent (f : Offer) (s : State) : State :=
  if f.body = .bytes [0] ∧ ¬ s.store.low then s.offer f else s

/-! ### The sender's side (R159, R160) -/

/-- Set the outbound stream. -/
def State.setStream (x : Option Stream) (s : State) : State := { s with store := { s.store with stream := x } }

/-- Offer the next segment of the stream (R159). -/
def State.streamNext (s : State) : State :=
  match s.store.stream with
  | none => s
  | some r =>
    match r.segments with
    | x :: xs => (s.setStream (some { r with segments := xs })).offer (x.toOffer .record r.dst r.number)
    | [] => s.setStream none

/-- Abandon the stream: its segments not yet offered are not offered (R159). A segment that waits for a place has been
offered and is sent (log entry 53). -/
def State.abandonStream (s : State) : State :=
  match s.store.stream with
  | none => s
  | some r => State.dropHeld (Held.ofStream .record r.number) (s.setStream none)

/-- A segment was not sent: the stream is abandoned (R159). -/
def State.streamNotSent (f : Offer) (s : State) : State :=
  if s.store.stream.any (fun r => r.number = f.tag) then s.abandonStream else s

/-- The station a batch goes to next: k+1 for one admitted at the foot, k-1 for one admitted at the head (R160). -/
def State.isNextFor (s : State) (key : BatchKey) (src : Addr) : Bool :=
  match keyDirection key with
  | .up => src.toNat = s.k + 1
  | .down => src.toNat + 1 = s.k

/-- The stream of a whole batch (R159). -/
def Store.streamSegments (st : Store) (key : BatchKey) : List Segment :=
  (st.batch key).flatMap (fun r => r.segments (st.batch key).length)

/-- Accept an XFER_ASK (R160). -/
def State.acceptXfer (key : BatchKey) (attempt : Nat) (dst : Addr) (s : State) : State :=
  let s := { s with store := { s.store.move key .resident .sending with custody := key } }
  let s := if s.chamber.occupancy = .occupied then s.setOccupancy .leaving key else s
  if s.store.stream.any (fun r => r.key = key && r.attempt = attempt) then s
  else
    let s := s.abandonStream
    State.streamNext (s.takeStream.setStream (some
      { number := s.link.nextStream, key := key, dst := dst, attempt := attempt, segments := s.store.streamSegments key }))

/-- The Record Store's owner of XFER_ASK (R160). Log entry 33. -/
def State.onXferAsk (rx : Rx) (s : State) : State :=
  let key := keyAt rx.payload 1
  if (s.store.batch key).isEmpty then s.refuseRx .xferAsk rx .notHeld
  else if key ≠ s.chamber.key ∨ ¬ (s.store.batch key).all (fun r => r.state = .resident || r.state = .sending)
      ∨ ¬ s.isNextFor key rx.src then s.refuseRx .xferAsk rx .busy
  else s.acceptXfer key (byteAt rx.payload 2) rx.src

/-- The Record Store's owner of XFER_BAD (R160). It acts whichever neighbour sent it: DESIGN CHOICE, log entry 52. -/
def State.onXferBad (rx : Rx) (s : State) : State :=
  let key := keyAt rx.payload 0
  if key ≠ 0 ∧ key = s.store.custody then s.abandonStream else s

/-- The Record Store's owner of XFER_END (R160, R61). It acts whichever neighbour sent it: DESIGN CHOICE, log entry 52. A
stream still under way is abandoned: DESIGN CHOICE, log entry 62. -/
def State.onXferEnd (rx : Rx) (s : State) : State :=
  let key := keyAt rx.payload 0
  if key ≠ 0 ∧ key = s.store.custody then
    let s := s.abandonStream.freeBatch key .sending
    let s := { s with store := { s.store with custody := 0 } }
    if key = s.chamber.key then s.setOccupancy .empty 0 else s
  else s

/-! ### The receiver's side (R161 to R164) -/

/-- Change the inbound transfer. -/
def State.modInbound (f : Inbound → Inbound) (s : State) : State :=
  { s with store := { s.store with inbound := f s.store.inbound } }

/-- The sender of the inbound transfer as a station number. -/
def State.senderNo (s : State) : Nat := s.store.inbound.sender.toNat

/-- In PAUSED an attempt begins once no wait runs and the sender is PRESENT and unmarked (R161). -/
def State.transferTest (s : State) : State :=
  let i := s.store.inbound
  if s.works && i.state = .paused && s.store.attemptWait.isNone && s.isPresent s.senderNo && !s.isMarked s.senderNo then
    let a := i.attempt + 1
    (s.modInbound (fun x => { x with state := .asking, attempt := a, position := 1, index := 0, records := 0,
                                     lineCount := 0, carryFollows := false })).request
      { block := .record, kind := .xferAsk, dst := i.sender, body := [i.key, byte a], upper := none, key := i.key }
  else s

/-- A batch is handed in: its transfer becomes owed, or waits until the one before is over (R161). -/
def State.onHandIn (key : BatchKey) (sender : Addr) (s : State) : State :=
  if s.store.inbound.state = .none then
    (s.modInbound (fun _ => { Inbound.initial with state := .paused, key := key, sender := sender })).transferTest
  else { s with store := { s.store with handIns := s.store.handIns ++ [⟨key, sender⟩] } }

/-- A hand-in that waited is taken (R161). -/
def State.nextHandIn (s : State) : State :=
  match s.store.handIns with
  | h :: hs => State.onHandIn h.key h.sender { s with store := { s.store with handIns := hs } }
  | [] => s

/-- A failed attempt (R164). -/
def State.attemptFailed (sendBad : Bool) (s : State) : State :=
  let i := s.store.inbound
  let s := s.freeBatch i.key .receiving
  let s := { s with store := { s.store with gapTimer := none } }
  let s := if sendBad then s.send .record .xferBad i.sender [i.key] else s
  if i.attempt < 3 then
    let s := { s with store := { s.store with attemptWait := some (sec 1) } }
    s.modInbound (fun x => { x with state := .paused })
  else
    (s.modInbound (fun x => { x with state := .failed })).emit
      (.raise .transferFail (BitVec.ofNat 32 i.key.toNat) (BitVec.ofNat 32 i.sender.toNat)
        (if i.sender.toNat + 1 = s.k then .lower else .none))

/-- The XFER_ASK of the attempt under way ended without a segment (R161, R164). The ask of an attempt that has failed meanwhile
is not taken back, and its end counts for the attempt then in ASKING: DESIGN CHOICE, log entry 68. -/
def State.xferEnded (key : BatchKey) (sendBad : Bool) (s : State) : State :=
  if s.store.inbound.state = .asking ∧ s.store.inbound.key = key then s.attemptFailed sendBad else s

/-- The wait of 1 s after a failed attempt ends (R164). -/
def State.attemptWaitExpiry (s : State) : State :=
  if s.store.attemptWait.isSome then
    State.transferTest { s with store := { s.store with attemptWait := none } }
  else s

/-- The gap timer runs out (R162). -/
def State.gapExpiry (s : State) : State := if s.store.gapTimer.isSome then s.attemptFailed true else s

/-- A new series of three attempts from FAILED (R164). -/
def State.newSeries (s : State) : State :=
  if s.store.inbound.state = .failed then
    State.transferTest (s.modInbound (fun x => { x with state := .paused, attempt := 0 }))
  else s

/-- The transfer completes (R163). -/
def State.transferComplete (s : State) : State :=
  let i := s.store.inbound
  let s := s.addLines .chamber i.key .receiving
  let s := s.setStore (s.store.returnReservation i.key)
  let s := { s with store := { s.store.move i.key .receiving .resident with gapTimer := none } }
  let s := (s.payOwed i.key).send .record .xferEnd i.sender [i.key]
  let s := s.modInbound (fun _ => Inbound.initial)
  s.nextHandIn.emits [.transferDone i.key, .onwardTest]

/-- A segment is stored: the state is STREAMING and the gap timer restarts (R162). -/
def State.segmentStored (s : State) : State :=
  State.modInbound (fun x => { x with state := .streaming })
    { s with store := { s.store with gapTimer := some (ms 500) } }

/-- The record under way is whole: the next position is expected, or the transfer completes (R162, R163). -/
def State.recordWhole (s : State) : State :=
  if s.store.inbound.position < s.store.inbound.records then
    s.modInbound (fun x => { x with position := x.position + 1, index := 0 })
  else s.transferComplete

/-- Expect a segment index next, or the end of the record when no line remains (R162). -/
def State.expectAfter (linesLeft : Bool) (s : State) : State :=
  if linesLeft then s.modInbound (fun x => { x with index := x.index + 1 }) else s.recordWhole

/-- HEADER_A makes a new RECEIVING record on one page (R162). -/
def State.takeHeaderA (rx : Rx) (s : State) : State :=
  let i := s.store.inbound
  let p := rx.payload
  match s.store.alloc i.key true with
  | none => s.attemptFailed true
  | some (page, free) =>
    let r : Record :=
      { key := i.key, position := i.position, state := .receiving, registration := widened rx.upper (be16 p 3),
        cls := VClass.ofCode (field (byteAt p 5) 6 2), group := field (byteAt p 5) 3 3, account := 0,
        lengthClass := field (byteAt p 6) 4 4, entryDay := 0, entryMinute := 0, timeUnknown := false,
        defaultGroup := false, truncated := false, assisted := false, carry := 0, lines := [], pages := [page],
        logNumber := 0, total := 0 }
    let s := s.setStore { s.store with free := free, records := s.store.records ++ [r] }
    State.segmentStored (s.modInbound (fun x =>
      { x with index := 1, records := if x.position = 1 then field (byteAt p 6) 2 2 else x.records }))

/-- HEADER_B fills the header (R162). -/
def State.takeHeaderB (rx : Rx) (r : Record) (s : State) : State :=
  let p := rx.payload
  let flags := byteAt p 9
  let f := fun (x : Record) =>
    { x with account := widened rx.upper (be16 p 3), entryDay := BitVec.ofNat 16 (be16 p 5), entryMinute := be16 p 7,
             timeUnknown := field flags 0 1 = 1, defaultGroup := field flags 1 1 = 1,
             truncated := field flags 2 1 = 1, assisted := field flags 3 1 = 1 }
  let carry : Bool := field flags 4 1 = 1
  let s := { s with store := s.store.update r f }
  let s := State.segmentStored (s.modInbound (fun x => { x with lineCount := byteAt p 10, carryFollows := carry }))
  s.expectAfter (carry || decide (0 < byteAt p 10))

/-- CARRY fills the header (R162). -/
def State.takeCarry (rx : Rx) (r : Record) (s : State) : State :=
  let s := { s with store := s.store.update r (fun x => { x with carry := widened rx.upper (be16 rx.payload 3) }) }
  s.segmentStored.expectAfter (decide (0 < s.store.inbound.lineCount))

/-- The line a LINE segment carries (12.2). -/
def lineOf (rx : Rx) : Line :=
  { kind := if field (byteAt rx.payload 3) 7 1 = 1 then .assist else .chamber,
    chamber := field (byteAt rx.payload 3) 0 4, band := field (byteAt rx.payload 3) 5 2,
    amount := widened rx.upper (be16 rx.payload 4) }

/-- A line keeps the bounds of R154. -/
def Record.lineFits (r : Record) (l : Line) : Bool :=
  decide (r.lines.length < 20) && match l.kind with
    | .assist => decide (r.assists < 4)
    | .chamber => !r.hasChamber l.chamber

/-- Append a line as received, with a page when it begins one; none where no page can be allocated (R162). -/
def Store.receiveLine (l : Line) (r : Record) (st : Store) : Option Store :=
  if r.lines.length % 4 = 0 then
    (st.alloc r.key (r.state = .receiving)).map (fun (p, ps) =>
      Store.update r (fun x => { x with lines := x.lines ++ [l], pages := x.pages ++ [p] }) { st with free := ps })
  else some (Store.update r (fun x => { x with lines := x.lines ++ [l] }) st)

/-- LINE is appended as received (R162). -/
def State.takeLine (rx : Rx) (r : Record) (s : State) : State :=
  let l := lineOf rx
  if r.lineFits l then
    match s.store.receiveLine l r with
    | none => s.attemptFailed true
    | some st => (s.setStore st).segmentStored.expectAfter (decide (r.lines.length + 1 < s.store.inbound.lineCount))
  else s.attemptFailed true

/-- The segment type expected next: HEADER_A 0, HEADER_B 1, CARRY 2, LINE 3 (R162, log entry 29). -/
def Inbound.expectedType (i : Inbound) : Nat :=
  if i.index = 0 then 0 else if i.index = 1 then 1 else if i.index = 2 ∧ i.carryFollows then 2 else 3

/-- A segment of the inbound transfer in ASKING or STREAMING (R162). -/
def State.takeSegment (rx : Rx) (s : State) : State :=
  let i := s.store.inbound
  let p := rx.payload
  let type := field (byteAt p 1) 6 2
  if field (byteAt p 1) 4 2 = i.position ∧ byteAt p 2 = i.index ∧ type = i.expectedType then
    if type = 0 then s.takeHeaderA rx
    else match s.store.recordAt i.key i.position with
      | none => s.attemptFailed true
      | some r =>
        if type = 1 then s.takeHeaderB rx r else if type = 2 then s.takeCarry rx r else s.takeLine rx r
  else s.attemptFailed true

/-- The Record Store's owner of REC_SEG: a match ends the XFER_ASK's entry, and a segment of the batch from its sender is
taken in ASKING or STREAMING (R19, R162). -/
def State.onRecSeg (rx : Rx) (s : State) : State :=
  let key := keyAt rx.payload 0
  let i := s.store.inbound
  let s := match s.link.entries.find? (fun e => e.kind = .xferAsk && e.peer = rx.src && e.key = key) with
    | some e => s.endEntry e.tag
    | none => s
  if key = i.key ∧ rx.src = i.sender ∧ (i.state = .asking ∨ i.state = .streaming) then s.takeSegment rx else s

/-- A beacon of the former sender that still reports a batch RESIDENT here as its custody key is answered with XFER_END
(R163). -/
def State.repeatXferEnd (station : Nat) (b : BeaconContents) (s : State) : State :=
  let key := b.custodyKey
  let former : Bool := match keyDirection key with
    | .up => station + 1 = s.k
    | .down => station = s.k + 1
  if key ≠ 0 && former && (s.store.batch key).any (fun r => r.state = .resident) then
    s.send .record .xferEnd (stationAddr station) [key]
  else s

end Sys2Proof.Machine
end

