-- ==== Sys2Proof/Machine/Approach.lean ====
section
/-! DEFINITION. The Approach Unit (chapter 7): the call post, the approach queue, resolution, admission and the batch. -/

namespace Sys2Proof.Machine
open Sys2Proof

/-- Change the Approach Unit. -/
def State.modApproach (f : Approach → Approach) (s : State) : State := { s with approach := f s.approach }

/-! ### Answers (R121, R197) -/

/-- Place an answer record in the answer queue; one due while 8 wait is discarded (R197). -/
def State.answer (r : BitVec 32) (x : CallResult) (pos : Nat) (s : State) : State :=
  if 8 ≤ s.approach.answers.length then s
  else s.modApproach (fun a => { a with answers := a.answers ++ [⟨r, x, pos⟩] })

/-- The first answer has been sent on the call line (R197). Until then it stands in the answer queue and counts among the 8 that
wait: DESIGN CHOICE, log entry 78. -/
def State.answerSent (s : State) : State := s.modApproach (fun a => { a with answers := a.answers.tail })

/-- The codes of an answer's result (12.2). -/
def CallResult.code : CallResult → Nat
  | .accepted => 0 | .queueFull => 1 | .duplicate => 2 | .barred => 3 | .notQueued => 4 | .closed => 5

/-- The answer record on the call line (12.2). -/
def Answer.bytes (a : Answer) : List Byte := callRecordBytes 3 a.registration a.result.code a.position

/-! ### Resolution (R125, R126) -/

/-- Send a VESSEL_QUERY for a registration (R125, R169). -/
def State.queryVessel (r : BitVec 32) (s : State) : State :=
  s.request { block := .vessel, kind := .vesselQuery, dst := deskAddr, body := lowerHalf r, upper := upperHalf r, key := 0 }

/-- Change the queued UNRESOLVED entry of a registration. -/
def State.modUnresolved (r : BitVec 32) (f : QueueEntry → QueueEntry) (s : State) : State :=
  let g := fun (e : QueueEntry) => if e.registration = r && !e.ready then f e else e
  s.modApproach (fun a => { a with queue := a.queue.map g })

/-- A defaulted entry (R125). -/
def State.defaultEntry (s : State) (e : QueueEntry) : QueueEntry :=
  { e with ready := true, cls := .pleasure, group := s.cfg.defaultGroup, account := 0, defaultGroup := true,
           resolution := none }

/-- Default the UNRESOLVED entry of a registration; it prompts the admission test (R125). A VESSEL_QUERY for it that still
waits for an entry or a place is left to wait: DESIGN CHOICE, log entry 61. -/
def State.defaultReg (r : BitVec 32) (s : State) : State := (s.modUnresolved r s.defaultEntry).emit .admissionTest

/-- Begin the resolution of an UNRESOLVED entry (R125). -/
def State.beginResolution (r : BitVec 32) (s : State) : State :=
  if s.presence.desk = .lost then s.defaultReg r
  else
    let s := s.modUnresolved r (fun e => { e with resolution := some (sec 2) })
    if s.presence.desk = .present then s.queryVessel r else s

/-- The queued UNRESOLVED entry of a registration. -/
def State.unresolved? (s : State) (r : BitVec 32) : Option QueueEntry :=
  s.approach.queue.find? (fun e => e.registration = r && !e.ready)

/-- A query ended without a VESSEL_INFO: a new one is sent while the timer runs and the desk is PRESENT (R125). The query of an
entry cancelled meanwhile counts for a new entry of that registration: DESIGN CHOICE, log entry 61. -/
def State.queryEnded (r : BitVec 32) (s : State) : State :=
  match s.unresolved? r with
  | some e => if e.resolution.isSome ∧ s.presence.desk = .present then s.queryVessel r else s
  | none => s

/-- The resolution timer of an entry runs out (R125). -/
def State.resolutionExpiry (r : BitVec 32) (s : State) : State :=
  match s.unresolved? r with
  | some e => if e.resolution.isSome then s.defaultReg r else s
  | none => s

/-- The desk's entry has become LOST: every UNRESOLVED entry is defaulted (R125). -/
def State.approachDeskLost (s : State) : State :=
  if s.works && s.approach.queue.any (fun e => !e.ready) then
    let g := fun (e : QueueEntry) => if e.ready then e else s.defaultEntry e
    (s.modApproach (fun a => { a with queue := a.queue.map g })).emit .admissionTest
  else s

/-- Take an entry out of the queue. -/
def State.unqueue (r : BitVec 32) (s : State) : State :=
  s.modApproach (fun a => { a with queue := a.queue.filter (fun e => e.registration ≠ r) })

/-- The desk's answer resolves the UNRESOLVED entry of its registration (R125, R126). A further VESSEL_QUERY for it that still
waits is left to wait: DESIGN CHOICE, log entry 61. -/
def State.resolveWith (v : Vessel) (s : State) : State :=
  match s.unresolved? v.registration with
  | none => s
  | some _ =>
    if v.barred then (s.unqueue v.registration).answer v.registration .barred 0
    else if s.cfg.capacity < v.lengthClass then (s.unqueue v.registration).answer v.registration .closed 0
    else
      (s.modUnresolved v.registration (fun e =>
        { e with ready := true, cls := v.cls, group := v.group, account := v.account, lengthClass := v.lengthClass,
                 resolution := none })).emit .admissionTest

/-- The Vessel Table's owner of VESSEL_INFO: learned, then handed to the Approach Unit (R19, R170). -/
def State.onVesselInfo (rx : Rx) (s : State) : State :=
  match s.matchReply .vesselInfo rx.src (byteAt rx.payload 0) with
  | none => s
  | some e =>
    let v := vesselOf rx.payload 1 rx.upper false s.clockNow
    ((s.learnVessel v).resolveWith v).endEntry e.tag

/-! ### Calls (R121 to R123) -/

/-- A member of the batch in admission; a no-show has left it (R132). -/
def Batch.hasMember (b : Batch) (r : BitVec 32) : Bool :=
  b.members.any (fun m => m.entry.registration = r && m.state ≠ .noShow)

/-- The registration is queued. -/
def State.isQueued (s : State) (r : BitVec 32) : Bool := s.approach.queue.any (fun e => e.registration = r)

/-- Queue a vessel at the tail and answer ACCEPTED (R122). -/
def State.enqueue (e : QueueEntry) (s : State) : State :=
  let s := s.modApproach (fun a =>
    { a with queue := a.queue ++ [{ e with order := a.nextOrder }], nextOrder := a.nextOrder + 1 })
  s.answer e.registration .accepted s.approach.queue.length

/-- The tests of a CALL in their order (R122). -/
def State.dealCall (r : BitVec 32) (len : Nat) (s : State) : State :=
  if 12 ≤ s.approach.queue.length then s.answer r .queueFull 0
  else if s.isQueued r || s.approach.batch.any (fun b => b.hasMember r) then s.answer r .duplicate 0
  else match s.lookupVessel r with
    | some v =>
      let s := s.touchVessel r
      if v.barred then s.answer r .barred 0
      else if s.cfg.capacity < v.lengthClass then s.answer r .closed 0
      else
        (s.enqueue { registration := r, ready := true, cls := v.cls, group := v.group, account := v.account,
                     lengthClass := v.lengthClass, deferral := 0, order := 0, defaultGroup := false,
                     resolution := none }).emit .admissionTest
    | none =>
      if s.cfg.capacity < len then s.answer r .closed 0
      else
        (s.enqueue { registration := r, ready := false, cls := .pleasure, group := 0, account := 0, lengthClass := len,
                     deferral := 0, order := 0, defaultGroup := false, resolution := none }).beginResolution r

/-- A record on the call line is read: the station reads it, its length class lies in 1 to 8, and fewer than 8 answers
wait (R121). -/
def State.readsCall (s : State) (len : Byte) : Bool :=
  s.ctl.mode ≠ .loading && s.isEnd && decide (1 ≤ len.toNat) && decide (len.toNat ≤ 8)
    && decide (s.approach.answers.length < 8)

/-- A CALL record (R121, R122); a RESTING station wakes (R48). -/
def State.onCall (r : BitVec 32) (len : Byte) (s : State) : State :=
  if !s.readsCall len then s
  else if s.ctl.mode = .unconfigured then s.answer r .closed 0
  else (s.wake .call).dealCall r len.toNat

/-- A CANCEL record (R121, R123). A VESSEL_QUERY for the entry that still waits for an entry or a place is left to wait:
DESIGN CHOICE, log entry 61. -/
def State.onCancel (r : BitVec 32) (len : Byte) (s : State) : State :=
  if !s.readsCall len then s
  else if s.ctl.mode = .unconfigured then s.answer r .closed 0
  else if s.isQueued r then (s.unqueue r).answer r .accepted 0
  else s.answer r .notQueued 0

/-! ### Admission (R127 to R130) -/

/-- The turn allows a further admission (R127). -/
def State.turnAllows (s : State) : Bool :=
  decide (s.token.turns < s.cfg.quota) ||
  match s.presentBeacon s.otherEnd with
  | some b => b.high + b.low = 0
  | none => true

/-- The fault record and the peer table allow admission (R127). -/
def State.faultsAllow (s : State) : Bool :=
  s.fault.record.all (fun r => r.level = .localLevel) && (List.range 16).all (fun i => !s.isMarked i)

/-- The conditions of R127. -/
def State.mayAdmit (s : State) : Bool :=
  s.works && s.isEnd
    && s.token.state = .held && decide (s.token.inFlight.length < 8)
    && s.turnAllows
    && s.ctl.mode = .inService && (s.ctl.localState = .auto || s.ctl.localState = .refused) && s.ctl.stop = .stopClear
    && s.faultsAllow
    && s.chamber.occupancy = .empty
    && s.approach.batch.isNone && s.entrySlot.isEmpty
    && s.approach.holds.toList.all (fun e => e.left.isNone)
    && decide (3 ≤ s.store.available)
    && s.approach.queue.any (fun e => e.ready)

/-- A batch as it is formed: the members taken, the capacity left, and the service counter. -/
structure Forming where
  taken : List QueueEntry
  left : Nat
  service : Nat
  deriving DecidableEq, Repr

/-- An entry that may still be taken (R128, R129). -/
def Forming.fits (f : Forming) (e : QueueEntry) : Bool := e.ready && decide (e.lengthClass ≤ f.left) && !f.taken.contains e

/-- Take an entry as the next member. -/
def Forming.take (f : Forming) (e : QueueEntry) : Forming :=
  { f with taken := f.taken ++ [e], left := f.left - e.lengthClass }

/-- The overdue entries, oldest first (R128). -/
def formOverdue (threshold : Nat) (queue : List QueueEntry) (f : Forming) : Forming :=
  queue.foldl
    (fun f e => if threshold ≤ e.deferral ∧ f.taken.length < 3 ∧ f.fits e then f.take e else f) f

/-- W of a service ratio; none under the strict ratio (R129). -/
def Ratio.weight : Ratio → Option Nat
  | .two => some 2 | .four => some 4 | .eight => some 8 | .strict => none

/-- The due class is HIGH (R129). -/
def dueHigh (r : Ratio) (service : Nat) : Bool :=
  match r.weight with
  | some w => decide (service < w)
  | none => true

/-- The service counter after a pick (R129). -/
def servedAfter (r : Ratio) (service : Nat) (high : Bool) : Nat :=
  match r.weight with
  | some w => if high then min (service + 1) w else 0
  | none => 0

/-- One weighted pick (R129); none where no READY entry fits. -/
def pickOne (r : Ratio) (queue : List QueueEntry) (f : Forming) : Option Forming :=
  let due := dueHigh r f.service
  let first := queue.find? (fun e => f.fits e && (e.high == due))
  let other := queue.find? (fun e => f.fits e && (e.high != due))
  (first.or other).map (fun e => { f.take e with service := servedAfter r f.service e.high })

/-- Weighted picks until the batch holds 3 members or none fits (R129). -/
def formPicks : Nat → Ratio → List QueueEntry → Forming → Forming
  | 0, _, _, f => f
  | fuel + 1, r, queue, f =>
    if 3 ≤ f.taken.length then f
    else match pickOne r queue f with
      | some f' => formPicks fuel r queue f'
      | none => f

/-- The batch formed from the queue (R128, R129). -/
def State.formBatch (s : State) : Forming :=
  formPicks 3 s.cfg.ratio s.approach.queue
    (formOverdue s.cfg.deferral s.approach.queue
      { taken := [], left := s.cfg.capacity, service := s.approach.service })

/-- The batch counter after a number (R130). -/
def nextBatchNumber (n : Nat) : Nat := if n = 127 then 1 else n + 1

/-- Place the ENTRY crossing of a batch in the approach boundary's water-side slot (R130). -/
def State.placeEntry (key : BatchKey) (vessels : Nat) (s : State) : State :=
  s.placeCrossing s.approachUnit s.isFoot
    { kind := .entry, direction := if s.isFoot then .up else .down, key := key, vessels := vessels, need := 0,
      requester := .approach, mark := 0, requeued := false }

/-- A key joins the in-flight list and the turn count rises (R143). -/
def Token.takeKey (key : BatchKey) (t : Token) : Token :=
  { t with inFlight := if t.inFlight.any (fun x => x.key = key) then t.inFlight else t.inFlight ++ [⟨key, 0⟩],
           turns := min (t.turns + 1) 255 }

/-- Complete a batch (R130). -/
def State.completeBatch (f : Forming) (s : State) : State :=
  let key := mkKey (!s.isFoot) s.approach.counter
  let aged := fun (e : QueueEntry) => { e with deferral := min (e.deferral + 1) 15 }
  let s := s.modApproach (fun a =>
    { a with counter := nextBatchNumber a.counter, service := f.service,
             queue := (a.queue.filter (fun e => !f.taken.contains e)).map aged })
  let s := (f.taken.zipIdx 1).foldl (fun s x => s.createRecord key x.2 x.1) s
  let s := { s with token := s.token.takeKey key }
  let s := s.modApproach (fun a =>
    { a with batch := some { key := key, members := f.taken.map (fun e => { entry := e, state := .admitted }) } })
  s.placeEntry key f.taken.length

/-- The admission test (R127 to R130). -/
def State.admissionTest (s : State) : State := if s.mayAdmit then s.completeBatch s.formBatch else s

/-- The entry crossing has ended: the batch in admission ends and the admission test is made (R131). -/
def State.entryEnded (key : BatchKey) (s : State) : State :=
  (s.modApproach (fun a => { a with batch := a.batch.filter (fun b => b.key ≠ key) })).emit .admissionTest

/-- The place an entry takes by its arrival order (R133). -/
def insertByOrder (e : QueueEntry) (q : List QueueEntry) : List QueueEntry :=
  q.filter (fun x => x.order < e.order) ++ e :: q.filter (fun x => !decide (x.order < e.order))

/-- Entries in arrival order, oldest first (R133). -/
def oldestFirst (l : List QueueEntry) : List QueueEntry := l.foldr insertByOrder []

/-- A member returns to the queue, or is answered QUEUE_FULL (R133). -/
def State.returnMember (s : State) (e : QueueEntry) : State :=
  if 12 ≤ s.approach.queue.length then s.answer e.registration .queueFull 0
  else s.modApproach (fun a => { a with queue := insertByOrder e a.queue })

/-- Withdraw an entry crossing that is WAITING and has not been begun: its records are freed and its members return, oldest
first. One that was begun and is requeued is not withdrawn (R119, R133). -/
def State.withdrawEntry (s : State) : State :=
  match s.entrySlot.waiting?, s.approach.batch with
  | some c, some b =>
    if c.kind = .entry ∧ c.key = b.key ∧ c.requeued = false then
      let s := s.modUnit s.approachUnit (fun x => if s.isFoot then { x with below := .empty } else { x with above := .empty })
      let s := s.freeBatch b.key .created
      let s := (oldestFirst (b.members.map Member.entry)).foldl State.returnMember s
      s.modApproach (fun a => { a with batch := none })
    else s
  | _, _ => s

end Sys2Proof.Machine
end

