-- ==== Sys2Proof/Machine/Token.lean ====
section
/-! DEFINITION. The direction token (chapter 8). -/

namespace Sys2Proof.Machine
open Sys2Proof

/-- Change the token record. -/
def State.modToken (f : Token → Token) (s : State) : State := { s with token := f s.token }

/-- The token record is acted on: at an end station that works (R140). -/
def State.tokenActs (s : State) : Bool := s.works && s.isEnd

/-- Epoch `a` is newer than epoch `b` around the circle of 16384 values (R141). -/
def epochNewer (a b : BitVec 14) : Bool :=
  let d := (a - b).toNat
  (decide (0 < d) && decide (d < 8192)) || (decide (d = 8192) && decide (b.toNat < a.toNat))

/-- Epoch `a` is older than epoch `b`: neither equal nor newer (R141). -/
def epochOlder (a b : BitVec 14) : Bool := decide (a ≠ b) && !epochNewer a b

/-! ### Recovery (R149) -/

/-- The other end is unheld (R149). -/
def State.otherUnheld (s : State) : Bool :=
  !s.isPresent s.otherEnd || (s.isFoot && (s.presentBeacon s.otherEnd).any (fun b => b.token = .absent))

/-- The recovery timer runs while the token is ABSENT and the other end unheld (R149). -/
def State.recoveryGovern (s : State) : State :=
  if !s.tokenActs then s
  else if s.token.state = .absent ∧ s.otherUnheld then
    match s.token.recovery with
    | .stopped => s.modToken (fun t => { t with recovery := .running (sec s.cfg.recoveryDelay) })
    | _ => s
  else s.modToken (fun t => { t with recovery := .stopped })

/-- No batch is reported anywhere (R149). -/
def State.noBatchReported (s : State) : Bool :=
  s.chamber.occupancy = .empty && s.store.custody = 0
    && (List.range s.n).all (fun i => (s.presentBeacon i).all (fun b => b.chamberKey = 0 && b.custodyKey = 0))

/-- The recovery test, made when the timer has run out and its conditions still hold (R149). -/
def State.recoveryTest (s : State) : State :=
  if s.token.recovery = .ranOut ∧ s.noBatchReported then
    (s.modToken (fun t =>
      { t with state := .held, epoch := t.epoch + 1, turns := 0, inFlight := [], recovery := .stopped })).emit
      .admissionTest
  else s

/-- The recovery timer runs out (R149). -/
def State.recoveryExpiry (s : State) : State :=
  match s.token.recovery with
  | .running _ => (s.modToken (fun t => { t with recovery := .ranOut })).recoveryTest
  | _ => s

/-! ### The in-flight list (R143 to R145) -/

/-- A key leaves the in-flight list; the admission test follows (R143). -/
def State.leaveFlight (key : BatchKey) (s : State) : State :=
  if s.token.inFlight.any (fun x => x.key = key) then
    (s.modToken (fun t => { t with inFlight := t.inFlight.filter (fun x => x.key ≠ key) })).emit .admissionTest
  else s

/-- The Approach Unit's owner of EXIT_NOTE (R144). -/
def State.onExitNote (rx : Rx) (s : State) : State :=
  let key := keyAt rx.payload 0
  if key ≠ 0 ∧ (keyFromHead key = !s.isFoot) then s.leaveFlight key else s

/-- A key is reported (R145). -/
def State.isReported (s : State) (key : BatchKey) : Bool :=
  (List.range s.n).any (fun i => (s.presentBeacon i).any (fun b => b.chamberKey = key || b.custodyKey = key))
    || s.chamber.key = key || s.store.custody = key || s.approach.batch.any (fun b => b.key = key)

/-- The miss counts after a sweep (R145). -/
def State.swept (s : State) (x : InFlight) : InFlight :=
  { x with misses := if s.isReported x.key then 0 else x.misses + 1 }

/-- The sweep timer runs out (R145); a recovery whose timer has run out is tested again (R149). -/
def State.sweep (s : State) : State :=
  if s.token.sweepTimer.isSome then
    let l := s.token.inFlight.map s.swept
    let kept := l.filter (fun x => x.misses < 3)
    let s := s.modToken (fun t => { t with inFlight := kept, sweepTimer := some (sec 2) })
    let s := if kept.length < l.length then s.emit .admissionTest else s
    s.recoveryTest
  else s

/-! ### Handing over (R146 to R148) -/

/-- The conditions of the offer test (R146). -/
def State.mayOffer (s : State) : Bool :=
  s.tokenActs && s.token.state = .held && !s.token.clashMark && s.token.inFlight.isEmpty && s.approach.batch.isNone
    && (!s.approach.queue.any (fun e => e.ready) || decide (s.cfg.quota ≤ s.token.turns))
    && (s.presentBeacon s.otherEnd).any (fun b => decide (0 < b.high + b.low))

/-- The offer test (R146). -/
def State.offerTest (s : State) : State :=
  if s.mayOffer then
    let e := s.token.epoch
    (s.modToken (fun t => { t with state := .offered, offer := some e })).request
      { block := .approach, kind := .tokenOffer, dst := stationAddr s.otherEnd, body := bytes16 e.toNat, upper := none,
        key := 0 }
  else s

/-- The token has gone over: ABSENT, the epoch kept (R148). A clash mark stands until a beacon reports ABSENT (R150): DESIGN
CHOICE, log entry 60. -/
def State.tokenGone (s : State) : State :=
  State.recoveryGovern (s.modToken (fun t => { t with state := .absent, turns := 0, offer := none }))

/-- The token stays: HELD with the same epoch, the turn count kept (R148). -/
def State.tokenKept (s : State) : State :=
  (s.modToken (fun t => { t with state := .held, offer := none })).emit .admissionTest

/-- The offer ended "refused", "no reply" or "not sent" (R148). No tag is compared: the end of an earlier offer that finds the
token OFFERED again counts as the present one's. DESIGN CHOICE, log entry 59. -/
def State.offerEnded (s : State) : State := if s.token.state = .offered then s.tokenKept else s

/-- Take an offered token (R147). -/
def State.takeToken (e : BitVec 14) (s : State) : State :=
  (s.modToken (fun t =>
    { t with state := .held, epoch := e, turns := 0, inFlight := [], offer := none, recovery := .stopped })).emit
    .admissionTest

/-- The Approach Unit's owner of TOKEN_OFFER (R147). No offer is answered TAKE unless the stop state is STOP_CLEAR (R44): a
repeat of an offer taken earlier, which step 1 would answer TAKE, is then declined by step 2. DESIGN CHOICE, log entry 44. -/
def State.onTokenOffer (rx : Rx) (s : State) : State :=
  let e := BitVec.ofNat 14 (be16 rx.payload 1)
  let answer := fun (k : Kind) (s : State) =>
    s.send .approach k rx.src (byte (byteAt rx.payload 0) :: bytes16 (be16 rx.payload 1))
  if rx.src = s.ownAddr then answer .tokenDecline s
  else if s.token.state = .held ∧ s.token.epoch = e ∧ s.ctl.stop = .stopClear then answer .tokenTake s
  else if s.token.state = .held ∨ s.token.state = .offered then answer .tokenDecline s
  else if epochOlder e s.token.epoch then answer .tokenDecline s
  else if s.ctl.mode = .inService ∧ s.ctl.stop = .stopClear then (answer .tokenTake s).takeToken e
  else answer .tokenDecline s

/-- The Approach Unit's owner of TOKEN_TAKE (R19, R148). A reply to an earlier offer counts where the token is OFFERED again:
DESIGN CHOICE, log entry 59. -/
def State.onTokenTake (rx : Rx) (s : State) : State :=
  match s.matchReply .tokenTake rx.src (byteAt rx.payload 0) with
  | none => s
  | some e =>
    let s := s.endEntry e.tag
    if s.token.state = .offered then
      if s.token.offer = some (BitVec.ofNat 14 (be16 rx.payload 1)) then s.tokenGone else s.tokenKept
    else s

/-- The Approach Unit's owner of TOKEN_DECLINE (R19, R148). -/
def State.onTokenDecline (rx : Rx) (s : State) : State :=
  match s.matchReply .tokenDecline rx.src (byteAt rx.payload 0) with
  | none => s
  | some e => (s.endEntry e.tag).offerEnded

/-! ### Beacons of the other end (R141, R148, R150, R151) -/

/-- Drop the token on a clash (R151). A TOKEN_OFFER that still waits for an entry or a place is left to wait, and its reply is
discarded: DESIGN CHOICE, log entry 50. -/
def State.dropToken (e : BitVec 14) (s : State) : State :=
  let s := s.modToken (fun t =>
    { t with state := .absent, epoch := if epochNewer e t.epoch then e else t.epoch, inFlight := [], turns := 0,
             offer := none, clashMark := false })
  s.withdrawEntry.recoveryGovern

/-- The epoch a beacon brings (R141). -/
def State.adoptEpoch (b : BeaconContents) (s : State) : State :=
  if epochNewer b.epoch s.token.epoch
      ∧ (s.token.state = .absent ∨ (s.token.state = .held ∧ b.token = .absent)) then
    s.modToken (fun t => { t with epoch := b.epoch })
  else s

/-- A clashing beacon (R150). -/
def State.isClash (s : State) (b : BeaconContents) : Bool :=
  (s.token.state = .held || s.token.state = .offered) && (b.token = .held || b.token = .offered)
    && !(s.token.state = .held && b.token = .offered && b.epoch = s.token.epoch)
    && !(b.token = .held && s.token.offer = some b.epoch)

/-- This station drops its token at a clash: its epoch is the older, or they are equal at the head station (R150). -/
def State.losesClash (s : State) (b : BeaconContents) : Bool :=
  epochOlder s.token.epoch b.epoch || (s.token.epoch = b.epoch && !s.isFoot)

/-- Resolve a clashing beacon; TOKEN_CLASH is raised while the clash mark is clear (R150). -/
def State.resolveClash (b : BeaconContents) (s : State) : State :=
  let r : Notice := .raise .tokenClash (s.token.epoch.setWidth 32) (b.epoch.setWidth 32) .none
  let s' := (s.modToken (fun t => { t with clashMark := true })).doIf (!s.token.clashMark) (State.emit r)
  if s.losesClash b then s'.dropToken b.epoch else s'

/-- A beacon of the other end is taken (R141, R148, R149, R150). -/
def State.tokenBeacon (b : BeaconContents) (s : State) : State :=
  if !s.tokenActs then s
  else
    let s := if s.token.state = .offered ∧ b.token = .held ∧ s.token.offer = some b.epoch then s.tokenGone else s
    let s := if b.token = .absent then s.modToken (fun t => { t with clashMark := false }) else s
    let s := s.adoptEpoch b
    let s := if s.isClash b then s.resolveClash b else s
    s.recoveryGovern.emit .admissionTest

end Sys2Proof.Machine
end

