-- ==== Sys2Proof/Machine/FaultUnit.lean ====
section
/-! DEFINITION. The Fault Unit (chapter 11): levels, repeat marks, recoveries, the record and the pending set, fault notes
and CLEAR. -/

namespace Sys2Proof.Machine
open Sys2Proof

/-- Change the Fault Unit. -/
def State.modFault (f : FaultUnit → FaultUnit) (s : State) : State := { s with fault := f s.fault }

/-! ### Place and level (R184 to R186) -/

/-- The unit of a boundary. -/
def Bound.unit? : Bound → Option UnitId
  | .none => Option.none
  | .lower => some .lower
  | .head => some .head

/-- The place of a raise; none where the rule gives none (R184). Log entry 23. -/
def State.placeOf (s : State) (c : Cause) (b : Bound) : Option Place :=
  if c = .transferFail then some { key := s.store.inbound.key, bound := .none, step := none }
  else match b.unit? with
    | some u => match (s.unit u).active? with
      | some x => some { key := x.key, bound := b, step := (s.unit u).step }
      | none => none
    | none => none

/-- A delegation bit of a cause: "to flight" at `off` 0, "to local" at `off` 1; clear without settings (12.2, log entry
24). -/
def State.delegation (s : State) (c : Cause) (off : Nat) : Bool :=
  s.loader.settings.any (fun x => x.delegation.getLsbD (2 * (c.code - 1) + off))

/-- The level from the bits (R185 step 1). -/
def State.bitLevel (s : State) (c : Cause) : FaultLevel :=
  if !c.delegable then .desk
  else match s.delegation c 0, s.delegation c 1 with
    | true, false => .flight
    | true, true => .localLevel
    | false, _ => .desk

/-- A repeat mark of the same cause has the same place (R185 step 2, R186). -/
def State.escalates (s : State) (c : Cause) (p : Option Place) : Bool :=
  match p with
  | some pl => s.fault.marks.any (fun m => m.cause = c && m.place = pl)
  | none => false

/-- The level of a raise (R185). -/
def State.raiseLevel (s : State) (c : Cause) (p : Option Place) : FaultLevel :=
  if s.escalates c p then .desk else s.bitLevel c

/-! ### Marks and recoveries (R186, R187) -/

/-- Set the mark of a cause, replacing any earlier one (R186). -/
def State.setMark (c : Cause) (p : Option Place) (s : State) : State :=
  match p with
  | some pl => s.modFault (fun f => { f with marks := f.marks.filter (fun m => m.cause ≠ c) ++ [⟨c, pl⟩] })
  | none => s

/-- Clear the mark of a cause (R186). -/
def State.clearMark (c : Cause) (s : State) : State :=
  s.modFault (fun f => { f with marks := f.marks.filter (fun m => m.cause ≠ c) })

/-- Remove the recovery under way of a cause (R187). Its gate close is not asked any more (State.onSlotFree); one that stands in
the sequencer slot already is left there: DESIGN CHOICE, log entry 70. -/
def State.endRecovery (c : Cause) (s : State) : State :=
  s.modFault (fun f => { f with recoveries := f.recoveries.filter (fun r => r.cause ≠ c) })

/-- Enter a recovery under way, replacing an earlier one of its cause (R187). -/
def State.enterRecovery (r : Recovery) (s : State) : State :=
  s.modFault (fun f => { f with recoveries := f.recoveries.filter (fun x => x.cause ≠ r.cause) ++ [r] })

/-- A recovery of a cause is under way. -/
def State.underWay (s : State) (c : Cause) : Bool := s.fault.recoveries.any (fun r => r.cause = c)

/-- Close an element for a recovery: a sluice through the safety close set, a gate through its unit's source; an element
found CLOSED is made known at once (R187). -/
def State.recoverElement (e : Element) (s : State) : State :=
  let s := if elementIsGate e then s.recoverGate (elementUnit e) e else s.placeSafety (unitClass (elementUnit e))
  if s.element e = .closed then s.emit (.elementClosed e) else s

/-- Start a cause's recovery (R187). -/
def State.startRecovery (c : Cause) (v1 : BitVec 32) (b : Bound) (p : Option Place) (s : State) : State :=
  match c with
  | .positionConflict | .motionTimeout =>
    match elementOfCode? v1.toNat with
    | some e => (s.enterRecovery ⟨c, p, some e, 0⟩).recoverElement e
    | none => s
  | .equalizeTimeout =>
    match b.unit? with
    | some u =>
      let s := s.enterRecovery ⟨c, p, some (sluiceOf u), 0⟩
      if s.element (sluiceOf u) = .closed then s.emit (.elementClosed (sluiceOf u)) else s
    | none => s
  | .detectorMismatch => match b.unit? with
    | some u => s.emit (.transitRecovered u)
    | none => s
  | .claimTimeout => match b.unit? with
    | some u => s.emit (.requeue u)
    | none => s
  | .peerLost => s.enterRecovery ⟨c, p, none, v1.toNat⟩
  | .transferFail => s.enterRecovery ⟨c, p, none, 0⟩
  | _ => s

/-! ### Recording (R188 to R190, R192) -/

/-- Send FAULT_NOTE for the record, unless it is a LINK_DEGRADED of a fault frame (R190). -/
def State.sendNote (r : FaultRecord) (again : Bool) (s : State) : State :=
  if r.cause = .linkDegraded ∧ (r.value1 = BitVec.ofNat 32 Kind.faultNote.code
      ∨ r.value1 = BitVec.ofNat 32 Kind.faultClear.code) then s
  else
    let p := [byte r.cause.code, byte (r.level.code * 64 + r.bound.code * 16 + bit r.valuesLost * 8)]
      ++ bytes32 r.value1.toNat ++ bytes32 r.value2.toNat
    s.offer { frame .fault .faultNote broadcastAddr p with again := again }

/-- A FAULT_NOTE was not sent: once more while the record holds that cause at that level (R190), be it recorded anew: DESIGN
CHOICE, log entry 34. -/
def State.noteNotSent (f : Offer) (s : State) : State :=
  match f.body, s.fault.record with
  | .bytes p, some r =>
    if ¬ f.again ∧ byteAt p 0 = r.cause.code ∧ field (byteAt p 1) 6 2 = r.level.code then s.sendNote r true else s
  | _, _ => s

/-- Send FAULT_CLEAR (R190). -/
def State.sendFaultClear (c : Cause) (s : State) : State :=
  s.send .fault .faultClear broadcastAddr [byte c.code]

/-- The record clears, and the tests that wait on it follow (R114, R127). The block that clears it takes the next pending cause
at once (State.takePending, R194). -/
def State.clearRecord (s : State) : State :=
  (s.modFault (fun f => { f with record := none })).emits [.alarmWaitTest, .admissionTest]

/-- A FLIGHT record clears at the success of its recovery (R189). -/
def State.flightDone (c : Cause) (s : State) : State := (s.sendFaultClear c).clearRecord

/-- Act on a DESK cause newly recorded: the mark is cleared, the recovery removed, the note sent, and the mode becomes HELD
(R186, R187, R189, R192). -/
def State.actDesk (r : FaultRecord) (s : State) : State :=
  let s := ((s.clearMark r.cause).endRecovery r.cause).sendNote r false
  if r.cause = .configInvalid then s else s.setMode .held

/-- Put a cause in the record and act on it by its level (R188, R189). -/
def State.record (r : FaultRecord) (s : State) : State :=
  let s := s.modFault (fun f => { f with record := some r })
  match r.level with
  | .localLevel => s.clearRecord
  | .flight =>
    let s := s.sendNote r false
    if s.underWay r.cause then s else s.flightDone r.cause
  | .desk => s.actDesk r

/-- Before a DESK cause is recorded in RESTING the station wakes (R49). -/
def State.wakeForDesk (c : Cause) (l : FaultLevel) (s : State) : State :=
  if l = .desk then s.wake (if c = .levelAlarm then .alarm else .fault) else s

/-- The higher of two levels (R188). -/
def FaultLevel.higher (a b : FaultLevel) : FaultLevel := if a.code < b.code then b else a

/-- Add a cause to the pending set, or keep the higher of its two levels (R188). -/
def addPending (c : Cause) (l : FaultLevel) (set : List PendingCause) : List PendingCause :=
  if set.any (fun x => x.cause = c) then
    set.map (fun x => if x.cause = c then { x with level := x.level.higher l } else x)
  else set ++ [⟨c, l⟩]

/-- The pending cause of highest priority (R194). -/
def FaultUnit.highest (f : FaultUnit) : Option PendingCause :=
  Cause.byPriority.findSome? (fun c => f.pendingSet.find? (fun x => x.cause = c))

/-- Record a pending cause with its values lost (R194). -/
def State.recordPending (x : PendingCause) (prior : Mode) (s : State) : State :=
  (s.modFault (fun f => { f with pendingSet := f.pendingSet.filter (fun y => y.cause ≠ x.cause) })).record
    { cause := x.cause, level := x.level, bound := .none, value1 := 0, value2 := 0, step := none, prior := prior,
      valuesLost := true }

/-- While the record is empty, the pending cause of highest priority is recorded, the station woken first where it rests and
the cause is taken at DESK; one whose record clears at once is followed by the next (R49, R189, R194). The first argument bounds
how many are taken: each leaves the set. -/
def State.takeAll : Nat → State → State
  | 0, s => s
  | fuel + 1, s =>
    match s.fault.record, s.fault.highest with
    | none, some x =>
      let s := s.wakeForDesk x.cause x.level
      State.takeAll fuel (s.recordPending x s.ctl.mode)
    | _, _ => s

/-- With the record empty, the pending causes are taken until one stands in it (R194). -/
def State.takePending (s : State) : State := s.takeAll s.fault.pendingSet.length

/-- Record a cause, the station woken first where it rests and the cause is taken at DESK; where its record clears at once, a
pending cause is taken (R49, R188, R189, R194). Log entry 35. -/
def State.recordFresh (r : FaultRecord) (s : State) : State :=
  let s := s.wakeForDesk r.cause r.level
  (s.record { r with prior := s.ctl.mode }).takePending

/-- Deal with a raise whose level is fixed (R188). A record raised in place has its values-lost flag clear, as one newly
recorded: DESIGN CHOICE, log entry 63. -/
def State.dealRaise (new : FaultRecord) (escalated : Bool) (s : State) : State :=
  match s.fault.record with
  | none => s.recordFresh new
  | some old =>
    if old.cause = new.cause then
      if escalated ∧ old.level = .flight then s.recordFresh new else s
    else s.modFault (fun f => { f with pendingSet := addPending new.cause new.level f.pendingSet })

/-- A raise (R184 to R188). -/
def State.onRaise (c : Cause) (v1 v2 : BitVec 32) (b : Bound) (s : State) : State :=
  let p := s.placeOf c b
  let l := s.raiseLevel c p
  let esc := s.escalates c p
  let new : FaultRecord := { cause := c, level := l, bound := b, value1 := v1, value2 := v2, step := p.bind Place.step,
                             prior := s.ctl.mode, valuesLost := false }
  (if l = .desk then s else (s.setMark c p).startRecovery c v1 b p).dealRaise new esc

/-- The recovery of a cause succeeds: a FLIGHT record of it clears, and a pending cause is taken (R187, R189, R194). -/
def State.recoverySuccess (c : Cause) (s : State) : State :=
  if s.underWay c then
    let s := s.endRecovery c
    match s.fault.record with
    | some r => if r.cause = c ∧ r.level = .flight then (s.flightDone c).takePending else s
    | none => s
  else s

/-- Causes whose recovery closes an element. -/
def elementCauses : List Cause := [.positionConflict, .motionTimeout, .equalizeTimeout]

/-- An element is CLOSED: its recoveries restart the step of their place, or succeed where the place is none (R187). -/
def State.recoveryClosed (e : Element) (s : State) : State :=
  elementCauses.foldl
    (fun s c => match s.fault.recoveries.find? (fun r => r.cause = c && r.element = some e) with
      | none => s
      | some r => match r.place with
        | none => s.recoverySuccess c
        | some p => match p.bound.unit?, p.step with
          | some u, some st => s.recoveryRestart u p.key st
          | _, _ => s) s

/-- A crossing has completed a step: marks with its place clear, and the recoveries that wait on it succeed (R186,
R187). -/
def State.stepDone (u : UnitId) (key : BatchKey) (st : Step) (s : State) : State :=
  let p : Place := { key := key, bound := Bound.ofUnit u, step := some st }
  let s := s.modFault (fun f => { f with marks := f.marks.filter (fun m => m.place ≠ p) })
  elementCauses.foldl
    (fun s c => if s.fault.recoveries.any (fun r => r.cause = c && r.place = some p) then s.recoverySuccess c else s) s

/-- A transfer has completed: its mark clears and its recovery succeeds (R186, R187). -/
def State.transferDone (key : BatchKey) (s : State) : State :=
  let s := s.modFault (fun f =>
    { f with marks := f.marks.filter (fun m => !(m.cause = .transferFail && m.place.key = key)) })
  if s.fault.recoveries.any (fun r => r.cause = .transferFail && r.place.any (fun p => p.key = key)) then
    s.recoverySuccess .transferFail
  else s

/-- A lost peer is PRESENT again (R187). -/
def State.peerReturned (i : Nat) (s : State) : State :=
  if s.fault.recoveries.any (fun r => r.cause = .peerLost && r.peer = i) then s.recoverySuccess .peerLost else s

/-- A beacon of the sender of a FAILED transfer reports its key in custody: with the recovery under way a new series
begins (R187). -/
def State.transferRecovery (station : Nat) (b : BeaconContents) (s : State) : State :=
  let i := s.store.inbound
  if i.state = .failed ∧ i.sender.toNat = station ∧ b.custodyKey = i.key ∧ s.underWay .transferFail then s.newSeries
  else s

/-! ### Fault notes of others (R191) -/

/-- Change the faulted mark of a station; a change is made known (R191). -/
def State.setFaulted (i : Fin 16) (v : Bool) (s : State) : State :=
  let old := s.presence.peers[i]
  if old.faulted = v then s
  else
    let s := { s with presence := { s.presence with peers := s.presence.peers.set i { old with faulted := v } } }
    s.emit (if v then .markSet i else .markCleared i)

/-- A note or clear counts from a station address other than the own strap address (R191). -/
def State.faultSource? (s : State) (src : Addr) : Option (Fin 16) :=
  if src = deskAddr ∨ src = s.ownAddr then none else some (peerIdx src.toNat)

/-- The level a FAULT_NOTE gives; none where it cannot be read, which R7 lets happen in UNCONFIGURED alone (R9, R190, log
entry 13). -/
def noteLevel? (p : List Byte) : Option FaultLevel :=
  if p.length < 2 then none else FaultLevel.ofCode? (field (byteAt p 1) 6 2)

/-- The Fault Unit's owner of FAULT_NOTE (R191). -/
def State.onFaultNote (rx : Rx) (s : State) : State :=
  match s.faultSource? rx.src, noteLevel? rx.payload with
  | some i, some l => s.setFaulted i (decide (l = .flight))
  | _, _ => s

/-- The Fault Unit's owner of FAULT_CLEAR (R191). -/
def State.onFaultClear (rx : Rx) (s : State) : State :=
  match s.faultSource? rx.src with
  | some i => s.setFaulted i false
  | none => s

/-! ### CLEAR (R193) -/

/-- The acts for the recorded cause (R193 step 1). -/
def State.clearActs (c : Cause) (s : State) : State :=
  match c with
  | .claimOrphaned => s.clearOrphan
  | .transferFail => s.newSeries
  | _ => s

/-- The Fault Unit's owner of CLEAR (R193). What the change of mode leads to, the restarts and the faults they raise among it,
comes before the pending cause is taken: DESIGN CHOICE, log entry 77. -/
def State.onClear (rx : Rx) (s : State) : State :=
  if rx.broadcast then s
  else match s.ctl.mode, s.fault.record with
    | .held, some r =>
      let s := s.clearActs r.cause
      let s := s.modFault (fun f => { f with record := none })
      match s.fault.highest with
      | some x =>
        if x.level = .desk then (s.recordPending x r.prior).emit .alarmWaitTest
        else (s.setMode r.prior).emits [.takePending, .alarmWaitTest, .admissionTest]
      | none => (s.setMode r.prior).emits [.takePending, .alarmWaitTest, .admissionTest]
    | _, _ => s.refuseRx .clear rx .notHeld

end Sys2Proof.Machine
end

