-- ==== Sys2Proof/Machine/Presence.lean ====
section
/-! DEFINITION. The Presence Monitor (R32 to R38): beacons sent and taken, the peer table, the clash test, and
STATUS_ASK. -/

namespace Sys2Proof.Machine
open Sys2Proof

/-- Change the Presence Monitor. -/
def State.modPresence (f : Presence → Presence) (s : State) : State := { s with presence := f s.presence }

/-- Change a station entry of the peer table. -/
def State.modPeer (i : Fin 16) (f : Peer → Peer) (s : State) : State :=
  s.modPresence (fun p => { p with peers := p.peers.set i (f p.peers[i]) })

/-- The beacon timer runs out: the offer test, then the beacon, and the timer restarts (R32, R146). -/
def State.beaconExpiry (s : State) : State :=
  if s.presence.beaconTimer.isSome then s.offerTest.beaconAtOnce else s

/-- A clashing beacon (R37): the other unit's serial. -/
def State.clashingBeacon (b : BeaconContents) (own : BitVec 24) (s : State) : State :=
  let s' := s.modPresence (fun p => { p with clash := true, calmTimer := some (sec 3) })
  if s.presence.clash then s'
  else (s'.emit (.raise .addressClash (b.serial.setWidth 32) (own.setWidth 32) .none)).refreshInterval

/-- A beacon from this station's own strap address: the clash test, made with a known serial (R34, R37). -/
def State.clashTest (b : BeaconContents) (s : State) : State :=
  match s.loader.serial with
  | some own => if b.serial = own then s else s.clashingBeacon b own
  | none => s

/-- Enter a beacon in its address's entry; a return is made known, a beacon without a fault clears the mark, and the
blocks that read the contents are told (R34, R35, R191). -/
def State.enterBeacon (i : Fin 16) (b : BeaconContents) (s : State) : State :=
  let old := s.presence.peers[i]
  let s := s.modPeer i (fun p =>
    { p with presence := .present, interval := some b.interval, since := 0, contents := some b })
  let s := if b.cause.isNone then s.setFaulted i false else s
  let s := if old.presence = .present then s else s.emit (.peerPresent i)
  s.emit (.beaconTaken i)

/-- The Presence Monitor's owner of BEACON (R34). -/
def State.onBeacon (rx : Rx) (s : State) : State :=
  match parseBeacon? rx.payload with
  | none => s
  | some b =>
    if rx.src = deskAddr then s
    else if rx.src = s.ownAddr then s.clashTest b
    else if s.loader.settings.isSome ∧ s.n ≤ rx.src.toNat then s
    else s.enterBeacon (peerIdx rx.src.toNat) b

/-- A PRESENT station entry has been silent for three announced intervals: LOST, made known (R35). -/
def State.peerSilence (i : Fin 16) (s : State) : State :=
  if s.presence.peers[i].presence = .present then
    (s.modPeer i (fun p => { p with presence := .lost })).emit (.peerLost i)
  else s

/-- The desk has been silent for 30 s: LOST, made known (R36). -/
def State.deskSilence (s : State) : State :=
  if s.presence.desk = .present then (s.modPresence (fun p => { p with desk := .lost })).emit .deskLost else s

/-- The calm timer runs out: the clash state ends and the interval is the mode's again (R37). -/
def State.clashCalm (s : State) : State :=
  if s.presence.calmTimer.isSome then
    State.refreshInterval (s.modPresence (fun p => { p with clash := false, calmTimer := none }))
  else s

/-- The asks that wait for a place (R38). -/
def Link.asksWaiting (l : Link) : Nat :=
  (l.unplaced.filter (fun o => o.block = .presence && o.kind = .statusReply)).length

/-- The Presence Monitor's owner of STATUS_ASK (R38). -/
def State.onStatusAsk (rx : Rx) (s : State) : State :=
  let tag := byteAt rx.payload 0
  if 2 ≤ s.link.asksWaiting then s.refuseRx .statusAsk rx .busy
  else s.offer { frame .presence .statusReply rx.src [] with body := .statusReply tag }

/-- What the loss of a station does in the blocks, PEER_LOST last (R35, R69, R77, R117, R149). Log entry 25. The loss of the other
end prompts no admission test: DESIGN CHOICE, log entry 75. -/
def State.onPeerLost (i : Fin 16) (s : State) : State :=
  if !s.works then s
  else
    let upper : Bool := i.val = s.k + 1
    let lower : Bool := i.val + 1 = s.k
    let code := ((s.peer i.val).interval.getD .normal).code
    let s := s.doIf upper State.upperLost
    let s := s.doIf upper State.withholdOnward
    let s := s.doIf lower State.lowerPeerLost
    let s := s.doIf (i.val = s.otherEnd) State.recoveryGovern
    s.doIf (upper || lower)
      (State.emit (.raise .peerLost (BitVec.ofNat 32 i.val) (BitVec.ofNat 32 code) (if lower then .lower else .none)))

/-- What the return of a station does in the blocks (R35, R75, R102, R106, R117, R149, R161, R187). -/
def State.onPeerPresent (i : Fin 16) (s : State) : State :=
  if !s.works then s
  else
    let upper : Bool := i.val = s.k + 1
    let lower : Bool := i.val + 1 = s.k
    let s := s.peerReturned i.val
    let s := s.doIf (upper && decide (s.chamber.holder.kind = .orphaned) && s.chamber.feedTimer.isNone) State.sendFeed
    let s := s.doIf lower State.peerRestartTest
    let s := s.doIf (lower && s.lowerUnit.waitPeer) (State.claimOn .lower)
    let s := s.doIf upper State.onwardTest
    let s := s.transferTest
    s.doIf (i.val = s.otherEnd) State.recoveryGovern

/-- What a beacon taken from a station does in the blocks (R77, R114, R127, R141, R148 to R150, R163, R187). -/
def State.onBeaconTaken (i : Fin 16) (s : State) : State :=
  if !s.works then s
  else match (s.peer i.val).contents with
    | none => s
    | some b =>
      let lower : Bool := i.val + 1 = s.k
      let s := s.doIf lower (State.claimLostTest b)
      let s := s.repeatXferEnd i.val b
      let s := s.transferRecovery i.val b
      let s := s.doIf lower State.alarmWaitTest
      s.doIf (s.isEnd && i.val = s.otherEnd) (State.tokenBeacon b)

/-- What the setting of a mark does in the blocks: an onward ask not yet sent is withheld (R102, R191). The other blocks look
at the mark where they act. -/
def State.onMarkSet (i : Fin 16) (s : State) : State := s.doIf (s.works && i.val = s.k + 1) State.withholdOnward

/-- What the clearing of a mark does in the blocks: each makes the test it withheld (R67, R70, R102, R127, R161, R191). -/
def State.onMarkCleared (i : Fin 16) (s : State) : State :=
  if !s.works then s
  else
    let s := s.doIf (i.val = s.k + 1) State.testWaiter
    let s := s.doIf (i.val + 1 = s.k) State.lowerUnmarked
    let s := s.doIf (i.val = s.k + 1) State.onwardTest
    s.transferTest.emit .admissionTest

end Sys2Proof.Machine
end

