-- ==== Sys2Proof/Machine/Startup.lean ====
section
/-! DEFINITION. START, RESTART and the end of LOADING (R22 to R31, and the START and RESTART tables of every chapter). -/

namespace Sys2Proof.Machine
open Sys2Proof

/-- START: every block takes its START state and the mode is LOADING. What the model keeps beside the blocks stands: the
commands that wait, the draws already made, and the input pins (log entry 31). -/
def State.startState (s : State) : State := { State.reset with pending := s.pending, draws := s.draws, pins := s.pins }

/-! ### RESTART (R29, R30) -/

/-- No record is SENDING or RECEIVING, and no XFER_ASK is pending (R29). -/
def State.transfersIdle (s : State) : Bool :=
  s.store.records.all (fun r => r.state ≠ .sending && r.state ≠ .receiving)
    && !s.link.entries.any (fun e => e.kind = .xferAsk) && !s.link.unasked.any (fun r => r.kind = .xferAsk)

/-- The conditions of R29. -/
def State.restartAllowed (s : State) : Bool :=
  s.allClosed && s.registerFree && s.chamber.lower.state = .none && s.transfersIdle

/-- The stop state RESTART keeps (R30). -/
def Control.keptStop (c : Control) : StopState :=
  match c.stop, c.latch with
  | .stopActive, _ => .stopActive
  | .stopSettling, true => .stopActive
  | _, _ => .stopClear

/-- What RESTART keeps of the Approach Unit (R138). -/
def Approach.kept (a : Approach) : Approach :=
  { Approach.initial with queue := a.queue.map (fun e => { e with resolution := none }), nextOrder := a.nextOrder,
                          counter := a.counter }

/-- What RESTART keeps of the token record (R142). -/
def Token.kept (t : Token) : Token :=
  { t with state := if t.state = .offered then .held else t.state, inFlight := t.inFlight.map (fun x => { x with misses := 0 }),
           offer := none, clashMark := false, sweepTimer := none, recovery := .stopped }

/-- What RESTART keeps of the inbound transfer (R166). -/
def Inbound.kept (i : Inbound) : Inbound :=
  match i.state with
  | .paused => i
  | .failed => { i with state := .paused, attempt := 0 }
  | _ => Inbound.initial

/-- What RESTART keeps of the Record Store (R166); hand-ins that wait are kept with the transfer they wait for (log entry
36). -/
def Store.kept (st : Store) : Store :=
  { st with custody := 0, stream := none, inbound := st.inbound.kept, gapTimer := none, attemptWait := none,
            low := false, lowTimer := none }

/-- An accepted RESTART: every block takes its RESTART state, and the mode is LOADING (R30). -/
def State.restartState (s : State) : State :=
  { s.startState with
    loader := { s.loader with sampled := false, settings := none, serial := none, fromRestart := true },
    ctl := { Control.initial with stop := s.ctl.keptStop, wakeSource := .restart },
    chamber := { Chamber.initial with occupancy := s.chamber.occupancy, key := s.chamber.key },
    approach := s.approach.kept,
    token := s.token.kept,
    store := s.store.kept,
    vessels := s.vessels,
    tariff := { s.tariff with minuteTimer := none },
    toll := { s.toll with stream := none } }

/-- The Mode Control owner of RESTART (R29, R30). -/
def State.onRestart (rx : Rx) (s : State) : State :=
  if rx.broadcast ∨ rx.src ≠ deskAddr then s
  else if s.ctl.mode = .unconfigured ∨ s.restartAllowed then s.restartState
  else s.refuseRx .restart rx .busy

/-! ### The end of LOADING (R26, R27, R31, R139) -/

/-- The straps are sampled (R23, R196). -/
def State.sampleStraps (x : BitVec 4) (s : State) : State :=
  if s.ctl.mode = .loading ∧ ¬ s.loader.sampled then { s with loader := { s.loader with strap := x, sampled := true } }
  else s

/-- The kept state stands: the placing equals the last good one (R31). -/
def State.keptStands (s : State) (c : Settings) : Bool :=
  s.loader.fromRestart && s.loader.placing = some ⟨s.loader.strap, c.flight⟩

/-- The kept state is set aside: every block takes its START state but for Mode Control (R31, log entry 37). -/
def State.setAside (s : State) : State := { s.startState with loader := s.loader, ctl := s.ctl }

/-- The configured values are handed out, and the placing kept (R26). -/
def State.handOut (c : Settings) (s : State) : State :=
  { s with loader := { s.loader with settings := some c, serial := some c.serial,
                                     placing := some ⟨s.loader.strap, c.flight⟩ } }

/-- The token record after START: HELD with epoch 1 at the foot, ABSENT with epoch 0 at the head (R142). -/
def State.freshToken (s : State) : Token :=
  { Token.initial with state := if s.isFoot then .held else .absent, epoch := if s.isFoot then 1 else 0 }

/-- What a fresh start loads: the rates (R183) and, at an end station, the token (R142). -/
def State.loadFresh (s : State) : State :=
  { s with tariff := { s.tariff with staged := s.cfg.rates, active := s.cfg.rates },
           token := if s.isEnd then s.freshToken else s.token }

/-- The timers that start when LOADING ends with the record passed: loss timers (R58, R78), the minute timer while the
time is known (R183), and the sweep timer at an end station (R142). -/
def State.startTimers (s : State) : State :=
  { s with chamber := { s.chamber with level := { s.chamber.level with lossTimer := some (sec 5) },
                                       outer := { s.chamber.outer with
                                         lossTimer := if s.isEnd then some (sec 5) else none } },
           tariff := { s.tariff with minuteTimer := if s.tariff.known then some (sec 60) else none },
           token := { s.token with sweepTimer := if s.isEnd then some (sec 6) else none } }

/-- The flasher starts with an on half when LOADING ends (R198). -/
def State.startFlasher (s : State) : State := { s with flasherOn := true, flasherTimer := some (ms 500) }

/-- The mode becomes WAKING, the pump is started and the wake settle timer runs (R26, R40, R41). -/
def State.enterWaking (s : State) : State :=
  { s with ctl := { s.ctl with mode := .waking, wakeTimer := some (sec s.cfg.wakeSettle), pumpReady := false } }

/-- A stop button still pressed when LOADING ends counts as one press (R45). -/
def State.pressedAtEnd (s : State) : State := if s.pins.stopButton then s.stopPress else s

/-- A queued entry longer than the new chamber capacity is removed and answered CLOSED (R139). -/
def State.dropLong (s : State) (e : QueueEntry) : State :=
  if s.cfg.capacity < e.lengthClass then (s.unqueue e.registration).answer e.registration .closed 0 else s

/-- A member re-formed from its CREATED record (R139); its arrival order and deferral count are no longer known (log entry
38). -/
def Record.asMember (r : Record) : Member :=
  { entry := { registration := r.registration, ready := true, cls := r.cls, group := r.group, account := r.account,
               lengthClass := r.lengthClass, deferral := 0, order := 0, defaultGroup := r.defaultGroup,
               resolution := none },
    state := .admitted }

/-- The batch that was in admission is re-formed, and its ENTRY crossing placed again (R139). -/
def State.reform (s : State) : State :=
  match s.store.records.find? (fun r => r.state = .created && s.token.inFlight.any (fun x => x.key = r.key)) with
  | none => s
  | some r =>
    let members := (s.store.batch r.key).map Record.asMember
    (s.modApproach (fun a => { a with batch := some { key := r.key, members := members } })).placeEntry r.key
      members.length

/-- The Approach Unit takes up its work after a RESTART (R139). -/
def State.resumeApproach (s : State) : State :=
  let s := s.approach.queue.foldl State.dropLong s
  let s := ((s.approach.queue.filter (fun e => !e.ready)).map QueueEntry.registration).foldl
    (fun s r => s.beginResolution r) s
  s.reform

/-- LOADING ends with the record passed (R26, R31). -/
def State.loadingPassed (c : Settings) (s : State) : State :=
  let stands := s.keptStands c
  let s := if s.loader.fromRestart ∧ ¬ stands then s.setAside else s
  let s := s.handOut c
  let s := if stands then s else s.loadFresh
  let s := s.enterWaking.startTimers.startFlasher.findElements.beaconAtOnce.pressedAtEnd
  let s := s.doIf (stands && s.isEnd) State.resumeApproach
  s.recoveryGovern.lowStoreTest.transferTest.emit .onwardTest

/-- LOADING ends with the record failed: UNCONFIGURED, CONFIG_INVALID raised, and the known serial handed on (R27). -/
def State.loadingFailed (reason fieldPos : Nat) (serial : Option (BitVec 24)) (s : State) : State :=
  let s := { s with loader := { s.loader with settings := none, serial := serial },
                    ctl := { s.ctl with mode := .unconfigured } }
  (s.startFlasher.emit (.raise .configInvalid (BitVec.ofNat 32 reason) (BitVec.ofNat 32 fieldPos) .none)).beaconAtOnce.pressedAtEnd

/-- The configuration record has been read, whole or not (R24 to R27). It is read once the straps have been (R22). -/
def State.recordRead (bytes : List Byte) (s : State) : State :=
  if s.ctl.mode = .loading ∧ s.loader.sampled then
    match checkRecord s.loader.strap bytes with
    | .passed c => s.loadingPassed c
    | .failed reason fieldPos serial => s.loadingFailed reason fieldPos serial
  else s

end Sys2Proof.Machine
end

