-- ==== Sys2Proof/Machine/Settle.lean ====
section
/-! DEFINITION. How the blocks act on what one tells another inside a step, until nothing is left to act on (log entries 3
and 4). -/

namespace Sys2Proof.Machine
open Sys2Proof

/-- Entry into HELD: crossings freeze, local working is abandoned from PENDING, and the running motion is pushed (R192). -/
def State.enterHeld (s : State) : State := (s.freezeUnits.localAbandon .auto).pushAtHeld

/-- The mode leaves HELD: the key position is acted on where LOCAL is restored, so that no opening is driven by a key that
stands at AUTO; then the grant decision, then every block takes up what HELD kept back (R53, R67, R101, R102, R116, R127,
R193). The order among them beyond that is a DESIGN CHOICE, log entry 4. -/
def State.leaveHeld (s : State) : State :=
  let s := s.localRestored.decideGrant.unfreezeUnits
  (s.localTest.testWaiter).emits ((s.units.map Notice.beginCrossing) ++ [.onwardTest, .admissionTest])

/-- The mode leaves LOCAL for IN_SERVICE: a motion left in the PANEL slot is withdrawn (R87). -/
def State.leaveLocal (old new : Mode) (s : State) : State :=
  if old = .localMode ∧ new = .inService then s.withdraw .panel true else s

/-- A change of mode is made known (R40). -/
def State.onModeChanged (old new : Mode) (s : State) : State :=
  if !s.works then s
  else if new = .held then s.enterHeld
  else if old = .held then s.leaveHeld
  else (s.leaveLocal old new).decideGrant.localTest.emit .admissionTest

/-- A change of the stop state is made known (R44, R93, R127). -/
def State.onStopChanged (old new : StopState) (s : State) : State :=
  if !s.works then s
  else match old, new with
    | .stopClear, .stopActive => s.freezeMotion.emit .grantDecision
    | _, .stopClear => s.unfreezeMotion.emit .admissionTest
    | _, _ => s

/-- A level, its usability or the fed level has changed (R107, R108, R117). -/
def State.onLevelsChanged (s : State) : State :=
  let s := s.peerRestartTest
  s.units.foldl (fun s u => s.equalizeTest u) s

/-- Both units test RESERVE again (R104). -/
def State.reserveTests (s : State) : State := s.units.foldl (fun s u => s.reserveTest u) s

/-- The occupancy or the chamber batch key has changed (R61, R67, R102, R104, R127). -/
def State.onOccupancy (s : State) : State :=
  let s := if s.chamber.occupancy = .empty then s.testWaiter else s
  s.onwardEnd.reserveTests.onwardTest.emit .admissionTest

/-- The free pages or the reserved count has changed (R67, R104, R127, R152). -/
def State.onPages (s : State) : State := s.testWaiter.reserveTests.emit .admissionTest

/-- An element has reached CLOSED (R54, R187): a recovery's close of it is over, unless its motion still stands in the slot. -/
def State.onElementClosed (e : Element) (s : State) : State :=
  let u := elementUnit e
  let free := (s.slot (seqOf u)).isNone
  let s := s.modUnit u (fun b =>
    if b.recovery = some e && (!b.recoveryRunning || free) then { b with recovery := none, recoveryRunning := false } else b)
  (s.recoveryClosed e).localEndTest

/-- The registration of a VESSEL_QUERY: the upper half of its widenable field and the bytes of the lower. -/
def queryReg (upper : Option (BitVec 16)) (p : List Byte) (i : Nat) : BitVec 32 := widened (upper.getD 0) (be16 p i)

/-- The payload of an offer that carries bytes. -/
def Offer.payload (o : Offer) : List Byte :=
  match o.body with
  | .bytes p => p
  | _ => []

/-- A block is told "not sent" (R11, R14), by the frame's kind. Where its chapter says nothing of it the block lets the frame go:
so a feed (R75), an XFER_BAD (R164), a TOLL_END (R181), and every answer, DESIGN CHOICE, log entry 45; its chapter lets a BEACON
go (R33), an EXIT_NOTE (R178) and a FAULT_CLEAR (R190). -/
def State.onNotSent (f : Offer) (s : State) : State :=
  match f.kind with
  | .flightStop => s.stopNotSent f
  | .alarmClose => s.alarmCloseNotSent f
  | .claimDrop => s.dropNotSent f
  | .claimAsk => s.claimNotSent f.tag
  | .crossAsk => s.onwardFailed f.tag
  | .xferAsk => s.xferEnded (keyAt f.payload 1) true
  | .recSeg => if f.block = .toll then s.readNotSent f else s.streamNotSent f
  | .xferEnd => s.offer f
  | .hold => s.holdNotSent f
  | .tollReady => s.tollReadyNotSent
  | .logFull => s.logFullNotSent f
  | .vesselQuery => s.queryEnded (queryReg f.upper f.payload 1)
  | .tokenOffer => s.offerEnded
  | .faultNote => s.noteNotSent f
  | _ => s

/-- A block is told "refused" with the reason (R19), by the request's kind. The reason is of use to the lower claim alone
(R71). -/
def State.onRequestRefused (e : ReplyEntry) (r : Reason) (s : State) : State :=
  match e.kind with
  | .claimAsk => s.claimRefused e.tag r
  | .crossAsk => s.onwardFailed e.tag
  | .xferAsk => s.xferEnded e.key false
  | .vesselQuery => s.queryEnded (queryReg e.upper e.body 0)
  | .tokenOffer => s.offerEnded
  | _ => s

/-- A block is told "no reply" (R19), by the request's kind. -/
def State.onNoReply (e : ReplyEntry) (s : State) : State :=
  match e.kind with
  | .claimAsk => s.claimNoReply e.tag
  | .crossAsk => s.onwardFailed e.tag
  | .xferAsk => s.xferEnded e.key true
  | .vesselQuery => s.queryEnded (queryReg e.upper e.body 0)
  | .tokenOffer => s.offerEnded
  | _ => s

/-- The own chamber claim's notice goes to the unit, or to local working (R51, R64). -/
def State.onOwnNotice (u : UnitId) (p : Purpose) (n : OwnNotice) (s : State) : State :=
  if p = .localWork then s.localOwn n else s.onOwnClaim u n

/-- The lower claim's notice goes to the unit, or to local working (R51, R70). -/
def State.onLowerNotice (p : Purpose) (n : LowerNotice) (s : State) : State :=
  if p = .localWork then s.localLower n else s.onLowerClaim n

/-- A motion's notice goes to its sequencer's unit. A PANEL motion's is acted on by nobody (R53), and a SAFETY motion's went
to the set (R97). -/
def State.onMotionNotice (src : Source) (e : Element) (t : Target) (n : MotionNotice) (atOnce : Bool) (s : State) : State :=
  match unitOfSource? src with
  | some u => s.onMotion u e t n atOnce
  | none => s

/-- Act on one notice. -/
def State.act (t : Notice) (s : State) : State :=
  match t with
  | .modeChanged old new => s.onModeChanged old new
  | .stopChanged old new => s.onStopChanged old new
  | .raise c v1 v2 b => s.onRaise c v1 v2 b
  | .takePending => s.takePending
  | .elementClosed e => s.onElementClosed e
  | .transitRecovered u => s.transitRecovered u
  | .requeue u => s.timeoutRecovered u
  | .stepDone u key st => s.stepDone u key st
  | .grantDecision => s.decideGrant
  | .motion src e t n atOnce => s.onMotionNotice src e t n atOnce
  | .alarmWaitTest => s.alarmWaitTest
  | .peerPresent i => s.onPeerPresent i
  | .peerLost i => s.onPeerLost i
  | .beaconTaken i => s.onBeaconTaken i
  | .markSet i => s.onMarkSet i
  | .markCleared i => s.onMarkCleared i
  | .deskPresent => s.tollDeskPresent
  | .deskLost => s.approachDeskLost
  | .holderFree => s.onHolderFree
  | .ownClaim u p n => s.onOwnNotice u p n
  | .lowerClaim p n => s.onLowerNotice p n
  | .levelsChanged => s.onLevelsChanged
  | .occupancyChanged => s.onOccupancy
  | .pagesChanged => s.onPages
  | .localClaims => s.localClaims
  | .localResume => s.localResume
  | .beginCrossing u => s.beginCrossing u
  | .enterStep u => s.enterStep u
  | .logWaitTest => s.reserveTest s.exitUnit
  | .slotFree u => s.onSlotFree u
  | .onwardTest => s.onwardTest
  | .admissionTest => s.admissionTest
  | .entryEnded key => s.entryEnded key
  | .handIn key sender => s.onHandIn key sender
  | .transferDone key => s.transferDone key
  | .streamNext => s.streamNext
  | .readNext => s.readNext
  | .notSent f => (s.onNotSent f).serveAll
  | .requestRefused e r => (s.onRequestRefused e r).serveAll
  | .noReply e => (s.onNoReply e).serveAll

/-- Act on the notices that stand, the first and what follows from it before the next; the first argument bounds how
many are acted on (log entry 3). -/
def State.settle : Nat → State → State
  | 0, s => s
  | fuel + 1, s =>
    match s.notices with
    | [] => s
    | t :: rest =>
      let s' := State.act t { s with notices := [] }
      State.settle fuel { s' with notices := s'.notices ++ rest }

/-- How many notices one step acts on at most; what is left is acted on by the next step (log entry 3). -/
def settleBound : Nat := 4096

/-- The end of every command: what its effect made known is acted on, and the commands that wait are as they were. -/
def finish (s s' : State) : State := { State.settle settleBound s' with pending := s.pending }

end Sys2Proof.Machine
end

