-- ==== Sys2Proof/Machine/Clock.lean ====
section
/-! DEFINITION. Time: the expiry that is due, and one bit time passing (1.4, log entries 1 and 5). -/

namespace Sys2Proof.Machine
open Sys2Proof

/-! ### What is due -/

/-- A timer has run out. -/
def Timer.out (t : Timer) : Bool := t = some 0

/-- The command when its condition holds. -/
def dueIf (c : Bool) (i : Instr) : Option Instr := if c then some i else none

/-- The parties of the widen slots and the hold table, in index order. -/
def allParties : List Party := (List.finRange 16).map Party.station ++ [.desk]

/-- A PENDING widen slot has reached 100 ms (R16). -/
def WidenSlot.lapsed : WidenSlot → Bool
  | .pending _ age _ => decide (ms 100 ≤ age)
  | .empty => false

/-- A sent WIDEN whose frame has stayed unsent for 50 ms (R17). -/
def TxFrame.resendDue (f : TxFrame) : Bool := !f.widenDue && f.widenAge.any (fun a => decide (ms 50 ≤ a))

/-- A PRESENT entry silent for three announced intervals (R35). -/
def Peer.silent (p : Peer) : Bool :=
  p.presence = .present && p.interval.any (fun i => decide (3 * i.span ≤ p.since))

/-- A driving motion whose allowance is used up (R84). -/
def State.allowanceUp (s : State) : Bool :=
  s.drive.slots.toList.any (fun m => m.any (fun m => m.phase = .running && m.allowance = 0))

/-- What the link has due. -/
def State.dueLink (s : State) : List (Option Instr) :=
  [dueIf (Timer.out s.link.backoff) .backoffExpiry, dueIf (s.link.txq.any TxFrame.resendDue) .widenResendExpiry]
    ++ s.link.holds.map (fun h => dueIf (h.left = 0) (.widenHoldExpiry h.dst))
    ++ allParties.map (fun p => dueIf (s.link.widenSlots[partyIdx p]).lapsed (.widenSlotExpiry p))
    ++ s.link.entries.map (fun e => dueIf (Timer.out e.deadline) (.replyDeadlineExpiry e.tag))

/-- What presence and Mode Control have due. -/
def State.duePresence (s : State) : List (Option Instr) :=
  [dueIf (Timer.out s.presence.beaconTimer) .beaconTimerExpiry]
    ++ (List.finRange 16).map (fun i => dueIf (s.presence.peers[i]).silent (.peerSilenceTimeout i))
    ++ [dueIf (s.presence.desk = .present && decide (sec 30 ≤ s.presence.deskSince)) .deskSilenceTimeout,
        dueIf (Timer.out s.presence.calmTimer) .clashCalmExpiry,
        dueIf (Timer.out s.ctl.wakeTimer) .wakeSettleExpiry,
        dueIf (Timer.out s.ctl.resumeTimer) .resumeSettleExpiry]

/-- What the Chamber Unit has due. -/
def State.dueChamber (s : State) : List (Option Instr) :=
  [dueIf (Timer.out s.chamber.level.staleTimer) (.levelStaleTimeout .chamber),
   dueIf (Timer.out s.chamber.outer.staleTimer) (.levelStaleTimeout .outer),
   dueIf (Timer.out s.chamber.level.lossTimer) (.levelLossExpiry .chamber),
   dueIf (Timer.out s.chamber.outer.lossTimer) (.levelLossExpiry .outer),
   dueIf (Timer.out s.chamber.selfTimer) .selfWaitExpiry,
   dueIf (Timer.out s.chamber.lower.timer) .claimWaitExpiry]
    ++ s.chamber.cancelled.map (fun c => dueIf (Timer.out c.left) (.cancelledTagExpiry c.tag))
    ++ [dueIf (Timer.out s.chamber.feedTimer) .levelFeedTimerExpiry,
        dueIf (s.chamber.fed.any (fun f => f.fresh && decide (sec 3 ≤ f.age))) .fedLevelStale]

/-- What the boundary units have due; a paused timer is not. -/
def State.dueUnit (s : State) (u : UnitId) : List (Option Instr) :=
  let b := s.unit u
  [dueIf (Timer.out b.retryTimer) (.claimRetryExpiry u),
   dueIf (Timer.out b.equalizeTimer && s.crossTimersRun u) (.equalizeTimerExpiry u),
   dueIf (Timer.out b.entryTimer && s.crossTimersRun u) (.entryTimeLimitExpiry u)]

/-- What the Approach Unit, the token and the stores have due. -/
def State.dueRest (s : State) : List (Option Instr) :=
  s.approach.queue.map (fun e => dueIf (Timer.out e.resolution) (.resolutionTimerExpiry e.registration))
    ++ allParties.map (fun p => dueIf (Timer.out (s.holdOf p).left) (.holdEntryExpiry p))
    ++ [dueIf (Timer.out s.token.sweepTimer) .sweepTimerExpiry,
        dueIf (s.token.recovery = .running 0) .recoveryTimerExpiry,
        dueIf (Timer.out s.store.gapTimer) .gapTimerExpiry,
        dueIf (Timer.out s.store.attemptWait) .attemptWaitExpiry,
        dueIf (Timer.out s.store.lowTimer) .lowStoreRepeatExpiry,
        dueIf (Timer.out s.tariff.minuteTimer) .minuteTimerExpiry,
        dueIf (Timer.out s.flasherTimer) .flasherToggle]

/-- The expiry that is due, the first in a fixed order where several are (log entry 5). -/
def State.due (s : State) : Option Instr :=
  (s.dueLink ++ s.duePresence ++ s.dueChamber
    ++ [dueIf s.allowanceUp .travelAllowanceExpiry, dueIf (Timer.out s.onward.retryTimer) .onwardRetryExpiry,
        dueIf (Timer.out s.onward.repeatTimer) .onwardRepeatExpiry]
    ++ s.dueUnit .lower ++ s.dueUnit .head ++ s.dueRest).findSome? id

/-! ### One bit time -/

/-- A running timer counts down. -/
def Timer.down (t : Timer) : Timer := t.map (fun n => n - 1)

/-- The link after one bit time. -/
def Link.tick (l : Link) : Link :=
  let frame := fun (f : TxFrame) => { f with widenAge := f.widenAge.map (fun a => a + 1) }
  let slot := fun (w : WidenSlot) => match w with
    | .pending u a p => .pending u (a + 1) p
    | .empty => .empty
  { l with txq := l.txq.map frame, backoff := Timer.down l.backoff, widenSlots := l.widenSlots.map slot,
           holds := l.holds.map (fun h => { h with left := h.left - 1 }),
           entries := l.entries.map (fun e => { e with deadline := Timer.down e.deadline }) }

/-- The Presence Monitor after one bit time. -/
def Presence.tick (p : Presence) : Presence :=
  { p with peers := p.peers.map (fun e => { e with since := e.since + 1 }), deskSince := p.deskSince + 1,
           calmTimer := Timer.down p.calmTimer, beaconTimer := Timer.down p.beaconTimer }

/-- A level after one bit time. -/
def Level.tick (l : Level) : Level :=
  { l with staleTimer := Timer.down l.staleTimer, lossTimer := Timer.down l.lossTimer }

/-- The Chamber Unit after one bit time. -/
def Chamber.tick (c : Chamber) : Chamber :=
  { c with level := c.level.tick, outer := c.outer.tick, selfTimer := Timer.down c.selfTimer,
           lower := { c.lower with timer := Timer.down c.lower.timer,
                                   heldFor := if c.lower.state = .held then c.lower.heldFor + 1 else c.lower.heldFor },
           fed := c.fed.map (fun f => { f with age := f.age + 1 }),
           cancelled := c.cancelled.map (fun t => { t with left := Timer.down t.left }),
           feedTimer := Timer.down c.feedTimer }

/-- The Drive Arbiter after one bit time: only a driving motion uses its allowance (R84, R93, R94). -/
def Drive.tick (d : Drive) : Drive :=
  let f := fun (m : Motion) => if m.phase = .running then { m with allowance := m.allowance - 1 } else m
  { d with slots := d.slots.map (fun m => m.map f) }

/-- A boundary unit after one bit time; `runs` says that its crossing's timers are not paused (R115, R116). -/
def BoundaryUnit.tick (runs : Bool) (b : BoundaryUnit) : BoundaryUnit :=
  { b with retryTimer := Timer.down b.retryTimer,
           equalizeTimer := if runs then Timer.down b.equalizeTimer else b.equalizeTimer,
           entryTimer := if runs then Timer.down b.entryTimer else b.entryTimer }

/-- The Approach Unit after one bit time. -/
def Approach.tick (a : Approach) : Approach :=
  { a with queue := a.queue.map (fun e => { e with resolution := Timer.down e.resolution }),
           holds := a.holds.map (fun h => { h with left := Timer.down h.left }) }

/-- The token record after one bit time. -/
def Token.tick (t : Token) : Token :=
  { t with sweepTimer := Timer.down t.sweepTimer,
           recovery := match t.recovery with
             | .running n => .running (n - 1)
             | r => r }

/-- The station after one bit time (log entry 1). -/
def State.tick (s : State) : State :=
  { s with
    link := s.link.tick,
    presence := s.presence.tick,
    ctl := { s.ctl with resumeTimer := Timer.down s.ctl.resumeTimer, wakeTimer := Timer.down s.ctl.wakeTimer },
    chamber := s.chamber.tick,
    drive := s.drive.tick,
    lowerUnit := s.lowerUnit.tick (s.crossTimersRun .lower),
    headUnit := s.headUnit.tick (s.crossTimersRun .head),
    onward := { s.onward with retryTimer := Timer.down s.onward.retryTimer,
                              repeatTimer := Timer.down s.onward.repeatTimer },
    approach := s.approach.tick,
    token := s.token.tick,
    store := { s.store with gapTimer := Timer.down s.store.gapTimer, attemptWait := Timer.down s.store.attemptWait,
                            lowTimer := Timer.down s.store.lowTimer },
    tariff := { s.tariff with minuteTimer := Timer.down s.tariff.minuteTimer },
    flasherTimer := Timer.down s.flasherTimer }

end Sys2Proof.Machine
end

