-- ==== Sys2Proof/Machine/ExecStart.lean ====
section
/-! DEFINITION. The meanings of START, the strap sample, the record read, and the frames that reach no owner. -/

namespace Sys2Proof.Machine
open Sys2Proof

/-- Every command's outcome: the effect, then everything it made known, acted on before the command ends. -/
def ran (f : State → State) (s : State) : Host.Outcome State Fault Refusal := .next (finish s (f s))

/-- START (R22). -/
def execStart (s : State) : Host.Outcome State Fault Refusal := ran State.startState s

/-- STRAP_SAMPLE (R23, R196). -/
def execStrapSample (straps : BitVec 4) (s : State) : Host.Outcome State Fault Refusal :=
  ran (State.sampleStraps straps) s

/-- CONFIG_RECORD_READ (R24 to R27). -/
def execConfigRecordRead (bytes : List Byte) (s : State) : Host.Outcome State Fault Refusal :=
  ran (State.recordRead bytes) s

/-- FRAME_DISCARDED: a frame that fails the acceptance test of R2 is discarded without answer, unreported and uncounted. -/
def execFrameDiscarded (_wholeFrame : Bool) (_bytes : List Byte) (s : State) : Host.Outcome State Fault Refusal :=
  ran id s

/-- An accepted frame bound for another address: its source is reported, and it is ignored (R3, R4). -/
def State.overhear (src dst : Addr) (s : State) : State :=
  if s.hears && validSource src && !s.isTaken dst then s.reportSource src else s

/-- FRAME_NOT_TAKEN (R3). -/
def execFrameNotTaken (src dst : Addr) (s : State) : Host.Outcome State Fault Refusal :=
  ran (State.overhear src dst) s

/-- UNKNOWN_KIND (R5 test 1, R8, R9). -/
def execUnknownKind (src dst : Addr) (kind : BitVec 6) (_payload : List Byte) (s : State) :
    Host.Outcome State Fault Refusal := ran (State.receiveUnknown src dst kind) s


end Sys2Proof.Machine
end

