-- ==== Sys2Proof/Machine/ExecFrames.lean ====
section
/-! DEFINITION. The meanings of the frame kinds: each passes the filter and the tests of R3 to R9 and reaches its owner. -/

namespace Sys2Proof.Machine
open Sys2Proof

/-- The owner of a kind that the desk alone receives: no station hands such a frame over (R6). -/
def noOwner (_rx : Rx) (s : State) : State := s

/-- WIDEN (R15). -/
def execWiden (src dst : Addr) (payload : List Byte) (s : State) : Host.Outcome State Fault Refusal :=
  ran (State.receive .widen src dst payload State.onWiden) s

/-- ECHO (R20). -/
def execEcho (src dst : Addr) (payload : List Byte) (s : State) : Host.Outcome State Fault Refusal :=
  ran (State.receive .echo src dst payload State.onEcho) s

/-- ECHO_BACK (R19). -/
def execEchoBack (src dst : Addr) (payload : List Byte) (s : State) : Host.Outcome State Fault Refusal :=
  ran (State.receive .echoBack src dst payload (State.onPlainReply .echoBack)) s

/-- REFUSE (R19). -/
def execRefuse (src dst : Addr) (payload : List Byte) (s : State) : Host.Outcome State Fault Refusal :=
  ran (State.receive .refuse src dst payload State.onRefuse) s

/-- BEACON (R34). -/
def execBeacon (src dst : Addr) (payload : List Byte) (s : State) : Host.Outcome State Fault Refusal :=
  ran (State.receive .beacon src dst payload State.onBeacon) s

/-- STATUS_ASK (R38). -/
def execStatusAsk (src dst : Addr) (payload : List Byte) (s : State) : Host.Outcome State Fault Refusal :=
  ran (State.receive .statusAsk src dst payload State.onStatusAsk) s

/-- STATUS_REPLY (R19). -/
def execStatusReply (src dst : Addr) (payload : List Byte) (s : State) : Host.Outcome State Fault Refusal :=
  ran (State.receive .statusReply src dst payload (State.onPlainReply .statusReply)) s

/-- FLIGHT_STOP (R43). -/
def execFlightStop (src dst : Addr) (payload : List Byte) (s : State) : Host.Outcome State Fault Refusal :=
  ran (State.receive .flightStop src dst payload State.onFlightStop) s

/-- RESUME (R43). -/
def execResume (src dst : Addr) (payload : List Byte) (s : State) : Host.Outcome State Fault Refusal :=
  ran (State.receive .resume src dst payload State.onResume) s

/-- REST (R46, R47). -/
def execRest (src dst : Addr) (payload : List Byte) (s : State) : Host.Outcome State Fault Refusal :=
  ran (State.receive .rest src dst payload State.onRest) s

/-- WAKE (R48). -/
def execWake (src dst : Addr) (payload : List Byte) (s : State) : Host.Outcome State Fault Refusal :=
  ran (State.receive .wake src dst payload State.onWake) s

/-- RESTART (R29, R30). -/
def execRestart (src dst : Addr) (payload : List Byte) (s : State) : Host.Outcome State Fault Refusal :=
  ran (State.receive .restart src dst payload State.onRestart) s

/-- CLAIM_ASK (R65). -/
def execClaimAsk (src dst : Addr) (payload : List Byte) (s : State) : Host.Outcome State Fault Refusal :=
  ran (State.receive .claimAsk src dst payload State.onClaimAsk) s

/-- CLAIM_DROP (R68). -/
def execClaimDrop (src dst : Addr) (payload : List Byte) (s : State) : Host.Outcome State Fault Refusal :=
  ran (State.receive .claimDrop src dst payload State.onClaimDrop) s

/-- LEVEL_FEED (R76). -/
def execLevelFeed (src dst : Addr) (payload : List Byte) (s : State) : Host.Outcome State Fault Refusal :=
  ran (State.receive .levelFeed src dst payload State.onLevelFeed) s

/-- ALARM_CLOSE (R98). -/
def execAlarmClose (src dst : Addr) (payload : List Byte) (s : State) : Host.Outcome State Fault Refusal :=
  ran (State.receive .alarmClose src dst payload State.onAlarmClose) s

/-- CROSS_ASK (R103). -/
def execCrossAsk (src dst : Addr) (payload : List Byte) (s : State) : Host.Outcome State Fault Refusal :=
  ran (State.receive .crossAsk src dst payload State.onCrossAsk) s

/-- CROSS_TAKEN (R102). -/
def execCrossTaken (src dst : Addr) (payload : List Byte) (s : State) : Host.Outcome State Fault Refusal :=
  ran (State.receive .crossTaken src dst payload State.onCrossTaken) s

/-- CROSS_DENY (R102). -/
def execCrossDeny (src dst : Addr) (payload : List Byte) (s : State) : Host.Outcome State Fault Refusal :=
  ran (State.receive .crossDeny src dst payload State.onCrossDeny) s

/-- CLAIM_GIVE (R71, R73). -/
def execClaimGive (src dst : Addr) (payload : List Byte) (s : State) : Host.Outcome State Fault Refusal :=
  ran (State.receive .claimGive src dst payload State.onClaimGive) s

/-- CLAIM_WAIT (R71). -/
def execClaimWait (src dst : Addr) (payload : List Byte) (s : State) : Host.Outcome State Fault Refusal :=
  ran (State.receive .claimWait src dst payload State.onClaimWait) s

/-- CLAIM_DENY (R71). -/
def execClaimDeny (src dst : Addr) (payload : List Byte) (s : State) : Host.Outcome State Fault Refusal :=
  ran (State.receive .claimDeny src dst payload State.onClaimDeny) s

/-- XFER_ASK (R160). -/
def execXferAsk (src dst : Addr) (payload : List Byte) (s : State) : Host.Outcome State Fault Refusal :=
  ran (State.receive .xferAsk src dst payload State.onXferAsk) s

/-- REC_SEG (R162). -/
def execRecSeg (src dst : Addr) (payload : List Byte) (s : State) : Host.Outcome State Fault Refusal :=
  ran (State.receive .recSeg src dst payload State.onRecSeg) s

/-- XFER_END (R160). -/
def execXferEnd (src dst : Addr) (payload : List Byte) (s : State) : Host.Outcome State Fault Refusal :=
  ran (State.receive .xferEnd src dst payload State.onXferEnd) s

/-- XFER_BAD (R160). -/
def execXferBad (src dst : Addr) (payload : List Byte) (s : State) : Host.Outcome State Fault Refusal :=
  ran (State.receive .xferBad src dst payload State.onXferBad) s

/-- HOLD (R135). -/
def execHold (src dst : Addr) (payload : List Byte) (s : State) : Host.Outcome State Fault Refusal :=
  ran (State.receive .hold src dst payload State.onHold) s

/-- EXIT_NOTE (R144). -/
def execExitNote (src dst : Addr) (payload : List Byte) (s : State) : Host.Outcome State Fault Refusal :=
  ran (State.receive .exitNote src dst payload State.onExitNote) s

/-- TOKEN_OFFER (R147). -/
def execTokenOffer (src dst : Addr) (payload : List Byte) (s : State) : Host.Outcome State Fault Refusal :=
  ran (State.receive .tokenOffer src dst payload State.onTokenOffer) s

/-- TOKEN_TAKE (R148). -/
def execTokenTake (src dst : Addr) (payload : List Byte) (s : State) : Host.Outcome State Fault Refusal :=
  ran (State.receive .tokenTake src dst payload State.onTokenTake) s

/-- TOKEN_DECLINE (R148). -/
def execTokenDecline (src dst : Addr) (payload : List Byte) (s : State) : Host.Outcome State Fault Refusal :=
  ran (State.receive .tokenDecline src dst payload State.onTokenDecline) s

/-- VESSEL_SET (R171). -/
def execVesselSet (src dst : Addr) (payload : List Byte) (s : State) : Host.Outcome State Fault Refusal :=
  ran (State.receive .vesselSet src dst payload State.onVesselSet) s

/-- VESSEL_DEL (R171). -/
def execVesselDel (src dst : Addr) (payload : List Byte) (s : State) : Host.Outcome State Fault Refusal :=
  ran (State.receive .vesselDel src dst payload State.onVesselDel) s

/-- VESSEL_INFO (R170). -/
def execVesselInfo (src dst : Addr) (payload : List Byte) (s : State) : Host.Outcome State Fault Refusal :=
  ran (State.receive .vesselInfo src dst payload State.onVesselInfo) s

/-- TIME (R173). -/
def execTime (src dst : Addr) (payload : List Byte) (s : State) : Host.Outcome State Fault Refusal :=
  ran (State.receive .time src dst payload State.onTime) s

/-- RATE_SET (R175). -/
def execRateSet (src dst : Addr) (payload : List Byte) (s : State) : Host.Outcome State Fault Refusal :=
  ran (State.receive .rateSet src dst payload State.onRateSet) s

/-- RATE_COMMIT (R175). -/
def execRateCommit (src dst : Addr) (payload : List Byte) (s : State) : Host.Outcome State Fault Refusal :=
  ran (State.receive .rateCommit src dst payload State.onRateCommit) s

/-- TOLL_READ (R181). -/
def execTollRead (src dst : Addr) (payload : List Byte) (s : State) : Host.Outcome State Fault Refusal :=
  ran (State.receive .tollRead src dst payload State.onTollRead) s

/-- TOLL_REMOVE (R182). -/
def execTollRemove (src dst : Addr) (payload : List Byte) (s : State) : Host.Outcome State Fault Refusal :=
  ran (State.receive .tollRemove src dst payload State.onTollRemove) s

/-- FAULT_NOTE (R191). -/
def execFaultNote (src dst : Addr) (payload : List Byte) (s : State) : Host.Outcome State Fault Refusal :=
  ran (State.receive .faultNote src dst payload State.onFaultNote) s

/-- FAULT_CLEAR (R191). -/
def execFaultClear (src dst : Addr) (payload : List Byte) (s : State) : Host.Outcome State Fault Refusal :=
  ran (State.receive .faultClear src dst payload State.onFaultClear) s

/-- CLEAR (R193). -/
def execClear (src dst : Addr) (payload : List Byte) (s : State) : Host.Outcome State Fault Refusal :=
  ran (State.receive .clear src dst payload State.onClear) s

/-- VESSEL_QUERY: the desk alone receives it (R6). -/
def execVesselQuery (src dst : Addr) (payload : List Byte) (s : State) : Host.Outcome State Fault Refusal :=
  ran (State.receive .vesselQuery src dst payload noOwner) s

/-- TOLL_READY: the desk alone receives it (R6). -/
def execTollReady (src dst : Addr) (payload : List Byte) (s : State) : Host.Outcome State Fault Refusal :=
  ran (State.receive .tollReady src dst payload noOwner) s

/-- TOLL_END: the desk alone receives it (R6). -/
def execTollEnd (src dst : Addr) (payload : List Byte) (s : State) : Host.Outcome State Fault Refusal :=
  ran (State.receive .tollEnd src dst payload noOwner) s

/-- LOG_FULL: the desk alone receives it (R6). -/
def execLogFull (src dst : Addr) (payload : List Byte) (s : State) : Host.Outcome State Fault Refusal :=
  ran (State.receive .logFull src dst payload noOwner) s


end Sys2Proof.Machine
end

