-- ==== Sys2Proof/Machine/ExecLink.lean ====
section
/-! DEFINITION. The meanings of the line's events and the Link Controller's timers. -/

namespace Sys2Proof.Machine
open Sys2Proof

/-- The backoff wait ends; the head frame then waits for the idle gap (R12, R13). -/
def State.backoffOut (s : State) : State := { s with link := { s.link with backoff := none } }

/-- A 100 ms hold ends, and the frames it kept back may start (R17). One that stands before the head frame in queue order takes
the head position with attempt count 0 and no backoff wait, and the former head frame's wait and count are lost, as for a frame
placed ahead (R12): DESIGN CHOICE, log entry 72. -/
def State.widenHoldOut (dst : Addr) (s : State) : State :=
  { s with link := Link.refreshHead { s.link with holds := s.link.holds.filter (fun h => h.dst ≠ dst) } }

/-- A PENDING widen slot becomes EMPTY (R16). -/
def State.widenSlotOut (p : Party) (s : State) : State :=
  { s with link := { s.link with widenSlots := s.link.widenSlots.set (partyIdx p) .empty } }

/-- A pending-reply entry passes its deadline: it ends, and its block is told "no reply" (R18, R19). -/
def State.deadlineOut (tag : Nat) (s : State) : State :=
  match s.link.entries.find? (fun e => e.tag = tag && e.deadline.isSome) with
  | some e => State.emit (.noReply e) (s.dropEntry tag)
  | none => s

/-- HEAD_FRAME_START (R12). -/
def execHeadFrameStart (s : State) : Host.Outcome State Fault Refusal := ran State.startHead s

/-- FRAME_SENT (R12). -/
def execFrameSent (s : State) : Host.Outcome State Fault Refusal := ran State.lineSent s

/-- COLLISION (R13, R14). -/
def execCollision (s : State) : Host.Outcome State Fault Refusal := ran State.lineCollision s

/-- BACKOFF_EXPIRY (R13). -/
def execBackoffExpiry (s : State) : Host.Outcome State Fault Refusal := ran State.backoffOut s

/-- WIDEN_RESEND_EXPIRY (R17). -/
def execWidenResendExpiry (s : State) : Host.Outcome State Fault Refusal := ran State.resendWiden s

/-- WIDEN_HOLD_EXPIRY (R17). -/
def execWidenHoldExpiry (dst : Addr) (s : State) : Host.Outcome State Fault Refusal := ran (State.widenHoldOut dst) s

/-- WIDEN_SLOT_EXPIRY (R16). -/
def execWidenSlotExpiry (party : Party) (s : State) : Host.Outcome State Fault Refusal :=
  ran (State.widenSlotOut party) s

/-- REPLY_DEADLINE_EXPIRY (R19). -/
def execReplyDeadlineExpiry (tag : Nat) (s : State) : Host.Outcome State Fault Refusal :=
  ran (State.deadlineOut tag) s


end Sys2Proof.Machine
end

