-- ==== Sys2Proof/Machine/ExecField.lean ====
section
/-! DEFINITION. The meanings of the panel, the field inputs and the call post. -/

namespace Sys2Proof.Machine
open Sys2Proof

/-- The stop button is pressed or let go; a press outside LOADING is acted on (R45). Log entry 28. -/
def State.onStopButton (pressed : Bool) (s : State) : State :=
  let s := { s with pins := { s.pins with stopButton := pressed } }
  if pressed ∧ s.ctl.mode ≠ .loading then s.stopPress else s

/-- The selector stands at a position, which is read at the next entry into PENDING (R50). -/
def State.onSelector (pos : UnitId) (s : State) : State := { s with pins := { s.pins with selector := pos } }

/-- STOP_BUTTON_PRESS (R45). -/
def execStopButtonPress (pressed : Bool) (s : State) : Host.Outcome State Fault Refusal :=
  ran (State.onStopButton pressed) s

/-- KEY_SWITCH_TURN (R50 to R54). -/
def execKeySwitchTurn (pos : KeyPos) (s : State) : Host.Outcome State Fault Refusal := ran (State.onKey pos) s

/-- SELECTOR_CHANGE (R50). -/
def execSelectorChange (pos : UnitId) (s : State) : Host.Outcome State Fault Refusal := ran (State.onSelector pos) s

/-- ELEMENT_KEY_PRESS (R53). -/
def execElementKeyPress (element : Element) (target : Target) (s : State) : Host.Outcome State Fault Refusal :=
  ran (State.onElementKey element target) s

/-- LEVEL_READING (R57 to R59). -/
def execLevelReading (line : LevelLine) (value : BitVec 16) (valid : Bool) (s : State) :
    Host.Outcome State Fault Refusal := ran (State.onReading line value valid) s

/-- SWITCH_CHANGE (R81, R82). -/
def execSwitchChange (element : Element) (closedSwitch openSwitch : Bool) (s : State) :
    Host.Outcome State Fault Refusal := ran (State.onSwitches element ⟨closedSwitch, openSwitch⟩) s

/-- DETECTOR_PASSAGE (R110, R111). -/
def execDetectorPassage (boundary : UnitId) (direction : Direction) (s : State) : Host.Outcome State Fault Refusal :=
  ran (State.onPassage boundary direction) s

/-- CALL (R121, R122). -/
def execCall (registration : BitVec 32) (lengthClass : Byte) (s : State) : Host.Outcome State Fault Refusal :=
  ran (State.onCall registration lengthClass) s

/-- CANCEL (R121, R123). -/
def execCancel (registration : BitVec 32) (lengthClass : Byte) (s : State) : Host.Outcome State Fault Refusal :=
  ran (State.onCancel registration lengthClass) s

/-- CALL_RECORD_BAD: a record that R121 does not read is discarded unanswered. -/
def execCallRecordBad (_bytes : List Byte) (s : State) : Host.Outcome State Fault Refusal := ran id s

/-- CALL_ANSWER_SENT (R197). -/
def execCallAnswerSent (s : State) : Host.Outcome State Fault Refusal := ran State.answerSent s


end Sys2Proof.Machine
end

