-- ==== Sys2Proof/Machine/ExecTimers.lean ====
section
/-! DEFINITION. The meanings of the blocks' timers running out. -/

namespace Sys2Proof.Machine
open Sys2Proof

/-- The flasher changes between its halves every 0.5 s (R198). -/
def State.toggleFlasher (s : State) : State :=
  if s.flasherTimer.isSome then { s with flasherOn := !s.flasherOn, flasherTimer := some (ms 500) } else s

/-- BEACON_TIMER_EXPIRY (R32). -/
def execBeaconTimerExpiry (s : State) : Host.Outcome State Fault Refusal := ran State.beaconExpiry s

/-- PEER_SILENCE_TIMEOUT (R35). -/
def execPeerSilenceTimeout (station : Fin 16) (s : State) : Host.Outcome State Fault Refusal :=
  ran (State.peerSilence station) s

/-- DESK_SILENCE_TIMEOUT (R36). -/
def execDeskSilenceTimeout (s : State) : Host.Outcome State Fault Refusal := ran State.deskSilence s

/-- CLASH_CALM_EXPIRY (R37). -/
def execClashCalmExpiry (s : State) : Host.Outcome State Fault Refusal := ran State.clashCalm s

/-- WAKE_SETTLE_EXPIRY (R41). -/
def execWakeSettleExpiry (s : State) : Host.Outcome State Fault Refusal := ran State.wakeSettleExpiry s

/-- RESUME_SETTLE_EXPIRY (R43). -/
def execResumeSettleExpiry (s : State) : Host.Outcome State Fault Refusal := ran State.resumeSettleExpiry s

/-- LEVEL_STALE_TIMEOUT (R57). -/
def execLevelStaleTimeout (line : LevelLine) (s : State) : Host.Outcome State Fault Refusal :=
  ran (State.levelStale line) s

/-- LEVEL_LOSS_EXPIRY (R58). -/
def execLevelLossExpiry (line : LevelLine) (s : State) : Host.Outcome State Fault Refusal :=
  ran (State.levelLoss line) s

/-- SELF_WAIT_EXPIRY (R64). -/
def execSelfWaitExpiry (s : State) : Host.Outcome State Fault Refusal := ran State.selfWaitExpiry s

/-- CLAIM_WAIT_EXPIRY (R72). -/
def execClaimWaitExpiry (s : State) : Host.Outcome State Fault Refusal := ran State.claimWaitExpiry s

/-- CANCELLED_TAG_EXPIRY (R73). -/
def execCancelledTagExpiry (tag : Nat) (s : State) : Host.Outcome State Fault Refusal :=
  ran (State.cancelledTagExpiry tag) s

/-- LEVEL_FEED_TIMER_EXPIRY (R75). -/
def execLevelFeedTimerExpiry (s : State) : Host.Outcome State Fault Refusal := ran State.feedTimerExpiry s

/-- FED_LEVEL_STALE (R76). -/
def execFedLevelStale (s : State) : Host.Outcome State Fault Refusal := ran State.fedStale s

/-- TRAVEL_ALLOWANCE_EXPIRY (R84). -/
def execTravelAllowanceExpiry (s : State) : Host.Outcome State Fault Refusal := ran State.allowanceOut s

/-- ONWARD_RETRY_EXPIRY (R102). -/
def execOnwardRetryExpiry (s : State) : Host.Outcome State Fault Refusal := ran State.onwardRetry s

/-- ONWARD_REPEAT_EXPIRY (R102). -/
def execOnwardRepeatExpiry (s : State) : Host.Outcome State Fault Refusal := ran State.onwardRepeat s

/-- CLAIM_RETRY_EXPIRY (R106). -/
def execClaimRetryExpiry (boundary : UnitId) (s : State) : Host.Outcome State Fault Refusal :=
  ran (State.claimRetry boundary) s

/-- EQUALIZE_TIMER_EXPIRY (R108). -/
def execEqualizeTimerExpiry (boundary : UnitId) (s : State) : Host.Outcome State Fault Refusal :=
  ran (State.equalizeExpiry boundary) s

/-- ENTRY_TIME_LIMIT_EXPIRY (R110). -/
def execEntryTimeLimitExpiry (boundary : UnitId) (s : State) : Host.Outcome State Fault Refusal :=
  ran (State.entryExpiry boundary) s

/-- RESOLUTION_TIMER_EXPIRY (R125). -/
def execResolutionTimerExpiry (registration : BitVec 32) (s : State) : Host.Outcome State Fault Refusal :=
  ran (State.resolutionExpiry registration) s

/-- HOLD_ENTRY_EXPIRY (R135). -/
def execHoldEntryExpiry (party : Party) (s : State) : Host.Outcome State Fault Refusal :=
  ran (State.holdExpiry party) s

/-- SWEEP_TIMER_EXPIRY (R145). -/
def execSweepTimerExpiry (s : State) : Host.Outcome State Fault Refusal := ran State.sweep s

/-- RECOVERY_TIMER_EXPIRY (R149). -/
def execRecoveryTimerExpiry (s : State) : Host.Outcome State Fault Refusal := ran State.recoveryExpiry s

/-- GAP_TIMER_EXPIRY (R162). -/
def execGapTimerExpiry (s : State) : Host.Outcome State Fault Refusal := ran State.gapExpiry s

/-- ATTEMPT_WAIT_EXPIRY (R164). -/
def execAttemptWaitExpiry (s : State) : Host.Outcome State Fault Refusal := ran State.attemptWaitExpiry s

/-- LOW_STORE_REPEAT_EXPIRY (R165). -/
def execLowStoreRepeatExpiry (s : State) : Host.Outcome State Fault Refusal := ran State.lowStoreRepeat s

/-- MINUTE_TIMER_EXPIRY (R173). -/
def execMinuteTimerExpiry (s : State) : Host.Outcome State Fault Refusal := ran State.minuteExpiry s

/-- FLASHER_TOGGLE (R198). -/
def execFlasherToggle (s : State) : Host.Outcome State Fault Refusal := ran State.toggleFlasher s


end Sys2Proof.Machine
end

