-- ==== Sys2Proof/Machine/Dispatch.lean ====
section
/-! DEFINITION. One arm per command. -/

namespace Sys2Proof.Machine
open Sys2Proof

/-- The effect of a command on everything but the queue. -/
def exec (i : Instr) (s : State) : Host.Outcome State Fault Refusal :=
  match i with
  | .start => Sys2Proof.Machine.execStart s
  | .strapSample straps => Sys2Proof.Machine.execStrapSample straps s
  | .configRecordRead bytes => Sys2Proof.Machine.execConfigRecordRead bytes s
  | .frameDiscarded wholeFrame bytes => Sys2Proof.Machine.execFrameDiscarded wholeFrame bytes s
  | .frameNotTaken src dst => Sys2Proof.Machine.execFrameNotTaken src dst s
  | .unknownKind src dst kind payload => Sys2Proof.Machine.execUnknownKind src dst kind payload s
  | .widen src dst payload => Sys2Proof.Machine.execWiden src dst payload s
  | .echo src dst payload => Sys2Proof.Machine.execEcho src dst payload s
  | .echoBack src dst payload => Sys2Proof.Machine.execEchoBack src dst payload s
  | .refuse src dst payload => Sys2Proof.Machine.execRefuse src dst payload s
  | .beacon src dst payload => Sys2Proof.Machine.execBeacon src dst payload s
  | .statusAsk src dst payload => Sys2Proof.Machine.execStatusAsk src dst payload s
  | .statusReply src dst payload => Sys2Proof.Machine.execStatusReply src dst payload s
  | .flightStop src dst payload => Sys2Proof.Machine.execFlightStop src dst payload s
  | .resume src dst payload => Sys2Proof.Machine.execResume src dst payload s
  | .rest src dst payload => Sys2Proof.Machine.execRest src dst payload s
  | .wake src dst payload => Sys2Proof.Machine.execWake src dst payload s
  | .restart src dst payload => Sys2Proof.Machine.execRestart src dst payload s
  | .claimAsk src dst payload => Sys2Proof.Machine.execClaimAsk src dst payload s
  | .claimDrop src dst payload => Sys2Proof.Machine.execClaimDrop src dst payload s
  | .levelFeed src dst payload => Sys2Proof.Machine.execLevelFeed src dst payload s
  | .alarmClose src dst payload => Sys2Proof.Machine.execAlarmClose src dst payload s
  | .crossAsk src dst payload => Sys2Proof.Machine.execCrossAsk src dst payload s
  | .crossTaken src dst payload => Sys2Proof.Machine.execCrossTaken src dst payload s
  | .crossDeny src dst payload => Sys2Proof.Machine.execCrossDeny src dst payload s
  | .claimGive src dst payload => Sys2Proof.Machine.execClaimGive src dst payload s
  | .claimWait src dst payload => Sys2Proof.Machine.execClaimWait src dst payload s
  | .claimDeny src dst payload => Sys2Proof.Machine.execClaimDeny src dst payload s
  | .xferAsk src dst payload => Sys2Proof.Machine.execXferAsk src dst payload s
  | .recSeg src dst payload => Sys2Proof.Machine.execRecSeg src dst payload s
  | .xferEnd src dst payload => Sys2Proof.Machine.execXferEnd src dst payload s
  | .xferBad src dst payload => Sys2Proof.Machine.execXferBad src dst payload s
  | .hold src dst payload => Sys2Proof.Machine.execHold src dst payload s
  | .exitNote src dst payload => Sys2Proof.Machine.execExitNote src dst payload s
  | .tokenOffer src dst payload => Sys2Proof.Machine.execTokenOffer src dst payload s
  | .tokenTake src dst payload => Sys2Proof.Machine.execTokenTake src dst payload s
  | .tokenDecline src dst payload => Sys2Proof.Machine.execTokenDecline src dst payload s
  | .vesselSet src dst payload => Sys2Proof.Machine.execVesselSet src dst payload s
  | .vesselDel src dst payload => Sys2Proof.Machine.execVesselDel src dst payload s
  | .vesselInfo src dst payload => Sys2Proof.Machine.execVesselInfo src dst payload s
  | .time src dst payload => Sys2Proof.Machine.execTime src dst payload s
  | .rateSet src dst payload => Sys2Proof.Machine.execRateSet src dst payload s
  | .rateCommit src dst payload => Sys2Proof.Machine.execRateCommit src dst payload s
  | .tollRead src dst payload => Sys2Proof.Machine.execTollRead src dst payload s
  | .tollRemove src dst payload => Sys2Proof.Machine.execTollRemove src dst payload s
  | .faultNote src dst payload => Sys2Proof.Machine.execFaultNote src dst payload s
  | .faultClear src dst payload => Sys2Proof.Machine.execFaultClear src dst payload s
  | .clear src dst payload => Sys2Proof.Machine.execClear src dst payload s
  | .vesselQuery src dst payload => Sys2Proof.Machine.execVesselQuery src dst payload s
  | .tollReady src dst payload => Sys2Proof.Machine.execTollReady src dst payload s
  | .tollEnd src dst payload => Sys2Proof.Machine.execTollEnd src dst payload s
  | .logFull src dst payload => Sys2Proof.Machine.execLogFull src dst payload s
  | .headFrameStart => Sys2Proof.Machine.execHeadFrameStart s
  | .frameSent => Sys2Proof.Machine.execFrameSent s
  | .collision => Sys2Proof.Machine.execCollision s
  | .backoffExpiry => Sys2Proof.Machine.execBackoffExpiry s
  | .widenResendExpiry => Sys2Proof.Machine.execWidenResendExpiry s
  | .widenHoldExpiry dst => Sys2Proof.Machine.execWidenHoldExpiry dst s
  | .widenSlotExpiry party => Sys2Proof.Machine.execWidenSlotExpiry party s
  | .replyDeadlineExpiry tag => Sys2Proof.Machine.execReplyDeadlineExpiry tag s
  | .beaconTimerExpiry => Sys2Proof.Machine.execBeaconTimerExpiry s
  | .peerSilenceTimeout station => Sys2Proof.Machine.execPeerSilenceTimeout station s
  | .deskSilenceTimeout => Sys2Proof.Machine.execDeskSilenceTimeout s
  | .clashCalmExpiry => Sys2Proof.Machine.execClashCalmExpiry s
  | .wakeSettleExpiry => Sys2Proof.Machine.execWakeSettleExpiry s
  | .resumeSettleExpiry => Sys2Proof.Machine.execResumeSettleExpiry s
  | .stopButtonPress pressed => Sys2Proof.Machine.execStopButtonPress pressed s
  | .keySwitchTurn pos => Sys2Proof.Machine.execKeySwitchTurn pos s
  | .selectorChange pos => Sys2Proof.Machine.execSelectorChange pos s
  | .elementKeyPress element target => Sys2Proof.Machine.execElementKeyPress element target s
  | .levelReading line value valid => Sys2Proof.Machine.execLevelReading line value valid s
  | .levelStaleTimeout line => Sys2Proof.Machine.execLevelStaleTimeout line s
  | .levelLossExpiry line => Sys2Proof.Machine.execLevelLossExpiry line s
  | .selfWaitExpiry => Sys2Proof.Machine.execSelfWaitExpiry s
  | .claimWaitExpiry => Sys2Proof.Machine.execClaimWaitExpiry s
  | .cancelledTagExpiry tag => Sys2Proof.Machine.execCancelledTagExpiry tag s
  | .levelFeedTimerExpiry => Sys2Proof.Machine.execLevelFeedTimerExpiry s
  | .fedLevelStale => Sys2Proof.Machine.execFedLevelStale s
  | .switchChange element closedSwitch openSwitch => Sys2Proof.Machine.execSwitchChange element closedSwitch openSwitch s
  | .travelAllowanceExpiry => Sys2Proof.Machine.execTravelAllowanceExpiry s
  | .onwardRetryExpiry => Sys2Proof.Machine.execOnwardRetryExpiry s
  | .onwardRepeatExpiry => Sys2Proof.Machine.execOnwardRepeatExpiry s
  | .claimRetryExpiry boundary => Sys2Proof.Machine.execClaimRetryExpiry boundary s
  | .equalizeTimerExpiry boundary => Sys2Proof.Machine.execEqualizeTimerExpiry boundary s
  | .entryTimeLimitExpiry boundary => Sys2Proof.Machine.execEntryTimeLimitExpiry boundary s
  | .detectorPassage boundary direction => Sys2Proof.Machine.execDetectorPassage boundary direction s
  | .call registration lengthClass => Sys2Proof.Machine.execCall registration lengthClass s
  | .cancel registration lengthClass => Sys2Proof.Machine.execCancel registration lengthClass s
  | .callRecordBad bytes => Sys2Proof.Machine.execCallRecordBad bytes s
  | .callAnswerSent => Sys2Proof.Machine.execCallAnswerSent s
  | .resolutionTimerExpiry registration => Sys2Proof.Machine.execResolutionTimerExpiry registration s
  | .holdEntryExpiry party => Sys2Proof.Machine.execHoldEntryExpiry party s
  | .sweepTimerExpiry => Sys2Proof.Machine.execSweepTimerExpiry s
  | .recoveryTimerExpiry => Sys2Proof.Machine.execRecoveryTimerExpiry s
  | .gapTimerExpiry => Sys2Proof.Machine.execGapTimerExpiry s
  | .attemptWaitExpiry => Sys2Proof.Machine.execAttemptWaitExpiry s
  | .lowStoreRepeatExpiry => Sys2Proof.Machine.execLowStoreRepeatExpiry s
  | .minuteTimerExpiry => Sys2Proof.Machine.execMinuteTimerExpiry s
  | .flasherToggle => Sys2Proof.Machine.execFlasherToggle s

end Sys2Proof.Machine
end

