-- ==== Sys2Proof/Machine/Idle.lean ====
section
/-! DEFINITION. What the station does of itself while no command waits (log entries 1, 3 and 5). -/

namespace Sys2Proof.Machine
open Sys2Proof

/-- A step with no command waiting: what is left to act on, else the expiry that is due, else one bit time (log entries 1,
3 and 5). -/
def State.idle (s : State) : Host.Outcome State Fault Refusal :=
  if s.notices ≠ [] then .next (finish s s)
  else match s.due with
    | some i => exec i s
    | none => .next s.tick

end Sys2Proof.Machine
end

