-- ==== Sys2Proof/Safety.lean ====
section
/-! DEFINITION. What every step keeps: the bounds the spec sets to the station's tables, the pages of the page store, the
one motion of the pump, and the other facts that hold in every state a run reaches; and the words in which the statements
speak of a frame's arrival and of what follows from a command. -/

namespace Sys2Proof.Machine
open Sys2Proof

/-! ### What acting on a notice leaves as it was -/

/-- What no notice's acting changes: the inputs, the clock, the tables only a command writes. -/
structure StillView where
  pending : List Instr
  draws : Nat
  pins : Pins
  loader : Loader
  stop : StopState
  latch : Bool
  resumeTimer : Timer
  level : Level
  outer : Level
  alarm : AlarmState
  vessels : VesselTable
  tariff : Tariff
  flasherOn : Bool
  flasherTimer : Timer
  widenSlots : Vector WidenSlot 17
  holds : List WidenHold
  peers : Vector Peer 16
  desk : PeerState
  deskSince : Span
  clash : Bool
  calmTimer : Timer
  custody : BatchKey

/-- The view of a state that no notice's acting changes. -/
def State.still (s : State) : StillView :=
  { pending := s.pending, draws := s.draws, pins := s.pins, loader := s.loader, stop := s.ctl.stop, latch := s.ctl.latch,
    resumeTimer := s.ctl.resumeTimer, level := s.chamber.level, outer := s.chamber.outer, alarm := s.chamber.alarm,
    vessels := s.vessels, tariff := s.tariff, flasherOn := s.flasherOn, flasherTimer := s.flasherTimer,
    widenSlots := s.link.widenSlots, holds := s.link.holds, peers := s.presence.peers, desk := s.presence.desk,
    deskSince := s.presence.deskSince, clash := s.presence.clash, calmTimer := s.presence.calmTimer,
    custody := s.store.custody }

/-! ### The arrival of a frame (R3 to R7, R15, R36) -/

/-- Between commands nothing is left to act on. -/
def State.calm (s : State) : Bool := s.notices.isEmpty

/-- The station hears a frame of this source: it is not in LOADING, sends nothing itself, and the source is a station's or
the desk's (R3, R4, R21). -/
def State.catches (s : State) (src : Addr) : Bool := s.ctl.mode ≠ .loading && !s.link.onLine && validSource src

/-- The station hears the source, and the desk, where it is the source, is PRESENT already (R3, R36). -/
def State.follows (s : State) (src : Addr) : Bool :=
  s.calm && s.catches src && (decide (src ≠ deskAddr) || decide (s.presence.desk = .present))

/-- A frame of this kind is handed to its owner: heard, bound for the station or for all, its sender in the kind's role, its
fields readable, and no request sent to all (R3 to R7). -/
def State.accepts (s : State) (k : Kind) (src dst : Addr) (p : List Byte) : Bool :=
  s.follows src && s.ctl.mode ≠ .unconfigured && s.isTaken dst && s.roleTest k src && fieldsOk k p
    && !(decide (dst = broadcastAddr) && k.isRequest)

/-- The station after a frame of this source was heard: the time since the desk's last frame starts again (R36). -/
def State.noted (src : Addr) (s : State) : State :=
  if src = deskAddr then { s with presence := { s.presence with deskSince := 0 } } else s

/-- The station after a frame of this kind was handed over: the source is noted, and its widen slot is used, counted or let
lapse (R5, R15, R16). -/
def State.after (k : Kind) (src : Addr) (s : State) : State :=
  { s.noted src with link := { s.link with
      widenSlots := s.link.widenSlots.set (partyIdx (partyOf src)) ((s.widenSlot src).advance k.widenable) } }

/-- The commands of an accepted frame of known kind, one for every kind of 12.1, by source, destination and payload. -/
def frameCommands : List (Addr → Addr → List Byte → Instr) :=
  [.widen, .refuse, .echo, .echoBack, .beacon, .statusAsk, .statusReply, .flightStop, .resume, .rest, .wake, .restart,
   .claimAsk, .claimGive, .claimWait, .claimDeny, .claimDrop, .levelFeed, .alarmClose, .crossAsk, .crossTaken, .crossDeny,
   .xferAsk, .recSeg, .xferEnd, .xferBad, .hold, .exitNote, .tokenOffer, .tokenTake, .tokenDecline, .vesselSet, .vesselDel,
   .vesselInfo, .vesselQuery, .time, .rateSet, .rateCommit, .tollRead, .tollRemove, .tollReady, .tollEnd, .logFull,
   .faultNote, .faultClear, .clear]

/-- The frame as its owner sees it, its widenable field widened by the sender's slot (R5, R15). -/
def State.rxOf (s : State) (k : Kind) (src dst : Addr) (p : List Byte) : Rx :=
  { src := src, broadcast := decide (dst = broadcastAddr), payload := p, upper := (s.widenSlot src).upper k.widenable }

/-- No offer waits, and the transmit queue has this many places free (R10, R11). -/
def State.room (s : State) (n : Nat) : Bool :=
  s.link.waiting.isEmpty && s.link.backlog.isEmpty && decide (s.link.used + n ≤ 8)

/-- A frame of a block placed at the tail of its class (R10). -/
def State.queued (b : Block) (k : Kind) (dst : Addr) (p : List Byte) (s : State) : State := s.place (frame b k dst p)

/-- A pending-reply entry taken away; its tag is free (R18, R19). -/
def State.without (tag : Nat) (s : State) : State :=
  { s with link := { s.link with entries := s.link.entries.filter (fun e => e.tag ≠ tag) } }

/-! ### Blocks at rest -/

/-- No source holds a motion, and nothing waits on the stack or in the safety close set (R85, R92, R95). -/
def Drive.restful (d : Drive) : Bool :=
  d.slots.toList.all (fun m => m.isNone) && d.stack.isEmpty && d.safetySet.isEmpty

/-- The unit is IDLE with both slots EMPTY, waits for nothing and recovers nothing (R100, R101). -/
def BoundaryUnit.quiet (b : BoundaryUnit) : Bool :=
  b.below.isEmpty && b.above.isEmpty && !b.busyOwn && !b.atClaimStart && decide (b.hold = .none) && !b.frozen
    && b.recovery.isNone && b.wanted.isNone && b.step.isNone

/-- Both boundary units are quiet. -/
def State.unitsQuiet (s : State) : Bool := s.lowerUnit.quiet && s.headUnit.quiet

/-- No batch can be admitted here whatever the token: the station is no end station, its chamber is not EMPTY, or no
READY vessel waits (R127). -/
def State.shutToEntry (s : State) : Bool :=
  !s.isEnd || decide (s.chamber.occupancy ≠ .empty) || !s.approach.queue.any (fun e => e.ready)

/-- The chamber batch, if any, is not ready to go on (R102). -/
def State.keepsBatch (s : State) : Bool := !s.readyOn

/-! ### Bounds -/

/-- The pass count of a widen slot is 0 to 3 (R15). -/
def WidenSlot.passesFit : WidenSlot → Prop
  | .empty => True
  | .pending _ _ passes => passes ≤ 3

/-- The transmit queue takes at most 8 places, the pending-reply table holds at most 4 entries with distinct tags of 1 to
15, the attempt count stays below 12, and the pass counts are 0 to 3 (R10, R13 to R15, R18). -/
def Link.Fits (l : Link) : Prop :=
  l.used ≤ 8 ∧ l.entries.length ≤ 4 ∧ (l.entries.map ReplyEntry.tag).Nodup ∧ (∀ e ∈ l.entries, 1 ≤ e.tag ∧ e.tag ≤ 15)
    ∧ l.attempts ≤ 11 ∧ (∀ i : Fin 17, l.widenSlots[i].passesFit)

/-- The approach queue holds at most 12 vessels, the answer queue at most 8 records, and a hold's renewal count is at most
16 (R124, R135, R197). -/
def Approach.Fits (a : Approach) : Prop :=
  a.queue.length ≤ 12 ∧ a.answers.length ≤ 8 ∧ (∀ i : Fin 17, a.holds[i].renewals ≤ 16)

/-- The in-flight list holds at most 8 keys, and the turn count is at most 255 (R143). -/
def Token.Fits (t : Token) : Prop := t.inFlight.length ≤ 8 ∧ t.turns ≤ 255

/-- A batch key has at most one reservation, and the reserved count never exceeds the free pages (R152, R153). -/
def Store.PromisesFit (st : Store) : Prop :=
  (st.reservations.map Reservation.key).Nodup ∧ st.reserved ≤ st.freePages

/-- Each of the 96 pages stands once on the free list or in the chain of one record, a record of L lines occupies
1 + ⌈L/4⌉ pages, and what is promised is free (R152 to R154). -/
def Store.PagesWhole (st : Store) : Prop :=
  (st.free ++ st.records.flatMap Record.pages).Perm (List.range 96)
    ∧ (∀ r ∈ st.records, r.pages.length = 1 + (r.lines.length + 3) / 4) ∧ st.PromisesFit

/-- The phase of a slot's motion. -/
def slotPhase (m : Option Motion) : Option Phase := m.map Motion.phase

/-- At most one source holds the running position; a driving motion's element is in the driven state of its target; and an
element in a driven state has its driving motion (R79, R83, R92). -/
def Drive.OneMotion (d : Drive) : Prop :=
  (∀ i j : Fin 4, (slotPhase d.slots[i] = some .running ∨ slotPhase d.slots[i] = some .frozen)
      → (slotPhase d.slots[j] = some .running ∨ slotPhase d.slots[j] = some .frozen) → i = j)
    ∧ (∀ (i : Fin 4) (m : Motion), d.slots[i] = some m → m.phase = .running
        → d.elements[elementIdx m.element] = drivenState m.target)
    ∧ (∀ (e : Element) (t : Target), d.elements[elementIdx e] = drivenState t
        → ∃ (i : Fin 4) (m : Motion), d.slots[i] = some m ∧ m.phase = .running ∧ m.element = e ∧ m.target = t)

/-- The levels of the stacked motions fall strictly from the top of the stack down, and all lie below the level of the motion
in the running position (R92). -/
def Drive.StackFalls (d : Drive) : Prop :=
  d.stack.Pairwise (fun a b => sourceLevel b < sourceLevel a)
    ∧ ∀ a ∈ d.stack, ∀ b : Source, (slotPhase d.slots[sourceIdx b] = some .running
        ∨ slotPhase d.slots[sourceIdx b] = some .frozen) → sourceLevel a < sourceLevel b

/-- The waiter of the claim register is never the same claimant as the holder: the lower and head units are two claimants,
and an ORPHANED holder is the same claimant as UPPER (R63). -/
def Chamber.ClaimsFit (c : Chamber) : Prop :=
  match c.holder, c.waiter with
  | .self h, .self w => h.claimant ≠ w.claimant
  | .upper _, .upper _ | .orphaned _, .upper _ => False
  | _, _ => True

/-- At most one of a unit's two slots is ACTIVE (R100). -/
def BoundaryUnit.OneActive (b : BoundaryUnit) : Prop := b.below.active? = none ∨ b.above.active? = none

/-- The latch is set only in STOP_SETTLING, and the resume settle timer runs exactly then (R43). -/
def Control.StopFits (c : Control) : Prop :=
  (c.latch = true → c.stop = .stopSettling) ∧ (c.resumeTimer.isSome = true ↔ c.stop = .stopSettling)

/-- A level's value is 0 to 2000 cm (R57). -/
def Chamber.LevelsFit (c : Chamber) : Prop := c.level.value ≤ 2000 ∧ c.outer.value ≤ 2000

/-- The table holds at most one entry per registration: a home slot holds only registrations whose home it is, and an
overflow entry's registration stands in no other slot (R167). -/
def VesselTable.OnePerVessel (t : VesselTable) : Prop :=
  (∀ (i : Fin 256) (v : Vessel), t.home[i] = some v → homeSlot v.registration = i)
    ∧ (∀ (i : Fin 16) (v : Vessel), t.overflow[i] = some v → holdsReg v.registration t.home[homeSlot v.registration] = false)
    ∧ (∀ (i j : Fin 16) (v w : Vessel), t.overflow[i] = some v → t.overflow[j] = some w
        → v.registration = w.registration → i = j)

/-- What every step keeps. -/
def State.Sound (s : State) : Prop :=
  s.link.Fits ∧ s.approach.Fits ∧ s.token.Fits ∧ s.store.PagesWhole ∧ s.drive.OneMotion ∧ s.drive.StackFalls
    ∧ s.chamber.ClaimsFit ∧ s.lowerUnit.OneActive ∧ s.headUnit.OneActive
    ∧ s.ctl.StopFits ∧ s.tariff.minute < 1440 ∧ s.chamber.LevelsFit ∧ s.vessels.OnePerVessel

end Sys2Proof.Machine
end

