-- ==== Sys2Proof/Certificates/Slice0/Obligations.lean ====
section
/-! DEFINITION. The statements for the provers. A frame command is stated where the station hears the sender, the desk (where
it is the sender) is PRESENT already, and nothing is left to act on (`State.accepts`, `State.follows`). The effect of a
command on the blocks that act on what it makes known is stated as `finish` of the effect; the tables that no such acting
changes are stated through `State.still`. -/

open Sys2Proof Sys2Proof.Machine

/-- A step runs the command at the front of the queue. For every command c and every state s: a step of s with c at
the front of its queue is exec of c at s, the queue behind c being the rest. -/
def Obligations.StepRunsFront : Prop :=
  ∀ (c : Instr) (s : State), step { s with pending := c :: s.pending } = exec c s

/-- A step with no command waiting runs the expiry that is due, else lets one bit time pass. The model's choice (log
entries 1 and 5), no rule of the spec: with no command waiting and nothing left to act on, a step runs an expiry
command whose timer has run out (a 50 ms WIDEN, a 100 ms slot and an age of silence having reached its span, a paused
timer not counted), and where none has, one bit time passes. In it every running timer counts down by one; a sent
WIDEN, a widen slot, a peer entry, the desk's entry, the HELD lower claim and the fed level grow older by one; a
travel allowance counts down only while its motion drives (R84), and the equalize timer and the entry time limit only
while the stop state is STOP_CLEAR and their crossing is not frozen (R115, R116). Nothing else changes. -/
def Obligations.IdleStep : Prop :=
  ∀ s : State,
    let out := fun (t : Timer) => t = some 0
    let ranOut := fun (c : Instr) => match c with
      | .backoffExpiry => out s.link.backoff
      | .widenResendExpiry => ∃ f ∈ s.link.txq, f.widenDue = false ∧ ∃ a, f.widenAge = some a ∧ ms 50 ≤ a
      | .widenHoldExpiry dst => ∃ h ∈ s.link.holds, h.dst = dst ∧ h.left = 0
      | .widenSlotExpiry q => ∃ u a n, s.link.widenSlots[partyIdx q] = .pending u a n ∧ ms 100 ≤ a
      | .replyDeadlineExpiry tag => ∃ e ∈ s.link.entries, e.tag = tag ∧ out e.deadline
      | .beaconTimerExpiry => out s.presence.beaconTimer
      | .peerSilenceTimeout i => s.presence.peers[i].presence = .present
          ∧ ∃ v, s.presence.peers[i].interval = some v ∧ 3 * v.span ≤ s.presence.peers[i].since
      | .deskSilenceTimeout => s.presence.desk = .present ∧ sec 30 ≤ s.presence.deskSince
      | .clashCalmExpiry => out s.presence.calmTimer
      | .wakeSettleExpiry => out s.ctl.wakeTimer
      | .resumeSettleExpiry => out s.ctl.resumeTimer
      | .levelStaleTimeout line => out (s.levelOf line).staleTimer
      | .levelLossExpiry line => out (s.levelOf line).lossTimer
      | .selfWaitExpiry => out s.chamber.selfTimer
      | .claimWaitExpiry => out s.chamber.lower.timer
      | .cancelledTagExpiry tag => ∃ c ∈ s.chamber.cancelled, c.tag = tag ∧ out c.left
      | .levelFeedTimerExpiry => out s.chamber.feedTimer
      | .fedLevelStale => ∃ f, s.chamber.fed = some f ∧ f.fresh = true ∧ sec 3 ≤ f.age
      | .travelAllowanceExpiry => ∃ src m, s.slot src = some m ∧ m.phase = .running ∧ m.allowance = 0
      | .onwardRetryExpiry => out s.onward.retryTimer
      | .onwardRepeatExpiry => out s.onward.repeatTimer
      | .claimRetryExpiry u => out (s.unit u).retryTimer
      | .equalizeTimerExpiry u => out (s.unit u).equalizeTimer ∧ (s.unit u).frozen = false ∧ s.ctl.stop = .stopClear
      | .entryTimeLimitExpiry u => out (s.unit u).entryTimer ∧ (s.unit u).frozen = false ∧ s.ctl.stop = .stopClear
      | .resolutionTimerExpiry r => ∃ e ∈ s.approach.queue, e.registration = r ∧ out e.resolution
      | .holdEntryExpiry q => out (s.holdOf q).left
      | .sweepTimerExpiry => out s.token.sweepTimer
      | .recoveryTimerExpiry => s.token.recovery = .running 0
      | .gapTimerExpiry => out s.store.gapTimer
      | .attemptWaitExpiry => out s.store.attemptWait
      | .lowStoreRepeatExpiry => out s.store.lowTimer
      | .minuteTimerExpiry => out s.tariff.minuteTimer
      | .flasherToggle => out s.flasherTimer
      | _ => False
    (s.pending = [] → s.notices = [] →
        (∀ c, s.due = some c → step s = exec c s) ∧ (s.due = none → step s = .next s.tick))
      ∧ (∀ c, s.due = some c → ranOut c)
      ∧ (s.due = none → ∀ c, ¬ ranOut c)
      ∧ (let down := fun (t : Timer) => t.map (fun n => n - 1)
        let level := fun (x : Level) => { x with staleTimer := down x.staleTimer, lossTimer := down x.lossTimer }
        let unit := fun (b : BoundaryUnit) =>
          let runs := b.frozen = false ∧ s.ctl.stop = .stopClear
          { b with retryTimer := down b.retryTimer, equalizeTimer := if runs then down b.equalizeTimer else b.equalizeTimer,
                   entryTimer := if runs then down b.entryTimer else b.entryTimer }
        s.tick = { s with
          link := { s.link with
            txq := s.link.txq.map (fun f => { f with widenAge := f.widenAge.map (fun a => a + 1) }),
            backoff := down s.link.backoff,
            widenSlots := s.link.widenSlots.map (fun w => match w with
              | .pending u a n => .pending u (a + 1) n
              | .empty => .empty),
            holds := s.link.holds.map (fun h => { h with left := h.left - 1 }),
            entries := s.link.entries.map (fun e => { e with deadline := down e.deadline }) },
          presence := { s.presence with
            peers := s.presence.peers.map (fun e => { e with since := e.since + 1 }),
            deskSince := s.presence.deskSince + 1, calmTimer := down s.presence.calmTimer,
            beaconTimer := down s.presence.beaconTimer },
          ctl := { s.ctl with resumeTimer := down s.ctl.resumeTimer, wakeTimer := down s.ctl.wakeTimer },
          chamber := { s.chamber with
            level := level s.chamber.level, outer := level s.chamber.outer, selfTimer := down s.chamber.selfTimer,
            lower := { s.chamber.lower with
              timer := down s.chamber.lower.timer,
              heldFor := s.chamber.lower.heldFor + (if s.chamber.lower.state = .held then 1 else 0) },
            fed := s.chamber.fed.map (fun f => { f with age := f.age + 1 }),
            cancelled := s.chamber.cancelled.map (fun c => { c with left := down c.left }),
            feedTimer := down s.chamber.feedTimer },
          drive := { s.drive with slots := s.drive.slots.map (fun x => x.map (fun m =>
            { m with allowance := m.allowance - (if m.phase = .running then 1 else 0) })) },
          lowerUnit := unit s.lowerUnit, headUnit := unit s.headUnit,
          onward := { s.onward with retryTimer := down s.onward.retryTimer, repeatTimer := down s.onward.repeatTimer },
          approach := { s.approach with
            queue := s.approach.queue.map (fun e => { e with resolution := down e.resolution }),
            holds := s.approach.holds.map (fun h => { h with left := down h.left }) },
          token := { s.token with sweepTimer := down s.token.sweepTimer,
                                  recovery := match s.token.recovery with
                                    | .running n => .running (n - 1)
                                    | r => r },
          store := { s.store with gapTimer := down s.store.gapTimer, attemptWait := down s.store.attemptWait,
                                  lowTimer := down s.store.lowTimer },
          tariff := { s.tariff with minuteTimer := down s.tariff.minuteTimer },
          flasherTimer := down s.flasherTimer })

/-- Every command answers a next state and leaves the commands that wait. For every command and every state, exec
answers a next state; no command ends in a fault or a refusal, and the queue of waiting commands is left as it was. -/
def Obligations.EveryCommandAnswers : Prop :=
  ∀ (c : Instr) (s : State), ∃ t, exec c s = .next t ∧ t.pending = s.pending

/-- The bounds of the tables, the pages and the one motion hold at reset. At reset: the transmit queue takes at most 8
places, the pending-reply table holds at most 4 entries of distinct tags 1 to 15, the attempt count is below 12; the
approach queue holds at most 12, the answers at most 8; the in-flight list at most 8 keys; each of the 96 pages stands
once, free or in one record, a key has at most one reservation and the reserved pages are free; at most one motion
holds the pump and drives its element alone, and the levels of the stacked motions fall; the waiter of the claim
register is another claimant than the holder; each unit has at most one ACTIVE slot; the latch is set and the resume
timer runs only in STOP_SETTLING; the minute is below 1440; levels are at most 2000 cm; the vessel table holds a
registration once. -/
def Obligations.SoundAtReset : Prop :=
  State.reset.Sound

/-- Every step keeps the bounds of the tables, the pages, the one motion and the vessel table. For every state in
which the facts of State.Sound hold, a step that answers a next state answers one in which they hold: queue places at
most 8, at most 4 pending entries with distinct tags of 1 to 15, attempts below 12, pass counts at most 3; queue at
most 12, answers at most 8, renewals at most 16; at most 8 keys in flight, turns at most 255; each page of 0 to 95
exactly once, free or in one record of 1 + ceil(lines/4) pages, at most one reservation for a key, and the reserved
pages not above the free pages; at most one motion in the running position, an element driven exactly by its running
motion, stack levels falling strictly from the top and below the running motion's; the waiter never the same claimant
as the holder; at most one ACTIVE slot in each unit; the latch only in STOP_SETTLING and the resume timer exactly
there; minute below 1440; levels at most 2000 cm; at most one vessel entry per registration. -/
def Obligations.SoundKept : Prop :=
  ∀ s t : State, s.Sound → step s = .next t → t.Sound

/-- A frame as the line carries it is accepted and gives back every field. For every destination and source address,
every kind code below 64 and every payload of at most 16 bytes: the bytes of the frame pass the acceptance test, and
destination, source, kind, length and payload read back from them are the ones it was made of. -/
def Obligations.FrameRoundTrip : Prop :=
  ∀ (dst src : Addr) (kind : Nat) (p : List Byte), kind < 64 → p.length ≤ 16 →
    let b := frameBytes dst src kind p
    frameAccepted true b = true ∧ field (byteAt b 0) 3 5 = dst.toNat
      ∧ field (byteAt b 0) 0 3 * 4 + field (byteAt b 1) 6 2 = src.toNat ∧ field (byteAt b 1) 0 6 = kind
      ∧ byteAt b 2 = p.length ∧ (b.drop 3).take p.length = p

/-- The contents of a beacon read back from its payload are the ones it was made of. For every beacon contents within
the ranges of the layout (a level unknown or at most 2000, counts at most 12, keys that name a number, a pending count
at most 13, at most 96 pages), reading the payload it makes gives those contents. -/
def Obligations.BeaconRoundTrip : Prop :=
  ∀ b : BeaconContents, (∀ v, b.level = some v → v ≤ 2000) → b.high ≤ 12 → b.low ≤ 12 → b.chamberKey ≠ 0x80 →
    b.custodyKey ≠ 0x80 → b.pendingCount ≤ 13 → b.freeMinusReserved ≤ 96 → parseBeacon? (renderBeacon b) = some b

/-- START and RESTART put the Fault Unit into the same state. After START, and after a RESTART that is accepted (from
the desk, not by broadcast, in UNCONFIGURED or where the conditions of R29 hold), the fault record is empty, the
pending set is empty, there are no repeat marks and no recoveries under way, and no peer entry is marked faulted. When
the record passes as LOADING ends, the delegation bits are the record's. When it fails, CONFIG_INVALID stands in the
record that was empty. -/
def Obligations.FaultUnitAfterReset : Prop :=
  let clean := fun (t : State) => t.fault.record = none ∧ t.fault.pendingSet = [] ∧ t.fault.marks = []
    ∧ t.fault.recoveries = [] ∧ ∀ i : Fin 16, t.presence.peers[i].faulted = false
  (∀ s : State, ∃ t, exec .start s = .next t ∧ clean t)
    ∧ (∀ (s : State) (dst : Addr), s.catches deskAddr = true → dst = s.ownAddr → dst ≠ broadcastAddr →
        (s.ctl.mode = .unconfigured ∨ s.restartAllowed = true) → ∃ t, exec (.restart deskAddr dst []) s = .next t ∧ clean t)
    ∧ (∀ (s : State) (bytes : List Byte) (c : Settings), s.ctl.mode = .loading → s.loader.sampled = true →
        checkRecord s.loader.strap bytes = .passed c →
        ∃ t, exec (.configRecordRead bytes) s = .next t ∧ t.loader.settings = some c
          ∧ ∀ x off, t.delegation x off = c.delegation.getLsbD (2 * (x.code - 1) + off))
    ∧ (∀ (s : State) (bytes : List Byte) (reason pos : Nat) (serial : Option (BitVec 24)), s.ctl.mode = .loading →
        s.loader.sampled = true → s.fault = FaultUnit.initial → s.link = Link.initial → s.notices = [] →
        checkRecord s.loader.strap bytes = .failed reason pos serial →
        ∃ t r, exec (.configRecordRead bytes) s = .next t ∧ t.fault.record = some r ∧ r.cause = .configInvalid
          ∧ r.value1 = BitVec.ofNat 32 reason ∧ r.value2 = BitVec.ofNat 32 pos)

/-- An accepted RESTART keeps what R30 lists and clears the rest. A RESTART of the desk addressed to the station, in
UNCONFIGURED or under the conditions of R29, answers the START state but for: the last good placing, the stop state of
R30, the occupancy and chamber batch key, the approach queue (its resolution timers stopped) and batch counter, the
token with epoch, turns and in-flight list (OFFERED becomes HELD, the misses 0, its timers stopped: R138, R142),
pages, records, reservations, owed counts and a PAUSED or FAILED inbound transfer, the vessel table, the rate tables
and clock (its minute timer stopped: R183), and the log number; the wake source is RESTART and the mode LOADING. What
the model keeps beside the rules' lists is its own choice: the strap address until the next sample (log entry 7),
waiting commands, pins and draws (log entry 31), the hand-ins that wait (log entry 36), and the arrival number the
next entry of the approach queue gets, which orders the kept entries. -/
def Obligations.RestartAccepted : Prop :=
  ∀ (s : State) (dst : Addr), s.catches deskAddr = true → dst = s.ownAddr → dst ≠ broadcastAddr →
    (s.ctl.mode = .unconfigured ∨ s.restartAllowed = true) →
    exec (.restart deskAddr dst []) s = .next
      { State.reset with
        pending := s.pending, draws := s.draws, pins := s.pins,
        loader := { s.loader with sampled := false, settings := none, serial := none, fromRestart := true },
        ctl := { Control.initial with
          wakeSource := .restart,
          stop := if s.ctl.stop = .stopActive ∨ (s.ctl.stop = .stopSettling ∧ s.ctl.latch = true) then .stopActive
                  else .stopClear },
        chamber := { Chamber.initial with occupancy := s.chamber.occupancy, key := s.chamber.key },
        approach := { Approach.initial with
          queue := s.approach.queue.map (fun e => { e with resolution := none }),
          nextOrder := s.approach.nextOrder, counter := s.approach.counter },
        token := { s.token with
          state := if s.token.state = .offered then .held else s.token.state,
          inFlight := s.token.inFlight.map (fun x => { x with misses := 0 }),
          offer := none, clashMark := false, sweepTimer := none, recovery := .stopped },
        store := { s.store with
          custody := 0, stream := none, gapTimer := none, attemptWait := none, low := false, lowTimer := none,
          inbound := if s.store.inbound.state = .paused then s.store.inbound
                     else if s.store.inbound.state = .failed then { s.store.inbound with state := .paused, attempt := 0 }
                     else Inbound.initial },
        vessels := s.vessels,
        tariff := { s.tariff with minuteTimer := none },
        toll := { s.toll with stream := none } }

/-- A RESTART that R29 does not accept changes nothing but for a REFUSE(BUSY) of one addressed to the station. A
RESTART of the desk by broadcast is discarded; one addressed to a station that is not UNCONFIGURED and for which a
condition of R29 fails is answered REFUSE(BUSY) with tag 0. -/
def Obligations.RestartTurnedAway : Prop :=
  (∀ (s : State), s.accepts .restart deskAddr broadcastAddr [] = true →
      exec (.restart deskAddr broadcastAddr []) s = .next (s.after .restart deskAddr))
    ∧ (∀ (s : State) (dst : Addr), s.accepts .restart deskAddr dst [] = true → dst ≠ broadcastAddr →
        s.restartAllowed = false → s.room 1 = true →
        exec (.restart deskAddr dst []) s = .next ((s.after .restart deskAddr).queued .link .refuse deskAddr
          [byte 4, byte Kind.restart.code, byte 0]))

/-- The straps are read once in LOADING and held. In LOADING the first reading of the straps becomes the strap
address; a second one, or one in another mode, changes nothing. -/
def Obligations.StrapsSampled : Prop :=
  ∀ (x : BitVec 4) (s : State), s.notices = [] →
    exec (.strapSample x) s = .next
      (if s.ctl.mode = .loading ∧ s.loader.sampled = false then { s with loader := { s.loader with strap := x, sampled := true } }
       else s)

/-- LOADING ends in WAKING when the record passes; after RESTART the kept state stands or is set aside. From the state
START leaves with the straps read, nothing on the stop button and no element found with both switches active: a record
that passes gives the configured values and the placing, the mode WAKING with the wake settle timer running and the
pump not ready, the elements from their switches, the loss timers, the rates, the token of R142, and one beacon
offered. After RESTART the record that passes with the last good placing leaves the kept state: occupancy and chamber
batch key, the queued vessels (all within the new capacity), batch counter, token state, epoch, turn count and
in-flight list, free pages, records, reservations, owed counts, vessel table, rate tables, clock and log number, with
the new configured values. With another placing they take their START values, the rates are the record's, and Mode
Control keeps its stop state (the button not pressed) and wake source (log entry 37). What follows from either is
acted on. -/
def Obligations.RecordPassed : Prop :=
  (∀ (s : State) (bytes : List Byte) (c : Settings),
      s = { State.reset with pending := s.pending, draws := s.draws, pins := s.pins,
                             loader := { Loader.initial with strap := s.loader.strap, sampled := true } } →
      s.pins.stopButton = false → (∀ i : Fin 4, ¬ (s.pins.switches[i].closed = true ∧ s.pins.switches[i].opened = true)) →
      checkRecord s.loader.strap bytes = .passed c →
      ∃ t, exec (.configRecordRead bytes) s = .next t
        ∧ t.ctl = { Control.initial with mode := .waking, wakeTimer := some (sec c.wakeSettle) }
        ∧ t.loader = { s.loader with settings := some c, serial := some c.serial, placing := some ⟨s.loader.strap, c.flight⟩ }
        ∧ (∀ e, t.drives e = true → t.element e = foundState (s.switchesOf e)) ∧ t.drive.restful = true
        ∧ t.tariff.staged = c.rates ∧ t.tariff.active = c.rates
        ∧ t.chamber.level.lossTimer = some (sec 5) ∧ t.chamber.outer.lossTimer = (if t.isEnd then some (sec 5) else none)
        ∧ t.token.state = (if t.isFoot then .held else .absent) ∧ t.token.epoch = (if t.isFoot then 1 else 0)
        ∧ t.presence.beaconTimer = some (sec 2) ∧ t.link.txq.map TxFrame.kind = [.beacon]
        ∧ t.flasherOn = true ∧ t.flasherTimer = some (ms 500))
    ∧ (∀ (s : State) (bytes : List Byte) (c : Settings), s.ctl.mode = .loading → s.loader.sampled = true →
      s.loader.fromRestart = true → checkRecord s.loader.strap bytes = .passed c →
      ∃ x, exec (.configRecordRead bytes) s = .next (finish s x) ∧ x.ctl.mode = .waking
        ∧ x.ctl.wakeTimer = some (sec c.wakeSettle) ∧ x.ctl.pumpReady = false ∧ x.ctl.wakeSource = s.ctl.wakeSource
        ∧ (s.pins.stopButton = false → x.ctl.stop = s.ctl.stop)
        ∧ x.loader = { s.loader with settings := some c, serial := some c.serial, placing := some ⟨s.loader.strap, c.flight⟩ }
        ∧ (∀ e, x.drives e = true → x.element e = foundState (s.switchesOf e))
        ∧ (s.loader.placing = some ⟨s.loader.strap, c.flight⟩ →
          x.chamber.occupancy = s.chamber.occupancy ∧ x.chamber.key = s.chamber.key
            ∧ ((∀ e ∈ s.approach.queue, e.lengthClass ≤ c.capacity) →
              x.approach.queue.map QueueEntry.registration = s.approach.queue.map QueueEntry.registration)
            ∧ x.approach.counter = s.approach.counter ∧ x.token.state = s.token.state ∧ x.token.epoch = s.token.epoch
            ∧ x.token.turns = s.token.turns ∧ x.token.inFlight = s.token.inFlight ∧ x.store.free = s.store.free
            ∧ x.store.records = s.store.records ∧ x.store.reservations = s.store.reservations ∧ x.store.owed = s.store.owed
            ∧ x.vessels = s.vessels ∧ x.tariff.staged = s.tariff.staged ∧ x.tariff.active = s.tariff.active
            ∧ x.tariff.day = s.tariff.day ∧ x.tariff.minute = s.tariff.minute ∧ x.tariff.known = s.tariff.known
            ∧ x.tariff.minuteTimer = (if s.tariff.known then some (sec 60) else none) ∧ x.toll.next = s.toll.next)
        ∧ (s.loader.placing ≠ some ⟨s.loader.strap, c.flight⟩ →
          x.chamber.occupancy = .empty ∧ x.chamber.key = 0 ∧ x.approach.queue = [] ∧ x.approach.counter = 1
            ∧ x.token.state = (if x.isFoot then .held else .absent) ∧ x.token.epoch = (if x.isFoot then 1 else 0)
            ∧ x.token.turns = 0 ∧ x.token.inFlight = [] ∧ x.store.free = List.range 96 ∧ x.store.records = []
            ∧ x.store.reservations = [] ∧ x.store.owed = [] ∧ x.vessels = State.reset.vessels ∧ x.tariff.staged = c.rates
            ∧ x.tariff.active = c.rates ∧ x.tariff.known = false ∧ x.tariff.minuteTimer = none ∧ x.toll.next = 1))

/-- LOADING ends in UNCONFIGURED when the configuration record fails. From LOADING with the straps read and the Fault
Unit and the link as START leaves them: a record that fails leaves the mode UNCONFIGURED, no configured value, the
known serial, the placing as it was, and CONFIG_INVALID at DESK level in the record, its values the reason and the
field. -/
def Obligations.RecordFailed : Prop :=
  ∀ (s : State) (bytes : List Byte) (reason pos : Nat) (serial : Option (BitVec 24)), s.ctl.mode = .loading →
    s.loader.sampled = true → s.fault = FaultUnit.initial → s.link = Link.initial → s.notices = [] →
    checkRecord s.loader.strap bytes = .failed reason pos serial →
    ∃ t r, exec (.configRecordRead bytes) s = .next t ∧ t.ctl.mode = .unconfigured
      ∧ t.loader = { s.loader with settings := none, serial := serial }
      ∧ t.fault.record = some r ∧ r.cause = .configInvalid ∧ r.level = .desk ∧ r.bound = .none
      ∧ r.value1 = BitVec.ofNat 32 reason ∧ r.value2 = BitVec.ofNat 32 pos ∧ r.valuesLost = false

/-- Any frame of the desk makes its entry PRESENT, whatever its kind and its destination. A frame of the desk that the
station hears, of every kind and of an unknown one, whatever its destination, its payload and the desk's entry before,
leaves the desk's entry PRESENT and its time 0; a RESTART does so where it is not accepted (an accepted one leaves the
START state: RestartAccepted). One bound for another address changes nothing else of the tables that acting on a notice
never changes. -/
def Obligations.DeskHeard : Prop :=
  ∀ (s : State) (dst : Addr), s.catches deskAddr = true →
    let heard := fun (c : Instr) => ∃ t, exec c s = .next t ∧ t.presence.desk = .present ∧ t.presence.deskSince = 0
    let restarts := dst = s.ownAddr ∧ dst ≠ broadcastAddr ∧ (s.ctl.mode = .unconfigured ∨ s.restartAllowed = true)
    (∀ c ∈ frameCommands, ∀ p, (c deskAddr dst p = .restart deskAddr dst p → ¬ restarts) → heard (c deskAddr dst p))
      ∧ (∀ kind p, heard (.unknownKind deskAddr dst kind p))
      ∧ (s.isTaken dst = false →
        ∃ t, exec (.frameNotTaken deskAddr dst) s = .next t ∧ t.still = { s.still with desk := .present, deskSince := 0 })

/-- A frame of an unknown kind is answered REFUSE(UNKNOWN_KIND), unless it came by broadcast. A taken frame of an
unknown kind addressed to the station is answered with a REFUSE of reason 1, its kind code and tag 0, offered in the
NORMAL class; by broadcast it is dropped. -/
def Obligations.UnknownKindRefused : Prop :=
  ∀ (s : State) (src dst : Addr) (kind : BitVec 6) (p : List Byte), s.follows src = true → s.isTaken dst = true →
    kind ≠ BitVec.ofNat 6 Kind.refuse.code →
    (dst ≠ broadcastAddr → s.room 1 = true →
      exec (.unknownKind src dst kind p) s = .next ((s.noted src).queued .link .refuse src [byte 1, byte kind.toNat, byte 0]))
      ∧ (dst = broadcastAddr → exec (.unknownKind src dst kind p) s = .next (s.noted src))

/-- A WIDEN makes its sender's slot PENDING with its upper half. A WIDEN that passes R5 makes the sender's widen slot
PENDING with the upper half it carries, age 0 and pass count 0, whatever stood there; nothing else changes. -/
def Obligations.WidenTaken : Prop :=
  ∀ (s : State) (src dst : Addr) (p : List Byte), s.accepts .widen src dst p = true →
    exec (.widen src dst p) s = .next { s.noted src with link := { s.link with
      widenSlots := s.link.widenSlots.set (partyIdx (partyOf src)) (.pending (BitVec.ofNat 16 (be16 p 0)) 0 0) } }

/-- An ECHO is answered by an ECHO_BACK with the same payload. An ECHO addressed to the station is answered by an
ECHO_BACK to its source with a payload equal byte for byte, also in UNCONFIGURED (there whatever its tag, log entry
13); where a frame of the Link Controller's own waits for a place, it is not answered. -/
def Obligations.EchoAnswered : Prop :=
  (∀ (s : State) (src dst : Addr) (p : List Byte), s.accepts .echo src dst p = true → dst ≠ broadcastAddr →
      (s.room 1 = true → exec (.echo src dst p) s = .next ((s.after .echo src).queued .link .echoBack src p))
        ∧ (s.link.blockWaits .link = true → exec (.echo src dst p) s = .next (s.after .echo src)))
    ∧ (∀ (s : State) (src dst : Addr) (p : List Byte), s.follows src = true → s.ctl.mode = .unconfigured →
        dst = s.ownAddr → dst ≠ broadcastAddr → 1 ≤ p.length → s.room 1 = true →
        exec (.echo src dst p) s = .next ((s.noted src).queued .link .echoBack src p))

/-- A matching ECHO_BACK or STATUS_REPLY ends its entry; any other is discarded. With no request waiting for an entry:
a reply whose source, tag and kind match an entry ends it and frees its tag; one that matches none changes nothing
beyond its arrival. -/
def Obligations.PlainRepliesTaken : Prop :=
  ∀ (s : State) (src dst : Addr) (p : List Byte), s.link.requests = [] →
    (s.accepts .echoBack src dst p = true → exec (.echoBack src dst p) s = .next
      (match s.matchReply .echoBack src (byteAt p 0) with
        | some e => (s.after .echoBack src).without e.tag
        | none => s.after .echoBack src))
      ∧ (s.accepts .statusReply src dst p = true → exec (.statusReply src dst p) s = .next
        (match s.matchReply .statusReply src (byteAt p 0) with
          | some e => (s.after .statusReply src).without e.tag
          | none => s.after .statusReply src))

/-- A REFUSE that matches an entry ends it and its block is told; any other is discarded. With no request waiting for
an entry: a REFUSE whose source and tag match an entry takes the entry away and the block of the request is told
"refused" with the reason, on which it acts before the command ends; a REFUSE that matches none changes nothing. For a
VESSEL_QUERY whose vessel is no longer UNRESOLVED nothing else follows. -/
def Obligations.RefuseEndsEntry : Prop :=
  ∀ (s : State) (src dst : Addr) (p : List Byte), s.accepts .refuse src dst p = true → s.link.requests = [] →
    let hit := s.link.entries.find? (fun e => e.peer = src && e.tag = byteAt p 2)
    (∀ e, hit = some e → exec (.refuse src dst p) s
        = .next (finish s { (s.after .refuse src).without e.tag with notices := [.requestRefused e (refusedReason p)] }))
      ∧ (∀ e, hit = some e → e.kind = .vesselQuery → s.approach.queue.all (fun q => q.ready) = true →
        exec (.refuse src dst p) s = .next ((s.after .refuse src).without e.tag))
      ∧ (hit = none → exec (.refuse src dst p) s = .next (s.after .refuse src))

/-- An entry whose deadline passes ends, and its block is told "no reply". The deadline of an entry that has been sent
takes the entry away and its block is told "no reply", on which it acts before the command ends; a tag with no running
deadline (log entry 2) changes nothing. For a VESSEL_QUERY whose vessel is no longer UNRESOLVED nothing else follows.
-/
def Obligations.DeadlineEndsEntry : Prop :=
  ∀ (s : State) (tag : Nat), s.notices = [] →
    let hit := s.link.entries.find? (fun e => e.tag = tag && e.deadline.isSome)
    (∀ e, hit = some e → exec (.replyDeadlineExpiry tag) s
        = .next (finish s { s.without tag with notices := [.noReply e] }))
      ∧ (∀ e, hit = some e → e.kind = .vesselQuery → s.approach.queue.all (fun q => q.ready) = true →
        s.link.requests = [] → exec (.replyDeadlineExpiry tag) s = .next (s.without tag))
      ∧ (hit = none → exec (.replyDeadlineExpiry tag) s = .next s)

/-- A STATUS_ASK is answered by a STATUS_REPLY with the status of the moment; what it and a BEACON hold. A STATUS_ASK
addressed to the station, with room in the queue, is answered by a STATUS_REPLY to its source with its tag and the
station's status as it stands when the reply is placed. A BEACON holds the mode, stop state, interval, level (unknown
while not VALID), claim register, token and epoch (at an end station), the two batch keys, queue counts, active cause,
pending count, free pages less reserved, and the serial; while the station does not work, the values of the column "In
UNCONFIGURED". A STATUS_REPLY lays out by 12.2 the tag, the mode, the prior mode (the saved one in HELD), stop state
and latch, occupancy, claim register, both levels, free and reserved pages, queue counts, token, cause, pending count,
fault level and wake source. -/
def Obligations.StatusAskAnswered : Prop :=
  (∀ (s : State) (src dst : Addr) (p : List Byte), s.accepts .statusAsk src dst p = true → s.room 1 = true →
      exec (.statusAsk src dst p) s = .next ((s.after .statusAsk src).queued .presence .statusReply src
        ((s.after .statusAsk src).statusReplyNow (byteAt p 0))))
    ∧ (∀ s : State,
      let high := (s.approach.queue.filter (fun e => e.ready && e.cls.high)).length
      let shown := fun (x : Level) => if x.valid then some x.value else none
      (s.works = true → s.beaconNow = {
          mode := s.ctl.mode, stop := s.ctl.stop, interval := s.presence.interval, level := shown s.chamber.level,
          holder := s.chamber.holder.kind, waiter := s.chamber.waiter.kind,
          token := if s.isEnd then s.token.state else .absent, epoch := if s.isEnd then s.token.epoch else 0,
          chamberKey := s.chamber.key, custodyKey := s.store.custody, high := high,
          low := s.lowCount, cause := s.fault.record.map FaultRecord.cause,
          pendingCount := s.fault.pendingSet.length, freeMinusReserved := s.store.free.length - s.store.reserved,
          serial := s.loader.serial.getD 0 })
        ∧ high + s.lowCount = s.approach.queue.length
        ∧ (s.works = false → s.beaconNow = {
          mode := s.ctl.mode, stop := s.ctl.stop, interval := s.presence.interval, level := none, holder := .free,
          waiter := .none, token := .absent, epoch := 0, chamberKey := 0, custodyKey := 0, high := 0, low := 0,
          cause := some .configInvalid, pendingCount := s.fault.pendingSet.length, freeMinusReserved := 0,
          serial := s.loader.serial.getD 0 })
        ∧ (∀ tag : Nat, s.works = true → s.Sound → tag < 256 → s.fault.pendingSet.length ≤ 13 →
          let r := s.statusReplyNow tag
          let word := fun (x : Option Nat) => x.getD 0xFFFF
          r.length = 15 ∧ byteAt r 0 = tag
            ∧ field (byteAt r 1) 5 3 = s.ctl.mode.code
            ∧ (s.ctl.mode ≠ .held → field (byteAt r 1) 2 3 = s.ctl.mode.code)
            ∧ (∀ x, s.ctl.mode = .held → s.fault.record = some x → field (byteAt r 1) 2 3 = x.prior.code)
            ∧ field (byteAt r 1) 0 2 = s.ctl.stop.code
            ∧ field (byteAt r 2) 7 1 = (if s.ctl.latch then 1 else 0) ∧ field (byteAt r 2) 5 2 = s.chamber.occupancy.code
            ∧ field (byteAt r 2) 3 2 = s.chamber.holder.kind.code ∧ field (byteAt r 2) 1 2 = s.chamber.waiter.kind.code
            ∧ be16 r 3 = word (shown s.chamber.level)
            ∧ be16 r 5 = word (if s.isEnd then shown s.chamber.outer else none)
            ∧ byteAt r 7 = s.store.free.length ∧ byteAt r 8 = s.store.reserved
            ∧ byteAt r 9 = high * 16 + s.lowCount
            ∧ be16 r 10 = (if s.isEnd then s.token.state.code * 16384 + s.token.epoch.toNat else TokenState.code .absent * 16384)
            ∧ byteAt r 12 = (s.fault.record.map (fun x => x.cause.code)).getD 0 * 16 + s.fault.pendingSet.length
            ∧ byteAt r 13 = (s.fault.record.map (fun x => x.level.code)).getD 0 * 64
            ∧ byteAt r 14 = s.ctl.wakeSource.code))

/-- The kinds the desk alone receives are refused WRONG_ROLE at every station. VESSEL_QUERY, TOLL_READY, TOLL_END and
LOG_FULL addressed to the station outside UNCONFIGURED are answered REFUSE(WRONG_ROLE) with the kind code and the
frame's tag, 0 where the kind carries none; by broadcast they are dropped. No widen slot is used. -/
def Obligations.DeskKindsRefused : Prop :=
  ∀ (s : State) (src dst : Addr) (p : List Byte), s.follows src = true → s.ctl.mode ≠ .unconfigured → s.isTaken dst = true →
    s.room 1 = true →
    let answer := fun (k : Kind) (tag : Nat) => Host.Outcome.next (if dst = broadcastAddr then s.noted src
      else (s.noted src).queued .link .refuse src [byte 2, byte k.code, byte tag])
    exec (.vesselQuery src dst p) s = answer .vesselQuery (byteAt p 0)
      ∧ exec (.tollReady src dst p) s = answer .tollReady 0
      ∧ exec (.tollEnd src dst p) s = answer .tollEnd (refusedTag .tollEnd p)
      ∧ exec (.logFull src dst p) s = answer .logFull 0

/-- A beacon enters its sender's state and contents in the peer table. A beacon of another station of the flight makes
that station's entry PRESENT with the announced interval, time 0 and the beacon's contents; a beacon that reports no
fault clears the mark, one that reports a fault leaves it. Of the tables that acting on a notice never changes,
nothing else has changed but the sender's widen slot. -/
def Obligations.BeaconEntered : Prop :=
  ∀ (s : State) (src : Addr) (p : List Byte) (b : BeaconContents), s.accepts .beacon src broadcastAddr p = true →
    parseBeacon? p = some b → src ≠ deskAddr → src ≠ s.ownAddr → src.toNat < s.n →
    ∃ t, exec (.beacon src broadcastAddr p) s = .next t ∧ t.still = { (s.after .beacon src).still with
      peers := s.presence.peers.set (peerIdx src.toNat)
        { presence := .present, interval := some b.interval, since := 0, contents := some b,
          faulted := if b.cause.isNone then false else s.presence.peers[peerIdx src.toNat].faulted } }

/-- A beacon from the station's own address with another serial starts the clash state and raises ADDRESS_CLASH. A beacon from the station's
own strap address with a serial other than its own makes the clash state ACTIVE and starts the calm timer at 3 s. Where
the state was NONE it hands the Fault Unit ADDRESS_CLASH with the other serial, its own and boundary NONE, and the
beacon interval becomes FAST, a beacon being offered at once where it was not FAST; where the state was ACTIVE, and for
a beacon with its own serial, nothing else changes and nothing is raised. -/
def Obligations.AddressClash : Prop :=
  ∀ (s : State) (dst : Addr) (p : List Byte) (b : BeaconContents) (own : BitVec 24),
    s.accepts .beacon s.ownAddr dst p = true → parseBeacon? p = some b → s.loader.serial = some own →
    let a := s.after .beacon s.ownAddr
    let clashed := { a with presence := { a.presence with clash := true, calmTimer := some (sec 3) } }
    (∃ t, exec (.beacon s.ownAddr dst p) s = .next t ∧ t.still = (if b.serial = own then a.still
        else { a.still with clash := true, calmTimer := some (sec 3) }))
      ∧ (b.serial ≠ own → s.presence.clash = false →
        let raised := { clashed with notices := [.raise .addressClash (b.serial.setWidth 32) (own.setWidth 32) .none] }
        let x := if s.presence.interval = .fast then raised else State.offerBeacon { raised with
          presence := { raised.presence with interval := .fast, beaconTimer := some Interval.fast.span } }
        exec (.beacon s.ownAddr dst p) s = .next (finish s x) ∧ x.presence.interval = .fast)
      ∧ (b.serial ≠ own → s.presence.clash = true → exec (.beacon s.ownAddr dst p) s = .next clashed)
      ∧ (b.serial = own → exec (.beacon s.ownAddr dst p) s = .next a)

/-- Silence makes a PRESENT entry LOST, a neighbour's loss raises PEER_LOST, and the calm timer ends the clash state. The silence of a PRESENT station
makes its entry LOST and keeps the rest of it; the desk's silence makes its PRESENT entry LOST; the calm timer's end
clears the clash state. Of the tables that acting on a notice never changes, nothing else has changed. The blocks act on
the loss of a station, and for station k-1 or k+1 PEER_LOST is then handed to the Fault Unit, with the lost address, the
interval code it last announced, and boundary LOWER for k-1 and NONE for k+1; for any other station, and in
UNCONFIGURED, none is. That PEER_LOST comes after what the blocks do is the model's choice (log entry 25). -/
def Obligations.PresenceTimeouts : Prop :=
  ∀ s : State,
    (∀ i : Fin 16, s.presence.peers[i].presence = .present → ∃ t, exec (.peerSilenceTimeout i) s = .next t ∧ t.still
        = { s.still with peers := s.presence.peers.set i { s.presence.peers[i] with presence := .lost } })
      ∧ (∀ (i : Fin 16) (v : Interval), s.notices = [] → s.presence.peers[i].presence = .present →
        s.presence.peers[i].interval = some v →
        let y := { s with presence := { s.presence with
          peers := s.presence.peers.set i { s.presence.peers[i] with presence := .lost } } }
        let governed := fun (x : State) => if i.val = s.otherEnd then x.recoveryGovern else x
        let raised := fun (b : Bound) => State.emit (.raise .peerLost (BitVec.ofNat 32 i.val) (BitVec.ofNat 32 v.code) b)
        exec (.peerSilenceTimeout i) s = .next (finish s { y with notices := [.peerLost i] })
          ∧ State.act (.peerLost i) y = (
            if s.works = false then y
            else if i.val = s.k + 1 then raised .none (governed y.upperLost.withholdOnward)
            else if i.val + 1 = s.k then raised .lower (governed y.lowerPeerLost)
            else governed y))
      ∧ (s.presence.desk = .present → ∃ t, exec .deskSilenceTimeout s = .next t ∧ t.still = { s.still with desk := .lost })
      ∧ (s.presence.calmTimer.isSome = true → ∃ t, exec .clashCalmExpiry s = .next t
        ∧ t.still = { s.still with clash := false, calmTimer := none })

/-- START puts every block into its START state. START answers the state right after reset, with the commands that
wait, the draws made and the input pins as they were (log entry 31). There the mode is LOADING, the stop state
STOP_CLEAR with the latch clear, the transmit queue and the pending-reply table empty, both levels UNKNOWN, the
occupancy EMPTY, the register FREE with no waiter, no lower claim, no motion and no safety close, both units without a
step, the approach queue empty, the batch counter 1, the free list 0 to 95 ascending with no record, and the log
number 1. Fields for which no rule gives a START state are the model's (log entry 30). -/
def Obligations.StartLeaves : Prop :=
  ∀ s : State, exec .start s = .next { State.reset with pending := s.pending, draws := s.draws, pins := s.pins }
    ∧ State.reset.ctl.mode = .loading ∧ State.reset.ctl.stop = .stopClear ∧ State.reset.ctl.latch = false
    ∧ State.reset.ctl.wakeSource = .start ∧ State.reset.link.txq = [] ∧ State.reset.link.entries = []
    ∧ State.reset.link.lastTag = 0 ∧ (∀ i : Fin 17, State.reset.link.widenSlots[i] = .empty)
    ∧ State.reset.chamber.level.valid = false ∧ State.reset.chamber.outer.valid = false
    ∧ State.reset.chamber.alarm = .normal ∧ State.reset.chamber.occupancy = .empty ∧ State.reset.chamber.key = 0
    ∧ State.reset.chamber.holder = .free ∧ State.reset.chamber.waiter = .none
    ∧ State.reset.chamber.lower.state = .none ∧ State.reset.drive.restful = true
    ∧ State.reset.lowerUnit.step = none ∧ State.reset.headUnit.step = none
    ∧ State.reset.approach.queue = [] ∧ State.reset.approach.counter = 1
    ∧ State.reset.store.free = List.range 96 ∧ State.reset.store.records = [] ∧ State.reset.toll.next = 1
    ∧ State.reset.fault.record = none

/-- What the station does not hear or take changes nothing but the time since the desk was heard. Frame bytes that
fail the acceptance test and a call record that fails its test leave the state as it was; so does an accepted frame of
every kind, of an unknown kind and one bound for another address, while the station is in LOADING or sends, or where
its source is 16 to 29 or 31. A frame of every kind that is heard and bound for another address is ignored; where the
desk, PRESENT already, is its source, the time since its last frame returns to 0. -/
def Obligations.NothingHeard : Prop :=
  ∀ s : State, s.notices = [] →
    (∀ w bytes, exec (.frameDiscarded w bytes) s = .next s) ∧ (∀ bytes, exec (.callRecordBad bytes) s = .next s)
      ∧ (∀ c ∈ frameCommands, ∀ src dst p, (s.catches src = false → exec (c src dst p) s = .next s)
        ∧ (s.follows src = true → s.isTaken dst = false → exec (c src dst p) s = .next (s.noted src)))
      ∧ (∀ src dst kind p, (s.catches src = false → exec (.unknownKind src dst kind p) s = .next s)
        ∧ (s.follows src = true → s.isTaken dst = false → exec (.unknownKind src dst kind p) s = .next (s.noted src)))
      ∧ (∀ src dst, (s.catches src = false → exec (.frameNotTaken src dst) s = .next s)
        ∧ (s.follows src = true → s.isTaken dst = false → exec (.frameNotTaken src dst) s = .next (s.noted src)))

/-- FLIGHT_STOP, RESUME, the resume settle timer and the stop button follow the table of R43. A FLIGHT_STOP taken, or
a press of the stop button outside LOADING, makes STOP_CLEAR into STOP_ACTIVE, leaves STOP_ACTIVE, and sets the latch
in STOP_SETTLING; a RESUME of the desk makes STOP_ACTIVE into STOP_SETTLING with the resume timer at 2 s, and in
STOP_SETTLING with the latch set clears it and starts the timer again; the timer's end gives STOP_ACTIVE with the
latch set, else STOP_CLEAR, latch clear. A FLIGHT_STOP is taken in UNCONFIGURED too. Of the tables that acting on a
notice never changes, nothing else has changed. With no motion held, and room in the queue, a press in STOP_CLEAR
changes the stop state and offers FLIGHT_STOP to all, and nothing else; letting the button go changes its pin alone
(the model's choice, log entry 28). -/
def Obligations.StopTable : Prop :=
  ∀ s : State,
    let stopped := fun (v : StillView) => { v with
      stop := if v.stop = .stopClear then .stopActive else v.stop, latch := v.latch || decide (v.stop = .stopSettling) }
    (∀ src dst p, s.accepts .flightStop src dst p = true →
        ∃ t, exec (.flightStop src dst p) s = .next t ∧ t.still = stopped (s.after .flightStop src).still)
      ∧ (∀ src dst, s.follows src = true → s.ctl.mode = .unconfigured → s.isTaken dst = true →
        ∃ t, exec (.flightStop src dst []) s = .next t ∧ t.still = stopped (s.noted src).still)
      ∧ (∀ src dst p, s.accepts .resume src dst p = true →
        ∃ t, exec (.resume src dst p) s = .next t ∧ t.still = { (s.after .resume src).still with
          stop := if s.ctl.stop = .stopActive then .stopSettling else s.ctl.stop,
          latch := s.ctl.latch && decide (s.ctl.stop ≠ .stopSettling),
          resumeTimer := if s.ctl.stop = .stopActive ∨ (s.ctl.stop = .stopSettling ∧ s.ctl.latch = true) then some (sec 2)
            else s.ctl.resumeTimer })
      ∧ (s.ctl.resumeTimer.isSome = true → s.ctl.stop = .stopSettling →
        ∃ t, exec .resumeSettleExpiry s = .next t ∧ t.still = { s.still with
          stop := if s.ctl.latch then .stopActive else .stopClear, latch := false, resumeTimer := none })
      ∧ (s.ctl.mode ≠ .loading → ∃ t, exec (.stopButtonPress true) s = .next t
        ∧ t.still = stopped { s.still with pins := { s.pins with stopButton := true } })
      ∧ (s.notices = [] → s.ctl.mode ≠ .loading → s.ctl.stop = .stopClear → s.drive.restful = true → s.room 1 = true →
        s.stopFrameOut = false → exec (.stopButtonPress true) s
          = .next (State.queued .control .flightStop broadcastAddr []
            { s with pins := { s.pins with stopButton := true }, ctl := { s.ctl with stop := .stopActive } }))
      ∧ (s.notices = [] →
        exec (.stopButtonPress false) s = .next { s with pins := { s.pins with stopButton := false } })

/-- REST is taken under the conditions of R46 and refused BUSY otherwise. A REST addressed to a station for which
every condition of R46 holds (no motion held, the clash state not active, room in the queue) makes the mode RESTING,
the pump not ready, the beacon interval REST with the timer at 10 s, and offers a beacon; nothing else changes. Where
a condition fails, a REFUSE(BUSY) with tag 0 is the only change. One sent to all is discarded. -/
def Obligations.RestTaken : Prop :=
  ∀ (s : State) (dst : Addr), s.accepts .rest deskAddr dst [] = true → s.room 1 = true →
    let a := s.after .rest deskAddr
    (dst ≠ broadcastAddr → s.restAllowed = true → s.drive.restful = true → s.presence.clash = false →
        s.presence.interval = .normal →
        exec (.rest deskAddr dst []) s = .next (State.offerBeacon
          { a with ctl := { s.ctl with mode := .resting, wakeTimer := none, pumpReady := false },
                   presence := { a.presence with interval := .rest, beaconTimer := some (sec 10) } }))
      ∧ (dst ≠ broadcastAddr → s.restAllowed = false →
        exec (.rest deskAddr dst []) s = .next (a.queued .link .refuse deskAddr [byte 4, byte Kind.rest.code, byte 0]))
      ∧ (dst = broadcastAddr → exec (.rest deskAddr dst []) s = .next a)

/-- WAKE wakes a RESTING station, and the wake settle timer ends WAKING. A WAKE addressed to a RESTING station (no
motion held, clash state not active, room in the queue) makes the mode WAKING with the wake settle timer running, the
pump not ready, the wake source DESK, the interval NORMAL with the timer at 2 s, and offers a beacon. In any other
mode, or sent to all, it changes nothing. The wake settle timer makes the pump ready, WAKING into IN_SERVICE (key at
AUTO, no motion held, no batch to let in), and in HELD a saved prior mode WAKING into IN_SERVICE. -/
def Obligations.WakeTaken : Prop :=
  (∀ (s : State) (dst : Addr), s.accepts .wake deskAddr dst [] = true →
      let a := s.after .wake deskAddr
      (dst ≠ broadcastAddr → s.ctl.mode = .resting → s.room 1 = true → s.drive.restful = true →
          s.presence.clash = false → s.presence.interval = .rest →
          exec (.wake deskAddr dst []) s = .next (State.offerBeacon
            { a with ctl := { s.ctl with mode := .waking, wakeTimer := some (sec s.cfg.wakeSettle), pumpReady := false,
                                         wakeSource := .desk },
                     presence := { a.presence with interval := .normal, beaconTimer := some (sec 2) } }))
        ∧ (dst = broadcastAddr ∨ s.ctl.mode ≠ .resting → exec (.wake deskAddr dst []) s = .next a))
    ∧ (∀ s : State, s.notices = [] → s.ctl.wakeTimer.isSome = true → s.drive.restful = true →
      (s.ctl.mode = .waking → s.pins.key = .auto → s.shutToEntry = true → s.presence.clash = false →
          s.presence.interval = .normal → exec .wakeSettleExpiry s
            = .next { s with ctl := { s.ctl with mode := .inService, wakeTimer := none, pumpReady := true } })
        ∧ (∀ r, s.ctl.mode = .held → s.fault.record = some r → exec .wakeSettleExpiry s
            = .next { s with ctl := { s.ctl with wakeTimer := none, pumpReady := true },
                             fault := { s.fault with record := some (if r.prior = .waking then
                               { r with prior := .inService } else r) } }))

/-- A CLAIM_ASK is denied, granted or made to wait by the tests of R65 in their order. With room in the queue: a
CLAIM_ASK is denied FAULTED for a marked station k+1; BUSY for a second claim from above; MODE in HELD; NO_SPACE for a
GATE_DOWN need beyond the pages that can become free; BUSY for a GATE_UP whose batch is not in the chamber; granted
where the register is FREE, nobody waits and the conditions of R66 hold: the register UPPER, the level the first feed,
the 1 s to the next running from its placing (log entry 10); made to wait where nobody waits; else denied BUSY. A
GATE_DOWN grant makes the reservation and ARRIVING first, and what follows from them is acted on. A RESTING station
first wakes, its wake source CLAIM, and then makes the same tests. -/
def Obligations.ClaimAnswered : Prop :=
  ∀ (s : State) (src dst : Addr) (p : List Byte) (pu : Purpose), s.accepts .claimAsk src dst p = true →
    Purpose.ofCode? (byteAt p 1) = some pu →
    let a := s.after .claimAsk src
    let tag := byteAt p 0
    let need := byteAt p 2
    let key := keyAt p 3
    let c : UpperClaim := { tag := tag, purpose := pu, key := key, need := need }
    let deny := fun (reason : Nat) => Host.Outcome.next (a.queued .chamber .claimDeny src [byte tag, byte reason])
    let level := s.chamber.level.value
    let first : List Byte := byte tag :: bytes16 level
    let held : Chamber := { s.chamber with holder := .upper c, lastFed := level, feedTimer := some (sec 1) }
    (s.ctl.mode ≠ .resting → s.room 1 = true → exec (.claimAsk src dst p) s =
      if s.isMarked (s.k + 1) then deny 4
      else if s.chamber.holder.kind = .upper ∨ s.chamber.holder.kind = .orphaned ∨ s.chamber.waiter.kind = .upper then deny 1
      else if s.ctl.mode = .held then deny 3
      else if pu = .gateDown ∧ 96 - s.store.closedPages < need then deny 2
      else if pu = .gateUp ∧ ¬ (s.chamber.occupancy = .occupied ∧ s.chamber.key = key) then deny 1
      else if s.chamber.holder.kind = .free ∧ s.chamber.waiter.kind = .none ∧ s.chamber.level.valid = true
          ∧ (pu = .gateDown → s.chamber.occupancy = .empty ∧ s.store.canReserve key need = true) then
        if pu = .gateDown then
          let x := { a with chamber := { s.chamber with holder := .upper c } }
          let y := (x.setStore (s.store.reserve key need)).setOccupancy .arriving key
          .next (finish s (State.send .chamber .claimGive src first { y with chamber := { y.chamber with lastFed := level } }))
        else .next { a.queued .chamber .claimGive src first with chamber := held }
      else if s.chamber.waiter.kind = .none then
        .next (State.queued .chamber .claimWait src [byte tag] { a with chamber := { s.chamber with waiter := .upper c } })
      else deny 1)
      ∧ (s.ctl.mode = .resting → exec (.claimAsk src dst p) s = .next (finish s (State.dealClaimAsk c
          (State.setMode .waking { a with ctl := { s.ctl with
            wakeTimer := some (sec s.cfg.wakeSettle), pumpReady := false, wakeSource := .claim } }))))

/-- A CLAIM_DROP frees the register of the claim with its tag, or takes the waiting ask back. A CLAIM_DROP with the
holder's tag makes the register FREE and stops the feed; for a GATE_DOWN claim the arrived batch makes the chamber
OCCUPIED and is handed in, else the reservation is returned and the occupancy is EMPTY; what follows is acted on. With
nobody waiting, both units quiet and no motion held, a claim of another purpose leaves nothing else changed where no
feed waits for a place; one that waits is taken back unsent. One with the waiting ask's tag takes that ask away; any
other changes nothing. That a waiting feed counts as not yet sent is an inference (log entry 79). -/
def Obligations.ClaimDropped : Prop :=
  ∀ (s : State) (src dst : Addr) (p : List Byte), s.accepts .claimDrop src dst p = true →
    let a := s.after .claimDrop src
    let tag := byteAt p 0
    let freed := fun (x : State) => State.holderFreed x
    (∀ c : UpperClaim, s.chamber.holder = .upper c ∨ s.chamber.holder = .orphaned c → c.tag = tag →
        (c.purpose ≠ .gateDown → exec (.claimDrop src dst p) s = .next (finish s (freed a)))
          ∧ (c.purpose ≠ .gateDown → s.chamber.waiter = .none → s.unitsQuiet = true → s.drive.restful = true →
            s.ctl.localState = .auto →
            let free := { a with chamber := { s.chamber with holder := .free, feedTimer := none } }
            (s.link.hasWaiting .chamber .levelFeed = false → exec (.claimDrop src dst p) s = .next free)
              ∧ (∀ f : Offer, f.block = .chamber → f.kind = .levelFeed → s.link.waiting = [f] → s.link.backlog = [] →
                s.link.requests = [] →
                exec (.claimDrop src dst p) s = .next { free with link := { a.link with waiting := [] } }))
          ∧ (c.purpose = .gateDown → byteAt p 1 % 2 = 1 → keyAt p 2 = c.key → exec (.claimDrop src dst p) s
              = .next (finish s (freed ((a.setOccupancy .occupied c.key).emit (.handIn c.key src)))))
          ∧ (c.purpose = .gateDown → ¬ (byteAt p 1 % 2 = 1 ∧ keyAt p 2 = c.key) → exec (.claimDrop src dst p) s
              = .next (finish s (freed ((a.setStore (s.store.returnReservation c.key)).setOccupancy .empty 0)))))
      ∧ (∀ w : UpperClaim, s.chamber.holder.upperTag? ≠ some tag → s.chamber.waiter = .upper w → w.tag = tag →
        exec (.claimDrop src dst p) s = .next { a with chamber := { s.chamber with waiter := .none } })
      ∧ (s.chamber.holder.upperTag? ≠ some tag → (∀ w : UpperClaim, s.chamber.waiter = .upper w → w.tag ≠ tag) →
        exec (.claimDrop src dst p) s = .next a)

/-- A LEVEL_FEED sets the fed level under the held claim's tag, and 3 s without one makes it STALE. In every state: a
LEVEL_FEED with the tag of the HELD lower claim, while a fed level is held, makes it the level carried, age 0, FRESH,
and where that changes the level or its freshness the units act on it before the command ends; any other changes
nothing. When its age reaches 3 s it becomes STALE, and the units act on it. With both units quiet nothing else
changes. -/
def Obligations.LevelFeedTaken : Prop :=
  ∀ s : State,
    (∀ (src dst : Addr) (p : List Byte), s.accepts .levelFeed src dst p = true →
        let a := s.after .levelFeed src
        let fed := { a with chamber := { s.chamber with fed := some { value := be16 p 1, age := 0, fresh := true } } }
        (∀ old, s.chamber.lower.state = .held → s.chamber.lower.tag = byteAt p 0 → s.chamber.fed = some old →
            exec (.levelFeed src dst p) s = .next (finish s (if old.fresh = true ∧ old.value = be16 p 1 then fed
              else { fed with notices := [.levelsChanged] })))
          ∧ (∀ old, s.chamber.lower.state = .held → s.chamber.lower.tag = byteAt p 0 → s.chamber.fed = some old →
            (s.unitsQuiet = true ∨ (old.fresh = true ∧ old.value = be16 p 1)) →
            exec (.levelFeed src dst p) s = .next fed)
          ∧ (s.chamber.lower.state ≠ .held ∨ s.chamber.lower.tag ≠ byteAt p 0 ∨ s.chamber.fed = none →
            exec (.levelFeed src dst p) s = .next a))
      ∧ (∀ f : FedLevel, s.notices = [] → s.chamber.fed = some f → f.fresh = true →
        let stale := { s with chamber := { s.chamber with fed := some { f with fresh := false } } }
        exec .fedLevelStale s = .next (finish s { stale with notices := [.levelsChanged] })
          ∧ (s.unitsQuiet = true → exec .fedLevelStale s = .next stale))

/-- An ALARM_CLOSE closes the lower sluice through the safety close set. Of a station that is not RESTING: an
ALARM_CLOSE places the lower sluice in the safety close set with class REMOTE. With the Drive Arbiter at rest and both
units quiet, a CLOSED sluice is complete at once and nothing changes; one that is not CLOSED is driven toward CLOSED
by SAFETY with its whole allowance, the pump being ready and the mode IN_SERVICE, LOCAL or HELD. Where the set holds
that sluice already, as LOWER or as REMOTE, the demand changes nothing. -/
def Obligations.AlarmCloseTaken : Prop :=
  ∀ (s : State) (src dst : Addr) (p : List Byte), s.accepts .alarmClose src dst p = true → s.ctl.mode ≠ .resting →
    let a := s.after .alarmClose src
    exec (.alarmClose src dst p) s = .next (finish s (a.placeSafety .remote))
      ∧ (s.drive.restful = true → s.unitsQuiet = true → s.element .lowerSluice = .closed →
        exec (.alarmClose src dst p) s = .next a)
      ∧ (s.drive.restful = true → s.element .lowerSluice ≠ .closed → s.ctl.pumpReady = true →
        (s.ctl.mode = .inService ∨ s.ctl.mode = .localMode ∨ s.ctl.mode = .held) →
        exec (.alarmClose src dst p) s = .next { a with drive := { s.drive with
          elements := s.drive.elements.set (elementIdx .lowerSluice) .closing,
          slots := s.drive.slots.set 0 (some { element := .lowerSluice, target := .toClosed, phase := .running,
                                               allowance := sec s.cfg.sluiceLimit }),
          safetySet := [.remote] } })
      ∧ ((s.drive.safetySet = [.lower] ∨ s.drive.safetySet = [.remote] ∨ s.drive.safetySet = [.lower, .head]
          ∨ s.drive.safetySet = [.head, .remote]) → exec (.alarmClose src dst p) s = .next a)

/-- A CROSS_ASK is denied, taken again or taken by the tests of R103 in their order. Of a station that is not RESTING,
with room in the queue: a CROSS_ASK is denied FAULTED while station k-1 carries a mark, MODE in HELD; TAKEN again for
the chamber batch's key or that of the BELOW slot; TAKEN and placed WAITING in an EMPTY BELOW slot with the latest
mark, the unit beginning it where it can; else denied BUSY. While the unit has an ACTIVE slot the crossing only waits.
-/
def Obligations.CrossAskAnswered : Prop :=
  ∀ (s : State) (src dst : Addr) (p : List Byte), s.accepts .crossAsk src dst p = true → s.room 1 = true →
    s.ctl.mode ≠ .resting →
    let a := s.after .crossAsk src
    let tag := byteAt p 0
    let key := keyAt p 1
    let c : Crossing := { kind := .inner, direction := .up, key := key, vessels := byteAt p 2, need := byteAt p 3,
                          requester := .lowerStation tag, mark := s.lowerUnit.nextMark, requeued := false }
    let b := s.lowerUnit
    let deny := fun (reason : Nat) => Host.Outcome.next (a.queued .lowerUnit .crossDeny src [byte tag, byte reason])
    let taken := a.queued .lowerUnit .crossTaken src [byte tag]
    let placed := { taken with lowerUnit := { b with below := .waiting c, nextMark := b.nextMark + 1 } }
    exec (.crossAsk src dst p) s =
      if s.isMarked (s.k - 1) then deny 4
      else if s.ctl.mode = .held then deny 3
      else if key = s.chamber.key ∨ b.below.crossing?.any (fun x => x.key = key) then .next taken
      else if b.below = .empty then
        if b.idle then .next (finish s { placed with notices := [.beginCrossing .lower] }) else .next placed
      else deny 1

/-- CROSS_TAKEN, CROSS_DENY and the onward timers move the onward request. With no request waiting for an entry: a
CROSS_TAKEN that matches makes the request asked under its tag TAKEN with 30 s to a repeat; a CROSS_DENY makes it
unasked with 2 s to a new ask; both end the entry; one that matches nothing changes nothing. The retry timer's end
makes the ask anew where the batch is ready, the repeat timer's end asks again unless the station above holds the
register with the batch's key, where the 30 s begin again; in HELD, or where the batch is not ready to go on, the
repeat waits and only the timer changes. -/
def Obligations.CrossReplies : Prop :=
  ∀ s : State,
    (∀ (src dst : Addr) (p : List Byte), s.link.requests = [] → s.accepts .crossTaken src dst p = true →
        let a := s.after .crossTaken src
        exec (.crossTaken src dst p) s = .next (match s.matchReply .crossTaken src (byteAt p 0) with
          | none => a
          | some e => { a.without e.tag with onward := if s.onward.state = .asking e.tag then
              { s.onward with state := .taken, repeatTimer := some (sec 30), repeatDue := false } else s.onward }))
      ∧ (∀ (src dst : Addr) (p : List Byte), s.link.requests = [] → s.accepts .crossDeny src dst p = true →
        let a := s.after .crossDeny src
        exec (.crossDeny src dst p) s = .next (match s.matchReply .crossDeny src (byteAt p 0) with
          | none => a
          | some e => { a.without e.tag with onward := if s.onward.state = .asking e.tag then
              { s.onward with state := .unasked, retryTimer := some (sec 2) } else s.onward }))
      ∧ (s.notices = [] → s.onward.retryTimer.isSome = true →
        exec .onwardRetryExpiry s
            = .next (finish s (State.onwardTest { s with onward := { s.onward with retryTimer := none } }))
          ∧ (s.keepsBatch = true → exec .onwardRetryExpiry s = .next { s with onward := { s.onward with retryTimer := none } }))
      ∧ (s.notices = [] → s.onward.repeatTimer.isSome = true → s.onward.state = .taken →
        let due := { s with onward := { s.onward with repeatTimer := none, repeatDue := true } }
        exec .onwardRepeatExpiry s = .next (finish s due.onwardTest)
          ∧ (s.upperHasBatch = true → s.works = true → s.ctl.mode ≠ .held → s.keepsBatch = false →
            exec .onwardRepeatExpiry s = .next { s with onward := { s.onward with
              repeatTimer := some (sec 30), repeatDue := false } })
          ∧ (s.works = false ∨ s.ctl.mode = .held ∨ s.keepsBatch = true → exec .onwardRepeatExpiry s = .next due))

/-- CLAIM_GIVE, CLAIM_WAIT and CLAIM_DENY move the lower claim of their tag. With no request waiting for an entry: a
CLAIM_GIVE for the ask of its tag makes the lower claim HELD with the level carried as the fed level, FRESH, and the
lower unit learns of it; where that unit is not at its claims nothing else changes; under the tag of the HELD claim it
only ends an entry; under any other tag a CLAIM_DROP with that tag goes to its sender, placed where there is room. A
CLAIM_WAIT for the ask makes it WAITING. A CLAIM_DENY for it ends it, and the unit learns of the denial and its
reason. A reply that matches no entry changes nothing. -/
def Obligations.ClaimReplies : Prop :=
  ∀ (s : State) (src dst : Addr) (p : List Byte), s.link.requests = [] →
    let tag := byteAt p 0
    let l := s.chamber.lower
    let closed := fun (k : Kind) (a : State) => match s.matchReply k src tag with
      | some e => a.without e.tag
      | none => a
    (s.accepts .claimGive src dst p = true →
        let a := s.after .claimGive src
        let given := { closed .claimGive a with chamber := { s.chamber with
          lower := { l with state := .held, timer := none, heldFor := 0 },
          fed := some { value := be16 p 1, age := 0, fresh := true } } }
        let mine := l.tag = tag ∧ (l.state = .waiting ∨ (l.state = .asked ∧ (s.matchReply .claimGive src tag).isSome = true))
        (mine → exec (.claimGive src dst p) s = .next (finish s { given with notices := [.lowerClaim l.purpose .held] }))
          ∧ (mine → l.purpose ≠ .localWork → ¬ (s.lowerUnit.claims = true ∧ s.lowerUnit.free = true) →
            exec (.claimGive src dst p) s = .next given)
          ∧ (l.state = .held → l.tag = tag → exec (.claimGive src dst p) s = .next (closed .claimGive a))
          ∧ (¬ mine → ¬ (l.state = .held ∧ l.tag = tag) →
            exec (.claimGive src dst p) s = .next (finish s (match s.matchReply .claimGive src tag with
                | some e => (a.send .chamber .claimDrop src [byte tag, 0, 0]).endEntry e.tag
                | none => a.send .chamber .claimDrop src [byte tag, 0, 0]))
              ∧ (s.room 1 = true → exec (.claimGive src dst p) s
                = .next (closed .claimGive (a.queued .chamber .claimDrop src [byte tag, 0, 0])))))
      ∧ (s.accepts .claimWait src dst p = true → exec (.claimWait src dst p) s
        = .next (match s.matchReply .claimWait src tag with
          | none => s.after .claimWait src
          | some e => { (s.after .claimWait src).without e.tag with chamber := { s.chamber with
              lower := if l.state = .asked ∧ l.tag = tag then { l with state := .waiting } else l } }))
      ∧ (s.accepts .claimDeny src dst p = true →
        let a := s.after .claimDeny src
        (s.matchReply .claimDeny src tag = none → exec (.claimDeny src dst p) s = .next a)
          ∧ (∀ e, s.matchReply .claimDeny src tag = some e → l.state = .asked → l.tag = tag →
            exec (.claimDeny src dst p) s
              = .next (finish s (State.without e.tag
                (State.emit (.lowerClaim l.purpose (.denied (deniedReason p))) a.endLower))))
          ∧ (∀ e, s.matchReply .claimDeny src tag = some e → ¬ (l.state = .asked ∧ l.tag = tag) →
            exec (.claimDeny src dst p) s = .next (a.without e.tag)))

/-- XFER_ASK, XFER_BAD and XFER_END move the records of a batch out of the station. An XFER_ASK for a batch of which
no record is held (CLOSED ones apart, log entry 33) is refused NOT_HELD; one for a batch that is not the chamber's, or
not wholly RESIDENT or SENDING, or not from the next station, BUSY; else its records are SENDING, its key the custody
key, an OCCUPIED chamber LEAVING, and, unless the same attempt streams already, its segments are offered in order,
those of the stream before that are not yet offered never. An XFER_BAD for the custody key (from either neighbour, log
entry 52) abandons the stream, a segment that waits for a place already being sent (log entry 53); an XFER_END for it
abandons a stream still under way in the same way (the model's choice, log entry 62), frees the SENDING records,
clears the custody key and, for the chamber batch, empties the chamber; for any other key both change nothing. -/
def Obligations.TransferAsked : Prop :=
  ∀ (s : State) (src dst : Addr) (p : List Byte),
    (s.accepts .xferAsk src dst p = true →
        let a := s.after .xferAsk src
        let key := keyAt p 1
        let ready := key = s.chamber.key
          ∧ (∀ r ∈ s.store.batch key, r.state = .resident ∨ r.state = .sending)
          ∧ (if keyFromHead key then src.toNat + 1 = s.k else src.toNat = s.k + 1)
        let moved : State := { a with
          store := { s.store.move key .resident .sending with custody := key },
          chamber := if s.chamber.occupancy = .occupied then { s.chamber with occupancy := .leaving } else s.chamber,
          notices := if s.chamber.occupancy = .occupied then [.occupancyChanged] else [] }
        let refused := fun (reason : Nat) => a.queued .link .refuse src [byte reason, byte Kind.xferAsk.code, byte (byteAt p 0)]
        (s.store.batch key = [] → s.room 1 = true → exec (.xferAsk src dst p) s = .next (refused 6))
          ∧ (s.store.batch key ≠ [] → ¬ ready → s.room 1 = true → exec (.xferAsk src dst p) s = .next (refused 4))
          ∧ (s.store.batch key ≠ [] → ready → ∃ t, exec (.xferAsk src dst p) s = .next t
            ∧ t = finish s (if s.store.stream.any (fun r => r.key = key && r.attempt = byteAt p 2) then moved
                else
                  let b := moved.abandonStream
                  State.streamNext { b with
                    link := { b.link with nextStream := b.link.nextStream + 1 },
                    store := { b.store with stream := some {
                      number := b.link.nextStream, key := key, dst := src, attempt := byteAt p 2,
                      segments := moved.store.streamSegments key } } })
            ∧ t.still = { a.still with custody := key }))
      ∧ (s.accepts .xferBad src dst p = true → exec (.xferBad src dst p) s
        = .next (let a := s.after .xferBad src
                 if keyAt p 0 ≠ 0 ∧ keyAt p 0 = s.store.custody then { a with
                   store := { s.store with stream := none },
                   link := { a.link with
                     backlog := s.link.backlog.filter (fun h => !s.store.stream.any (fun r => Held.ofStream .record r.number h)) } }
                 else a))
      ∧ (s.accepts .xferEnd src dst p = true →
        let a := s.after .xferEnd src
        let key := keyAt p 0
        let freed := a.abandonStream.freeBatch key .sending
        let done := { freed with store := { freed.store with custody := 0 } }
        (key ≠ 0 → key = s.store.custody → ∃ t, exec (.xferEnd src dst p) s = .next t
            ∧ t = finish s (if key = s.chamber.key then done.setOccupancy .empty 0 else done)
            ∧ t.still = { a.still with custody := 0 })
          ∧ (key = 0 ∨ key ≠ s.store.custody → exec (.xferEnd src dst p) s = .next a))

/-- A REC_SEG is stored when it is the segment expected, and ends the attempt when it is not. With no request waiting
for an entry, a REC_SEG ends the entry of the XFER_ASK it answers. One of another batch or sender, or while no attempt
runs, changes nothing more. HEADER_A makes a RECEIVING record on a page; HEADER_B fills its header; CARRY its carry;
LINE appends a line; each makes the transfer STREAMING, the gap timer 500 ms, and the next index the one expected
while more of the record follows. After the last segment of a record HEADER_A of the next position is expected; after
that of the last record the transfer completes: each record gains the CHAMBER line, the reservation is returned, the
records are RESIDENT with the owed ASSIST lines, XFER_END goes to the sender, the inbound transfer is NONE, and what
follows is acted on. A segment out of order (by position, index or type, log entry 29), a line that breaks the bounds
of R154 or a page that cannot be had frees the RECEIVING records, answers XFER_BAD and waits 1 s, or at the third
attempt leaves the transfer FAILED and raises TRANSFER_FAIL. -/
def Obligations.SegmentTaken : Prop :=
  ∀ (s : State) (src dst : Addr) (p : List Byte), s.accepts .recSeg src dst p = true → s.link.requests = [] →
    let i := s.store.inbound
    let a := s.after .recSeg src
    let b := match s.link.entries.find? (fun e => e.kind = .xferAsk && e.peer = src && e.key = keyAt p 0) with
      | some e => a.without e.tag
      | none => a
    let mine := keyAt p 0 = i.key ∧ src = i.sender ∧ (i.state = .asking ∨ i.state = .streaming)
    let type := byteAt p 1 / 64
    let expected := byteAt p 1 / 16 % 4 = i.position ∧ byteAt p 2 = i.index ∧ type = i.expectedType
    let upper := (s.widenSlot src).upper true
    let l : Line := { kind := if byteAt p 3 / 128 = 1 then .assist else .chamber, chamber := byteAt p 3 % 16,
                      band := byteAt p 3 / 32 % 4, amount := widened upper (be16 p 4) }
    let stored := fun (x : Inbound) (y : State) => { y with store := { y.store with
      gapTimer := some (ms 500), inbound := { x with state := .streaming } } }
    let more := fun (x : Inbound) => { x with index := i.index + 1 }
    let whole := fun (y : State) =>
      let mod := fun (x : Inbound) (z : State) => { z with store := { z.store with inbound := x } }
      if i.position < i.records then mod { y.store.inbound with position := i.position + 1, index := 0 } y
      else
        let y1 := y.addLines .chamber i.key .receiving
        let y2 := y1.setStore (y1.store.returnReservation i.key)
        let y3 := { y2 with store := { y2.store.move i.key .receiving .resident with gapTimer := none } }
        let y4 := (y3.payOwed i.key).send .record .xferEnd i.sender [i.key]
        (State.nextHandIn (mod Inbound.initial y4)).emits [.transferDone i.key, .onwardTest]
    (¬ mine → exec (.recSeg src dst p) s = .next b)
      ∧ (∀ page free, mine → expected → type = 0 → s.store.alloc i.key true = some (page, free) →
        exec (.recSeg src dst p) s = .next (finish s (stored
          { i with index := 1, records := if i.position = 1 then byteAt p 6 / 4 % 4 else i.records }
          (b.setStore { s.store with free := free, records := s.store.records ++
            [{ key := i.key, position := i.position, state := .receiving, registration := widened upper (be16 p 3),
               cls := VClass.ofCode (byteAt p 5 / 64), group := byteAt p 5 / 8 % 8, account := 0,
               lengthClass := byteAt p 6 / 16, entryDay := 0, entryMinute := 0, timeUnknown := false,
               defaultGroup := false, truncated := false, assisted := false, carry := 0, lines := [], pages := [page],
               logNumber := 0, total := 0 }] }))))
      ∧ (∀ r, mine → expected → type = 1 → s.store.recordAt i.key i.position = some r →
        let x := { i with lineCount := byteAt p 10, carryFollows := byteAt p 9 / 16 % 2 = 1 }
        let y := { b with store := s.store.update r (fun x => { x with
            account := widened upper (be16 p 3), entryDay := BitVec.ofNat 16 (be16 p 5), entryMinute := be16 p 7,
            timeUnknown := byteAt p 9 % 2 = 1, defaultGroup := byteAt p 9 / 2 % 2 = 1,
            truncated := byteAt p 9 / 4 % 2 = 1, assisted := byteAt p 9 / 8 % 2 = 1 }) }
        ((byteAt p 9 / 16 % 2 = 1 ∨ 0 < byteAt p 10) → exec (.recSeg src dst p) s = .next (stored (more x) y))
          ∧ (byteAt p 9 / 16 % 2 = 0 → byteAt p 10 = 0 →
            exec (.recSeg src dst p) s = .next (finish s (whole (stored x y)))))
      ∧ (∀ r, mine → expected → type = 2 → s.store.recordAt i.key i.position = some r →
        let y := { b with store := s.store.update r (fun x => { x with carry := widened upper (be16 p 3) }) }
        (0 < i.lineCount → exec (.recSeg src dst p) s = .next (stored (more i) y))
          ∧ (i.lineCount = 0 → exec (.recSeg src dst p) s = .next (finish s (whole (stored i y)))))
      ∧ (∀ r st, mine → expected → type = 3 → s.store.recordAt i.key i.position = some r → r.lineFits l = true →
        s.store.receiveLine l r = some st → exec (.recSeg src dst p) s = .next (finish s
          (if r.lines.length + 1 < i.lineCount then stored (more i) (b.setStore st) else whole (stored i (b.setStore st)))))
      ∧ (mine → (¬ expected ∨ (type = 0 ∧ s.store.alloc i.key true = none)
          ∨ (type = 3 ∧ ∃ r, s.store.recordAt i.key i.position = some r ∧ (r.lineFits l = false ∨ s.store.receiveLine l r = none))) →
        let gone := b.freeBatch i.key .receiving
        let bad := State.send .record .xferBad i.sender [i.key] { gone with store := { gone.store with gapTimer := none } }
        let ended := { bad with store := { bad.store with
          attemptWait := (if i.attempt < 3 then some (sec 1) else s.store.attemptWait),
          inbound := { i with state := (if i.attempt < 3 then .paused else .failed) } } }
        exec (.recSeg src dst p) s = .next (finish s (if i.attempt < 3 then ended
          else ended.emit (.raise .transferFail (BitVec.ofNat 32 i.key.toNat) (BitVec.ofNat 32 i.sender.toNat)
            (if i.sender.toNat + 1 = s.k then .lower else .none)))))

/-- A HOLD sets its sender's entry for its seconds; HOLD(0), the 17th renewal and the end of the time clear it. A HOLD
of T seconds, T not 0, with fewer than 16 renewals sets the sender's entry to T seconds and counts the renewal. One of
0 seconds, or at 16 renewals, clears it; so does its time's end; nothing else changes where no batch could be admitted
at the station. -/
def Obligations.HoldTaken : Prop :=
  ∀ s : State,
    let cleared := fun (q : Party) (x : State) => { x with approach := { s.approach with
      holds := s.approach.holds.set (partyIdx q) { left := none, renewals := 0 } } }
    (∀ (src dst : Addr) (p : List Byte), s.accepts .hold src dst p = true →
        let a := s.after .hold src
        let e := s.approach.holds[partyIdx (partyOf src)]
        (byteAt p 0 ≠ 0 → e.renewals < 16 → exec (.hold src dst p) s = .next { a with approach := { s.approach with
            holds := s.approach.holds.set (partyIdx (partyOf src))
              { left := some (sec (byteAt p 0)), renewals := e.renewals + 1 } } })
          ∧ (byteAt p 0 = 0 ∨ e.renewals = 16 → s.shutToEntry = true →
            exec (.hold src dst p) s = .next (cleared (partyOf src) a)))
      ∧ (∀ q : Party, s.notices = [] → s.approach.holds[partyIdx q].left.isSome = true → s.shutToEntry = true →
        exec (.holdEntryExpiry q) s = .next (cleared q s))

/-- EXIT_NOTE, the sweep and the recovery timer keep the in-flight list and the token. At a station where no batch
could be admitted: an EXIT_NOTE takes its key, if it is of this end's admitting, from the in-flight list; a sweep sets
the miss count of a reported key to 0, raises the others and takes out those that reach 3, and the sweep timer starts
again at 2 s; the recovery timer's end takes the token, with the next epoch, turn count 0 and an empty list, where no
batch is reported anywhere, and else leaves the timer run out. -/
def Obligations.FlightListKept : Prop :=
  ∀ s : State, s.shutToEntry = true →
    (∀ (src dst : Addr) (p : List Byte), s.accepts .exitNote src dst p = true → exec (.exitNote src dst p) s
        = .next (if keyAt p 0 ≠ 0 ∧ (keyFromHead (keyAt p 0) = !s.isFoot) then
            { s.after .exitNote src with token := { s.token with
                inFlight := s.token.inFlight.filter (fun x => x.key ≠ keyAt p 0) } }
          else s.after .exitNote src))
      ∧ (s.notices = [] → s.token.sweepTimer.isSome = true → s.token.recovery ≠ .ranOut → exec .sweepTimerExpiry s
        = .next { s with token := { s.token with
            inFlight := (s.token.inFlight.map (fun x =>
              { x with misses := if s.isReported x.key then 0 else x.misses + 1 })).filter (fun x => x.misses < 3),
            sweepTimer := some (sec 2) } })
      ∧ (∀ left, s.notices = [] → s.token.recovery = .running left → exec .recoveryTimerExpiry s
        = .next { s with token := if s.noBatchReported then { s.token with
            state := .held, epoch := s.token.epoch + 1, turns := 0, inFlight := [], recovery := .stopped }
          else { s.token with recovery := .ranOut } })

/-- A TOKEN_OFFER is taken or declined by the tests of R147 in their order, and under a stop declined (R44; log entry
44). At a station where no batch could be admitted, with room in the queue: a TOKEN_OFFER is declined from the
station's own address; answered TAKE again where the token is HELD with that epoch and the stop state is STOP_CLEAR;
else declined while the token is HELD or OFFERED, and for an epoch older than its own; taken in IN_SERVICE with
STOP_CLEAR, the token HELD with that epoch, turn count 0, list empty; else declined. The answer carries the tag and
the epoch of the offer. That a repeat under a stop, which step 1 of R147 would answer TAKE and R44 forbids to, is
declined by step 2 is the model's choice, log entry 44. -/
def Obligations.TokenOffered : Prop :=
  ∀ (s : State) (src dst : Addr) (p : List Byte), s.accepts .tokenOffer src dst p = true → s.room 1 = true →
    s.shutToEntry = true →
    let a := s.after .tokenOffer src
    let e := BitVec.ofNat 14 (be16 p 1)
    let reply := fun (k : Kind) => a.queued .approach k src (byte (byteAt p 0) :: bytes16 (be16 p 1))
    exec (.tokenOffer src dst p) s = .next
      (if src = s.ownAddr then reply .tokenDecline
       else if s.token.state = .held ∧ s.token.epoch = e ∧ s.ctl.stop = .stopClear then reply .tokenTake
       else if s.token.state = .held ∨ s.token.state = .offered then reply .tokenDecline
       else if e ≠ s.token.epoch ∧ epochNewer e s.token.epoch = false then reply .tokenDecline
       else if s.ctl.mode = .inService ∧ s.ctl.stop = .stopClear then
         { reply .tokenTake with token := { s.token with
             state := .held, epoch := e, turns := 0, inFlight := [], offer := none, recovery := .stopped } }
       else reply .tokenDecline)

/-- A matching TOKEN_TAKE hands the token over, a TOKEN_DECLINE keeps it. At a station where no batch could be
admitted, with no request waiting for an entry: a matching TOKEN_TAKE with the epoch offered makes the OFFERED token
ABSENT, turn count 0, and the recovery timer runs exactly while the other end is unheld; with another epoch the token
is HELD again, as after a matching TOKEN_DECLINE; the entry ends; one that matches nothing changes nothing. That the
end of an earlier offer counts as the outcome of the present one, and that the clash mark stands as it was when the
token goes over, are the model's choices, log entries 59 and 60. -/
def Obligations.TokenReplies : Prop :=
  ∀ (s : State) (src dst : Addr) (p : List Byte), s.shutToEntry = true → s.link.requests = [] →
    (s.accepts .tokenTake src dst p = true →
        let a := s.after .tokenTake src
        exec (.tokenTake src dst p) s = .next (match s.matchReply .tokenTake src (byteAt p 0) with
          | none => a
          | some e => { a.without e.tag with token := (
              if s.token.state ≠ .offered then s.token
              else if s.token.offer = some (BitVec.ofNat 14 (be16 p 1)) then { s.token with
                state := .absent, turns := 0, offer := none,
                recovery := if s.otherUnheld then
                    (if s.token.recovery = .stopped then .running (sec s.cfg.recoveryDelay) else s.token.recovery)
                  else .stopped }
              else { s.token with state := .held, offer := none }) }))
      ∧ (s.accepts .tokenDecline src dst p = true →
        let a := s.after .tokenDecline src
        exec (.tokenDecline src dst p) s = .next (match s.matchReply .tokenDecline src (byteAt p 0) with
          | none => a
          | some e => { a.without e.tag with token :=
              if s.token.state = .offered then { s.token with state := .held, offer := none } else s.token }))

/-- VESSEL_SET, VESSEL_DEL and VESSEL_INFO keep the vessel table. A VESSEL_SET makes or overwrites a STATIC entry with
its fields, where R167 places it, or is refused NO_SPACE with tag 0; a VESSEL_DEL empties the slot of its
registration, and without an entry changes nothing; their registration is widened by the sender's slot. A matching
VESSEL_INFO learns its entry as LEARNED unless a STATIC one stands, and ends its entry of the pending-reply table;
where the chamber is not EMPTY and the answer neither bars nor outgrows the capacity, it makes the UNRESOLVED vessel
READY and changes nothing else (a further query for it that waits is left, log entry 61). One that matches nothing
changes nothing. -/
def Obligations.VesselFrames : Prop :=
  ∀ (s : State) (dst : Addr) (p : List Byte),
    (s.accepts .vesselSet deskAddr dst p = true → s.room 1 = true →
        let a := s.after .vesselSet deskAddr
        let v := vesselOf p 0 ((s.widenSlot deskAddr).upper true) true s.clockNow
        exec (.vesselSet deskAddr dst p) s = .next
          (match (s.vessels.find v.registration).or (s.vessels.placeFor v.registration s.clockNow s.cfg.agePeriod) with
            | some x => { a with vessels := s.vessels.put x (some v) }
            | none => if dst = broadcastAddr then a
                else a.queued .link .refuse deskAddr [byte 5, byte Kind.vesselSet.code, byte 0]))
      ∧ (s.accepts .vesselDel deskAddr dst p = true → exec (.vesselDel deskAddr dst p) s = .next
        (match s.vessels.find (widened ((s.widenSlot deskAddr).upper true) (be16 p 0)) with
          | some x => { s.after .vesselDel deskAddr with vessels := s.vessels.put x none }
          | none => s.after .vesselDel deskAddr))
      ∧ (s.accepts .vesselInfo deskAddr dst p = true →
        let a := s.after .vesselInfo deskAddr
        let v := vesselOf p 1 ((s.widenSlot deskAddr).upper true) false s.clockNow
        let learned := match s.vessels.find v.registration with
          | some x => if (s.vessels.at x).any Vessel.static then s.vessels else s.vessels.put x (some v)
          | none => match s.vessels.placeFor v.registration s.clockNow s.cfg.agePeriod with
            | some x => s.vessels.put x (some v)
            | none => s.vessels
        (s.matchReply .vesselInfo deskAddr (byteAt p 0) = none → exec (.vesselInfo deskAddr dst p) s = .next a)
          ∧ (∀ e, s.matchReply .vesselInfo deskAddr (byteAt p 0) = some e →
            (∃ t, exec (.vesselInfo deskAddr dst p) s = .next t ∧ t.still = { a.still with vessels := learned })
              ∧ (s.link.requests = [] → s.chamber.occupancy ≠ .empty → v.barred = false →
                v.lengthClass ≤ s.cfg.capacity → exec (.vesselInfo deskAddr dst p) s
                  = .next { a.without e.tag with vessels := learned, approach := { s.approach with
                      queue := s.approach.queue.map (fun q => if q.registration = v.registration ∧ q.ready = false then
                        { q with ready := true, cls := v.cls, group := v.group, account := v.account,
                                 lengthClass := v.lengthClass, resolution := none } else q) } })))

/-- TIME sets the clock, and the minute timer advances it; each is followed by the ageing pass. A TIME sets day,
minute and "time known" and starts the minute timer at 60 s; the first one gives its time to every entry whose last
seen is unknown; then LEARNED entries older than the age period leave the table. While the time is known the minute
timer's end advances the minute, 1439 being followed by 0 of the next day and day 65535 by day 0, and makes the ageing
pass. Nothing else changes. -/
def Obligations.ClockSet : Prop :=
  ∀ s : State,
    let aged := fun (now : BitVec 16 × Nat) (t : VesselTable) => ({
      home := t.home.map (ageKeeps (some now) s.cfg.agePeriod),
      overflow := t.overflow.map (ageKeeps (some now) s.cfg.agePeriod) } : VesselTable)
    (∀ (dst : Addr) (p : List Byte), s.accepts .time deskAddr dst p = true →
        let now := (BitVec.ofNat 16 (be16 p 0), be16 p 2)
        let seen := fun (t : VesselTable) => if s.tariff.known then t else ({
          home := t.home.map (seenFirst (some now)), overflow := t.overflow.map (seenFirst (some now)) } : VesselTable)
        exec (.time deskAddr dst p) s = .next { s.after .time deskAddr with
          tariff := { s.tariff with day := now.1, minute := now.2, known := true, minuteTimer := some (sec 60) },
          vessels := aged now (seen s.vessels) })
      ∧ (s.notices = [] → s.tariff.known = true → s.tariff.minuteTimer.isSome = true →
        let now := if s.tariff.minute = 1439 then (s.tariff.day + 1, 0) else (s.tariff.day, s.tariff.minute + 1)
        exec .minuteTimerExpiry s = .next { s with
          tariff := { s.tariff with day := now.1, minute := now.2, minuteTimer := some (sec 60) },
          vessels := aged now s.vessels })

/-- RATE_SET stages one amount, RATE_COMMIT copies a group's four or all 32, and prices follow the active table. In
every mode from the end of LOADING except UNCONFIGURED, and at every station: a RATE_SET writes its 16-bit amount into
the staged table at its group and band and nothing else; a RATE_COMMIT copies its group's four staged amounts, or with
ALL (8) all 32, into the active table and nothing else; neither is answered. With a field out of range or a wrong
length either is refused BAD_FIELD with tag 0 (not answered when sent to all), and beyond the use of the sender's
widen slot changes nothing. In UNCONFIGURED either is refused BUSY when addressed to the station. A CHAMBER line of a
class other than EXEMPT is priced from the active table at its group and the band. -/
def Obligations.RatesSet : Prop :=
  ∀ (s : State) (dst : Addr) (p : List Byte), s.follows deskAddr = true → s.isTaken dst = true →
    let refused := fun (x : State) (reason : Nat) (k : Kind) => if dst = broadcastAddr then x
      else x.queued .link .refuse deskAddr [byte reason, byte k.code, byte 0]
    (s.ctl.mode ≠ .unconfigured → p.length = 3 → exec (.rateSet deskAddr dst p) s
        = .next { s.after .rateSet deskAddr with tariff := { s.tariff with
            staged := s.tariff.staged.set (rateIdx (byteAt p 0 / 32) (byteAt p 0 / 8 % 4)) (BitVec.ofNat 16 (be16 p 1)) } })
      ∧ (s.ctl.mode ≠ .unconfigured → p.length = 1 → byteAt p 0 < 8 → ∃ active, exec (.rateCommit deskAddr dst p) s
          = .next { s.after .rateCommit deskAddr with tariff := { s.tariff with active := active } }
        ∧ (∀ b, b < 4 → active[rateIdx (byteAt p 0) b] = s.tariff.staged[rateIdx (byteAt p 0) b])
        ∧ (∀ g b, g < 8 → b < 4 → g ≠ byteAt p 0 → active[rateIdx g b] = s.tariff.active[rateIdx g b]))
      ∧ (s.ctl.mode ≠ .unconfigured → p.length = 1 → byteAt p 0 = 8 → exec (.rateCommit deskAddr dst p) s
          = .next { s.after .rateCommit deskAddr with tariff := { s.tariff with active := s.tariff.staged } })
      ∧ (s.ctl.mode ≠ .unconfigured → s.room 1 = true → p.length ≠ 3 → exec (.rateSet deskAddr dst p) s
          = .next (refused (s.after .rateSet deskAddr) 3 .rateSet))
      ∧ (s.ctl.mode ≠ .unconfigured → s.room 1 = true → (p.length ≠ 1 ∨ 8 < byteAt p 0) →
        exec (.rateCommit deskAddr dst p) s = .next (refused (s.after .rateCommit deskAddr) 3 .rateCommit))
      ∧ (s.ctl.mode = .unconfigured → s.room 1 = true →
        exec (.rateSet deskAddr dst p) s = .next (refused (s.noted deskAddr) 4 .rateSet)
          ∧ exec (.rateCommit deskAddr dst p) s = .next (refused (s.noted deskAddr) 4 .rateCommit))
      ∧ (∀ c g len, c ≠ .exempt → g < 8 → len ≤ 8 →
        (s.priceNow .chamber c g len).toNat = s.tariff.active[rateIdx g s.bandNow].toNat * len)

/-- The band of a minute follows the three boundary minutes, and is 0 while the time is unknown. A configuration
record that passes has boundary minutes below 1440 in rising order. With the time known the band is 0 for a minute
below b1, 1 from b1 to below b2, 2 from b2 to below b3, and 3 from b3; with the time unknown it is 0. A line added to
a record, of any kind, at any position and beside any lines, carries the band and the price of the moment; it is
appended where the record takes it and, if it begins a page, a page can be had. -/
def Obligations.BandOfMinute : Prop :=
  (∀ (strap : BitVec 4) (bytes : List Byte) (c : Settings), checkRecord strap bytes = .passed c →
      c.band1 < c.band2 ∧ c.band2 < c.band3 ∧ c.band3 < 1440)
    ∧ (∀ s : State,
      (s.tariff.known = false → s.bandNow = 0)
        ∧ (s.tariff.known = true → s.cfg.band1 < s.cfg.band2 → s.cfg.band2 < s.cfg.band3 →
          (s.tariff.minute < s.cfg.band1 → s.bandNow = 0)
            ∧ (s.cfg.band1 ≤ s.tariff.minute → s.tariff.minute < s.cfg.band2 → s.bandNow = 1)
            ∧ (s.cfg.band2 ≤ s.tariff.minute → s.tariff.minute < s.cfg.band3 → s.bandNow = 2)
            ∧ (s.cfg.band3 ≤ s.tariff.minute → s.bandNow = 3))
        ∧ (∀ (kind : LineKind) (key : BatchKey) (pos : Nat) (r : Record), s.store.recordAt key pos = some r →
          let line : Line := { kind := kind, chamber := s.k, band := s.bandNow,
                               amount := s.priceNow kind r.cls r.group r.lengthClass }
          let after := (s.addLine kind key pos).store.recordAt key pos
          (∃ r', after = some r' ∧ (r'.lines = r.lines ∨ r'.lines = r.lines ++ [line]))
            ∧ ((kind = .chamber → r.hasChamber s.k = false) → (kind = .assist → r.assists < 4) →
              (r.lines.length % 4 ≠ 0 ∨ (s.store.alloc r.key (r.state = .receiving)).isSome = true) →
              after.map Record.lines = some (r.lines ++ [line]))))

/-- TOLL_READ streams the oldest closed record, TOLL_REMOVE removes it. A TOLL_READ is refused NOT_HELD where the log
is empty (with room in the queue); else the oldest record's segments, then TOLL_END with its log number and total, are
offered in order under its tag, in place of any stream before, of which what is not yet offered is not offered. A
TOLL_REMOVE naming the oldest record frees its pages, ends its stream, prompts the test of a crossing in the log wait
and offers TOLL_READY; any other is refused BAD_FIELD (not answered when sent to all) and changes nothing. -/
def Obligations.TollFrames : Prop :=
  ∀ (s : State) (dst : Addr) (p : List Byte),
    (s.accepts .tollRead deskAddr dst p = true →
        let a := s.after .tollRead deskAddr
        (s.store.log = [] → s.room 1 = true → exec (.tollRead deskAddr dst p) s
            = .next (a.queued .link .refuse deskAddr [byte 6, byte Kind.tollRead.code, byte (byteAt p 0)]))
          ∧ (∀ r rest, s.store.log = r :: rest →
            let b := a.abandonRead
            exec (.tollRead deskAddr dst p) s = .next (finish s (State.readNext { b with
                link := { b.link with nextStream := b.link.nextStream + 1 },
                toll := { b.toll with
                  stream := some { number := b.link.nextStream, tag := byteAt p 0, logNumber := r.logNumber,
                                   total := r.total, segments := r.segments 1 } } }))))
      ∧ (s.accepts .tollRemove deskAddr dst p = true →
        let a := s.after .tollRemove deskAddr
        (∀ r rest, s.store.log = r :: rest → r.logNumber = be16 p 0 →
            let b := if s.toll.stream.any (fun x => x.logNumber = r.logNumber) then a.abandonRead else a
            exec (.tollRemove deskAddr dst p) s = .next (finish s (State.offerTollReady (State.emit .logWaitTest
                (State.setStore { b.store with free := b.store.free ++ r.pages, records := b.store.records.erase r } b)))))
          ∧ ((s.store.log.head?.all (fun r => r.logNumber ≠ be16 p 0)) = true → dst = broadcastAddr →
            exec (.tollRemove deskAddr dst p) s = .next a)
          ∧ ((s.store.log.head?.all (fun r => r.logNumber ≠ be16 p 0)) = true → dst ≠ broadcastAddr → s.room 1 = true →
            exec (.tollRemove deskAddr dst p) s
              = .next (a.queued .link .refuse deskAddr [byte 3, byte Kind.tollRemove.code, byte 0])))
      ∧ (s.toll.stream = none → s.abandonRead = s)

/-- FAULT_NOTE and FAULT_CLEAR keep the faulted mark of their sender's address. A FAULT_NOTE from another station sets
that address's mark for level FLIGHT and clears it for another; a FAULT_CLEAR clears it; from the desk or the
station's own address both change nothing. Of the tables that acting on a notice never changes, nothing else has
changed; a mark set on another address than the next upstream station's, or where no CROSS_ASK waits unsent (R102
withholds one), and what leaves the mark as it was, changes nothing else at all. -/
def Obligations.FaultNotes : Prop :=
  ∀ (s : State) (src dst : Addr) (p : List Byte),
    let marked := fun (v : Bool) => s.presence.peers.set (peerIdx src.toNat)
      { s.presence.peers[peerIdx src.toNat] with faulted := v }
    (s.accepts .faultNote src dst p = true →
        let a := s.after .faultNote src
        let v := decide (byteAt p 1 / 64 = 2)
        (src = deskAddr ∨ src = s.ownAddr → exec (.faultNote src dst p) s = .next a)
          ∧ (src ≠ deskAddr → src ≠ s.ownAddr → ∃ t, exec (.faultNote src dst p) s = .next t
            ∧ t.still = { a.still with peers := marked v }
            ∧ ((v = true ∧ ((peerIdx src.toNat).val ≠ s.k + 1 ∨ s.link.unsentAsk .crossAsk = false))
                ∨ s.presence.peers[peerIdx src.toNat].faulted = v →
                t = { a with presence := { a.presence with peers := marked v } })))
      ∧ (s.accepts .faultClear src dst p = true →
        let a := s.after .faultClear src
        (src = deskAddr ∨ src = s.ownAddr → exec (.faultClear src dst p) s = .next a)
          ∧ (src ≠ deskAddr → src ≠ s.ownAddr → ∃ t, exec (.faultClear src dst p) s = .next t
            ∧ t.still = { a.still with peers := marked false }
            ∧ (s.presence.peers[peerIdx src.toNat].faulted = false → t = a)))

/-- CLEAR in HELD clears the record and restores the prior mode; elsewhere it is refused NOT_HELD. With room in the
queue: a CLEAR sent to all is discarded; in a mode other than HELD it is refused NOT_HELD with tag 0. In HELD the acts
for the recorded cause are made, the record clears, and unless a DESK cause is the highest pending one, which is then
recorded with the same prior mode, the prior mode is restored and the pending causes are taken. With nothing pending,
no motion held, both units quiet, nobody waiting, no batch ready to go on or to be admitted, the key at AUTO and the
prior mode IN_SERVICE or WAKING, only the record and the mode have changed. -/
def Obligations.ClearTaken : Prop :=
  ∀ (s : State) (dst : Addr) (p : List Byte), s.accepts .clear deskAddr dst p = true →
    let a := s.after .clear deskAddr
    (dst = broadcastAddr → exec (.clear deskAddr dst p) s = .next a)
      ∧ (dst ≠ broadcastAddr → s.ctl.mode ≠ .held → s.room 1 = true →
        exec (.clear deskAddr dst p) s = .next (a.queued .link .refuse deskAddr [byte 6, byte Kind.clear.code, byte 0]))
      ∧ (∀ r, dst ≠ broadcastAddr → s.ctl.mode = .held → s.fault.record = some r →
        let acted := if r.cause = .claimOrphaned then a.clearOrphan
          else if r.cause = .transferFail then a.newSeries else a
        let b := { acted with fault := { acted.fault with record := none } }
        (∀ x, b.fault.highest = some x → x.level = .desk →
            exec (.clear deskAddr dst p) s = .next (finish s ((b.recordPending x r.prior).emit .alarmWaitTest)))
          ∧ (b.fault.highest.all (fun x => x.level ≠ .desk) = true → exec (.clear deskAddr dst p) s
            = .next (finish s ((b.setMode r.prior).emits [.takePending, .alarmWaitTest, .admissionTest])))
          ∧ (s.fault.pendingSet = [] → r.cause ≠ .claimOrphaned → r.cause ≠ .transferFail →
            (r.prior = .inService ∨ r.prior = .waking) → s.drive.restful = true → s.unitsQuiet = true →
            s.chamber.waiter = .none → s.keepsBatch = true → s.shutToEntry = true → s.pins.key = .auto →
            s.presence.clash = false → s.presence.interval = .normal →
            exec (.clear deskAddr dst p) s = .next { a with
              ctl := { s.ctl with mode := r.prior }, fault := { s.fault with record := none } }))

/-- The head frame goes on the line, is sent, or collides and waits by R13, or is dropped at its 12th collision. With
nothing to act on: HEAD_FRAME_START puts the frame in the head position on the line, the WIDEN of its pair first; on
the line stand the bytes of R1 with this station's strap address as source. FRAME_SENT after a WIDEN starts that
frame's 50 ms; after a frame takes it from the queue, for a request starting its 500 ms deadline, and what waits is
placed. A collision other than the 12th adds an attempt and waits a number of slots below 2 to the lesser of the
attempts and 7, a free value (log entry 8); the 12th drops the frame, its block is told, and LINK_DEGRADED is raised.
Without a frame on the line the last two change nothing. That the reply deadline alone starts at the last bit, a WIDEN
due at a collision, and the code LINK_DEGRADED carries are inferences (log entries 10, 15, 17). -/
def Obligations.LineEvents : Prop :=
  ∀ s : State, s.notices = [] →
    (∀ f, s.ctl.mode ≠ .loading → s.link.onLine = false → s.link.backoff = none → s.link.head? = some f →
        exec .headFrameStart s
          = .next { s with link := { s.link with onLine := true, lineWiden := f.widenNext, headId := some f.id } })
      ∧ (s.ctl.mode = .loading ∨ s.link.onLine = true ∨ s.link.backoff.isSome = true ∨ s.link.head? = none →
        exec .headFrameStart s = .next s)
      ∧ (s.link.lineFrame? = none → s.lineBytes = [] ∧ exec .frameSent s = .next s ∧ exec .collision s = .next s)
      ∧ (∀ f, s.link.lineFrame? = some f →
        let off := { s.link with onLine := false, lineWiden := false, attempts := 0 }
        (s.lineBytes = if s.link.lineWiden then frameBytes f.dst s.ownAddr Kind.widen.code (bytes16 (f.upper.getD 0).toNat)
            else frameBytes f.dst s.ownAddr f.kind.code f.payload)
          ∧ (s.link.lineWiden = true → exec .frameSent s = .next { s with
            link := Link.refreshHead (off.mapFrame f.id (fun g => { g with widenAge := some 0, widenDue := false })) })
          ∧ (s.link.lineWiden = false → s.link.waiting = [] → s.link.backlog = [] →
            exec .frameSent s = .next { s with link := Link.refreshHead { off.remove f.id with
              entries := if f.kind.isRequest then
                  s.link.entries.map (fun e => if e.tag = f.tag then { e with deadline := some (ms 500) } else e)
                else s.link.entries } })
          ∧ (s.link.lineWiden = false → exec .frameSent s
            = .next (finish s (State.fillQueue (State.onSent f { s with link := Link.refreshHead (off.remove f.id) }))))
          ∧ (s.link.attempts + 1 ≠ 12 → ¬ (f.widenDue = true ∧ s.link.lineWiden = false) →
            ∃ r, r < 2 ^ min (s.link.attempts + 1) 7 ∧ exec .collision s = .next { s with
              draws := s.draws + 1,
              link := Link.refreshHead { s.link with
                onLine := false, lineWiden := false,
                attempts := s.link.attempts + 1, backoff := some (backoffSlots r) } })
          ∧ (s.link.attempts + 1 ≠ 12 → f.widenDue = true → s.link.lineWiden = false → exec .collision s
            = .next { s with link := { off with backoff := none } })
          ∧ (s.link.attempts + 1 = 12 → exec .collision s = .next (finish s
            (State.emit (.raise .linkDegraded
                (BitVec.ofNat 32 (if s.link.lineWiden then Kind.widen.code else f.kind.code))
                (BitVec.ofNat 32 f.dst.toNat) .none)
              (State.serveAll (State.fillQueue (State.removeUnsent f
                { s with link := Link.addHold f { off with backoff := none } })))))))

/-- The timers of the link, the beacon timer and the flasher; the approach signal and the panel lamps. With nothing to
act on: the end of the backoff wait only ends it; of a 100 ms hold, it goes and the head position is taken anew; of a
widen slot's 100 ms, the slot is EMPTY; of a WIDEN's 50 ms, its WIDEN is due again, with attempt count 0 and no
backoff wait (log entry 15) unless a frame is on the line. The beacon timer's end starts it again at the interval in
use and offers a beacon (no token to offer, room in the queue). The flasher changes halves every 0.5 s. Nothing else
changes. The approach signal of an end station shows the first aspect of the table of R134 that holds, with the lamps
of R198; that of an inner station is not driven. The LOCAL lamp flashes in PENDING and is steady in WORKING and
CLOSING; the "close elements" lamp is lit in CLOSING, the "local refused" lamp in REFUSED. -/
def Obligations.LinkTimers : Prop :=
  (∀ s : State, s.notices = [] →
    exec .backoffExpiry s = .next { s with link := { s.link with backoff := none } }
      ∧ (∀ dst, exec (.widenHoldExpiry dst) s = .next { s with
          link := Link.refreshHead { s.link with holds := s.link.holds.filter (fun h => h.dst ≠ dst) } })
      ∧ (∀ q, exec (.widenSlotExpiry q) s
          = .next { s with link := { s.link with widenSlots := s.link.widenSlots.set (partyIdx q) .empty } })
      ∧ (∀ f, s.link.txq.find? (fun f => f.locked && !f.widenDue) = some f → exec .widenResendExpiry s
          = .next { s with link := { s.link with
              txq := s.link.txq.map (fun g => if g.id = f.id then { g with widenDue := true } else g),
              attempts := if s.link.onLine then s.link.attempts else 0,
              backoff := if s.link.onLine then s.link.backoff else none } })
      ∧ (s.presence.beaconTimer.isSome = true → s.mayOffer = false → s.room 1 = true → exec .beaconTimerExpiry s
          = .next (State.offerBeacon
              { s with presence := { s.presence with beaconTimer := some s.presence.interval.span } }))
      ∧ (s.flasherTimer.isSome = true →
        exec .flasherToggle s = .next { s with flasherOn := !s.flasherOn, flasherTimer := some (ms 500) }))
    ∧ (∀ s : State,
      let b := s.unit s.approachUnit
      let shows := fun (red green : Bool) => s.signalRed = red ∧ s.signalGreen = green
      let entry := s.entryCrossing.isSome = true
      (if s.ctl.mode = .loading ∨ (s.ctl.mode = .unconfigured ∧ s.k ≠ 0) then shows false false
        else if s.ctl.mode = .unconfigured then shows s.flasherOn false
        else if s.isEnd = false then s.approachSignal = none ∧ shows false false
        else if s.ctl.mode = .resting then shows s.flasherOn false
        else if entry ∧ s.entryStep = some .transit ∧ b.hold = .none ∧ b.frozen = false
            ∧ s.element (gateOf s.approachUnit) = .opened ∧ s.ctl.mode = .inService ∧ s.ctl.stop = .stopClear
            ∧ s.token.state = .held then shows false true
        else if s.approach.batch.isSome = true ∧ entry
            ∧ s.entryStep ∈ [none, some .reserve, some .claim, some .equalize, some .openGate] then shows true true
        else if s.token.state = .absent ∧ s.approach.batch = none then shows s.flasherOn false
        else shows true false)
      ∧ (s.ctl.localState = .pending → s.localLamp = s.flasherOn)
      ∧ (s.ctl.localState = .working ∨ s.ctl.localState = .closing → s.localLamp = true)
      ∧ (s.ctl.localState = .auto ∨ s.ctl.localState = .refused → s.localLamp = false)
      ∧ (s.closeLamp = true ↔ s.ctl.localState = .closing) ∧ (s.refusedLamp = true ↔ s.ctl.localState = .refused))

/-- The panel: the key begins local working, the selector is only read, an element key drives its element. The
selector changes its pin alone. A turn of the key leaves the tables that acting on a notice never changes as they
were, its pin apart. At a station with no station below that is not the head, in IN_SERVICE, with the register FREE
and without a waiter, both units quiet and no motion held, turning the key to LOCAL gives mode LOCAL, local state
WORKING, the own chamber held for local working, and nothing else. In LOCAL an element key of the local boundary
drives its element with its whole allowance where the arbiter is at rest; elsewhere an element key changes nothing. -/
def Obligations.PanelInputs : Prop :=
  ∀ s : State, s.notices = [] →
    (∀ q, exec (.selectorChange q) s = .next { s with pins := { s.pins with selector := q } })
      ∧ (∀ q, ∃ t, exec (.keySwitchTurn q) s = .next t ∧ t.still = { s.still with pins := { s.pins with key := q } })
      ∧ (∀ q, q = s.pins.key ∨ s.works = false →
        exec (.keySwitchTurn q) s = .next { s with pins := { s.pins with key := q } })
      ∧ (s.pins.key = .auto → s.ctl.mode = .inService → s.ctl.localState = .auto → s.hasLower = false → s.isHead = false →
        s.chamber.holder = .free → s.chamber.waiter = .none → s.unitsQuiet = true → s.drive.restful = true →
        s.presence.clash = false → s.presence.interval = .normal → exec (.keySwitchTurn .localPos) s = .next { s with
          pins := { s.pins with key := .localPos },
          ctl := { s.ctl with mode := .localMode, localState := .working, localUnit := .lower, localPhase := .idle,
                              notedKey := if s.chamber.occupancy = .occupied then s.chamber.key else 0 },
          chamber := { s.chamber with holder := .self { claimant := .lower, purpose := .localWork, key := 0 } } })
      ∧ (∀ e t, s.ctl.mode = .localMode → elementUnit e = s.ctl.localUnit → s.ctl.localState = .working →
        s.ctl.stop = .stopClear → s.ctl.pumpReady = true → s.drive.restful = true → s.element e ≠ restState t →
        (t = .toOpen → s.element e ≠ .failed ∧ s.claimsHeld (elementUnit e) = true) →
        exec (.elementKeyPress e t) s = .next { s with
        drive := { s.drive with
          elements := s.drive.elements.set (elementIdx e) (drivenState t),
          slots := s.drive.slots.set 1 (some {
            element := e, target := t, phase := .running,
            allowance := sec (if elementIsGate e then s.cfg.gateLimit else s.cfg.sluiceLimit) }) } })
      ∧ (∀ e t, s.ctl.mode ≠ .localMode ∨ elementUnit e ≠ s.ctl.localUnit → exec (.elementKeyPress e t) s = .next s)

/-- A reading sets its level and the alarm state, entry into HIGH or LOW raises LEVEL_ALARM; silence makes the level
UNKNOWN, and 5 s of UNKNOWN raise LEVEL_SENSOR. A valid reading of 0 to 2000 cm of a line the station reads makes that level VALID with the value, 1 s to stale, and for the
chamber gives the alarm state by the limits; any other makes the level UNKNOWN, and its loss timer starts at 5 s where
it was VALID; 1 s of silence does the same. The loss timer's end raises LEVEL_SENSOR with the last valid value. Of the
tables that acting on a notice never changes, nothing else has changed. A chamber reading equal to the level, the
value last fed and within the limits changes nothing but the timers; a line the station does not read changes nothing.
A chamber reading that enters HIGH or LOW wakes a RESTING station, places the lower sluice in the safety close set in
class LOWER, and at the head station the head sluice, where the others send ALARM_CLOSE to station k+1; it hands the
Fault Unit LEVEL_ALARM with the level read, the limit crossed and boundary NONE. One that returns to NORMAL or leaves the
alarm state as it was raises nothing. The feed or the test of the waiter follows. -/
def Obligations.LevelReadings : Prop :=
  ∀ s : State,
    let put := fun (line : LevelLine) (x : Level) (v : StillView) => match line with
      | .chamber => { v with level := x }
      | .outer => { v with outer := x }
    let unknown := fun (x : Level) => { x with
      valid := false, staleTimer := none,
      lossTimer := if x.valid then some (sec 5) else x.lossTimer }
    let read := fun (v : Nat) => ({
      valid := true, value := v, lastValid := v, staleTimer := some (sec 1),
      lossTimer := none } : Level)
    (∀ line (v : BitVec 16), s.works = true → s.readsLine line = true → v.toNat ≤ 2000 →
        ∃ t, exec (.levelReading line v true) s = .next t ∧ t.still
          = { put line (read v.toNat) s.still with alarm := if line = .chamber then s.alarmOf v.toNat else s.chamber.alarm })
      ∧ (∀ line (v : BitVec 16) valid, s.works = true → s.readsLine line = true → (valid = false ∨ 2000 < v.toNat) →
        ∃ t, exec (.levelReading line v valid) s = .next t ∧ t.still = put line (unknown (s.levelOf line)) s.still)
      ∧ (∀ (v : BitVec 16), s.notices = [] → s.works = true → v.toNat ≤ 2000 → s.chamber.level.valid = true →
        s.chamber.level.value = v.toNat → s.chamber.lastFed = v.toNat → s.alarmOf v.toNat = s.chamber.alarm →
        exec (.levelReading .chamber v true) s = .next { s with chamber := { s.chamber with level := read v.toNat } })
      ∧ (∀ (v : BitVec 16), s.works = true → v.toNat ≤ 2000 →
        let alarm : AlarmState := if s.cfg.overflow < v.toNat then .high else if v.toNat < s.cfg.floor then .low else .normal
        let x := { s with chamber := { s.chamber with level := read v.toNat, alarm := alarm } }
        let closed := (x.wake .alarm).placeSafety .lower
        let shut := if s.isHead = true then closed.placeSafety .head
          else closed.send .chamber .alarmClose (stationAddr (s.k + 1)) []
        let raised := fun (limit : Nat) => State.emits
          [.raise .levelAlarm (BitVec.ofNat 32 v.toNat) (BitVec.ofNat 32 limit) .none, .alarmWaitTest] shut
        let tested := if alarm = s.chamber.alarm then x
          else match alarm with
            | .normal => x.emit .alarmWaitTest
            | .high => raised s.cfg.overflow
            | .low => raised s.cfg.floor
        let fed := if s.chamber.level.valid = true then tested.feedOnReading
          else if tested.chamber.holder.kind = .free then tested.testWaiter else tested.sendFeed
        exec (.levelReading .chamber v true) s = .next (finish s
          (if s.chamber.level.valid = true ∧ s.chamber.level.value = v.toNat then fed else fed.emit .levelsChanged)))
      ∧ (∀ line v valid, s.notices = [] → s.works = false ∨ s.readsLine line = false →
        exec (.levelReading line v valid) s = .next s)
      ∧ (∀ line, (s.levelOf line).valid = true → ∃ t, exec (.levelStaleTimeout line) s = .next t
        ∧ t.still = put line (unknown (s.levelOf line)) s.still)
      ∧ (∀ line, (s.levelOf line).lossTimer.isSome = true → ∃ t, exec (.levelLossExpiry line) s = .next t
        ∧ t.still = put line { s.levelOf line with lossTimer := none } s.still
        ∧ t = finish s (State.emit (s.sensorRaise line) (s.setLevel line { s.levelOf line with lossTimer := none })))

/-- End switches and the travel allowance are judged by R81, R82 and R84; permission, pump and drive outputs. A switch
change before LOADING ends, in UNCONFIGURED, of the same pattern, or of an element the station does not drive changes
the pin alone (the last by log entry 27). A driven element found BOTH becomes FAILED: its motion ends "failed" and
POSITION_CONFLICT is raised; at its target end alone it is CLOSED or OPEN and its motion complete; else the motion
goes on. An element not driven: at the end of its frozen or stacked motion that is complete (of two such motions the
first in the order of sources alone, the model's choice, log entry 58); a FAILED one becomes CLOSED at CLOSED_ONLY and
else stays; any other becomes FAILED, its motions removed "failed". A completed safety close leaves its set and
cancels the other motions of its sluice. A PANEL motion alone that completes open leaves the arbiter empty and nothing
else changed. The allowance running out halts the element (one that was FAILED before too, log entry 66) and raises
MOTION_TIMEOUT; with none driving it changes nothing (log entry 2). The permission is the table of R42; the pump runs
in WAKING, IN_SERVICE, LOCAL and HELD, and with it a drive in OPENING or CLOSING. Which of two bullets of R82 takes a
FAILED element with a stacked opening, and that R82 removes every motion, are log entries 48 and 46. -/
def Obligations.SwitchesJudged : Prop :=
  ∀ s : State,
    let pinned := fun (e : Element) (x : Switches) => { s.pins with switches := s.pins.switches.set (elementIdx e) x }
    (∀ e c o, s.notices = [] → s.switchesOf e = ⟨c, o⟩ ∨ s.works = false ∨ s.drives e = false →
        exec (.switchChange e c o) s = .next { s with pins := pinned e ⟨c, o⟩ })
      ∧ (∀ e c o, ∃ t, exec (.switchChange e c o) s = .next t ∧ t.still = { s.still with pins := pinned e ⟨c, o⟩ })
      ∧ (∀ e c o, s.works = true → s.drives e = true → s.switchesOf e ≠ ⟨c, o⟩ →
        let x := { s with pins := pinned e ⟨c, o⟩ }
        let answers := fun (t : State) => exec (.switchChange e c o) s = .next (finish s t)
        let shows := fun (t : Target) => match t with
          | .toClosed => c = true ∧ o = false
          | .toOpen => c = false ∧ o = true
        let conflict : Notice := .raise .positionConflict (BitVec.ofNat 32 (elementCode e))
          (BitVec.ofNat 32 ((if c then 1 else 0) + (if o then 2 else 0))) (Bound.ofUnit (elementUnit e))
        (∀ (src : Source) (m : Motion), s.drivenBy e = some (src, m) → m.element = e →
            (c = true → o = true → src ≠ .safety → answers ((((x.setElement e .failed).clearSlot src).tell src m .failed).emits
                [conflict, .grantDecision]))
              ∧ (c = true → o = true → src = .safety → answers (State.emits [conflict, .grantDecision] (State.pointSafety 4
                  (State.emit .alarmWaitTest (State.leaveSet e ((x.setElement e .failed).clearSlot .safety))))))
              ∧ (shows m.target → src ≠ .safety → answers (State.emit .grantDecision
                  (((x.reachEnd e m.target).clearSlot src).tell src m .complete)))
              ∧ (shows m.target → src = .safety → answers (State.emit .grantDecision (State.pointSafety 4
                  (State.safetyDone e ((x.reachEnd e m.target).clearSlot .safety)))))
              ∧ (¬ (c = true ∧ o = true) → ¬ shows m.target → answers x))
          ∧ (s.drivenBy e = none →
            (∀ (src : Source) (m : Motion), x.restedMotion e = some (src, m) →
                answers ((x.reachEnd e m.target).endMotion src m .complete))
              ∧ (x.restedMotion e = none → s.element e = .failed →
                answers (if c = true ∧ o = false then x.reachClosed e else x))
              ∧ (x.restedMotion e = none → s.element e ≠ .failed →
                let y := State.emit conflict ((x.setElement e .failed).failMotions e)
                answers (if s.hasMotion e then y.emit .grantDecision else y))))
      ∧ (∀ m : Motion, s.notices = [] → s.works = true → s.drives m.element = true →
        s.switchesOf m.element ≠ ⟨false, true⟩ → m.phase = .running → m.target = .toOpen →
        s.drive.slots = #v[none, some m, none, none] → s.drive.stack = [] → s.drive.safetySet = [] →
        exec (.switchChange m.element false true) s = .next { s with
          pins := pinned m.element ⟨false, true⟩,
          drive := { s.drive with elements := s.drive.elements.set (elementIdx m.element) .opened,
                                  slots := Vector.replicate 4 none } })
      ∧ (∀ (src : Source) (m : Motion), src ≠ .safety → s.runningSource = some src → s.slot src = some m →
        m.phase = .running → exec .travelAllowanceExpiry s = .next (finish s
          ((((s.setElement m.element .halted).clearSlot src).tell src m .timedOut).emits
            [.raise .motionTimeout (BitVec.ofNat 32 (elementCode m.element)) (BitVec.ofNat 32 (targetCode m.target))
                (Bound.ofUnit (elementUnit m.element)), .grantDecision])))
      ∧ (s.notices = [] → s.runningSource = none → exec .travelAllowanceExpiry s = .next s)
      ∧ (∀ (src : Source) (t : Target), s.permits src t = true ↔ s.ctl.pumpReady = true
        ∧ (src = .safety ∧ (s.ctl.mode = .inService ∨ s.ctl.mode = .localMode ∨ s.ctl.mode = .held)
          ∨ (src = .seqHead ∨ src = .seqLower) ∧ s.ctl.mode = .inService ∧ s.ctl.stop = .stopClear
          ∨ src = .panel ∧ s.ctl.mode = .localMode ∧ s.ctl.stop = .stopClear
            ∧ (s.ctl.localState = .working ∨ s.ctl.localState = .closing ∧ t = .toClosed)))
      ∧ (s.pumpOutput = true ↔ s.ctl.mode = .waking ∨ s.ctl.mode = .inService ∨ s.ctl.mode = .localMode ∨ s.ctl.mode = .held)
      ∧ (∀ e, (s.openDrive e = true ↔ s.pumpOutput = true ∧ s.element e = .opening)
        ∧ (s.closeDrive e = true ↔ s.pumpOutput = true ∧ s.element e = .closing))

/-- The detector counts a crossing in TRANSIT and finds mismatches; the equalize and entry timers; the move lights. A
pulse in the crossing's direction below its vessel count adds one, a pulse back takes one off, and nothing else (the
count not complete with it). The pulse that completes the count, the crossing neither frozen nor held, ends TRANSIT:
the occupancy and hooks of R113, then CLOSE; of an ENTRY members 1 to the count are ENTERED and the rest NO_SHOW,
after a mismatch too (DEDUCED, log entry 22). A pulse above the vessel count raises the count, one back at count 0
leaves it; either gives the crossing hold RECOVERY_WAIT and then raises DETECTOR_MISMATCH with the values of R111. A
pulse with no crossing in TRANSIT raises it with 0 and the direction; one at a boundary the station has not, or while
it does not work, changes nothing (log entry 27). The equalize timer's end shuts the sluice by safety, holds the
crossing for its recovery and raises EQUALIZE_TIMEOUT with the two levels (log entry 32). The entry time limit's end
closes the entry with the vessels counted. Outside its step, or while the timers are paused, neither changes anything
(log entry 2). A move light shows GO on the source side of a crossing in TRANSIT with hold NONE under STOP_CLEAR, else
STOP; while the station does not work the lights show STOP, both gates', and are low from START until the straps are
read (log entry 54). -/
def Obligations.CrossingWatched : Prop :=
  ∀ (s : State) (u : UnitId), s.notices = [] →
    let b := s.unit u
    (∀ c, s.works = true → u ∈ s.units → b.active? = some c → b.step = some .transit → b.mismatch = false →
        (b.count + 1 < c.vessels → exec (.detectorPassage u c.direction) s
            = .next (s.modUnit u (fun b => { b with count := b.count + 1 })))
          ∧ (∀ d, d ≠ c.direction → 0 < b.count → b.count - 1 ≠ c.vessels → exec (.detectorPassage u d) s
            = .next (s.modUnit u (fun b => { b with count := b.count - 1 }))))
      ∧ (∀ c, s.works = true → u ∈ s.units → b.active? = some c → b.step = some .transit →
        let counted := fun (n : Nat) => s.modUnit u (fun b => { b with count := n })
        let mismatched := fun (n : Nat) (v1 v2 : Nat) => Host.Outcome.next (finish s (State.emit
          (.raise .detectorMismatch (BitVec.ofNat 32 v1) (BitVec.ofNat 32 v2) (Bound.ofUnit u))
          (s.modUnit u (fun b => { b with count := n, hold := .recoveryWait, wanted := none, mismatch := true }))))
        (b.count + 1 = c.vessels → b.frozen = false → b.hold = .none → b.reclaim = false →
            exec (.detectorPassage u c.direction) s = .next (finish s ((counted (b.count + 1)).endTransit u)))
          ∧ (c.vessels < b.count + 1 →
            exec (.detectorPassage u c.direction) s = mismatched (b.count + 1) (b.count + 1) c.vessels)
          ∧ (∀ d, d ≠ c.direction → b.count = 0 → exec (.detectorPassage u d) s = mismatched 0 0 (directionCode d)))
      ∧ (∀ c, b.active? = some c → b.step = some .transit →
        let h := match c.kind, c.direction with
          | .inner, .up => s.setOccupancy .occupied c.key
          | .inner, .down => s
          | .exit, _ => (s.closeBatch c.key).setOccupancy .empty 0
          | .entry, _ => ((s.entryRecords c.key b.count).entryMembers c.key b.count).setOccupancy
              (if b.count = 0 then .empty else .occupied) (if b.count = 0 then 0 else c.key)
        s.endTransit u = (h.modUnit u (h.entered .closeGate c)).emits [.stepDone u c.key .transit, .enterStep u])
      ∧ (∀ lowerSide, (s.showsGo u lowerSide = true ↔ ∃ c, b.active? = some c ∧ b.step = some .transit ∧ b.hold = .none
          ∧ b.frozen = false ∧ b.reclaim = false ∧ s.ctl.stop = .stopClear ∧ s.works = true
          ∧ (c.direction = .up ↔ lowerSide = true))
        ∧ (s.works = true → s.moveGreen u lowerSide = (decide (u ∈ s.units) && s.showsGo u lowerSide)
          ∧ s.moveRed u lowerSide = (decide (u ∈ s.units) && !s.showsGo u lowerSide))
        ∧ (s.works = false → s.moveGreen u lowerSide = false
          ∧ s.moveRed u lowerSide = !(decide (s.ctl.mode = .loading) && !s.loader.sampled && !s.loader.fromRestart)))
      ∧ (∀ d, s.works = true → u ∈ s.units → (b.active? = none ∨ b.step ≠ some .transit) →
        exec (.detectorPassage u d) s = .next (finish s (State.emit
          (.raise .detectorMismatch 0 (BitVec.ofNat 32 (directionCode d)) (Bound.ofUnit u)) s)))
      ∧ (∀ d, s.works = false ∨ u ∉ s.units → exec (.detectorPassage u d) s = .next s)
      ∧ (b.step = some .equalize → b.equalizeTimer.isSome = true → s.crossTimersRun u = true →
        exec (.equalizeTimerExpiry u) s = .next (finish s (State.emit
          (.raise .equalizeTimeout (BitVec.ofNat 32 ((s.upperLevel u).getD 0)) (BitVec.ofNat 32 ((s.lowerLevel u).getD 0))
            (Bound.ofUnit u))
          (State.setHold u .recoveryWait (State.placeSafety (unitClass u)
            (State.withdrawMotion u (sluiceOf u) .toClosed (State.withdrawMotion u (sluiceOf u) .toOpen
              (s.modUnit u (fun b => { b with equalizeTimer := none })))))))))
      ∧ (b.step ≠ some .equalize ∨ s.crossTimersRun u = false → exec (.equalizeTimerExpiry u) s = .next s)
      ∧ (b.acts .transit = true → b.entryTimer.isSome = true → s.crossTimersRun u = true →
        exec (.entryTimeLimitExpiry u) s = .next (finish s (State.endTransit u
          (s.modUnit u (fun b => { b with entryTimer := none }.mapActive (fun c => { c with vessels := b.count }))))))
      ∧ (b.step ≠ some .transit ∨ s.crossTimersRun u = false → exec (.entryTimeLimitExpiry u) s = .next s)

/-- CALL, CANCEL, the sending of an answer and the resolution timer keep the approach queue. At an end station from
the end of LOADING with fewer than 8 answers waiting (not RESTING; the chamber not EMPTY, so that nothing is
admitted): a CALL is answered CLOSED in UNCONFIGURED, QUEUE_FULL, DUPLICATE, BARRED or CLOSED by the tests of R122, or
the vessel joins the tail and is answered ACCEPTED with its position, READY from the table's entry (its last seen set)
or, the desk ABSENT, UNRESOLVED with 2 s to its default; a CANCEL takes a queued vessel out, ACCEPTED with position 0,
the order of the others kept, or is answered NOT_QUEUED. A sent answer leaves the answer queue. The resolution timer's
end defaults its entry. Records not read change nothing. A VESSEL_QUERY that waits for a vessel taken out or defaulted
is left to wait (log entry 61). -/
def Obligations.CallsTaken : Prop :=
  ∀ (s : State) (r : BitVec 32), s.notices = [] →
    let answered := fun (x : CallResult) (pos : Nat) (t : State) =>
      { t with approach := { t.approach with answers := t.approach.answers ++ [⟨r, x, pos⟩] } }
    let queued := s.approach.queue.any (fun e => e.registration = r)
    (∀ len, s.readsCall len = false → exec (.call r len) s = .next s ∧ exec (.cancel r len) s = .next s)
      ∧ (∀ len, s.readsCall len = true → s.ctl.mode = .unconfigured →
        exec (.call r len) s = .next (answered .closed 0 s) ∧ exec (.cancel r len) s = .next (answered .closed 0 s))
      ∧ (∀ len, s.readsCall len = true → s.ctl.mode ≠ .unconfigured → s.ctl.mode ≠ .resting →
        s.chamber.occupancy ≠ .empty →
        let joined := fun (e : QueueEntry) (t : State) => answered .accepted (s.approach.queue.length + 1)
          { t with approach := { s.approach with queue := s.approach.queue ++ [e],
                                                 nextOrder := s.approach.nextOrder + 1 } }
        let found := s.touchVessel r
        (12 ≤ s.approach.queue.length → exec (.call r len) s = .next (answered .queueFull 0 s))
          ∧ (s.approach.queue.length < 12 → (queued = true ∨ s.approach.batch.any (fun b => b.hasMember r) = true) →
            exec (.call r len) s = .next (answered .duplicate 0 s))
          ∧ (s.approach.queue.length < 12 → queued = false → s.approach.batch.any (fun b => b.hasMember r) = false →
            (∀ v, s.lookupVessel r = some v → exec (.call r len) s = .next
                (if v.barred then answered .barred 0 found
                 else if s.cfg.capacity < v.lengthClass then answered .closed 0 found
                 else joined {
                    registration := r, ready := true, cls := v.cls, group := v.group, account := v.account,
                    lengthClass := v.lengthClass, deferral := 0, order := s.approach.nextOrder,
                    defaultGroup := false, resolution := none } found))
              ∧ (s.lookupVessel r = none → s.cfg.capacity < len.toNat →
                exec (.call r len) s = .next (answered .closed 0 s))
              ∧ (s.lookupVessel r = none → len.toNat ≤ s.cfg.capacity → s.presence.desk = .absent →
                exec (.call r len) s = .next (joined {
                  registration := r, ready := false, cls := .pleasure, group := 0,
                  account := 0, lengthClass := len.toNat, deferral := 0, order := s.approach.nextOrder,
                  defaultGroup := false, resolution := some (sec 2) } s))))
      ∧ (∀ len, s.readsCall len = true → s.ctl.mode ≠ .unconfigured → exec (.cancel r len) s
        = .next (if queued then answered .accepted 0 { s with approach := { s.approach with
              queue := s.approach.queue.filter (fun e => e.registration ≠ r) } }
            else answered .notQueued 0 s))
      ∧ exec .callAnswerSent s = .next { s with approach := { s.approach with answers := s.approach.answers.tail } }
      ∧ (∀ e, s.unresolved? r = some e → e.resolution.isSome = true → s.chamber.occupancy ≠ .empty →
        exec (.resolutionTimerExpiry r) s = .next { s with approach := { s.approach with
          queue := s.approach.queue.map (fun q => if q.registration = r ∧ q.ready = false then
            { q with ready := true, cls := .pleasure, group := s.cfg.defaultGroup, account := 0, defaultGroup := true,
                     resolution := none } else q) } })

/-- The timers of the claims: waiting as SELF, waiting for the lower chamber, cancelled tags, the feed, the retry. The
claim wait limit of the SELF waiter takes it away, tells its unit and raises CLAIM_TIMEOUT; that of the lower claim
gives the ask up (log entry 20 where it has no tag yet), tells the unit and raises it. A cancelled tag's 2 s free the
tag (no request waiting). The feed timer's end feeds the level again where the two conditions of R75 hold (no feed
queued, room in the queue) and runs 1 s again from its placing (log entry 10), and else only ends. The retry timer's
end lets CLAIM begin again; a unit not at its claims does nothing more. -/
def Obligations.ClaimTimers : Prop :=
  ∀ s : State, s.notices = [] →
    (∀ c, s.chamber.waiter = .self c → s.chamber.selfTimer.isSome = true → exec .selfWaitExpiry s
        = .next (finish s { s with
            chamber := { s.chamber with waiter := .none, selfTimer := none },
            notices := [.ownClaim c.claimant c.purpose .timedOut,
              .raise .claimTimeout (BitVec.ofNat 32 s.k) 0 (Bound.ofUnit c.claimant)] }))
      ∧ (s.chamber.lower.timer.isSome = true → (s.chamber.lower.state = .asked ∨ s.chamber.lower.state = .waiting) →
        exec .claimWaitExpiry s = .next (finish s (s.giveUpAsk.emits
          [.lowerClaim s.chamber.lower.purpose .timedOut,
           .raise .claimTimeout (BitVec.ofNat 32 (s.k - 1)) (BitVec.ofNat 32 s.chamber.lower.tag) .lower])))
      ∧ (∀ tag, s.link.requests = [] → exec (.cancelledTagExpiry tag) s = .next { s with chamber := { s.chamber with
          cancelled := s.chamber.cancelled.filter (fun t => !(t.tag = tag && t.left.isSome)) } })
      ∧ (s.chamber.feedTimer.isSome = true →
        (s.feedTag = none → exec .levelFeedTimerExpiry s
            = .next { s with chamber := { s.chamber with feedTimer := none } })
          ∧ (∀ tag, s.feedTag = some tag → tag < 256 → s.link.hasQueued .chamber .levelFeed = false → s.room 1 = true →
            exec .levelFeedTimerExpiry s = .next { (State.queued .chamber .levelFeed (stationAddr (s.k + 1))
              (byte tag :: bytes16 s.chamber.level.value) s) with
              chamber := { s.chamber with feedTimer := some (sec 1), lastFed := s.chamber.level.value } }))
      ∧ (∀ u, (s.unit u).retryTimer.isSome = true →
        let t := s.modUnit u (fun b => { b with retryTimer := none })
        exec (.claimRetryExpiry u) s = .next (finish s (t.claimOn u))
          ∧ ((s.unit u).claims = false → exec (.claimRetryExpiry u) s = .next t))

/-- The timers of the record store: the gap, the wait between attempts, the low-store repeat. The gap timer's end
before the third attempt frees the RECEIVING records, answers XFER_BAD, and the transfer is PAUSED for 1 s; at the
third it is FAILED and TRANSFER_FAIL is raised with the key and the sender. The 1 s over, the next attempt begins with
an XFER_ASK where the sender is PRESENT and unmarked, and else waits. The low-store timer's end repeats HOLD(30) to
both ends and starts again at 10 s while the store is LOW. -/
def Obligations.StoreTimers : Prop :=
  ∀ s : State, s.notices = [] →
    let i := s.store.inbound
    (s.store.gapTimer.isSome = true →
        let gone := s.freeBatch i.key .receiving
        let bad := State.send .record .xferBad i.sender [i.key] { gone with store := { gone.store with gapTimer := none } }
        let ended := { bad with store := { bad.store with
          attemptWait := (if i.attempt < 3 then some (sec 1) else s.store.attemptWait),
          inbound := { i with state := (if i.attempt < 3 then .paused else .failed) } } }
        exec .gapTimerExpiry s = .next (finish s (if i.attempt < 3 then ended
          else ended.emit (.raise .transferFail (BitVec.ofNat 32 i.key.toNat) (BitVec.ofNat 32 i.sender.toNat)
            (if i.sender.toNat + 1 = s.k then .lower else .none)))))
      ∧ (s.store.attemptWait.isSome = true →
        let t := { s with store := { s.store with attemptWait := none } }
        (s.works = true → i.state = .paused → s.isPresent i.sender.toNat = true → s.isMarked i.sender.toNat = false →
            exec .attemptWaitExpiry s = .next (finish s (State.request
              { block := .record, kind := .xferAsk, dst := i.sender, body := [i.key, byte (i.attempt + 1)], upper := none,
                key := i.key }
              { t with store := { t.store with inbound := { i with
                  state := .asking, attempt := i.attempt + 1,
                  position := 1, index := 0, records := 0, lineCount := 0, carryFollows := false } } })))
          ∧ (s.works = false ∨ i.state ≠ .paused ∨ s.isPresent i.sender.toNat = false ∨ s.isMarked i.sender.toNat = true →
            exec .attemptWaitExpiry s = .next t))
      ∧ (s.store.low = true → s.store.lowTimer.isSome = true → exec .lowStoreRepeatExpiry s
        = .next (finish s (State.holdEnds 30 { s with store := { s.store with lowTimer := some (sec 10) } })))
      ∧ (s.store.low = false → exec .lowStoreRepeatExpiry s = .next s)

/-- A raise takes its level, its mark and recovery, and its place in the record or the pending set. For every raise a
block hands to the Fault Unit: its place is that of the boundary's active crossing, for TRANSFER_FAIL the inbound key;
its level is DESK for a cause not delegable or not delegated "to flight" and where a repeat mark of the cause has its
place, LOCAL with both bits set, else FLIGHT. Below DESK the mark of a place replaces the cause's earlier one and the
recovery starts, so that one of a motion cause, of PEER_LOST and of TRANSFER_FAIL is under way; a DESK cause recorded
loses both. In the empty record a LOCAL cause leaves nothing, a FLIGHT cause stands while its recovery is under way,
and a DESK cause stands and makes the mode HELD (CONFIG_INVALID apart), the prior mode being WAKING where R49 wakes
the station; where causes are pending beside the empty record, a LOCAL cause clears and a pending DESK cause that is the
highest is recorded at once, its values lost. (What is said of a cause below DESK is said, but for that, where none is
pending beside an empty record.) With the record occupied: a raise of the recorded cause escalated from FLIGHT is raised in place and
acted on as DESK, any other of it changes no record; another cause joins the pending set once, at the higher of its
levels. With room in the queue a cause taken into the record at FLIGHT or DESK, raised in place too, sends its
FAULT_NOTE, but for LINK_DEGRADED of a fault frame; a FLIGHT cause with no recovery under way sends FAULT_CLEAR behind
it and leaves the record. That a delegation bit counts as clear without settings, the prior mode and the cleared
values-lost flag of a record raised in place, are log entries 24, 35 and 63. -/
def Obligations.FaultRaised : Prop :=
  ∀ (s : State) (c : Cause) (v1 v2 : BitVec 32) (b : Bound),
    let stands := fun (u : UnitId) => (s.unit u).active?.map
      (fun x => ({ key := x.key, bound := b, step := (s.unit u).step } : Place))
    let place : Option Place := if c = .transferFail then some { key := s.store.inbound.key, bound := .none, step := none }
      else match b with
        | .none => none
        | .lower => stands .lower
        | .head => stands .head
    let bits := fun (off : Nat) => s.loader.settings.any (fun x => x.delegation.getLsbD (2 * (c.code - 1) + off))
    let again := place.any (fun p => s.fault.marks.any (fun m => decide (m.cause = c) && decide (m.place = p)))
    let level : FaultLevel := if again = true ∨ c.delegable = false ∨ bits 0 = false then .desk
      else if bits 1 = true then .localLevel else .flight
    let marked := match place with
      | some p => s.fault.marks.filter (fun m => m.cause ≠ c) ++ [⟨c, p⟩]
      | none => s.fault.marks
    let others := s.fault.recoveries.filter (fun r => r.cause ≠ c)
    let wakes := s.ctl.mode = .resting ∧ level = .desk
    let prior := if wakes then Mode.waking else s.ctl.mode
    let new : FaultRecord := { cause := c, level := level, bound := b, value1 := v1, value2 := v2,
                               step := place.bind Place.step, prior := prior, valuesLost := false }
    let t := State.act (.raise c v1 v2 b) s
    let underWay := t.fault.recoveries.any (fun r => r.cause = c)
    let alone := s.fault.record = none → s.fault.pendingSet = []
    (level ≠ .desk → alone → t.fault.marks = marked)
      ∧ (level ≠ .desk → alone → ∀ e, elementOfCode? v1.toNat = some e → (c = .positionConflict ∨ c = .motionTimeout) →
        t.fault.recoveries = others ++ [⟨c, place, some e, 0⟩])
      ∧ (level ≠ .desk → alone → c = .peerLost → t.fault.recoveries = others ++ [⟨c, place, none, v1.toNat⟩])
      ∧ (level ≠ .desk → alone → c = .transferFail → t.fault.recoveries = others ++ [⟨c, place, none, 0⟩])
      ∧ (s.fault.record = none → level = .desk → t.fault.record = some new ∧ t.fault.pendingSet = s.fault.pendingSet
        ∧ t.fault.marks = s.fault.marks.filter (fun m => m.cause ≠ c)
        ∧ t.fault.recoveries = others ∧ t.ctl.mode = (if c = .configInvalid then prior else .held))
      ∧ (s.fault.record = none → s.fault.pendingSet = [] → level ≠ .desk → t.fault.pendingSet = []
        ∧ t.ctl.mode = s.ctl.mode
        ∧ t.fault.record = (if level = .flight ∧ underWay = true then some new else none))
      ∧ (∀ x, s.fault.record = none → s.fault.highest = some x → level = .localLevel → x.level = .desk →
        let woken := if s.ctl.mode = .resting then Mode.waking else s.ctl.mode
        t.fault.record = some { cause := x.cause, level := .desk, bound := .none, value1 := 0, value2 := 0, step := none,
                                prior := woken, valuesLost := true }
          ∧ t.fault.pendingSet = s.fault.pendingSet.filter (fun y => y.cause ≠ x.cause)
          ∧ t.fault.marks = marked.filter (fun m => m.cause ≠ x.cause)
          ∧ t.ctl.mode = (if x.cause = .configInvalid then woken else .held))
      ∧ (∀ old, s.fault.record = some old → old.cause = c → again = true → old.level = .flight →
        t.fault.record = some new ∧ t.fault.pendingSet = s.fault.pendingSet
          ∧ t.fault.marks = s.fault.marks.filter (fun m => m.cause ≠ c) ∧ t.fault.recoveries = others
          ∧ t.ctl.mode = (if c = .configInvalid then prior else .held))
      ∧ (∀ old, s.fault.record = some old → old.cause = c → (again = false ∨ old.level ≠ .flight) →
        t.fault.record = some old ∧ t.fault.pendingSet = s.fault.pendingSet ∧ t.ctl.mode = s.ctl.mode)
      ∧ (∀ old, s.fault.record = some old → old.cause ≠ c → t.fault.record = some old ∧ t.ctl.mode = s.ctl.mode
        ∧ t.fault.pendingSet = (if s.fault.pendingSet.any (fun x => x.cause = c) then
            s.fault.pendingSet.map (fun x => if x.cause = c ∧ x.level.code < level.code then { x with level := level } else x)
          else s.fault.pendingSet ++ [⟨c, level⟩]))
      ∧ (s.room 1 = true →
        let said := c = .linkDegraded
          ∧ (v1 = BitVec.ofNat 32 Kind.faultNote.code ∨ v1 = BitVec.ofNat 32 Kind.faultClear.code)
        let note := fun (n : Nat) => State.queued .fault .faultNote broadcastAddr
          ([byte c.code, byte (n + b.code * 16)] ++ bytes32 v1.toNat ++ bytes32 v2.toNat)
        (level = .desk → s.ctl.mode ≠ .resting → s.presence.clash = false → s.presence.interval = .normal →
            (s.fault.record = none
              ∨ ∃ old, s.fault.record = some old ∧ old.cause = c ∧ again = true ∧ old.level = .flight) →
            t.link = (if said then s else note 192 s).link)
          ∧ (level = .flight → s.fault.record = none → s.fault.pendingSet = [] → underWay = true →
            t.link = (if said then s else note 128 s).link)
          ∧ (level = .flight → s.fault.record = none → s.fault.pendingSet = [] → underWay = false → s.room 2 = true →
            t.link = (State.queued .fault .faultClear broadcastAddr [byte c.code]
              (if said then s else note 128 s)).link))
end

