-- ==== Sys2Proof/Laws/Keeps.lean ====
section
/-! SUPPORT. What acting on a notice leaves as it was, and keeps sound: the relation every operation a notice reaches
satisfies, stated once and handed on from caller to callee. -/

namespace Sys2Proof.Machine
open Sys2Proof

/-- The bounds of the blocks a notice's acting changes. -/
def State.Fits (s : State) : Prop :=
  s.link.Fits ∧ s.approach.Fits ∧ s.token.Fits ∧ s.store.PagesWhole ∧ (s.drive.OneMotion ∧ s.drive.StackFalls)
    ∧ s.chamber.ClaimsFit ∧ s.lowerUnit.OneActive ∧ s.headUnit.OneActive

/-- From `s₀` to `s` nothing of the still view has changed, and the bounds are kept. -/
def Keeps (s₀ s : State) : Prop := s.still = s₀.still ∧ (s₀.Fits → s.Fits)

theorem Keeps.refl (s : State) : Keeps s s := ⟨rfl, id⟩

theorem Keeps.trans {a b c : State} (h : Keeps a b) (k : Keeps b c) : Keeps a c :=
  ⟨k.1.trans h.1, k.2 ∘ h.2⟩

/-- The part of soundness that rests on the still view. -/
def State.Steady (s : State) : Prop :=
  s.ctl.StopFits ∧ s.tariff.minute < 1440 ∧ s.chamber.LevelsFit ∧ s.vessels.OnePerVessel

theorem sound_iff (s : State) : s.Sound ↔ s.Fits ∧ s.Steady := by
  unfold State.Sound State.Fits State.Steady; tauto

theorem Steady.of_still {s t : State} (h : t.still = s.still) (k : s.Steady) : t.Steady := by
  simp only [State.still, StillView.mk.injEq] at h
  obtain ⟨-, -, -, -, h1, h2, h3, h4, h5, -, h6, h7, -⟩ := h
  obtain ⟨a, b, c, d⟩ := k
  refine ⟨?_, ?_, ?_, ?_⟩
  · unfold Control.StopFits at a ⊢; rw [h1, h2, h3]; exact a
  · rw [h7]; exact b
  · unfold Chamber.LevelsFit at c ⊢; rw [h4, h5]; exact c
  · rw [h6]; exact d

theorem Keeps.sound {s t : State} (h : Keeps s t) (k : s.Sound) : t.Sound := by
  rw [sound_iff] at k ⊢
  exact ⟨h.2 k.1, Steady.of_still h.1 k.2⟩

/-! ### Changes of one block -/

theorem keeps_link {s₀ s : State} {l : Link} (hw : l.widenSlots = s.link.widenSlots) (hh : l.holds = s.link.holds)
    (hf : s.link.Fits → l.Fits) (h : Keeps s₀ s) : Keeps s₀ { s with link := l } := by
  refine h.trans ⟨?_, fun k => ⟨hf k.1, k.2⟩⟩
  simp only [State.still, hw, hh]

theorem keeps_approach {s₀ s : State} {a : Approach} (hf : s.approach.Fits → a.Fits) (h : Keeps s₀ s) :
    Keeps s₀ { s with approach := a } :=
  h.trans ⟨rfl, fun k => ⟨k.1, hf k.2.1, k.2.2⟩⟩

theorem keeps_token {s₀ s : State} {t : Token} (hf : s.token.Fits → t.Fits) (h : Keeps s₀ s) :
    Keeps s₀ { s with token := t } :=
  h.trans ⟨rfl, fun k => ⟨k.1, k.2.1, hf k.2.2.1, k.2.2.2⟩⟩

theorem keeps_store {s₀ s : State} {st : Store} (hc : st.custody = s.store.custody)
    (hf : s.store.PagesWhole → st.PagesWhole) (h : Keeps s₀ s) : Keeps s₀ { s with store := st } := by
  refine h.trans ⟨?_, fun k => ⟨k.1, k.2.1, k.2.2.1, hf k.2.2.2.1, k.2.2.2.2⟩⟩
  simp only [State.still, hc]

theorem keeps_drive {s₀ s : State} {d : Drive}
    (hf : s.drive.OneMotion ∧ s.drive.StackFalls → d.OneMotion ∧ d.StackFalls) (h : Keeps s₀ s) :
    Keeps s₀ { s with drive := d } :=
  h.trans ⟨rfl, fun k => ⟨k.1, k.2.1, k.2.2.1, k.2.2.2.1, hf k.2.2.2.2.1, k.2.2.2.2.2⟩⟩

/-! ### Handing notices and choosing -/

theorem emit_keeps {s₀ s : State} (t : Notice) (h : Keeps s₀ s) : Keeps s₀ (State.emit t s) := h

theorem emits_keeps {s₀ s : State} (ts : List Notice) (h : Keeps s₀ s) : Keeps s₀ (State.emits ts s) := h

theorem doIf_keeps {s₀ s : State} (c : Bool) (f : State → State) (hf : Keeps s₀ (f s)) (h : Keeps s₀ s) :
    Keeps s₀ (State.doIf c f s) := by
  unfold State.doIf; split
  · exact hf
  · exact h

theorem foldl_keeps {α : Type} {s₀ s : State} (f : State → α → State) (l : List α)
    (hf : ∀ s a, Keeps s₀ s → Keeps s₀ (f s a)) (h : Keeps s₀ s) : Keeps s₀ (l.foldl f s) := by
  induction l generalizing s with
  | nil => exact h
  | cons a l ih => exact ih (hf s a h)

/-- A change of a unit that leaves at most one of its slots ACTIVE. -/
theorem modUnit_keeps {s₀ s : State} (u : UnitId) (f : BoundaryUnit → BoundaryUnit)
    (hf : (s.unit u).OneActive → (f (s.unit u)).OneActive) (h : Keeps s₀ s) : Keeps s₀ (State.modUnit u f s) := by
  cases u
  · exact h.trans ⟨rfl, fun k =>
      ⟨k.1, k.2.1, k.2.2.1, k.2.2.2.1, k.2.2.2.2.1, k.2.2.2.2.2.1, hf k.2.2.2.2.2.2.1, k.2.2.2.2.2.2.2⟩⟩
  · exact h.trans ⟨rfl, fun k =>
      ⟨k.1, k.2.1, k.2.2.1, k.2.2.2.1, k.2.2.2.2.1, k.2.2.2.2.2.1, k.2.2.2.2.2.2.1, hf k.2.2.2.2.2.2.2⟩⟩

/-- A change of a unit that leaves its two slots. -/
theorem modUnit_slots {s₀ s : State} (u : UnitId) (f : BoundaryUnit → BoundaryUnit)
    (hb : ∀ b, (f b).below = b.below) (ha : ∀ b, (f b).above = b.above) (h : Keeps s₀ s) :
    Keeps s₀ (State.modUnit u f s) :=
  modUnit_keeps u f (fun k => by unfold BoundaryUnit.OneActive at k ⊢; rw [hb, ha]; exact k) h

/-- A change of the claim register. -/
theorem keeps_claims {s₀ s : State} {c : Chamber} (hl : c.level = s.chamber.level) (ho : c.outer = s.chamber.outer)
    (ha : c.alarm = s.chamber.alarm) (hf : s.chamber.ClaimsFit → c.ClaimsFit) (h : Keeps s₀ s) :
    Keeps s₀ { s with chamber := c } := by
  refine h.trans ⟨?_, fun k => ⟨k.1, k.2.1, k.2.2.1, k.2.2.2.1, k.2.2.2.2.1, hf k.2.2.2.2.2.1, k.2.2.2.2.2.2⟩⟩
  simp only [State.still, hl, ho, ha]

end Sys2Proof.Machine
end

