-- ==== Sys2Proof/Laws/LinkKeeps.lean ====
section
/-! SUPPORT. What the Link Controller's operations keep: eight places, four entries, distinct tags. -/

namespace Sys2Proof.Machine
open Sys2Proof

/-! ### The transmit queue -/

theorem places_pos (f : TxFrame) : 1 ≤ f.places := by unfold TxFrame.places; split <;> omega

theorem toFrame_places (o : Offer) (id : Nat) (p : List Byte) : (o.toFrame id p).places = o.places := rfl

theorem refreshHead_txq (l : Link) : l.refreshHead.txq = l.txq := by unfold Link.refreshHead; split_ifs <;> rfl
theorem refreshHead_entries (l : Link) : l.refreshHead.entries = l.entries := by
  unfold Link.refreshHead; split_ifs <;> rfl
theorem refreshHead_widenSlots (l : Link) : l.refreshHead.widenSlots = l.widenSlots := by
  unfold Link.refreshHead; split_ifs <;> rfl
theorem refreshHead_holds (l : Link) : l.refreshHead.holds = l.holds := by unfold Link.refreshHead; split_ifs <;> rfl
theorem refreshHead_waiting (l : Link) : l.refreshHead.waiting = l.waiting := by
  unfold Link.refreshHead; split_ifs <;> rfl
theorem refreshHead_backlog (l : Link) : l.refreshHead.backlog = l.backlog := by
  unfold Link.refreshHead; split_ifs <;> rfl
theorem refreshHead_requests (l : Link) : l.refreshHead.requests = l.requests := by
  unfold Link.refreshHead; split_ifs <;> rfl
theorem refreshHead_lastTag (l : Link) : l.refreshHead.lastTag = l.lastTag := by
  unfold Link.refreshHead; split_ifs <;> rfl
theorem refreshHead_nextId (l : Link) : l.refreshHead.nextId = l.nextId := by
  unfold Link.refreshHead; split_ifs <;> rfl
theorem refreshHead_onLine (l : Link) : l.refreshHead.onLine = l.onLine := by
  unfold Link.refreshHead; split_ifs <;> rfl
theorem refreshHead_attempts (l : Link) : l.refreshHead.attempts ≤ l.attempts := by
  unfold Link.refreshHead; split_ifs <;> simp

theorem refreshHead_fits {l : Link} (h : l.Fits) : l.refreshHead.Fits := by
  obtain ⟨a, b, c, d, e, f⟩ := h
  refine ⟨?_, ?_, ?_, ?_, (refreshHead_attempts l).trans e, ?_⟩
  · unfold Link.used at a ⊢; rw [refreshHead_txq]; exact a
  · rw [refreshHead_entries]; exact b
  · rw [refreshHead_entries]; exact c
  · rw [refreshHead_entries]; exact d
  · rw [refreshHead_widenSlots]; exact f

theorem sum_filter_split {α : Type} (p : α → Bool) (w : α → Nat) (l : List α) :
    ((l.filter p).map w).sum + ((l.filter (fun x => !p x)).map w).sum = (l.map w).sum := by
  induction l with
  | nil => rfl
  | cons x l ih =>
    cases hx : p x
    · rw [List.filter_cons_of_neg (by simp [hx]), List.filter_cons_of_pos (by simp [hx])]
      simp only [List.map_cons, List.sum_cons]; omega
    · rw [List.filter_cons_of_pos hx, List.filter_cons_of_neg (by simp [hx])]
      simp only [List.map_cons, List.sum_cons]; omega

theorem sum_filter_le {α : Type} (p : α → Bool) (w : α → Nat) (l : List α) :
    ((l.filter p).map w).sum ≤ (l.map w).sum := by
  have h := sum_filter_split p w l; omega

/-- Taking out every frame with a queued frame's id frees at least that frame's places. -/
theorem sum_filter_drop {α β : Type} [DecidableEq β] (key : α → β) (w : α → Nat) {l : List α} {x : α} (hx : x ∈ l) :
    ((l.filter (fun y => decide (key y ≠ key x))).map w).sum + w x ≤ (l.map w).sum := by
  induction l with
  | nil => simp at hx
  | cons y l ih =>
    rcases List.mem_cons.mp hx with rfl | hx
    · rw [List.filter_cons_of_neg (by simp)]
      simp only [List.map_cons, List.sum_cons]
      have := sum_filter_le (fun y => decide (key y ≠ key x)) w l
      omega
    · have := ih hx
      by_cases hy : key y = key x
      · rw [List.filter_cons_of_neg (by simp [hy])]
        simp only [List.map_cons, List.sum_cons]; omega
      · rw [List.filter_cons_of_pos (by simp [hy])]
        simp only [List.map_cons, List.sum_cons]; omega

theorem insert_used (f : TxFrame) (l : Link) : (l.insert f).used = l.used + f.places := by
  unfold Link.insert Link.used
  split
  · have h := sum_filter_split (fun g : TxFrame => g.kind.urgent) TxFrame.places l.txq
    simp only [List.map_append, List.map_cons, List.sum_append, List.sum_cons]
    omega
  · simp

theorem remove_used_le (id : Nat) (l : Link) : (l.remove id).used ≤ l.used := sum_filter_le _ _ _

theorem remove_used_mem {l : Link} {f : TxFrame} (hf : f ∈ l.txq) : (l.remove f.id).used + f.places ≤ l.used :=
  sum_filter_drop TxFrame.id TxFrame.places hf

theorem used_of_txq {l m : Link} (h : m.txq = l.txq) : m.used = l.used := by unfold Link.used; rw [h]

theorem refreshHead_used (l : Link) : l.refreshHead.used = l.used := used_of_txq (refreshHead_txq l)

theorem remove_fits {l : Link} (id : Nat) (h : l.Fits) : (l.remove id).Fits :=
  ⟨(remove_used_le id l).trans h.1, h.2⟩

theorem mapTxq_used (g : TxFrame → TxFrame) (hg : ∀ f, (g f).upper = f.upper) (l : Link) :
    ({ l with txq := l.txq.map g } : Link).used = l.used := by
  have : ∀ f, (g f).places = f.places := fun f => by unfold TxFrame.places; rw [hg]
  simp only [Link.used, List.map_map]
  congr 1
  exact List.map_congr_left (fun f _ => this f)

theorem mapTxq_fits {l : Link} (g : TxFrame → TxFrame) (hg : ∀ f, (g f).upper = f.upper) (h : l.Fits) :
    ({ l with txq := l.txq.map g } : Link).Fits := by
  refine ⟨?_, h.2⟩
  rw [mapTxq_used g hg]; exact h.1

theorem filterEntries_fits {l : Link} (p : ReplyEntry → Bool) (h : l.Fits) :
    ({ l with entries := l.entries.filter p } : Link).Fits := by
  obtain ⟨a, b, c, d, e, f⟩ := h
  refine ⟨a, (List.length_filter_le _ _).trans b, ?_, fun x hx => d x (List.mem_of_mem_filter hx), e, f⟩
  exact c.sublist (List.Sublist.map _ List.filter_sublist)

theorem mapEntries_fits {l : Link} (g : ReplyEntry → ReplyEntry) (hg : ∀ x, (g x).tag = x.tag) (h : l.Fits) :
    ({ l with entries := l.entries.map g } : Link).Fits := by
  obtain ⟨a, b, c, d, e, f⟩ := h
  refine ⟨a, by simpa using b, ?_, ?_, e, f⟩
  · have : (l.entries.map g).map ReplyEntry.tag = l.entries.map ReplyEntry.tag := by
      rw [List.map_map]; exact List.map_congr_left (fun x _ => hg x)
    simpa only [this] using c
  · intro x hx
    obtain ⟨y, hy, rfl⟩ := List.mem_map.mp hx
    rw [hg]; exact d y hy

/-! ### Placing -/

theorem onPlaced_keeps {s₀ s : State} (o : Offer) (p : List Byte) (h : Keeps s₀ s) : Keeps s₀ (s.onPlaced o p) := by
  unfold State.onPlaced
  split
  · unfold State.askSent; split <;> exact h
  · exact doIf_keeps _ _ h h
  · unfold State.feedSent; split <;> exact h
  · unfold State.feedSent; split <;> exact h
  · exact doIf_keeps _ _ h h
  · split <;> exact doIf_keeps _ _ h h
  · exact h

theorem onPlaced_link (o : Offer) (p : List Byte) (s : State) : (s.onPlaced o p).link = s.link := by
  unfold State.onPlaced
  split
  · unfold State.askSent; split <;> rfl
  · unfold State.doIf; split <;> rfl
  · unfold State.feedSent; split <;> rfl
  · unfold State.feedSent; split <;> rfl
  · unfold State.readSent State.doIf; split <;> rfl
  · split <;> (unfold State.doIf; split <;> rfl)
  · rfl

theorem place_keeps {s₀ s : State} (o : Offer) (hr : s.link.hasRoom o = true) (h : Keeps s₀ s) : Keeps s₀ (s.place o) := by
  unfold State.place
  refine onPlaced_keeps o _ (keeps_link ?_ ?_ ?_ h)
  · rw [refreshHead_widenSlots]; unfold Link.insert; split <;> rfl
  · rw [refreshHead_holds]; unfold Link.insert; split <;> rfl
  · intro hl
    apply refreshHead_fits
    refine ⟨?_, ?_⟩
    · rw [insert_used, toFrame_places]
      unfold Link.hasRoom at hr
      simp only [decide_eq_true_eq] at hr
      exact hr
    · unfold Link.insert; split <;> exact hl.2

theorem dropEntry_keeps {s₀ s : State} (tag : Nat) (h : Keeps s₀ s) : Keeps s₀ (s.dropEntry tag) :=
  keeps_link rfl rfl (filterEntries_fits _) h

theorem breakAt_txq (f : TxFrame) (l : Link) : (l.breakAt f).txq = l.txq := by unfold Link.breakAt; split <;> rfl

theorem breakStream_fits {l : Link} (b : Block) (number : Nat) (h : l.Fits) : (l.breakStream b number).Fits := h

theorem breakStream_keeps {s₀ s : State} (b : Block) (number : Nat) (h : Keeps s₀ s) :
    Keeps s₀ { s with link := s.link.breakStream b number } := keeps_link rfl rfl (breakStream_fits b number) h

theorem breakAt_keeps {s₀ s : State} (f : TxFrame) (h : Keeps s₀ s) : Keeps s₀ { s with link := s.link.breakAt f } := by
  unfold Link.breakAt
  split
  · exact breakStream_keeps _ _ h
  · exact h

theorem removeUnsent_keeps {s₀ s : State} (f : TxFrame) (h : Keeps s₀ s) : Keeps s₀ (s.removeUnsent f) := by
  unfold State.removeUnsent
  apply emit_keeps
  have h1 : Keeps s₀ { s with link := Link.refreshHead ((s.link.breakAt f).remove f.id) } :=
    keeps_link (s := { s with link := s.link.breakAt f }) (refreshHead_widenSlots _) (refreshHead_holds _)
      (fun k => refreshHead_fits (remove_fits _ k)) (breakAt_keeps f h)
  exact doIf_keeps _ _ (dropEntry_keeps _ h1) h1

theorem removeUnsent_link_txq (f : TxFrame) (s : State) : (s.removeUnsent f).link.txq = (s.link.remove f.id).txq := by
  unfold State.removeUnsent State.emit State.doIf
  split <;> exact (refreshHead_txq _).trans (by unfold Link.remove; dsimp only; rw [breakAt_txq])

theorem refuseOffer_keeps {s₀ s : State} (o : Offer) (h : Keeps s₀ s) : Keeps s₀ (s.refuseOffer o) := h

theorem displaceable_mem {l : Link} {f : TxFrame} (h : l.displaceable = some f) : f ∈ l.txq := by
  unfold Link.displaceable at h
  exact List.mem_reverse.mp (List.mem_of_find?_eq_some h)

theorem tryPlace_keeps {s₀ s : State} (o : Offer) (h : Keeps s₀ s) : Keeps s₀ (s.tryPlace o) := by
  unfold State.tryPlace
  split
  · exact place_keeps o ‹_› h
  · split
    · rename_i hu
      split
      · rename_i f hf
        by_cases hfit : s.link.used ≤ 8
        · apply place_keeps o _ (removeUnsent_keeps f h)
          have h1 := remove_used_mem (displaceable_mem hf)
          have h2 := places_pos f
          have h3 : o.places = 1 := by
            unfold Offer.places
            simp only [Bool.and_eq_true, Option.isNone_iff_eq_none] at hu
            simp [hu.2]
          unfold Link.hasRoom
          rw [used_of_txq (m := (s.removeUnsent f).link) (removeUnsent_link_txq f s), decide_eq_true_eq]
          omega
        · refine ⟨?_, fun k => absurd (h.2 k).1.1 hfit⟩
          have h1 := (removeUnsent_keeps f h).1
          rw [← h1]
          unfold State.place
          have := (onPlaced_keeps (s₀ := { s.removeUnsent f with link := Link.refreshHead (Link.insert (o.toFrame (s.removeUnsent f).link.nextId ((s.removeUnsent f).renderBody o.body)) { (s.removeUnsent f).link with nextId := (s.removeUnsent f).link.nextId + 1 }) }) o ((s.removeUnsent f).renderBody o.body) (Keeps.refl _)).1
          rw [this]
          simp only [State.still, refreshHead_widenSlots, refreshHead_holds]
          unfold Link.insert; split <;> rfl
      · exact h
    · exact h

/-! ### Waiting, requests and what is kept back -/

theorem onTagged_keeps {s₀ s : State} (k : Kind) (tag : Nat) (h : Keeps s₀ s) : Keeps s₀ (s.onTagged k tag) := by
  unfold State.onTagged
  split
  · split <;> exact h
  · split <;> exact h
  · exact h

theorem nextTag_range {s : State} {tag : Nat} (h : s.nextTag = some tag) :
    (1 ≤ tag ∧ tag ≤ 15) ∧ ∀ e ∈ s.link.entries, e.tag ≠ tag := by
  unfold State.nextTag at h
  have h1 := List.mem_of_find?_eq_some h
  have h2 := List.find?_some h
  simp only [List.mem_map, List.mem_range] at h1
  obtain ⟨i, -, rfl⟩ := h1
  refine ⟨⟨by omega, by omega⟩, fun e he hc => ?_⟩
  simp only [Bool.and_eq_true, Bool.not_eq_true', List.any_eq_false, decide_eq_true_eq] at h2
  exact h2.1 e he hc

theorem nextAsk_some {s : State} {r : Request} {tag : Nat} (h : s.nextAsk = some (r, tag)) :
    s.link.entries.length < 4 ∧ s.nextTag = some tag := by
  unfold State.nextAsk at h
  split at h
  · split at h
    · cases h; exact ⟨‹_›, ‹_›⟩
    · cases h
  · cases h

theorem enter_keeps {s₀ s : State} {r : Request} {tag : Nat} (ha : s.nextAsk = some (r, tag)) (h : Keeps s₀ s) :
    Keeps s₀ (s.enter r tag) := by
  obtain ⟨hl, ht⟩ := nextAsk_some ha
  obtain ⟨ht, hn⟩ := nextTag_range ht
  unfold State.enter
  refine onTagged_keeps _ _ (keeps_link rfl rfl ?_ h)
  rintro ⟨a, b, c, d, e, f⟩
  refine ⟨a, ?_, ?_, ?_, e, f⟩
  · simp only [List.length_append, List.length_cons, List.length_nil]; omega
  · simp only [List.map_append, List.map_cons, List.map_nil]
    rw [List.nodup_append]
    refine ⟨c, by simp, ?_⟩
    intro x hx y hy
    simp only [List.mem_singleton] at hy
    subst hy
    obtain ⟨e, he, rfl⟩ := List.mem_map.mp hx
    exact hn e he
  · intro x hx
    rcases List.mem_append.mp hx with hx | hx
    · exact d x hx
    · simp only [List.mem_singleton] at hx; subst hx; exact ht

theorem placeable_room {l : Link} {o : Offer} (h : l.placeable = some o) : l.hasRoom o = true :=
  (Option.filter_eq_some_iff.mp h).2

theorem takeHeld_keeps {s₀ s : State} (x : Held) (h : Keeps s₀ s) : Keeps s₀ (s.takeHeld x) := h

theorem await_keeps {s₀ s : State} (r : Request) (h : Keeps s₀ s) : Keeps s₀ (s.await r) := h

theorem keepBack_keeps {s₀ s : State} (x : Held) (h : Keeps s₀ s) : Keeps s₀ (s.keepBack x) := h

theorem dropHeld_keeps {s₀ s : State} (p : Held → Bool) (h : Keeps s₀ s) : Keeps s₀ (s.dropHeld p) := h

theorem placeWaiting_keeps {s₀ : State} (n : Nat) : ∀ {s : State}, Keeps s₀ s → Keeps s₀ (State.placeWaiting n s) := by
  induction n with
  | zero => intro s h; exact h
  | succ n ih =>
    intro s h
    unfold State.placeWaiting
    split
    · rename_i hp
      have hr := placeable_room hp
      exact ih (place_keeps _ hr h)
    · split
      · exact ih (tryPlace_keeps _ (takeHeld_keeps _ h))
      · exact ih (await_keeps _ (takeHeld_keeps _ h))
      · split
        · exact ih (tryPlace_keeps _ (enter_keeps (by assumption) h))
        · exact h

theorem fillQueue_keeps {s₀ s : State} (h : Keeps s₀ s) : Keeps s₀ s.fillQueue := by
  unfold State.fillQueue
  split
  · exact h
  · exact placeWaiting_keeps _ h

theorem offer_keeps {s₀ s : State} (o : Offer) (h : Keeps s₀ s) : Keeps s₀ (s.offer o) := by
  unfold State.offer
  split
  · exact keepBack_keeps _ h
  · exact fillQueue_keeps (tryPlace_keeps o h)

theorem serveRequests_keeps {s₀ : State} (n : Nat) :
    ∀ {s : State}, Keeps s₀ s → Keeps s₀ (State.serveRequests n s) := by
  induction n with
  | zero => intro s h; exact h
  | succ n ih =>
    intro s h
    unfold State.serveRequests
    split
    · exact ih (offer_keeps _ (enter_keeps (by assumption) h))
    · exact h

theorem serveAll_keeps {s₀ s : State} (h : Keeps s₀ s) : Keeps s₀ s.serveAll := serveRequests_keeps _ h

theorem request_keeps {s₀ s : State} (r : Request) (h : Keeps s₀ s) : Keeps s₀ (s.request r) := by
  unfold State.request
  split
  · exact keepBack_keeps _ h
  · exact serveAll_keeps (await_keeps r h)

/-! ### What sending leaves (R10, R11, R18) -/

/-- Everything but what an offer's way to its place can change: the link, the notices, the claims' timers and tags, the
onward ask's tag and the read stream. -/
def State.unsent (s : State) : State :=
  { s with link := State.reset.link, notices := [], onward := State.reset.onward, toll := { s.toll with stream := none },
           chamber := { s.chamber with lower := { s.chamber.lower with tag := 0, timer := none }, cancelled := [],
                                       feedTimer := none } }

theorem onPlaced_unsent (o : Offer) (p : List Byte) (s : State) : (s.onPlaced o p).unsent = s.unsent := by
  unfold State.onPlaced
  split
  · unfold State.askSent; split <;> rfl
  · unfold State.doIf; split <;> rfl
  · unfold State.feedSent; split <;> rfl
  · unfold State.feedSent; split <;> rfl
  · unfold State.readSent State.doIf; split <;> rfl
  · split <;> (unfold State.doIf; split <;> rfl)
  · rfl

theorem removeUnsent_unsent (f : TxFrame) (s : State) : (s.removeUnsent f).unsent = s.unsent := by
  unfold State.removeUnsent State.doIf; split <;> rfl

theorem tryPlace_unsent (o : Offer) (s : State) : (s.tryPlace o).unsent = s.unsent := by
  unfold State.tryPlace
  split
  · exact onPlaced_unsent o _ _
  · split
    · split
      · exact (onPlaced_unsent o _ _).trans (removeUnsent_unsent _ s)
      · rfl
    · rfl

theorem enter_unsent (r : Request) (tag : Nat) (s : State) : (s.enter r tag).unsent = s.unsent := by
  unfold State.enter State.onTagged
  split
  · split <;> rfl
  · split <;> rfl
  · rfl

theorem placeWaiting_unsent (n : Nat) : ∀ s : State, (State.placeWaiting n s).unsent = s.unsent := by
  induction n with
  | zero => intro s; rfl
  | succ n ih =>
    intro s
    unfold State.placeWaiting
    split
    · exact (ih _).trans (onPlaced_unsent _ _ _)
    · split
      · exact (ih _).trans (tryPlace_unsent _ _)
      · exact ih _
      · split
        · exact (ih _).trans ((tryPlace_unsent _ _).trans (enter_unsent _ _ s))
        · rfl

theorem fillQueue_unsent (s : State) : s.fillQueue.unsent = s.unsent := by
  unfold State.fillQueue
  split
  · rfl
  · exact placeWaiting_unsent _ s

theorem offer_unsent (o : Offer) (s : State) : (s.offer o).unsent = s.unsent := by
  unfold State.offer
  split
  · rfl
  · exact (fillQueue_unsent _).trans (tryPlace_unsent o s)

theorem serveRequests_unsent (n : Nat) : ∀ s : State, (State.serveRequests n s).unsent = s.unsent := by
  induction n with
  | zero => intro s; rfl
  | succ n ih =>
    intro s
    unfold State.serveRequests
    split
    · exact (ih _).trans ((offer_unsent _ _).trans (enter_unsent _ _ s))
    · rfl

/-- Offering a request changes what sending can change alone. -/
theorem request_unsent (r : Request) (s : State) : (s.request r).unsent = s.unsent := by
  unfold State.request
  split
  · rfl
  · exact serveRequests_unsent _ (s.await r)

theorem offerBeacon_unsent (s : State) : s.offerBeacon.unsent = s.unsent := by
  unfold State.offerBeacon
  split
  · rfl
  · split
    · rfl
    · exact offer_unsent _ s

theorem unsent_store {s t : State} (h : s.unsent = t.unsent) : s.store = t.store := by
  have := congrArg State.store h; exact this

theorem unsent_token {s t : State} (h : s.unsent = t.unsent) : s.token = t.token := by
  have := congrArg State.token h; exact this

theorem unsent_occupancy {s t : State} (h : s.unsent = t.unsent) :
    s.chamber.occupancy = t.chamber.occupancy ∧ s.chamber.key = t.chamber.key := by
  have h1 := congrArg (fun x : State => (x.chamber.occupancy, x.chamber.key)) h
  exact Prod.mk.inj h1

theorem fillQueue_store (s : State) : s.fillQueue.store = s.store := unsent_store (fillQueue_unsent s)

theorem offer_store (o : Offer) (s : State) : (s.offer o).store = s.store := unsent_store (offer_unsent o s)

theorem offer_token (o : Offer) (s : State) : (s.offer o).token = s.token := unsent_token (offer_unsent o s)

/-! ### Offering a frame -/

theorem send_keeps {s₀ s : State} (b : Block) (k : Kind) (dst : Addr) (p : List Byte) (h : Keeps s₀ s) :
    Keeps s₀ (s.send b k dst p) := offer_keeps _ h

theorem sendWide_keeps {s₀ s : State} (b : Block) (k : Kind) (dst : Addr) (p : List Byte) (u : Option (BitVec 16))
    (h : Keeps s₀ s) : Keeps s₀ (s.sendWide b k dst p u) := offer_keeps _ h

theorem sendOwn_keeps {s₀ s : State} (k : Kind) (dst : Addr) (p : List Byte) (h : Keeps s₀ s) :
    Keeps s₀ (s.sendOwn k dst p) := by
  unfold State.sendOwn
  split
  · exact h
  · exact send_keeps _ _ _ _ h

theorem replaceQueued_keeps {s₀ s : State} (b : Block) (k : Kind) (p : List Byte) (h : Keeps s₀ s) :
    Keeps s₀ { s with link := s.link.replaceQueued b k p } :=
  keeps_link rfl rfl (mapTxq_fits _ (fun f => by split <;> rfl)) h

theorem replaceWaiting_keeps {s₀ s : State} (b : Block) (k : Kind) (p : List Byte) (h : Keeps s₀ s) :
    Keeps s₀ { s with link := s.link.replaceWaiting b k p } := h

theorem offerBeacon_keeps {s₀ s : State} (h : Keeps s₀ s) : Keeps s₀ s.offerBeacon := by
  unfold State.offerBeacon
  split
  · exact replaceQueued_keeps _ _ _ h
  · split
    · exact h
    · exact offer_keeps _ h

theorem offerTollReady_keeps {s₀ s : State} (h : Keeps s₀ s) : Keeps s₀ s.offerTollReady := by
  unfold State.offerTollReady
  split
  · exact replaceQueued_keeps _ _ _ h
  · split
    · exact h
    · exact offer_keeps _ h

theorem endEntry_keeps {s₀ s : State} (tag : Nat) (h : Keeps s₀ s) : Keeps s₀ (s.endEntry tag) :=
  serveAll_keeps (dropEntry_keeps tag h)

theorem refuse_keeps {s₀ s : State} (src : Addr) (bc : Bool) (kind : BitVec 6) (tag : Nat) (r : Reason) (h : Keeps s₀ s) :
    Keeps s₀ (s.refuse src bc kind tag r) := by
  unfold State.refuse
  split
  · exact h
  · exact sendOwn_keeps _ _ _ h

theorem refuseRx_keeps {s₀ s : State} (k : Kind) (rx : Rx) (r : Reason) (h : Keeps s₀ s) :
    Keeps s₀ (s.refuseRx k rx r) := refuse_keeps _ _ _ _ _ h

end Sys2Proof.Machine
end

