-- ==== Sys2Proof/Laws/DriveKeeps.lean ====
section
/-! SUPPORT. What the Drive Arbiter's operations keep: one motion at a time, and the drives of its element alone. -/

namespace Sys2Proof.Machine
open Sys2Proof

/-! ### Slots and elements as functions -/

theorem sourceIdx_inj {a b : Source} (h : sourceIdx a = sourceIdx b) : a = b := by
  cases a <;> cases b <;> first | rfl | (exact absurd h (by decide))

theorem elementIdx_inj {a b : Element} (h : elementIdx a = elementIdx b) : a = b := by
  cases a <;> cases b <;> first | rfl | (exact absurd h (by decide))

theorem sourceIdx_surj (i : Fin 4) : ∃ a, sourceIdx a = i := by
  match i with
  | 0 => exact ⟨.safety, rfl⟩
  | 1 => exact ⟨.panel, rfl⟩
  | 2 => exact ⟨.seqHead, rfl⟩
  | 3 => exact ⟨.seqLower, rfl⟩

theorem slot_setSlot (a b : Source) (m : Option Motion) (s : State) :
    (s.setSlot a m).slot b = if b = a then m else s.slot b := by
  cases a <;> cases b <;> simp [State.slot, State.setSlot, sourceIdx]

theorem element_setElement (a b : Element) (x : ElementState) (s : State) :
    (s.setElement a x).element b = if b = a then x else s.element b := by
  cases a <;> cases b <;> simp [State.element, State.setElement, elementIdx]

theorem slot_setElement (e : Element) (x : ElementState) (s : State) (a : Source) : (s.setElement e x).slot a = s.slot a := rfl
theorem element_setSlot (a : Source) (m : Option Motion) (s : State) (e : Element) : (s.setSlot a m).element e = s.element e := rfl
theorem slot_setStack (l : List Source) (s : State) (a : Source) : (s.setStack l).slot a = s.slot a := rfl
theorem element_setStack (l : List Source) (s : State) (e : Element) : (s.setStack l).element e = s.element e := rfl
theorem slot_emit (t : Notice) (s : State) (a : Source) : (s.emit t).slot a = s.slot a := rfl
theorem element_emit (t : Notice) (s : State) (e : Element) : (s.emit t).element e = s.element e := rfl
theorem slot_clearSlot (a b : Source) (s : State) : (s.clearSlot a).slot b = if b = a then none else s.slot b := by
  unfold State.clearSlot; rw [slot_setStack, slot_setSlot]
theorem element_clearSlot (a : Source) (s : State) (e : Element) : (s.clearSlot a).element e = s.element e := rfl

/-- The source's motion is in the running position. -/
def holdsPump (sl : Source → Option Motion) (a : Source) : Prop :=
  ∃ m, sl a = some m ∧ (m.phase = .running ∨ m.phase = .frozen)

/-- `Drive.OneMotion` over the slots and elements as functions. -/
def DriveOne (el : Element → ElementState) (sl : Source → Option Motion) : Prop :=
  (∀ a b, holdsPump sl a → holdsPump sl b → a = b)
    ∧ (∀ a m, sl a = some m → m.phase = .running → el m.element = drivenState m.target)
    ∧ (∀ e t, el e = drivenState t → ∃ a m, sl a = some m ∧ m.phase = .running ∧ m.element = e ∧ m.target = t)

/-- `Drive.StackFalls` over the stack and the slots as a function. -/
def StackOver (l : List Source) (sl : Source → Option Motion) : Prop :=
  l.Pairwise (fun a b => sourceLevel b < sourceLevel a) ∧ ∀ a ∈ l, ∀ b, holdsPump sl b → sourceLevel a < sourceLevel b

/-- The state's motions are as `Drive.OneMotion` says, and its stack as `Drive.StackFalls` says. -/
def State.One (s : State) : Prop := DriveOne s.element s.slot ∧ StackOver s.drive.stack s.slot

theorem StackOver.mono {l l' : List Source} {sl sl' : Source → Option Motion} (h : StackOver l sl) (hl : l'.Sublist l)
    (hp : ∀ b, holdsPump sl' b → holdsPump sl b) : StackOver l' sl' :=
  ⟨h.1.sublist hl, fun a ha b hb => h.2 a (hl.subset ha) b (hp b hb)⟩

/-- No source but this one comes to hold the pump where every other slot is as it was. -/
theorem pump_old {sl sl' : Source → Option Motion} {src : Source} (hsl : ∀ a, a ≠ src → sl' a = sl a)
    (hown : holdsPump sl' src → holdsPump sl src) (b : Source) (hb : holdsPump sl' b) : holdsPump sl b := by
  by_cases h : b = src
  · subst h; exact hown hb
  · obtain ⟨m, hm, hp⟩ := hb
    exact ⟨m, by rw [← hsl b h]; exact hm, hp⟩

theorem slotPhase_iff (s : State) (a : Source) :
    (slotPhase s.drive.slots[sourceIdx a] = some .running ∨ slotPhase s.drive.slots[sourceIdx a] = some .frozen)
      ↔ holdsPump s.slot a := by
  unfold slotPhase holdsPump State.slot
  constructor
  · rintro (h | h) <;> obtain ⟨m, hm, hp⟩ := Option.map_eq_some_iff.mp h
    · exact ⟨m, hm, Or.inl hp⟩
    · exact ⟨m, hm, Or.inr hp⟩
  · rintro ⟨m, hm, hp | hp⟩
    · left; rw [hm]; simp [hp]
    · right; rw [hm]; simp [hp]

theorem stackFalls_iff (s : State) : s.drive.StackFalls ↔ StackOver s.drive.stack s.slot := by
  constructor
  · rintro ⟨h1, h2⟩
    exact ⟨h1, fun a ha b hb => h2 a ha b ((slotPhase_iff s b).mpr hb)⟩
  · rintro ⟨h1, h2⟩
    exact ⟨h1, fun a ha b hb => h2 a ha b ((slotPhase_iff s b).mp hb)⟩

theorem driveOne_iff (s : State) : s.drive.OneMotion ↔ DriveOne s.element s.slot := by
  constructor
  · rintro ⟨h1, h2, h3⟩
    refine ⟨fun a b ha hb => ?_, fun a m hm hp => h2 (sourceIdx a) m hm hp, fun e t he => ?_⟩
    · exact sourceIdx_inj (h1 _ _ ((slotPhase_iff s a).mpr ha) ((slotPhase_iff s b).mpr hb))
    · obtain ⟨i, m, hm, k⟩ := h3 e t he
      obtain ⟨a, rfl⟩ := sourceIdx_surj i
      exact ⟨a, m, hm, k⟩
  · rintro ⟨h1, h2, h3⟩
    refine ⟨fun i j hi hj => ?_, fun i m hm hp => ?_, fun e t he => ?_⟩
    · obtain ⟨a, rfl⟩ := sourceIdx_surj i
      obtain ⟨b, rfl⟩ := sourceIdx_surj j
      rw [h1 a b ((slotPhase_iff s a).mp hi) ((slotPhase_iff s b).mp hj)]
    · obtain ⟨a, rfl⟩ := sourceIdx_surj i
      exact h2 a m hm hp
    · obtain ⟨a, m, hm, k⟩ := h3 e t he
      exact ⟨sourceIdx a, m, hm, k⟩

theorem one_iff (s : State) : s.drive.OneMotion ∧ s.drive.StackFalls ↔ s.One :=
  and_congr (driveOne_iff s) (stackFalls_iff s)

/-- The element state is not a driven one. -/
def AtRest (x : ElementState) : Prop := ∀ t, x ≠ drivenState t

theorem atRest_halted : AtRest .halted := fun t => by cases t <;> decide
theorem atRest_failed : AtRest .failed := fun t => by cases t <;> decide
theorem atRest_closed : AtRest .closed := fun t => by cases t <;> decide
theorem atRest_opened : AtRest .opened := fun t => by cases t <;> decide
theorem atRest_restState (t : Target) : AtRest (restState t) := by
  cases t
  · exact atRest_opened
  · exact atRest_closed

/-- A motion that does not hold the pump, or none. -/
def Waits (m : Option Motion) : Prop := ∀ x, m = some x → x.phase = .pending ∨ x.phase = .stacked

theorem waits_none : Waits none := fun x h => by cases h

theorem Waits.not_holds {m : Option Motion} (h : Waits m) {x : Motion} (hx : m = some x) :
    ¬ (x.phase = .running ∨ x.phase = .frozen) := by
  rcases h x hx with h | h <;> rw [h] <;> decide

/-- A slot whose motion does not drive takes a motion that waits, or none. -/
theorem DriveOne.setWaiting {el : Element → ElementState} {sl sl' : Source → Option Motion} {src : Source}
    (h : DriveOne el sl) (hold : ∀ m, sl src = some m → m.phase ≠ .running) (hnew : Waits (sl' src))
    (hsl : ∀ a, a ≠ src → sl' a = sl a) : DriveOne el sl' := by
  obtain ⟨h1, h2, h3⟩ := h
  have old : ∀ a, holdsPump sl' a → holdsPump sl a := by
    rintro a ⟨m, hm, hp⟩
    by_cases ha : a = src
    · subst ha; exact absurd hp (hnew.not_holds hm)
    · exact ⟨m, by rw [← hsl a ha]; exact hm, hp⟩
  refine ⟨fun a b ha hb => h1 a b (old a ha) (old b hb), fun a m hm hp => ?_, fun e t he => ?_⟩
  · by_cases ha : a = src
    · subst ha; exact absurd (Or.inl hp) (hnew.not_holds hm)
    · exact h2 a m (by rw [← hsl a ha]; exact hm) hp
  · obtain ⟨a, m, hm, hp, k⟩ := h3 e t he
    have ha : a ≠ src := by rintro rfl; exact hold m hm hp
    exact ⟨a, m, by rw [hsl a ha]; exact hm, hp, k⟩

/-- An element that no motion but the source's drives comes to rest, and the source's slot takes a motion that does not
drive, or none. -/
theorem DriveOne.rest {el el' : Element → ElementState} {sl sl' : Source → Option Motion} {src : Source} {e : Element}
    (h : DriveOne el sl) (hx : AtRest (el' e)) (hel : ∀ y, y ≠ e → el' y = el y)
    (honly : ∀ a m, sl a = some m → m.phase = .running → m.element = e → a = src)
    (hsrc : ∀ m, sl src = some m → m.phase = .running → m.element = e)
    (hnew : ∀ m, sl' src = some m → m.phase ≠ .running)
    (hfro : ∀ m, sl' src = some m → m.phase = .frozen → holdsPump sl src)
    (hsl : ∀ a, a ≠ src → sl' a = sl a) : DriveOne el' sl' := by
  obtain ⟨h1, h2, h3⟩ := h
  have old : ∀ a, holdsPump sl' a → holdsPump sl a := by
    rintro a ⟨m, hm, hp⟩
    by_cases ha : a = src
    · subst ha
      rcases hp with hp | hp
      · exact absurd hp (hnew m hm)
      · exact hfro m hm hp
    · exact ⟨m, by rw [← hsl a ha]; exact hm, hp⟩
  refine ⟨fun a b ha hb => h1 a b (old a ha) (old b hb), fun a m hm hp => ?_, fun y t hy => ?_⟩
  · have ha : a ≠ src := by rintro rfl; exact hnew m hm hp
    have hm' : sl a = some m := by rw [← hsl a ha]; exact hm
    have he : m.element ≠ e := fun hc => ha (honly a m hm' hp hc)
    rw [hel _ he]
    exact h2 a m hm' hp
  · have hye : y ≠ e := by rintro rfl; exact hx t hy
    rw [hel y hye] at hy
    obtain ⟨a, m, hm, hp, he, k⟩ := h3 y t hy
    have ha : a ≠ src := by rintro rfl; exact hye (he.symm.trans (hsrc m hm hp))
    exact ⟨a, m, by rw [hsl a ha]; exact hm, hp, he, k⟩

/-- With no motion driving, and the running position empty or the source's own, the source's motion drives. -/
theorem DriveOne.drive {el el' : Element → ElementState} {sl sl' : Source → Option Motion} {src : Source} {m : Motion}
    (h : DriveOne el sl) (hnone : ∀ a x, sl a = some x → x.phase ≠ .running) (hpump : ∀ a, holdsPump sl a → a = src)
    (hm : sl' src = some m) (hp : m.phase = .running) (hsl : ∀ a, a ≠ src → sl' a = sl a)
    (hel : el' m.element = drivenState m.target) (hel' : ∀ y, y ≠ m.element → el' y = el y) : DriveOne el' sl' := by
  obtain ⟨h1, h2, h3⟩ := h
  have own : ∀ a, holdsPump sl' a → a = src := by
    rintro a ⟨x, hx, hxp⟩
    by_contra ha
    exact ha (hpump a ⟨x, by rw [← hsl a ha]; exact hx, hxp⟩)
  refine ⟨fun a b ha hb => (own a ha).trans (own b hb).symm, fun a x hx hxp => ?_, fun y t hy => ?_⟩
  · have ha := own a ⟨x, hx, Or.inl hxp⟩
    subst ha
    rw [hm] at hx; cases hx; exact hel
  · by_cases hye : y = m.element
    · subst hye
      rw [hel] at hy
      have : m.target = t := by revert hy; cases m.target <;> cases t <;> decide
      exact ⟨src, m, hm, hp, rfl, this⟩
    · rw [hel' y hye] at hy
      obtain ⟨a, x, hx, hxp, -⟩ := h3 y t hy
      exact absurd hxp (hnone a x hx)

theorem Waits.not_pump {sl : Source → Option Motion} {src : Source} (h : Waits (sl src)) : ¬ holdsPump sl src := by
  rintro ⟨m, hm, hp⟩
  exact h.not_holds hm hp

/-- `DriveOne.setWaiting` with the stack: its entries are as they were, or fewer. -/
theorem State.One.setWaiting {s s' : State} {src : Source} (h : s.One)
    (hold : ∀ m, s.slot src = some m → m.phase ≠ .running) (hnew : Waits (s'.slot src))
    (hsl : ∀ a, a ≠ src → s'.slot a = s.slot a) (hel : s'.element = s.element)
    (hst : s'.drive.stack.Sublist s.drive.stack) : s'.One :=
  ⟨hel ▸ DriveOne.setWaiting h.1 hold hnew hsl, h.2.mono hst (pump_old hsl (fun x => absurd x hnew.not_pump))⟩

/-- `DriveOne.drive` with the stack: its entries lie below the source that comes to drive. -/
theorem State.One.drive {s s' : State} {src : Source} {m : Motion} (h : s.One)
    (hnone : ∀ a x, s.slot a = some x → x.phase ≠ .running) (hpump : ∀ a, holdsPump s.slot a → a = src)
    (hm : s'.slot src = some m) (hp : m.phase = .running) (hsl : ∀ a, a ≠ src → s'.slot a = s.slot a)
    (hel : s'.element m.element = drivenState m.target) (hel' : ∀ y, y ≠ m.element → s'.element y = s.element y)
    (hst : s'.drive.stack.Sublist s.drive.stack) (hlow : ∀ a ∈ s'.drive.stack, sourceLevel a < sourceLevel src) :
    s'.One := by
  refine ⟨DriveOne.drive h.1 hnone hpump hm hp hsl hel hel', h.2.1.sublist hst, fun a ha b hb => ?_⟩
  by_cases hbs : b = src
  · subst hbs; exact hlow a ha
  · obtain ⟨x, hx, hxp⟩ := hb
    exact absurd (hpump b ⟨x, by rw [← hsl b hbs]; exact hx, hxp⟩) hbs

/-- A change of the drive and the notices alone. -/
theorem keeps_of_one {s₀ s s' : State} (h : Keeps s₀ s) (e : s' = { s with drive := s'.drive, notices := s'.notices })
    (hf : s.One → s'.One) : Keeps s₀ s' := by
  have : Keeps s { s with drive := s'.drive, notices := s'.notices } :=
    ⟨rfl, fun k => ⟨k.1, k.2.1, k.2.2.1, k.2.2.2.1, (one_iff s').mpr (hf ((one_iff s).mp k.2.2.2.2.1)), k.2.2.2.2.2⟩⟩
  rw [← e] at this
  exact h.trans this

/-! ### Clearing and halting -/

/-- Clearing a slot whose motion does not drive. -/
theorem one_clear {s : State} (src : Source) (hold : ∀ m, s.slot src = some m → m.phase ≠ .running) (h : s.One) :
    (s.clearSlot src).One := by
  refine State.One.setWaiting (src := src) h hold ?_ ?_ rfl List.filter_sublist
  · rw [slot_clearSlot, if_pos rfl]; exact waits_none
  · intro a ha; rw [slot_clearSlot, if_neg ha]

/-- The element of the motion that holds the pump comes to rest, and its slot is cleared. -/
theorem one_restClear {s : State} {src : Source} {m : Motion} {x : ElementState} (hm : s.slot src = some m)
    (hp : m.phase = .running ∨ m.phase = .frozen) (hx : AtRest x) (h : s.One) :
    ((s.setElement m.element x).clearSlot src).One := by
  have hpump : holdsPump s.slot src := ⟨m, hm, hp⟩
  refine ⟨DriveOne.rest (src := src) (e := m.element) h.1 ?_ ?_ ?_ ?_ ?_ ?_ ?_, h.2.mono List.filter_sublist
    (pump_old (src := src) (fun a ha => by rw [slot_clearSlot, if_neg ha, slot_setElement]) (fun _ => hpump))⟩
  · rw [element_clearSlot, element_setElement, if_pos rfl]; exact hx
  · intro y hy; rw [element_clearSlot, element_setElement, if_neg hy]
  · intro a x hx hxp _; exact h.1.1 a src ⟨x, hx, Or.inl hxp⟩ hpump
  · intro x hx _; rw [hm] at hx; cases hx; rfl
  · intro x hx; rw [slot_clearSlot, if_pos rfl] at hx; cases hx
  · intro x hx; rw [slot_clearSlot, if_pos rfl] at hx; cases hx
  · intro a ha; rw [slot_clearSlot, if_neg ha, slot_setElement]

theorem withdraw_keeps {s₀ s : State} (src : Source) (notify : Bool) (h : Keeps s₀ s) :
    Keeps s₀ (s.withdraw src notify) := by
  unfold State.withdraw
  split
  · exact h
  · rename_i m hm
    have core : Keeps s₀ (State.clearSlot src (if m.phase = .running ∨ m.phase = .frozen then s.haltMotion m else s)) := by
      split
      · rename_i hp
        exact keeps_of_one h rfl (one_restClear hm hp atRest_halted)
      · rename_i hp
        refine keeps_of_one h rfl (one_clear src ?_)
        intro x hx hc; rw [hm] at hx; cases hx; exact hp (Or.inl hc)
    dsimp only
    apply emit_keeps
    split
    · unfold State.tell State.tellFree
      split <;> exact core
    · unfold State.tellFree
      split <;> exact core

/-! ### The safety close set -/

/-- No motion drives an element at rest. -/
theorem DriveOne.not_running {el : Element → ElementState} {sl : Source → Option Motion} (h : DriveOne el sl) {a : Source}
    {m : Motion} (hm : sl a = some m) (hr : AtRest (el m.element)) : m.phase ≠ .running :=
  fun hp => hr _ (h.2.1 a m hm hp)

theorem cancelOne_keeps {s₀ s : State} (e : Element) (src : Source) (hr : AtRest (s.element e)) (h : Keeps s₀ s) :
    Keeps s₀ (match s.slot src with
      | some m => if m.element = e then (s.clearSlot src).tell src m .cancelled else s
      | none => s)
    ∧ (match s.slot src with
      | some m => if m.element = e then (s.clearSlot src).tell src m .cancelled else s
      | none => s).element = s.element := by
  split
  · rename_i m hm
    split
    · rename_i he
      constructor
      · have core : Keeps s₀ (s.clearSlot src) := by
          refine keeps_of_one h rfl (fun k => one_clear src ?_ k)
          intro x hx
          exact DriveOne.not_running k.1 hx (by rw [hm] at hx; cases hx; rw [he]; exact hr)
        unfold State.tell State.tellFree
        split <;> exact core
      · unfold State.tell State.tellFree
        split <;> rfl
    · exact ⟨h, rfl⟩
  · exact ⟨h, rfl⟩

theorem cancelOthers_keeps {s₀ s : State} (e : Element) (hr : AtRest (s.element e)) (h : Keeps s₀ s) :
    Keeps s₀ (s.cancelOthers e) ∧ (s.cancelOthers e).element = s.element := by
  unfold State.cancelOthers
  simp only [List.foldl_cons, List.foldl_nil]
  have h1 := cancelOne_keeps e .panel hr h
  have h2 := cancelOne_keeps e .seqHead (by rw [h1.2]; exact hr) h1.1
  have h3 := cancelOne_keeps e .seqLower (by rw [h2.2, h1.2]; exact hr) h2.1
  exact ⟨h3.1, h3.2.trans (h2.2.trans h1.2)⟩

theorem leaveSet_keeps {s₀ s : State} (e : Element) (h : Keeps s₀ s) : Keeps s₀ (s.leaveSet e) :=
  keeps_of_one h rfl id

theorem safetyDone_keeps {s₀ s : State} (e : Element) (hr : AtRest (s.element e)) (h : Keeps s₀ s) :
    Keeps s₀ (s.safetyDone e) := by
  unfold State.safetyDone
  exact emit_keeps _ (cancelOthers_keeps (s := s.leaveSet e) e hr (leaveSet_keeps e h)).1

theorem safetyIdle_pending {s : State} (h : s.safetyIdle = true) : ∀ m, s.slot .safety = some m → m.phase ≠ .running := by
  intro m hm hp
  unfold State.safetyIdle at h
  rw [hm] at h
  simp [hp] at h

theorem setSafety_keeps {s₀ s : State} (x : Option Motion) (hi : s.safetyIdle = true) (hx : Waits x) (h : Keeps s₀ s) :
    Keeps s₀ (s.setSlot .safety x) := by
  refine keeps_of_one h rfl (fun k => k.setWaiting (src := .safety) (safetyIdle_pending hi) ?_ ?_ rfl (List.Sublist.refl _))
  · rw [slot_setSlot, if_pos rfl]; exact hx
  · intro a ha; rw [slot_setSlot, if_neg ha]

theorem pointSafety_keeps {s₀ : State} (n : Nat) : ∀ {s : State}, Keeps s₀ s → Keeps s₀ (State.pointSafety n s) := by
  induction n with
  | zero => intro s h; exact h
  | succ n ih =>
    intro s h
    unfold State.pointSafety
    split
    · rename_i hi
      split
      · exact setSafety_keeps none hi waits_none h
      · split
        · exact h
        split
        · rename_i hc
          refine ih (safetyDone_keeps _ ?_ (setSafety_keeps none hi waits_none h))
          rw [element_setSlot, hc]; exact atRest_closed
        · exact setSafety_keeps _ hi (fun x hx => by cases hx; exact Or.inl rfl) h
    · exact h

theorem refreshSafety_keeps {s₀ s : State} (h : Keeps s₀ s) : Keeps s₀ s.refreshSafety :=
  emit_keeps _ (pointSafety_keeps 4 h)

/-- A demand for a sluice that is in the set already, in a class that does not change, changes nothing (R95). -/
theorem placeSafety_taken {s : State} {c : SafetyClass} (h : placeClass c s.drive.safetySet = s.drive.safetySet) :
    s.placeSafety c = s := by
  unfold State.placeSafety
  exact if_pos h

theorem placeSafety_keeps {s₀ s : State} (c : SafetyClass) (h : Keeps s₀ s) : Keeps s₀ (s.placeSafety c) := by
  unfold State.placeSafety
  dsimp only
  split
  · exact h
  · exact refreshSafety_keeps (keeps_of_one h rfl id)

/-! ### Ending a motion -/

/-- Ending a motion keeps what its caller has made true of the cleared slot; a completed safety close has its sluice at
rest. -/
theorem retire_keeps {s₀ s : State} (src : Source) (m : Motion) (n : MotionNotice)
    (hr : src = .safety → n = .complete → AtRest (s.element m.element)) (h : Keeps s₀ (s.clearSlot src)) :
    Keeps s₀ (s.retire src m n) := by
  unfold State.retire
  split
  · rename_i hs
    apply pointSafety_keeps
    split
    · rename_i hn
      exact safetyDone_keeps _ (hr hs hn) h
    · exact emit_keeps _ (leaveSet_keeps _ h)
  · unfold State.tell State.tellFree
    split <;> exact h

theorem endWith_keeps {s₀ s : State} (src : Source) (m : Motion) (n : MotionNotice) (raised : List Notice)
    (hr : src = .safety → n = .complete → AtRest (s.element m.element)) (h : Keeps s₀ (s.clearSlot src)) :
    Keeps s₀ (s.endWith src m n raised) := emits_keeps _ (retire_keeps src m n hr h)

theorem endMotion_keeps {s₀ s : State} (src : Source) (m : Motion) (n : MotionNotice)
    (hr : src = .safety → n = .complete → AtRest (s.element m.element)) (h : Keeps s₀ (s.clearSlot src)) :
    Keeps s₀ (s.endMotion src m n) := endWith_keeps src m n [] hr h

/-- Ending a motion that does not drive, with a notice other than "complete". -/
theorem endIdle_keeps {s₀ s : State} (src : Source) (m : Motion) (n : MotionNotice) (hn : n ≠ .complete)
    (hold : ∀ x, s.slot src = some x → x.phase ≠ .running) (h : Keeps s₀ s) : Keeps s₀ (s.endMotion src m n) :=
  endMotion_keeps src m n (fun _ hc => absurd hc hn) (keeps_of_one h rfl (one_clear src hold))

theorem requestMotion_keeps {s₀ s : State} (src : Source) (e : Element) (t : Target) (h : Keeps s₀ s) :
    Keeps s₀ (s.requestMotion src e t) := by
  unfold State.requestMotion
  have h1 : Keeps s₀ (if src = .panel then s.withdraw .panel true else s) := by
    split
    · exact withdraw_keeps _ _ h
    · exact h
  generalize (if src = .panel then s.withdraw .panel true else s) = s1 at h1
  dsimp only
  split
  · exact h1
  · rename_i hn
    split
    · exact h1
    · split
      · exact h1
      · split
        · exact h1
        · apply emit_keeps
          refine keeps_of_one h1 rfl (fun k => k.setWaiting (src := src) ?_ ?_ ?_ rfl (List.Sublist.refl _))
          · intro m hm; rw [hm] at hn; simp at hn
          · rw [slot_setSlot, if_pos rfl]; exact fun x hx => by cases hx; exact Or.inl rfl
          · intro a ha; rw [slot_setSlot, if_neg ha]

theorem ceaseOne_keeps {s₀ s : State} (src : Source) (h : Keeps s₀ s) :
    Keeps s₀ (match s.slot src with
      | some m =>
        if m.target = .toOpen ∧ m.phase ≠ .pending ∧ ¬ s.claimsHeld (elementUnit m.element) then
          let s := if m.phase = .running then s.haltMotion m else s
          s.endMotion src m .noClaim
        else s
      | none => s) := by
  split
  · rename_i m hm
    split
    · dsimp only
      split
      · rename_i hp
        exact endMotion_keeps src m .noClaim (fun _ hc => by cases hc)
          (keeps_of_one h rfl (one_restClear hm (Or.inl hp) atRest_halted))
      · rename_i hp
        exact endIdle_keeps src m .noClaim (by decide) (fun x hx => by rw [hm] at hx; cases hx; exact hp) h
    · exact h
  · exact h

theorem claimsCeased_keeps {s₀ s : State} (h : Keeps s₀ s) : Keeps s₀ s.claimsCeased := by
  unfold State.claimsCeased
  exact foldl_keeps _ _ (fun s src h => ceaseOne_keeps src h) h

/-! ### Grants -/

theorem find_runningSource {s : State} {a : Source} (h : s.runningSource = some a) : holdsPump s.slot a := by
  unfold State.runningSource at h
  have := List.find?_some h
  unfold State.inPhase at this
  cases hm : s.slot a with
  | none => rw [hm] at this; simp at this
  | some m =>
    rw [hm] at this
    simp only [Bool.or_eq_true, decide_eq_true_eq] at this
    exact ⟨m, hm, this⟩

theorem no_runningSource {s : State} (h : s.runningSource = none) (a : Source) : ¬ holdsPump s.slot a := by
  rintro ⟨m, hm, hp⟩
  unfold State.runningSource at h
  have := List.find?_eq_none.mp h a (by cases a <;> decide)
  unfold State.inPhase at this
  rw [hm] at this
  simp only [Bool.or_eq_true, decide_eq_true_eq] at this
  exact this hp

theorem one_grant {s : State} {src : Source} {m : Motion} (hno : ∀ a, ¬ holdsPump s.slot a)
    (hlow : ∀ a ∈ s.drive.stack, sourceLevel a < sourceLevel src) (h : s.One) : (s.grant src m).One := by
  unfold State.grant
  refine h.drive (src := src) (m := { m with phase := .running, allowance := s.travelLimit m.element }) ?_ ?_ ?_ rfl ?_ ?_ ?_
    (List.Sublist.refl _) hlow
  · intro a x hx hp; exact hno a ⟨x, hx, Or.inl hp⟩
  · intro a ha; exact absurd ha (hno a)
  · rw [slot_setElement, slot_setSlot, if_pos rfl]
  · intro a ha; rw [slot_setElement, slot_setSlot, if_neg ha]
  · rw [element_setElement, if_pos rfl]
  · intro y hy; rw [element_setElement, if_neg hy, element_setSlot]

theorem grant_keeps {s₀ s : State} (src : Source) (m : Motion) (hno : ∀ a, ¬ holdsPump s.slot a)
    (hlow : s.One → ∀ a ∈ s.drive.stack, sourceLevel a < sourceLevel src) (h : Keeps s₀ s) : Keeps s₀ (s.grant src m) :=
  keeps_of_one h rfl (fun k => one_grant hno (hlow k) k)

theorem one_push {s : State} {src : Source} {m : Motion} (hm : s.slot src = some m)
    (hp : m.phase = .running ∨ m.phase = .frozen) (k : s.One) : (s.pushMotion src m).One := by
  have hpump : holdsPump s.slot src := ⟨m, hm, hp⟩
  have hnot : ∀ b, ¬ holdsPump (s.pushMotion src m).slot b := by
    rintro b ⟨x, hx, hxp⟩
    unfold State.pushMotion State.haltMotion at hx
    rw [slot_setStack, slot_setElement, slot_setSlot] at hx
    by_cases hb : b = src
    · rw [if_pos hb] at hx; cases hx; simp at hxp
    · rw [if_neg hb] at hx; exact hb (k.1.1 b src ⟨x, hx, hxp⟩ hpump)
  refine ⟨?_, List.pairwise_cons.mpr ⟨fun a ha => k.2.2 a ha src hpump, k.2.1⟩, fun a _ b hb => absurd hb (hnot b)⟩
  unfold State.pushMotion State.haltMotion
  refine DriveOne.rest (src := src) (e := m.element) k.1 ?_ ?_ ?_ ?_ ?_ ?_ ?_
  · rw [element_setStack, element_setElement, if_pos rfl]; exact atRest_halted
  · intro y hy; rw [element_setStack, element_setElement, if_neg hy, element_setSlot]
  · intro a x hx hxp _; exact k.1.1 a src ⟨x, hx, Or.inl hxp⟩ hpump
  · intro x hx _; rw [hm] at hx; cases hx; rfl
  · intro x hx hc; rw [slot_setStack, slot_setElement, slot_setSlot, if_pos rfl] at hx; cases hx; cases hc
  · intro x hx hc; rw [slot_setStack, slot_setElement, slot_setSlot, if_pos rfl] at hx; cases hx; cases hc
  · intro a ha; rw [slot_setStack, slot_setElement, slot_setSlot, if_neg ha]

theorem pushMotion_keeps {s₀ s : State} (src : Source) (m : Motion) (hm : s.slot src = some m)
    (hp : m.phase = .running ∨ m.phase = .frozen) (h : Keeps s₀ s) : Keeps s₀ (s.pushMotion src m) :=
  keeps_of_one h rfl (one_push hm hp)

theorem pushMotion_free {s : State} {src : Source} {m : Motion} (hone : ∀ a, holdsPump s.slot a → a = src) (a : Source) :
    ¬ holdsPump (s.pushMotion src m).slot a := by
  rintro ⟨x, hx, hp⟩
  unfold State.pushMotion State.haltMotion at hx
  rw [slot_setStack, slot_setElement, slot_setSlot] at hx
  by_cases ha : a = src
  · rw [if_pos ha] at hx; cases hx; simp at hp
  · rw [if_neg ha] at hx; exact ha (hone a ⟨x, hx, hp⟩)

theorem candidate_spec {s : State} {floor : Nat} {a : Source} {l : List Source} (h : s.candidates floor = a :: l)
    {m : Motion} (hm : s.slot a = some m) : m.phase = .pending ∧ floor < sourceLevel a := by
  have : a ∈ s.candidates floor := by rw [h]; exact List.mem_cons_self
  unfold State.candidates at this
  have := (List.mem_filter.mp this).2
  rw [hm] at this
  simp only [Bool.and_eq_true, decide_eq_true_eq] at this
  exact ⟨this.1.1, this.2⟩

/-- A bar to a motion is never its completion. -/
theorem motionBar_ne {s : State} {m : Motion} {n : MotionNotice} (h : s.motionBar m = some n) : n ≠ .complete := by
  unfold State.motionBar at h
  split at h
  · cases h
  · split at h
    · cases h; decide
    · split at h
      · cases h
      · cases h; decide

theorem grantOrRemove_keeps {s₀ s : State} (src : Source) (m : Motion) (hno : ∀ a, ¬ holdsPump s.slot a)
    (hlow : s.One → ∀ a ∈ s.drive.stack, sourceLevel a < sourceLevel src) (h : Keeps s₀ s) :
    Keeps s₀ (s.grantOrRemove src m) := by
  unfold State.grantOrRemove
  split
  · exact grant_keeps src m hno hlow h
  · exact endIdle_keeps src m _ (motionBar_ne (by assumption)) (fun x hx hp => hno src ⟨x, hx, Or.inl hp⟩) h

theorem slot_driveOn (src a : Source) (m : Motion) (s : State) :
    (s.driveOn src m).slot a = if a = src then some { m with phase := .running } else s.slot a := by
  unfold State.driveOn; rw [slot_setElement, slot_setSlot]

theorem element_driveOn (src : Source) (e : Element) (m : Motion) (s : State) :
    (s.driveOn src m).element e = if e = m.element then drivenState m.target else s.element e := by
  unfold State.driveOn; rw [element_setElement, element_setSlot]

theorem resumeTop_keeps {s₀ s : State} (src : Source) (m : Motion) (rest : List Source) (hst : s.drive.stack = src :: rest)
    (hno : ∀ a, ¬ holdsPump s.slot a) (h : Keeps s₀ s) : Keeps s₀ (s.resumeTop src m) := by
  unfold State.resumeTop
  split
  · refine keeps_of_one h rfl (fun k => ?_)
    refine k.drive (src := src) (m := { m with phase := .running }) ?_ ?_ ?_ rfl ?_ ?_ ?_ List.filter_sublist ?_
    · intro a x hx hp; exact hno a ⟨x, hx, Or.inl hp⟩
    · intro a ha; exact absurd ha (hno a)
    · rw [slot_setStack, slot_driveOn, if_pos rfl]
    · intro a ha; rw [slot_setStack, slot_driveOn, if_neg ha]
    · rw [element_setStack, element_driveOn, if_pos rfl]
    · intro y hy; rw [element_setStack, element_driveOn, if_neg hy]
    · intro a ha
      obtain ⟨ha, hne⟩ := List.mem_filter.mp ha
      rw [hst] at ha
      rcases List.mem_cons.mp ha with rfl | ha
      · simp at hne
      · have := k.2.1; rw [hst] at this
        exact (List.pairwise_cons.mp this).1 a ha
  · exact endIdle_keeps src m _ (motionBar_ne (by assumption)) (fun x hx hp => hno src ⟨x, hx, Or.inl hp⟩) h

theorem grantFree_keeps {s₀ s : State} (hno : ∀ a, ¬ holdsPump s.slot a) (h : Keeps s₀ s) : Keeps s₀ s.grantFree := by
  unfold State.grantFree
  split
  · rename_i top rest hst
    split
    · rename_i src l hc
      split
      · rename_i m hm
        refine grantOrRemove_keeps _ _ hno (fun k a ha => ?_) h
        have hf := (candidate_spec hc hm).2
        rw [hst] at ha
        rcases List.mem_cons.mp ha with rfl | ha
        · exact hf
        · have := k.2.1; rw [hst] at this
          exact ((List.pairwise_cons.mp this).1 a ha).trans hf
      · exact h
    · split
      · exact resumeTop_keeps _ _ rest hst hno h
      · exact h
    · exact h
  · rename_i hst
    split
    · split
      · refine grantOrRemove_keeps _ _ hno (fun k a ha => ?_) h
        rw [hst] at ha; cases ha
      · exact h
    · exact h

theorem grant_still (src : Source) (m : Motion) (s : State) : (s.grant src m).still = s.still := rfl
theorem pushMotion_still (src : Source) (m : Motion) (s : State) : (s.pushMotion src m).still = s.still := rfl

theorem decideGrant_keeps {s₀ s : State} (h : Keeps s₀ s) : Keeps s₀ s.decideGrant := by
  unfold State.decideGrant
  split
  · rename_i hn
    exact grantFree_keeps (no_runningSource hn) h
  · rename_i run hr
    have hpump := find_runningSource hr
    split
    · exact h
    · rename_i rm hrm
      dsimp only
      split
      · exact h
      · rename_i src l hc
        split
        · exact h
        · rename_i m hm
          have hc' : m.phase = .pending ∧ sourceLevel run < sourceLevel src := by
            split at hc
            · split at hc
              · cases hc
              · rename_i hns
                have := candidate_spec hc hm
                refine ⟨this.1, lt_of_le_of_lt ?_ this.2⟩
                revert hns; cases run <;> decide
            · exact candidate_spec hc hm
          split
          · obtain ⟨x, hx, hp⟩ := hpump
            have : x = rm := by rw [hrm] at hx; cases hx; rfl
            subst this
            have hpump : holdsPump s.slot run := ⟨x, hx, hp⟩
            by_cases hone : ∀ a, holdsPump s.slot a → a = run
            · refine grant_keeps src m (pushMotion_free hone) (fun k a ha => ?_) (pushMotion_keeps run x hrm hp h)
              have hs : (s.pushMotion run x).drive.stack = run :: s.drive.stack := rfl
              have hk := k.2.1
              rw [hs] at ha hk
              rcases List.mem_cons.mp ha with rfl | ha
              · exact hc'.2
              · exact ((List.pairwise_cons.mp hk).1 a ha).trans hc'.2
            · refine ⟨?_, fun k => absurd (fun a ha => ((one_iff s).mp (h.2 k).2.2.2.2.1).1.1 a run ha hpump) hone⟩
              exact (grant_still src m _).trans ((pushMotion_still run x s).trans h.1)
          · refine endIdle_keeps src m _ (motionBar_ne (by assumption)) (fun x hx => ?_) h
            rw [hm] at hx; cases hx
            rw [hc'.1]; decide

/-! ### Stop and held -/

theorem freezeMotion_keeps {s₀ s : State} (h : Keeps s₀ s) : Keeps s₀ s.freezeMotion := by
  unfold State.freezeMotion
  split
  · rename_i src hr
    split
    · rename_i m hm
      split
      · rename_i hp
        refine keeps_of_one h rfl (fun k => ?_)
        have hpump : holdsPump s.slot src := ⟨m, hm, Or.inl hp⟩
        unfold State.haltMotion
        refine ⟨DriveOne.rest (src := src) (e := m.element) k.1 ?_ ?_ ?_ ?_ ?_ ?_ ?_, k.2.mono (List.Sublist.refl _)
          (pump_old (src := src) (fun a ha => by rw [slot_setElement, slot_setSlot, if_neg ha]) (fun _ => hpump))⟩
        · rw [element_setElement, if_pos rfl]; exact atRest_halted
        · intro y hy; rw [element_setElement, if_neg hy, element_setSlot]
        · intro a x hx hxp _; exact k.1.1 a src ⟨x, hx, Or.inl hxp⟩ hpump
        · intro x hx _; rw [hm] at hx; cases hx; rfl
        · intro x hx hc; rw [slot_setElement, slot_setSlot, if_pos rfl] at hx; cases hx; cases hc
        · intro x hx _; exact hpump
        · intro a ha; rw [slot_setElement, slot_setSlot, if_neg ha]
      · exact h
    · exact h
  · exact h

theorem unfreezeMotion_keeps {s₀ s : State} (h : Keeps s₀ s) : Keeps s₀ s.unfreezeMotion := by
  unfold State.unfreezeMotion
  split
  · rename_i src hr
    split
    · rename_i m hm
      split
      · rename_i hp
        split
        · split
          · apply emit_keeps
            refine keeps_of_one h rfl (fun k => ?_)
            have hpump : holdsPump s.slot src := ⟨m, hm, Or.inr hp⟩
            refine k.drive (src := src) (m := { m with phase := .running }) ?_ ?_ ?_ rfl ?_ ?_ ?_
              (List.Sublist.refl _) (fun a ha => k.2.2 a ha src hpump)
            · intro a x hx hxp
              have ha := k.1.1 a src ⟨x, hx, Or.inl hxp⟩ hpump
              subst ha
              rw [hm] at hx; cases hx; rw [hp] at hxp; cases hxp
            · intro a ha; exact k.1.1 a src ha hpump
            · rw [slot_driveOn, if_pos rfl]
            · intro a ha; rw [slot_driveOn, if_neg ha]
            · rw [element_driveOn, if_pos rfl]
            · intro y hy; rw [element_driveOn, if_neg hy]
          · exact endIdle_keeps src m _ (motionBar_ne (by assumption))
              (fun x hx => by rw [hm] at hx; cases hx; rw [hp]; decide) h
        · exact withdraw_keeps _ _ h
      · exact h
    · exact h
  · exact h

theorem pushAtHeld_keeps {s₀ s : State} (h : Keeps s₀ s) : Keeps s₀ s.pushAtHeld := by
  unfold State.pushAtHeld
  split
  · rename_i src hr
    split
    · rename_i m hm
      split
      · exact h
      · apply emit_keeps
        obtain ⟨x, hx, hp⟩ := find_runningSource hr
        rw [hm] at hx; cases hx
        exact pushMotion_keeps src m hm hp h
    · exact h
  · exact h

end Sys2Proof.Machine
end

