-- ==== Sys2Proof/Laws/PagesKeeps.lean ====
section
/-! SUPPORT. What the page store's operations keep: every page once, on the free list or in one record's chain. -/

namespace Sys2Proof.Machine
open Sys2Proof

/-- The pages of a record fit its lines (R154). -/
def Record.PagesFit (r : Record) : Prop := r.pages.length = 1 + (r.lines.length + 3) / 4

theorem pagesWhole_of_perm {st st' : Store} (hp : (st'.free ++ st'.records.flatMap Record.pages).Perm
      (st.free ++ st.records.flatMap Record.pages))
    (hr : (∀ r ∈ st.records, r.PagesFit) → ∀ r ∈ st'.records, r.PagesFit) (hf : st.PromisesFit → st'.PromisesFit)
    (h : st.PagesWhole) : st'.PagesWhole :=
  ⟨hp.trans h.1, hr h.2.1, hf h.2.2⟩

/-! ### What is promised (R153) -/

/-- The pages a record counts toward its batch's RECEIVING pages. -/
def recvOf (key : BatchKey) (r : Record) : Nat := if r.key = key && r.state = .receiving then r.pages.length else 0

theorem receivingPages_eq (st : Store) (key : BatchKey) : st.receivingPages key = (st.records.map (recvOf key)).sum := by
  unfold Store.receivingPages
  induction st.records with
  | nil => rfl
  | cons x l ih =>
    rw [List.filter_cons, List.map_cons, List.sum_cons, ← ih]
    unfold recvOf
    split
    · rw [List.map_cons, List.sum_cons]
    · rw [Nat.zero_add]

/-- Where only one batch's RECEIVING pages fall, by at most `d`, the reserved count rises by at most `d`. -/
theorem reserved_le {rs : List Reservation} {f g : BatchKey → Nat} {key : BatchKey} {d : Nat}
    (hn : (rs.map Reservation.key).Nodup) (ho : ∀ k, k ≠ key → f k ≤ g k) (hk : f key ≤ g key + d) :
    (rs.map (fun r => r.promise - g r.key)).sum ≤ (rs.map (fun r => r.promise - f r.key)).sum + d := by
  induction rs with
  | nil => simp
  | cons x rs ih =>
    simp only [List.map_cons, List.nodup_cons] at hn
    have := ih hn.2
    simp only [List.map_cons, List.sum_cons]
    by_cases hx : x.key = key
    · have hrest : (rs.map (fun r => r.promise - g r.key)).sum ≤ (rs.map (fun r => r.promise - f r.key)).sum := by
        clear this ih
        have hne : ∀ y ∈ rs, y.key ≠ key := fun y hy hc => hn.1 (by rw [hx, ← hc]; exact List.mem_map_of_mem hy)
        clear hn
        induction rs with
        | nil => simp
        | cons y rs ih =>
          simp only [List.map_cons, List.sum_cons]
          have h1 := ho y.key (hne y List.mem_cons_self)
          have h2 := ih (fun z hz => hne z (List.mem_cons_of_mem _ hz))
          omega
      rw [hx]; omega
    · have := ho x.key hx
      omega

/-- Where one batch's RECEIVING pages rise, and its reservation had pages left, the reserved count falls. -/
theorem reserved_lt {rs : List Reservation} {f g : BatchKey → Nat} {key : BatchKey} (ho : ∀ k, f k ≤ g k)
    (hk : f key + 1 ≤ g key) (hr : 1 ≤ ((rs.filter (fun r => r.key = key)).map (fun r => r.promise - f r.key)).sum) :
    (rs.map (fun r => r.promise - g r.key)).sum + 1 ≤ (rs.map (fun r => r.promise - f r.key)).sum := by
  have all : ∀ l : List Reservation, (l.map (fun r => r.promise - g r.key)).sum ≤ (l.map (fun r => r.promise - f r.key)).sum := by
    intro l
    induction l with
    | nil => simp
    | cons y l ih =>
      simp only [List.map_cons, List.sum_cons]
      have := ho y.key
      omega
  induction rs with
  | nil => simp at hr
  | cons x rs ih =>
    simp only [List.map_cons, List.sum_cons]
    by_cases hx : x.key = key
    · rw [List.filter_cons_of_pos (by simpa using hx)] at hr
      simp only [List.map_cons, List.sum_cons] at hr
      by_cases h0 : x.promise - f x.key = 0
      · have := ih (by omega)
        have := ho x.key
        omega
      · have h1 := all rs
        have h2 : f x.key + 1 ≤ g x.key := by rw [hx]; exact hk
        omega
    · rw [List.filter_cons_of_neg (by simpa using hx)] at hr
      have := ih hr
      have := ho x.key
      omega

/-- Pages come back to the free list: `d` of them, which were one batch's. -/
theorem promisesFit_free {st st' : Store} {key : BatchKey} {d : Nat} (hres : st'.reservations = st.reservations)
    (hfree : st'.freePages = st.freePages + d) (ho : ∀ k, k ≠ key → st.receivingPages k ≤ st'.receivingPages k)
    (hk : st.receivingPages key ≤ st'.receivingPages key + d) (h : st.PromisesFit) : st'.PromisesFit := by
  refine ⟨by rw [hres]; exact h.1, ?_⟩
  have h1 := h.2
  have h2 := reserved_le h.1 ho hk
  unfold Store.reserved at h1 ⊢
  rw [hres, hfree]
  exact h2.trans (Nat.add_le_add_right h1 d)

/-- Nothing that counts changes. -/
theorem promisesFit_same {st st' : Store} (hres : st'.reservations = st.reservations)
    (hfree : st'.freePages = st.freePages) (hr : ∀ k, st'.receivingPages k = st.receivingPages k) (h : st.PromisesFit) :
    st'.PromisesFit :=
  promisesFit_free (key := 0) (d := 0) hres hfree (fun k _ => (hr k).ge) (hr 0).ge h

theorem alloc_head {st : Store} {key : BatchKey} {b : Bool} {p : Nat} {ps : List Nat} (h : st.alloc key b = some (p, ps)) :
    st.free = p :: ps := by
  unfold Store.alloc at h
  dsimp only at h
  cases hf : st.free with
  | nil => rw [hf] at h; dsimp only at h; split_ifs at h
  | cons q qs =>
    rw [hf] at h
    dsimp only at h
    split_ifs at h <;> (cases h; rfl)

theorem alloc_cond {st : Store} {key : BatchKey} {b : Bool} {p : Nat} {ps : List Nat} (h : st.alloc key b = some (p, ps)) :
    (b = true ∧ 1 ≤ ((st.reservations.filter (fun r => r.key = key)).map st.remaining).sum) ∨ 1 ≤ st.available := by
  unfold Store.alloc at h
  dsimp only at h
  rcases hb : b with _ | _
  · rw [hb] at h
    by_cases hc : 1 ≤ st.available
    · exact Or.inr hc
    · rw [if_neg (by simp [hc])] at h; cases h
  · rw [hb, if_pos rfl] at h
    by_cases hc : 1 ≤ ((st.reservations.filter (fun r => r.key = key)).map st.remaining).sum
    · exact Or.inl ⟨rfl, hc⟩
    · by_cases hd : 1 ≤ st.available
      · exact Or.inr hd
      · rw [if_neg (by simp only [hc, hd, or_self, not_false_eq_true])] at h; cases h

/-- The page at the head of the free list is taken for a record that counts toward its batch exactly where the allocation
may draw on the reservation. -/
theorem promisesFit_alloc {st st' : Store} {key : BatchKey} {b : Bool} {p : Nat} {ps : List Nat}
    (ha : st.alloc key b = some (p, ps)) (hres : st'.reservations = st.reservations) (hfree : st'.free = ps)
    (ho : ∀ k, st.receivingPages k ≤ st'.receivingPages k)
    (hk : b = true → st.receivingPages key + 1 ≤ st'.receivingPages key) (h : st.PromisesFit) : st'.PromisesFit := by
  refine ⟨by rw [hres]; exact h.1, ?_⟩
  have hf : st.freePages = st'.freePages + 1 := by
    unfold Store.freePages
    rw [hfree]
    rw [alloc_head ha]; rfl
  have hc := alloc_cond ha
  have h1 := h.2
  have hle := reserved_le (key := key) (d := 0) h.1 (fun k _ => ho k) (ho key)
  rcases hc with ⟨hb, hc⟩ | hc
  · have := reserved_lt (rs := st.reservations) ho (hk hb) hc
    unfold Store.reserved at h1 ⊢
    rw [hres]
    have e1 : st'.reserved = st'.reserved := rfl
    have : ((st.reservations.map (fun r => r.promise - st'.receivingPages r.key)).sum) + 1 ≤ (st.reservations.map st.remaining).sum := this
    have : (st.reservations.map st'.remaining).sum + 1 ≤ (st.reservations.map st.remaining).sum := this
    omega
  · unfold Store.available at hc
    have hle : (st.reservations.map st'.remaining).sum ≤ (st.reservations.map st.remaining).sum + 0 := hle
    have : st'.reserved ≤ st.reserved := by unfold Store.reserved; rw [hres]; exact hle
    omega

/-! ### Freeing -/

theorem batch_filter_perm (key : BatchKey) (p : Record → Bool) (l : List Record) :
    (([1, 2, 3].flatMap (fun n => l.filter (fun r => r.key = key && r.state ≠ .closed && r.position = n))).filter p).Perm
      (l.filter (fun r => r.key = key && r.state ≠ .closed && (r.position = 1 || r.position = 2 || r.position = 3) && p r)) := by
  induction l with
  | nil => exact List.Perm.refl _
  | cons x l ih =>
    simp only [List.flatMap_cons, List.flatMap_nil, List.append_nil, List.filter_append, List.filter_filter] at ih ⊢
    by_cases hk : x.key = key <;> by_cases hs : x.state = .closed <;> by_cases hp : p x = true <;>
      simp only [List.filter_cons, hk, hs, hp, decide_true, decide_false, Bool.true_and, Bool.false_and, Bool.and_true,
        Bool.and_false, ne_eq, not_true_eq_false, not_false_eq_true, Bool.false_eq_true, if_false] <;> try exact ih
    by_cases h1 : x.position = 1
    · simp [h1]; simpa using ih
    · by_cases h2 : x.position = 2
      · simp [h2]
        refine List.perm_middle.trans (List.Perm.cons _ ?_)
        simpa using ih
      · by_cases h3 : x.position = 3
        · simp [h3]
          rw [← List.append_assoc]
          refine List.perm_middle.trans (List.Perm.cons _ ?_)
          simpa using ih
        · simpa [h1, h2, h3] using ih

theorem sum_keep_drop (q : Record → Bool) (w : Record → Nat) (l : List Record) :
    ((l.filter q).map w).sum + ((l.filter (fun r => !q r)).map w).sum = (l.map w).sum := by
  induction l with
  | nil => rfl
  | cons x l ih =>
    cases hx : q x
    · rw [List.filter_cons_of_neg (by simp [hx]), List.filter_cons_of_pos (by simp [hx])]
      simp only [List.map_cons, List.sum_cons]; omega
    · rw [List.filter_cons_of_pos hx, List.filter_cons_of_neg (by simp [hx])]
      simp only [List.map_cons, List.sum_cons]; omega

theorem length_flatPages (l : List Record) : (l.flatMap Record.pages).length = (l.map (fun r => r.pages.length)).sum := by
  rw [List.length_flatMap]

theorem recvOf_le (key : BatchKey) (r : Record) : recvOf key r ≤ r.pages.length := by unfold recvOf; split <;> omega

theorem sum_recvOf_le (key : BatchKey) (l : List Record) : (l.map (recvOf key)).sum ≤ (l.map (fun r => r.pages.length)).sum := by
  induction l with
  | nil => exact Nat.le_refl _
  | cons x l ih =>
    simp only [List.map_cons, List.sum_cons]
    have := recvOf_le key x
    omega

theorem sum_recvOf_zero {key : BatchKey} {l : List Record} (h : ∀ r ∈ l, r.key ≠ key) : (l.map (recvOf key)).sum = 0 := by
  induction l with
  | nil => rfl
  | cons x l ih =>
    simp only [List.map_cons, List.sum_cons]
    rw [ih (fun r hr => h r (List.mem_cons_of_mem _ hr))]
    unfold recvOf
    rw [if_neg (by simp [h x List.mem_cons_self])]

theorem freeWhere_promises {st : Store} (key : BatchKey) (p : Record → Bool) (h : st.PromisesFit) :
    (st.freeWhere key p).PromisesFit := by
  let gone := fun (r : Record) => r.key = key && r.state ≠ .closed && (r.position = 1 || r.position = 2 || r.position = 3) && p r
  have hb := ((batch_filter_perm key p st.records).flatMap_right Record.pages).length_eq
  refine promisesFit_free (st := st) (key := key) (d := ((st.records.filter gone).map (fun r => r.pages.length)).sum) rfl ?_ ?_ ?_ h
  · unfold Store.freeWhere Store.freePages
    dsimp only
    rw [List.length_append]
    exact congrArg (st.free.length + ·) (hb.trans (length_flatPages _))
  · intro k hk
    rw [receivingPages_eq, receivingPages_eq, ← sum_keep_drop gone (recvOf k) st.records]
    have : ((st.records.filter gone).map (recvOf k)).sum = 0 := by
      apply sum_recvOf_zero
      intro r hr hc
      have := (List.mem_filter.mp hr).2
      simp only [gone, Bool.and_eq_true, decide_eq_true_eq] at this
      exact hk (hc.symm.trans this.1.1.1)
    rw [this, Nat.zero_add]
    exact Nat.le_refl _
  · rw [receivingPages_eq, receivingPages_eq, ← sum_keep_drop gone (recvOf key) st.records, Nat.add_comm]
    exact Nat.add_le_add_left (sum_recvOf_le key _) _

theorem freeWhere_whole {st : Store} (key : BatchKey) (p : Record → Bool) (h : st.PagesWhole) :
    (st.freeWhere key p).PagesWhole := by
  refine pagesWhole_of_perm ?_ (fun k r hr => k r (List.mem_of_mem_filter hr)) (freeWhere_promises key p) h
  unfold Store.freeWhere Store.batch
  dsimp only
  rw [List.append_assoc]
  refine List.Perm.append_left _ ?_
  refine ((batch_filter_perm key p st.records).flatMap_right Record.pages).append_right _ |>.trans ?_
  rw [← List.flatMap_append]
  exact (List.filter_append_perm _ _).flatMap_right _

theorem freeOne_promises {st : Store} {r : Record} (hr : r ∈ st.records) (h : st.PromisesFit) : (st.freeOne r).PromisesFit := by
  have hs : ∀ k, (st.records.map (recvOf k)).sum = recvOf k r + ((st.records.erase r).map (recvOf k)).sum := fun k => by
    have := ((List.perm_cons_erase hr).map (recvOf k)).sum_eq
    simpa using this
  refine promisesFit_free (st := st) (key := r.key) (d := r.pages.length) rfl (by unfold Store.freeOne Store.freePages; simp) ?_ ?_ h
  · intro k hk
    rw [receivingPages_eq, receivingPages_eq, hs k]
    have : recvOf k r = 0 := by unfold recvOf; rw [if_neg (by simp [Ne.symm hk])]
    rw [this, Nat.zero_add]
    exact Nat.le_refl _
  · rw [receivingPages_eq, receivingPages_eq, hs r.key, Nat.add_comm]
    exact Nat.add_le_add_left (recvOf_le _ _) _

theorem freeOne_whole {st : Store} {r : Record} (hr : r ∈ st.records) (h : st.PagesWhole) : (st.freeOne r).PagesWhole := by
  refine pagesWhole_of_perm ?_ (fun k x hx => k x (List.mem_of_mem_erase hx)) (freeOne_promises hr) h
  unfold Store.freeOne
  dsimp only
  rw [List.append_assoc]
  refine List.Perm.append_left _ ?_
  rw [← List.flatMap_cons]
  exact (List.perm_cons_erase hr).symm.flatMap_right _

/-! ### Changing a record -/

theorem changeFirst_pages (p : Record → Bool) (f : Record → Record) (hf : ∀ r, (f r).pages = r.pages) (l : List Record) :
    (changeFirst p f l).flatMap Record.pages = l.flatMap Record.pages := by
  induction l with
  | nil => rfl
  | cons x l ih =>
    unfold changeFirst
    split
    · simp only [List.flatMap_cons, hf]
    · simp only [List.flatMap_cons, ih]

theorem changeFirst_fit (p : Record → Bool) (f : Record → Record) (l : List Record)
    (hf : ∀ r ∈ l, p r = true → r.PagesFit → (f r).PagesFit) (h : ∀ r ∈ l, r.PagesFit) :
    ∀ r ∈ changeFirst p f l, r.PagesFit := by
  induction l with
  | nil => intro r hr; cases hr
  | cons x l ih =>
    intro r hr
    unfold changeFirst at hr
    split at hr
    · rename_i hx
      rcases List.mem_cons.mp hr with rfl | hr
      · exact hf x List.mem_cons_self hx (h x List.mem_cons_self)
      · exact h r (List.mem_cons_of_mem _ hr)
    · rcases List.mem_cons.mp hr with rfl | hr
      · exact h _ List.mem_cons_self
      · exact ih (fun y hy => hf y (List.mem_cons_of_mem _ hy)) (fun y hy => h y (List.mem_cons_of_mem _ hy)) r hr

theorem changeFirst_adds (p : Record → Bool) (f : Record → Record) (page : Nat)
    (hf : ∀ r, (f r).pages = r.pages ++ [page]) (l : List Record) (hex : ∃ r ∈ l, p r = true) :
    ((changeFirst p f l).flatMap Record.pages).Perm (page :: l.flatMap Record.pages) := by
  induction l with
  | nil => obtain ⟨r, hr, -⟩ := hex; cases hr
  | cons x l ih =>
    unfold changeFirst
    split
    · simp only [List.flatMap_cons, hf, List.append_assoc, List.cons_append, List.nil_append]
      exact List.perm_middle
    · rename_i hx
      simp only [List.flatMap_cons]
      have hex' : ∃ r ∈ l, p r = true := by
        obtain ⟨r, hr, hp⟩ := hex
        rcases List.mem_cons.mp hr with rfl | hr
        · exact absurd hp hx
        · exact ⟨r, hr, hp⟩
      exact ((ih hex').append_left _).trans List.perm_middle

/-- Changing the first record of a test changes what it counts by what the change of that record does. -/
theorem changeFirst_recv (p : Record → Bool) (f : Record → Record) (k : BatchKey) (l : List Record)
    (hf : ∀ r, l.find? p = some r → recvOf k r ≤ recvOf k (f r)) :
    (l.map (recvOf k)).sum ≤ ((changeFirst p f l).map (recvOf k)).sum := by
  induction l with
  | nil => exact Nat.le_refl _
  | cons x l ih =>
    unfold changeFirst
    split
    · rename_i hx
      simp only [List.map_cons, List.sum_cons]
      have := hf x (List.find?_cons_of_pos hx)
      omega
    · rename_i hx
      simp only [List.map_cons, List.sum_cons]
      have := ih (fun r hr => hf r (by rw [List.find?_cons_of_neg hx]; exact hr))
      omega

theorem changeFirst_recv_same (p : Record → Bool) (f : Record → Record) (k : BatchKey) (l : List Record)
    (hf : ∀ r, recvOf k (f r) = recvOf k r) : ((changeFirst p f l).map (recvOf k)).sum = (l.map (recvOf k)).sum := by
  induction l with
  | nil => rfl
  | cons x l ih =>
    unfold changeFirst
    split <;> simp only [List.map_cons, List.sum_cons, hf, ih]

theorem changeFirst_recv_lt (p : Record → Bool) (f : Record → Record) (k : BatchKey) {l : List Record} {r : Record}
    (hr : l.find? p = some r) (hf : recvOf k r + 1 ≤ recvOf k (f r)) :
    (l.map (recvOf k)).sum + 1 ≤ ((changeFirst p f l).map (recvOf k)).sum := by
  induction l with
  | nil => cases hr
  | cons x l ih =>
    unfold changeFirst
    split
    · rename_i hx
      rw [List.find?_cons_of_pos hx] at hr
      cases hr
      simp only [List.map_cons, List.sum_cons]
      omega
    · rename_i hx
      rw [List.find?_cons_of_neg hx] at hr
      simp only [List.map_cons, List.sum_cons]
      have := ih hr
      omega

/-- A change of a record that leaves what it counts toward its batch. -/
theorem update_promises {st : Store} (r : Record) (f : Record → Record) (hf : ∀ k x, recvOf k (f x) = recvOf k x)
    (h : st.PromisesFit) : (st.update r f).PromisesFit :=
  promisesFit_same (st := st) rfl rfl (fun k => by
    rw [receivingPages_eq, receivingPages_eq]; exact changeFirst_recv_same _ _ _ _ (hf k)) h

theorem recvOf_same {x y : Record} (hk : y.key = x.key) (hs : y.state = x.state) (hp : y.pages = x.pages) (k : BatchKey) :
    recvOf k y = recvOf k x := by unfold recvOf; rw [hk, hs, hp]

/-- A change of a record that leaves its pages and lines, its key and its state. -/
theorem update_whole {st : Store} (r : Record) (f : Record → Record) (hp : ∀ x, (f x).pages = x.pages)
    (hl : ∀ x, (f x).lines = x.lines) (hk : ∀ x, (f x).key = x.key) (hs : ∀ x, (f x).state = x.state)
    (h : st.PagesWhole) : (st.update r f).PagesWhole := by
  refine pagesWhole_of_perm ?_ (fun k => changeFirst_fit _ _ _ (fun x _ _ hx => ?_) k)
    (update_promises r f (fun k x => recvOf_same (hk x) (hs x) (hp x) k)) h
  · unfold Store.update; dsimp only; rw [changeFirst_pages _ _ hp]
  · unfold Record.PagesFit at hx ⊢; rw [hp, hl]; exact hx

/-- A store holds the record at its position of its batch, with its lines and in its state. -/
def Store.Holds (st : Store) (key : BatchKey) (pos : Nat) (lines : Nat) (state : RecState) : Prop :=
  ∃ x, st.records.find? (Record.standsAt key pos) = some x ∧ x.lines.length = lines ∧ x.state = state

theorem changeFirst_fit' (p : Record → Bool) (f : Record → Record) (l : List Record)
    (hf : ∀ r, l.find? p = some r → r.PagesFit → (f r).PagesFit) (h : ∀ r ∈ l, r.PagesFit) :
    ∀ r ∈ changeFirst p f l, r.PagesFit := by
  induction l with
  | nil => intro r hr; cases hr
  | cons x l ih =>
    intro r hr
    unfold changeFirst at hr
    split at hr
    · rename_i hx
      rcases List.mem_cons.mp hr with rfl | hr
      · exact hf x (by simp [hx]) (h x List.mem_cons_self)
      · exact h r (List.mem_cons_of_mem _ hr)
    · rename_i hx
      rcases List.mem_cons.mp hr with rfl | hr
      · exact h _ List.mem_cons_self
      · refine ih (fun y hy => hf y ?_) (fun y hy => h y (List.mem_cons_of_mem _ hy)) r hr
        simp [hx, hy]

/-- A line is added to the record at its place: a page goes from the free list to the record when the line begins one. -/
theorem extend_whole {st : Store} {r : Record} (l : Line) {p : Nat} {ps : List Nat}
    (ha : st.alloc r.key (r.state = .receiving) = some (p, ps))
    (hx : st.Holds r.key r.position r.lines.length r.state) (hm : r.lines.length % 4 = 0) (h : st.PagesWhole) :
    (Store.update r (fun x => { x with lines := x.lines ++ [l], pages := x.pages ++ [p] }) { st with free := ps }).PagesWhole := by
  obtain ⟨x, hx, hlen, hst⟩ := hx
  have hkey : x.key = r.key := by
    have := List.find?_some hx
    unfold Record.standsAt at this
    simp only [Bool.and_eq_true, decide_eq_true_eq] at this
    exact this.1.1
  have hmore : ∀ k (y : Record), recvOf k y ≤ recvOf k { y with lines := y.lines ++ [l], pages := y.pages ++ [p] } := by
    intro k y; unfold recvOf; split <;> simp
  refine pagesWhole_of_perm (st := st) ?_ (fun k => changeFirst_fit' _ _ _ (fun y hy hyf => ?_) k)
    (promisesFit_alloc ha rfl rfl (fun k => ?_) (fun hb => ?_)) h
  · unfold Store.update
    dsimp only
    rw [alloc_head ha]
    refine ((changeFirst_adds _ _ p (fun _ => rfl) _ ⟨x, List.mem_of_find?_eq_some hx, List.find?_some hx⟩).append_left ps).trans ?_
    exact List.perm_middle
  · rw [hx] at hy; cases hy
    unfold Record.PagesFit at hyf ⊢
    simp only [List.length_append, List.length_cons, List.length_nil]
    omega
  · rw [receivingPages_eq, receivingPages_eq]
    exact changeFirst_recv _ _ _ _ (fun y _ => hmore k y)
  · rw [receivingPages_eq, receivingPages_eq]
    refine changeFirst_recv_lt _ _ _ hx ?_
    have : x.state = .receiving := by rw [hst]; simpa using hb
    unfold recvOf
    rw [if_pos (by simp [this, hkey]), if_pos (by simp [this, hkey])]
    simp

theorem appendOnly_whole {st : Store} {r : Record} (l : Line) (hx : st.Holds r.key r.position r.lines.length r.state)
    (hm : r.lines.length % 4 ≠ 0) (h : st.PagesWhole) :
    (Store.update r (fun x => { x with lines := x.lines ++ [l] }) st).PagesWhole := by
  obtain ⟨x, hx, hlen, -⟩ := hx
  refine pagesWhole_of_perm (st := st) ?_ (fun k => changeFirst_fit' _ _ _ (fun y hy hyf => ?_) k)
    (update_promises r _ (fun _ _ => rfl)) h
  · unfold Store.update; dsimp only; rw [changeFirst_pages]; intro _; rfl
  · rw [hx] at hy; cases hy
    unfold Record.PagesFit at hyf ⊢
    simp only [List.length_append, List.length_cons, List.length_nil]
    omega

theorem appendLine_whole {st : Store} {r : Record} (l : Line) (hx : st.Holds r.key r.position r.lines.length r.state)
    (h : st.PagesWhole) : (st.appendLine l r).PagesWhole := by
  unfold Store.appendLine
  split
  · rename_i hm
    split
    · rename_i p ps ha
      exact extend_whole l ha hx hm h
    · exact update_whole _ _ (fun _ => rfl) (fun _ => rfl) (fun _ => rfl) (fun _ => rfl) h
  · rename_i hm
    exact appendOnly_whole l hx hm h

theorem appendLine_custody (st : Store) (l : Line) (r : Record) : (st.appendLine l r).custody = st.custody := by
  unfold Store.appendLine
  split
  · split <;> rfl
  · rfl

/-- Moving records from one state to another leaves what is promised, where neither is RECEIVING or the batch has no
reservation. -/
theorem move_promises {st : Store} {key : BatchKey} {old new : RecState}
    (hm : (old ≠ .receiving ∧ new ≠ .receiving) ∨ ∀ x ∈ st.reservations, x.key ≠ key) (h : st.PromisesFit) :
    (st.move key old new).PromisesFit := by
  have other : ∀ k, (k ≠ key ∨ (old ≠ .receiving ∧ new ≠ .receiving)) →
      (st.move key old new).receivingPages k = st.receivingPages k := by
    intro k hk
    rw [receivingPages_eq, receivingPages_eq]
    unfold Store.move
    dsimp only
    rw [List.map_map]
    congr 1
    refine List.map_congr_left (fun r _ => ?_)
    simp only [Function.comp]
    by_cases hr : (r.key = key && r.state = old) = true
    · rw [if_pos hr]
      simp only [Bool.and_eq_true, decide_eq_true_eq] at hr
      unfold recvOf
      rcases hk with hk | hk
      · rw [if_neg (by simp [hr.1, Ne.symm hk]), if_neg (by simp [hr.1, Ne.symm hk])]
      · rw [if_neg (by simp [hk.2]), if_neg (by simp [hr.2, hk.1])]
    · rw [if_neg hr]
  rcases hm with hm | hm
  · exact promisesFit_same (st := st) rfl rfl (fun k => other k (Or.inr hm)) h
  · refine ⟨h.1, ?_⟩
    have : (st.move key old new).reserved = st.reserved := by
      unfold Store.reserved
      congr 1
      refine List.map_congr_left (fun x hx => ?_)
      unfold Store.remaining
      rw [other x.key (Or.inl (hm x hx))]
    rw [this]; exact h.2

theorem move_whole {st : Store} (key : BatchKey) (old new : RecState)
    (hm : (old ≠ .receiving ∧ new ≠ .receiving) ∨ ∀ x ∈ st.reservations, x.key ≠ key) (h : st.PagesWhole) :
    (st.move key old new).PagesWhole := by
  have hg : ∀ r : Record, (if r.key = key && r.state = old then { r with state := new } else r).pages = r.pages := by
    intro r; split <;> rfl
  have hl : ∀ r : Record, (if r.key = key && r.state = old then { r with state := new } else r).lines = r.lines := by
    intro r; split <;> rfl
  refine pagesWhole_of_perm (st := st) ?_ ?_ (move_promises hm) h
  · unfold Store.move
    dsimp only
    rw [List.flatMap_map]
    simp only [hg]
    exact List.Perm.refl _
  · intro k r hr
    unfold Store.move at hr
    obtain ⟨x, hx, rfl⟩ := List.mem_map.mp hr
    have := k x hx
    unfold Record.PagesFit at this ⊢
    rw [hg, hl]; exact this

/-- A record of one page and no line joins the store with the page at the head of the free list. -/
theorem addRecord_whole {st : Store} {key : BatchKey} {b : Bool} {p : Nat} {ps : List Nat} {r : Record}
    (ha : st.alloc key b = some (p, ps)) (hk : r.key = key) (hs : b = true → r.state = .receiving)
    (hp : r.pages = [p]) (hl : r.lines = []) (h : st.PagesWhole) :
    ({ st with free := ps, records := st.records ++ [r] } : Store).PagesWhole := by
  have hsum : ∀ k, ({ st with free := ps, records := st.records ++ [r] } : Store).receivingPages k
      = st.receivingPages k + recvOf k r := by
    intro k
    rw [receivingPages_eq, receivingPages_eq]
    simp
  refine pagesWhole_of_perm (st := st) ?_ ?_ (promisesFit_alloc ha rfl rfl (fun k => ?_) (fun hb => ?_)) h
  · dsimp only
    rw [alloc_head ha, List.flatMap_append, List.flatMap_cons, List.flatMap_nil, hp, List.append_nil]
    rw [← List.append_assoc]
    exact List.perm_append_comm.trans (List.Perm.refl _)
  · intro k x hx
    rcases List.mem_append.mp hx with hx | hx
    · exact k x hx
    · simp only [List.mem_singleton] at hx
      subst hx
      unfold Record.PagesFit; rw [hp, hl]; rfl
  · rw [hsum]; omega
  · rw [hsum]
    unfold recvOf
    rw [if_pos (by simp [hk, hs hb]), hp]
    simp

/-- A reservation that can be made is free. -/
theorem reserve_whole {st : Store} {key : BatchKey} {need : Nat} (hc : st.canReserve key need = true) (h : st.PagesWhole) :
    (st.reserve key need).PagesWhole := by
  unfold Store.reserve
  split
  · exact h
  · rename_i hno
    refine ⟨h.1, h.2.1, ?_, ?_⟩
    · dsimp only
      rw [List.map_append, List.nodup_append]
      refine ⟨h.2.2.1, by simp, ?_⟩
      intro a ha b hb hab
      simp only [List.map_cons, List.map_nil, List.mem_singleton] at hb
      subst hb; subst hab
      obtain ⟨x, hx, hxk⟩ := List.mem_map.mp ha
      exact hno (List.any_eq_true.mpr ⟨x, hx, by simpa using hxk⟩)
    · have hneed : need ≤ st.available := by
        unfold Store.canReserve at hc
        simp only [Bool.or_eq_true, decide_eq_true_eq] at hc
        exact hc.resolve_left hno
      have h2 := h.2.2.2
      have hs : Store.reserved { st with reservations := st.reservations ++ [⟨key, need⟩] }
          = st.reserved + (need - st.receivingPages key) := by
        unfold Store.reserved
        dsimp only
        rw [List.map_append, List.sum_append]
        rfl
      rw [hs]
      unfold Store.available at hneed
      have : Store.freePages { st with reservations := st.reservations ++ [⟨key, need⟩] } = st.freePages := rfl
      rw [this]
      omega

theorem returnReservation_whole {st : Store} (key : BatchKey) (h : st.PagesWhole) : (st.returnReservation key).PagesWhole := by
  refine ⟨h.1, h.2.1, ?_, ?_⟩
  · exact h.2.2.1.sublist (List.Sublist.map _ List.filter_sublist)
  · refine le_trans ?_ h.2.2.2
    unfold Store.reserved Store.returnReservation
    exact (List.Sublist.map _ List.filter_sublist).sum_le_sum (fun _ _ => Nat.zero_le _)

/-! ### The operations over the state -/

theorem setHoldEntry_keeps {s₀ s : State} (p : Party) (e : HoldEntry) (he : s.approach.Fits → e.renewals ≤ 16)
    (h : Keeps s₀ s) : Keeps s₀ (State.setHoldEntry p e s) := by
  refine keeps_approach (fun w => ⟨w.1, w.2.1, fun i => ?_⟩) h
  dsimp only
  by_cases hi : partyIdx p = i
  · subst hi; simpa using he w
  · have hv : (partyIdx p).val ≠ i.val := fun x => hi (Fin.ext x)
    simpa [Vector.getElem_set, hv] using w.2.2 i

theorem clearHold_keeps {s₀ s : State} (p : Party) (h : Keeps s₀ s) : Keeps s₀ (State.clearHold p s) :=
  emit_keeps _ (setHoldEntry_keeps _ _ (fun _ => Nat.zero_le _) h)

theorem applyHold_keeps {s₀ s : State} (p : Party) (t : Nat) (h : Keeps s₀ s) : Keeps s₀ (State.applyHold p t s) := by
  unfold State.applyHold
  dsimp only
  split
  · exact clearHold_keeps _ h
  · rename_i hn
    refine setHoldEntry_keeps _ _ (fun w => ?_) h
    have := w.2.2 (partyIdx p)
    unfold State.holdOf at hn ⊢
    have h16 : s.approach.holds[partyIdx p].renewals ≠ 16 := fun x => hn (Or.inr x)
    exact Nat.lt_of_le_of_ne this h16

theorem holdEnd_keeps {s₀ s : State} (t : Nat) (i : Nat) (h : Keeps s₀ s) : Keeps s₀ (State.holdEnd t i s) := by
  unfold State.holdEnd
  repeat' first
    | with_reducible assumption
    | with_reducible apply applyHold_keeps
    | with_reducible apply send_keeps
    | split

theorem holdEnds_keeps {s₀ s : State} (t : Nat) (h : Keeps s₀ s) : Keeps s₀ (State.holdEnds t s) := by
  unfold State.holdEnds
  repeat' first
    | with_reducible assumption
    | with_reducible apply holdEnd_keeps

/-- A hold for one end changes what sending can change and the hold table alone. -/
theorem holdEnd_unsent (t : Nat) (i : Nat) (s : State) :
    ∃ a, (State.holdEnd t i s).unsent = State.unsent { s with approach := { s.approach with holds := a } } := by
  unfold State.holdEnd
  split
  · unfold State.applyHold
    dsimp only
    split
    · exact ⟨_, rfl⟩
    · exact ⟨_, rfl⟩
  · exact ⟨s.approach.holds, offer_unsent _ s⟩

theorem unsent_holds {s u : State} (a : Vector HoldEntry 17) (h : s.unsent = u.unsent) :
    State.unsent { s with approach := { s.approach with holds := a } }
      = State.unsent { u with approach := { u.approach with holds := a } } := by
  have := congrArg (fun x : State => ({ x with approach := { x.approach with holds := a } } : State)) h
  exact this

theorem holdEnds_unsent (t : Nat) (s : State) :
    ∃ a, (State.holdEnds t s).unsent = State.unsent { s with approach := { s.approach with holds := a } } := by
  obtain ⟨a, ha⟩ := holdEnd_unsent t 0 s
  obtain ⟨b, hb⟩ := holdEnd_unsent t (s.n - 1) (State.holdEnd t 0 s)
  exact ⟨b, hb.trans (unsent_holds (u := { s with approach := { s.approach with holds := a } }) b ha)⟩

/-- The low-store test changes what sending can change, the hold table, the store state and its timer alone. -/
theorem lowStoreTest_unsent (s : State) : ∃ a low timer, s.lowStoreTest.unsent = State.unsent { s with
    approach := { s.approach with holds := a }, store := { s.store with low := low, lowTimer := timer } } := by
  unfold State.lowStoreTest
  split
  · exact ⟨s.approach.holds, _, _, rfl⟩
  · split
    · obtain ⟨a, h⟩ := holdEnds_unsent 30 { s with store := { s.store with low := true, lowTimer := some (sec 10) } }
      exact ⟨a, _, _, h⟩
    · split
      · obtain ⟨a, h⟩ := holdEnds_unsent 0 { s with store := { s.store with low := false, lowTimer := none } }
        exact ⟨a, _, _, h⟩
      · exact ⟨s.approach.holds, _, _, rfl⟩

/-- A change of the Record Store changes beside it what sending can change, the hold table, the store state and its timer. -/
theorem setStore_unsent (st : Store) (s : State) : ∃ a low timer, (s.setStore st).unsent = State.unsent { s with
    approach := { s.approach with holds := a }, store := { st with low := low, lowTimer := timer } } := by
  unfold State.setStore
  dsimp only
  split
  · exact ⟨s.approach.holds, _, _, rfl⟩
  · exact lowStoreTest_unsent { s with store := st }

theorem setStore_store (st : Store) (s : State) :
    ∃ low timer, (s.setStore st).store = { st with low := low, lowTimer := timer } := by
  obtain ⟨a, low, timer, h⟩ := setStore_unsent st s
  exact ⟨low, timer, unsent_store h⟩

theorem setStore_reservations (st : Store) (s : State) : (s.setStore st).store.reservations = st.reservations := by
  obtain ⟨low, timer, h⟩ := setStore_store st s
  rw [h]

theorem setStore_token (st : Store) (s : State) : (s.setStore st).token = s.token := by
  obtain ⟨a, low, timer, h⟩ := setStore_unsent st s
  have := unsent_token h
  exact this

/-- Where the page counts stay, the Record Store alone changes. -/
theorem setStore_same {st : Store} {s : State} (hf : st.freePages = s.store.freePages) (hr : st.reserved = s.store.reserved) :
    s.setStore st = { s with store := st } := by
  unfold State.setStore
  dsimp only
  rw [if_pos ⟨hf, hr⟩]

theorem lowStoreTest_keeps {s₀ s : State} (h : Keeps s₀ s) : Keeps s₀ (State.lowStoreTest s) := by
  unfold State.lowStoreTest
  repeat' first
    | with_reducible assumption
    | with_reducible apply holdEnds_keeps
    | split
    | (with_reducible refine keeps_store rfl id ?_)

theorem setStore_keeps {s₀ s : State} (st : Store) (h : Keeps s₀ s) (hc : st.custody = s.store.custody)
    (hf : s.store.PagesWhole → st.PagesWhole) : Keeps s₀ (s.setStore st) := by
  unfold State.setStore
  dsimp only
  split
  · exact keeps_store hc hf h
  · exact emit_keeps _ (lowStoreTest_keeps (keeps_store hc hf h))

theorem reserve_custody (key : BatchKey) (need : Nat) (st : Store) : (st.reserve key need).custody = st.custody := by
  unfold Store.reserve; split <;> rfl

theorem reserve_keeps {s₀ s : State} (key : BatchKey) (need : Nat) (hc : s.store.canReserve key need = true)
    (h : Keeps s₀ s) : Keeps s₀ (s.setStore (s.store.reserve key need)) :=
  setStore_keeps _ h (reserve_custody key need s.store) (reserve_whole hc)

theorem returnReservation_keeps {s₀ s : State} (key : BatchKey) (h : Keeps s₀ s) :
    Keeps s₀ (s.setStore (s.store.returnReservation key)) := setStore_keeps _ h rfl (returnReservation_whole key)

theorem move_keeps {s₀ s : State} (key : BatchKey) (old new : RecState)
    (hm : (old ≠ .receiving ∧ new ≠ .receiving) ∨ ∀ x ∈ s.store.reservations, x.key ≠ key) (h : Keeps s₀ s) :
    Keeps s₀ { s with store := s.store.move key old new } := keeps_store rfl (move_whole _ _ _ hm) h

theorem freeWhere_keeps {s₀ s : State} (key : BatchKey) (p : Record → Bool) (h : Keeps s₀ s) :
    Keeps s₀ (s.setStore (s.store.freeWhere key p)) := setStore_keeps _ h rfl (freeWhere_whole key p)

theorem freeBatch_keeps {s₀ s : State} (key : BatchKey) (old : RecState) (h : Keeps s₀ s) :
    Keeps s₀ (s.freeBatch key old) := freeWhere_keeps _ _ h

theorem holds_update {st : Store} {r : Record} (f : Record → Record) (hk : ∀ x, (f x).key = x.key)
    (hp : ∀ x, (f x).position = x.position) (hs : ∀ x, (f x).state = x.state) (hl : ∀ x, (f x).lines = x.lines)
    (h : st.records.find? (Record.standsAt r.key r.position) = some r) :
    (st.update r f).Holds r.key r.position r.lines.length r.state := by
  have key : ∀ l : List Record, l.find? (Record.standsAt r.key r.position) = some r →
      (changeFirst (Record.standsAt r.key r.position) f l).find? (Record.standsAt r.key r.position) = some (f r) := by
    intro l
    induction l with
    | nil => intro h; cases h
    | cons x l ih =>
      intro h
      unfold changeFirst
      by_cases hx : Record.standsAt r.key r.position x = true
      · rw [if_pos hx]
        rw [List.find?_cons_of_pos hx] at h
        cases h
        rw [List.find?_cons_of_pos]
        unfold Record.standsAt at hx ⊢
        rw [hk, hp, hs]; exact hx
      · rw [if_neg hx]
        rw [List.find?_cons_of_neg hx] at h ⊢
        exact ih h
  exact ⟨f r, key st.records h, by rw [hl], hs r⟩

theorem recordAt_find {st : Store} {key : BatchKey} {pos : Nat} {r : Record} (h : st.recordAt key pos = some r) :
    r.key = key ∧ r.position = pos ∧ st.records.find? (Record.standsAt r.key r.position) = some r := by
  have h2 := List.find?_some h
  unfold Record.standsAt at h2
  simp only [Bool.and_eq_true, decide_eq_true_eq] at h2
  refine ⟨h2.1.1, h2.1.2, ?_⟩
  rw [h2.1.1, h2.1.2]; exact h

theorem addLine_keeps {s₀ s : State} (kind : LineKind) (key : BatchKey) (pos : Nat) (h : Keeps s₀ s) :
    Keeps s₀ (s.addLine kind key pos) := by
  unfold State.addLine
  split
  · exact h
  · rename_i r hr
    obtain ⟨-, -, hfind⟩ := recordAt_find hr
    dsimp only
    split
    · split
      · exact h
      · refine setStore_keeps _ h (appendLine_custody _ _ _) (fun k => appendLine_whole _ ?_ ?_)
        · exact holds_update _ (fun _ => rfl) (fun _ => rfl) (fun _ => rfl) (fun _ => rfl) hfind
        · exact update_whole _ _ (fun _ => rfl) (fun _ => rfl) (fun _ => rfl) (fun _ => rfl) k
    · split
      · exact setStore_keeps _ h rfl (fun k => update_whole _ _ (fun _ => rfl) (fun _ => rfl) (fun _ => rfl) (fun _ => rfl) k)
      · refine setStore_keeps _ h (appendLine_custody _ _ _) (fun k => appendLine_whole _ ?_ ?_)
        · exact holds_update _ (fun _ => rfl) (fun _ => rfl) (fun _ => rfl) (fun _ => rfl) hfind
        · exact update_whole _ _ (fun _ => rfl) (fun _ => rfl) (fun _ => rfl) (fun _ => rfl) k

theorem addLines_keeps {s₀ s : State} (kind : LineKind) (key : BatchKey) (st : RecState) (h : Keeps s₀ s) :
    Keeps s₀ (s.addLines kind key st) := by
  unfold State.addLines
  refine foldl_keeps _ _ (fun s p h => ?_) h
  split
  · split
    · exact addLine_keeps _ _ _ h
    · exact h
  · exact h

theorem createRecord_keeps {s₀ s : State} (key : BatchKey) (pos : Nat) (e : QueueEntry) (h : Keeps s₀ s) :
    Keeps s₀ (s.createRecord key pos e) := by
  unfold State.createRecord
  split
  · exact h
  · rename_i p ps ha
    exact setStore_keeps _ h rfl (addRecord_whole ha rfl (by intro hb; cases hb) rfl rfl)

theorem owe_keeps {s₀ s : State} (key : BatchKey) (h : Keeps s₀ s) : Keeps s₀ (s.owe key) := by
  unfold State.owe
  split
  · exact addLines_keeps _ _ _ h
  · exact h

theorem payOwed_keeps {s₀ s : State} (key : BatchKey) (h : Keeps s₀ s) : Keeps s₀ (s.payOwed key) := by
  unfold State.payOwed
  exact keeps_store rfl id (foldl_keeps _ _ (fun s _ h => addLines_keeps _ _ _ h) h)

theorem setOccupancy_keeps {s₀ s : State} (o : Occupancy) (key : BatchKey) (h : Keeps s₀ s) :
    Keeps s₀ (s.setOccupancy o key) := by
  unfold State.setOccupancy
  dsimp only
  apply emit_keeps
  split <;> exact h

end Sys2Proof.Machine
end

