-- ==== Sys2Proof/Laws/ModeKeeps.lean ====
section
/-! SUPPORT. What the operations of Mode Control keep. -/

set_option linter.unusedTactic false
set_option linter.unreachableTactic false

namespace Sys2Proof.Machine
open Sys2Proof

/-! ### Changes of the other blocks -/

theorem keeps_ctl {s₀ s : State} {c : Control} (h1 : c.stop = s.ctl.stop) (h2 : c.latch = s.ctl.latch)
    (h3 : c.resumeTimer = s.ctl.resumeTimer) (h : Keeps s₀ s) : Keeps s₀ { s with ctl := c } := by
  refine h.trans ⟨?_, fun k => k⟩
  simp only [State.still, h1, h2, h3]

theorem keeps_chamber {s₀ s : State} {c : Chamber} (h1 : c.level = s.chamber.level) (h2 : c.outer = s.chamber.outer)
    (h3 : c.alarm = s.chamber.alarm) (h4 : c.holder = s.chamber.holder) (h5 : c.waiter = s.chamber.waiter)
    (h : Keeps s₀ s) : Keeps s₀ { s with chamber := c } :=
  keeps_claims h1 h2 h3 (fun k => by unfold Chamber.ClaimsFit at k ⊢; rw [h4, h5]; exact k) h

theorem keeps_presence {s₀ s : State} {p : Presence} (h1 : p.peers = s.presence.peers) (h2 : p.desk = s.presence.desk)
    (h3 : p.deskSince = s.presence.deskSince) (h4 : p.clash = s.presence.clash)
    (h5 : p.calmTimer = s.presence.calmTimer) (h : Keeps s₀ s) : Keeps s₀ { s with presence := p } := by
  refine h.trans ⟨?_, fun k => k⟩
  simp only [State.still, h1, h2, h3, h4, h5]

theorem keeps_onward {s₀ s : State} {o : Onward} (h : Keeps s₀ s) : Keeps s₀ { s with onward := o } := h
theorem keeps_fault {s₀ s : State} {f : FaultUnit} (h : Keeps s₀ s) : Keeps s₀ { s with fault := f } := h
theorem keeps_toll {s₀ s : State} {t : Toll} (h : Keeps s₀ s) : Keeps s₀ { s with toll := t } := h
theorem keeps_notices {s₀ s : State} {l : List Notice} (h : Keeps s₀ s) : Keeps s₀ { s with notices := l } := h

theorem beaconAtOnce_keeps {s₀ s : State} (h : Keeps s₀ s) : Keeps s₀ (State.beaconAtOnce s) := by
  unfold State.beaconAtOnce
  repeat' first
    | with_reducible assumption
    | with_reducible apply offerBeacon_keeps
    | (with_reducible refine keeps_presence rfl rfl rfl rfl rfl ?_)

theorem refreshInterval_keeps {s₀ s : State} (h : Keeps s₀ s) : Keeps s₀ (State.refreshInterval s) := by
  unfold State.refreshInterval
  repeat' first
    | with_reducible assumption
    | with_reducible apply beaconAtOnce_keeps
    | split
    | (with_reducible refine keeps_presence rfl rfl rfl rfl rfl ?_)

theorem setMode_keeps {s₀ s : State} (m : Mode) (h : Keeps s₀ s) : Keeps s₀ (State.setMode m s) := by
  unfold State.setMode
  repeat' first
    | with_reducible assumption
    | with_reducible apply emit_keeps
    | with_reducible apply refreshInterval_keeps
    | dsimp only
    | split
    | (with_reducible refine keeps_ctl rfl rfl rfl ?_)

theorem wake_keeps {s₀ s : State} (src : WakeSource) (h : Keeps s₀ s) : Keeps s₀ (State.wake src s) := by
  unfold State.wake
  repeat' first
    | with_reducible assumption
    | with_reducible apply setMode_keeps
    | split
    | (with_reducible refine keeps_ctl rfl rfl rfl ?_)

theorem wakeSettleExpiry_keeps {s₀ s : State} (h : Keeps s₀ s) : Keeps s₀ (State.wakeSettleExpiry s) := by
  unfold State.wakeSettleExpiry
  have k : Keeps s₀ { s with ctl := { s.ctl with wakeTimer := none, pumpReady := true } } := keeps_ctl rfl rfl rfl h
  split
  · dsimp only
    split
    · exact setMode_keeps _ k
    · exact emit_keeps _ (keeps_fault k)
    · exact k
  · exact h

theorem stopNotSent_keeps {s₀ s : State} (f : Offer) (h : Keeps s₀ s) : Keeps s₀ (State.stopNotSent f s) := by
  unfold State.stopNotSent
  repeat' first
    | with_reducible assumption
    | with_reducible apply offer_keeps
    | split

theorem onRest_keeps {s₀ s : State} (rx : Rx) (h : Keeps s₀ s) : Keeps s₀ (State.onRest rx s) := by
  unfold State.onRest
  repeat' first
    | with_reducible assumption
    | with_reducible apply setMode_keeps
    | with_reducible apply refuseRx_keeps
    | split

theorem onWake_keeps {s₀ s : State} (rx : Rx) (h : Keeps s₀ s) : Keeps s₀ (State.onWake rx s) := by
  unfold State.onWake
  repeat' first
    | with_reducible assumption
    | with_reducible apply wake_keeps
    | split

end Sys2Proof.Machine
end

