-- ==== Sys2Proof/Laws/ChamberKeeps.lean ====
section
/-! SUPPORT. What the operations of the Chamber Unit keep. -/

set_option linter.unusedTactic false
set_option linter.unreachableTactic false

namespace Sys2Proof.Machine
open Sys2Proof

theorem modChamber_keeps {s₀ s : State} (f : Chamber → Chamber) (h1 : (f s.chamber).level = s.chamber.level)
    (h2 : (f s.chamber).outer = s.chamber.outer) (h3 : (f s.chamber).alarm = s.chamber.alarm)
    (h4 : (f s.chamber).holder = s.chamber.holder) (h5 : (f s.chamber).waiter = s.chamber.waiter) (h : Keeps s₀ s) :
    Keeps s₀ (s.modChamber f) := keeps_chamber h1 h2 h3 h4 h5 h

/-- A change of the claim register alone. -/
theorem modClaims_keeps {s₀ s : State} (f : Chamber → Chamber) (h1 : (f s.chamber).level = s.chamber.level)
    (h2 : (f s.chamber).outer = s.chamber.outer) (h3 : (f s.chamber).alarm = s.chamber.alarm)
    (hf : s.chamber.ClaimsFit → (f s.chamber).ClaimsFit) (h : Keeps s₀ s) : Keeps s₀ (s.modChamber f) :=
  keeps_claims h1 h2 h3 hf h

theorem claimsFit_noWaiter {c : Chamber} (h : c.waiter = .none) : c.ClaimsFit := by
  unfold Chamber.ClaimsFit; rw [h]; split <;> simp_all

theorem claimsFit_free {c : Chamber} (h : c.holder = .free) : c.ClaimsFit := by
  unfold Chamber.ClaimsFit; rw [h]; split <;> simp_all

theorem claimsFit_selfWaiter {c : Chamber} {w : SelfClaim} (h : c.waiter = .self w)
    (hh : ∀ x, c.holder = .self x → x.claimant ≠ w.claimant) : c.ClaimsFit := by
  unfold Chamber.ClaimsFit
  split
  · rename_i a b ha hb
    have hb := Waiter.self.inj (hb.symm.trans h)
    rw [hb]
    exact hh a ha
  · rename_i hb; rw [h] at hb; cases hb
  · rename_i hb; rw [h] at hb; cases hb
  · trivial

theorem claimsFit_upperWaiter {c : Chamber} {w : UpperClaim} (h : c.waiter = .upper w) (h1 : c.holder.kind ≠ .upper)
    (h2 : c.holder.kind ≠ .orphaned) : c.ClaimsFit := by
  unfold Chamber.ClaimsFit; split <;> simp_all [Holder.kind]

theorem setHolder_keeps {s₀ s : State} (hx : Holder) (hf : Chamber.ClaimsFit { s.chamber with holder := hx })
    (h : Keeps s₀ s) : Keeps s₀ (State.setHolder hx s) := modClaims_keeps _ rfl rfl rfl (fun _ => hf) h

theorem setWaiter_keeps {s₀ s : State} (w : Waiter) (hf : Chamber.ClaimsFit { s.chamber with waiter := w })
    (h : Keeps s₀ s) : Keeps s₀ (State.setWaiter w s) := modClaims_keeps _ rfl rfl rfl (fun _ => hf) h

theorem noWaiter_keeps {s₀ s : State} (h : Keeps s₀ s) : Keeps s₀ (State.setWaiter .none s) :=
  setWaiter_keeps _ (claimsFit_noWaiter rfl) h

theorem feedSent_keeps {s₀ s : State} (tag : Nat) (h : Keeps s₀ s) : Keeps s₀ (State.feedSent tag s) := by
  unfold State.feedSent
  split
  · exact keeps_chamber rfl rfl rfl rfl rfl h
  · exact h

theorem sendFeed_keeps {s₀ s : State} (h : Keeps s₀ s) : Keeps s₀ (State.sendFeed s) := by
  unfold State.sendFeed
  split
  · exact h
  · dsimp only
    have k := modChamber_keeps (fun c => { c with lastFed := c.level.value }) rfl rfl rfl rfl rfl h
    split
    · exact feedSent_keeps _ (replaceQueued_keeps _ _ _ k)
    · split
      · exact replaceWaiting_keeps _ _ _ k
      · exact send_keeps _ _ _ _ k

theorem dropUnplaced_fits {l : Link} (k : Kind) (h : l.Fits) : (l.dropUnplaced k).Fits := h

/-- Nothing of the kind is left to be placed once it is taken out. -/
theorem dropUnplaced_unplaced (k : Kind) (l : Link) : (l.dropUnplaced k).unplaced.any (fun o => o.kind = k) = false := by
  simp only [Link.unplaced, Link.dropUnplaced, List.any_append, List.any_filter, List.any_filterMap, Bool.or_eq_false_iff,
    List.any_eq_false]
  refine ⟨fun o _ => by simp, fun x _ => ?_⟩
  cases x <;> simp +contextual [Held.isFrame]

/-- With no feed that waits for a place there is none to take back (R75). -/
theorem stopFeed_none {s : State} (h : s.link.hasWaiting .chamber .levelFeed = false) : s.stopFeed = s := by
  unfold State.stopFeed; rw [h, Bool.and_false]; rfl

theorem stopFeed_keeps {s₀ s : State} (h : Keeps s₀ s) : Keeps s₀ (State.stopFeed s) := by
  unfold State.stopFeed
  split
  · exact serveAll_keeps (fillQueue_keeps (keeps_chamber (s := { s with link := _ }) rfl rfl rfl rfl rfl
      (keeps_link rfl rfl (dropUnplaced_fits .levelFeed) h)))
  · exact h

theorem feedTimerExpiry_keeps {s₀ s : State} (h : Keeps s₀ s) : Keeps s₀ (State.feedTimerExpiry s) := by
  unfold State.feedTimerExpiry
  repeat' first
    | with_reducible assumption
    | (with_reducible refine modChamber_keeps _ rfl rfl rfl rfl rfl ?_)
    | with_reducible apply sendFeed_keeps
    | dsimp only
    | split

theorem feedOnReading_keeps {s₀ s : State} (h : Keeps s₀ s) : Keeps s₀ (State.feedOnReading s) := by
  unfold State.feedOnReading
  repeat' first
    | with_reducible assumption
    | with_reducible apply sendFeed_keeps
    | split

/-- A grant whose conditions hold, to a waiter taken off the register. -/
theorem grantUpper_keeps {s₀ s : State} (c : UpperClaim) (hg : s.grantConditions c = true) (hw : s.chamber.waiter = .none)
    (h : Keeps s₀ s) : Keeps s₀ (State.grantUpper c s) := by
  unfold State.grantUpper
  have k := setHolder_keeps (.upper c) (claimsFit_noWaiter hw) h
  dsimp only
  apply send_keeps
  refine modChamber_keeps _ rfl rfl rfl rfl rfl ?_
  split
  · rename_i hp
    refine setOccupancy_keeps _ _ (reserve_keeps _ _ ?_ k)
    unfold State.grantConditions at hg
    simp only [hp, ne_eq, not_true, decide_false, Bool.false_or, Bool.and_eq_true] at hg
    exact hg.2.2
  · exact k

theorem testWaiter_keeps {s₀ s : State} (h : Keeps s₀ s) : Keeps s₀ (State.testWaiter s) := by
  unfold State.testWaiter
  split
  · exact h
  · split
    · exact h
    · exact emit_keeps _ (modClaims_keeps _ rfl rfl rfl (fun _ => claimsFit_noWaiter rfl) h)
    · split
      · rename_i hg
        exact grantUpper_keeps _ hg rfl (noWaiter_keeps h)
      · exact h

theorem holderFreed_keeps {s₀ s : State} (h : Keeps s₀ s) : Keeps s₀ (State.holderFreed s) := by
  unfold State.holderFreed
  dsimp only
  exact emits_keeps _ (testWaiter_keeps (stopFeed_keeps (claimsCeased_keeps
    (modClaims_keeps _ rfl rfl rfl (fun _ => claimsFit_free rfl) h))))

theorem askOwn_keeps {s₀ s : State} (c : SelfClaim) (h : Keeps s₀ s) : Keeps s₀ (State.askOwn c s) := by
  unfold State.askOwn
  dsimp only
  split
  · exact emit_keeps _ h
  · rename_i hc
    split
    · refine emit_keeps _ (setHolder_keeps _ ?_ h)
      cases hw : s.chamber.waiter with
      | none => exact claimsFit_noWaiter hw
      | upper w => exact claimsFit_upperWaiter hw (by intro e; cases e) (by intro e; cases e)
      | self w =>
        refine claimsFit_selfWaiter hw (fun x hx => ?_)
        cases hx
        intro he
        exact hc (by unfold State.waitsOwn; rw [hw]; simp [he])
    · split
      · rename_i hn
        refine emit_keeps _ (modClaims_keeps _ rfl rfl rfl (fun _ => claimsFit_selfWaiter rfl (fun x hx he => hc ?_)) h)
        unfold State.holdsOwn; rw [show s.chamber.holder = .self x from hx]; simp [he]
      · exact emit_keeps _ h

theorem releaseOwn_keeps {s₀ s : State} (u : UnitId) (h : Keeps s₀ s) : Keeps s₀ (State.releaseOwn u s) := by
  unfold State.releaseOwn
  repeat' first
    | with_reducible assumption
    | with_reducible apply holderFreed_keeps
    | split

theorem withdrawOwn_keeps {s₀ s : State} (u : UnitId) (h : Keeps s₀ s) : Keeps s₀ (State.withdrawOwn u s) := by
  unfold State.withdrawOwn
  split
  · exact modClaims_keeps _ rfl rfl rfl (fun _ => claimsFit_noWaiter rfl) h
  · exact h

theorem selfWaitExpiry_keeps {s₀ s : State} (h : Keeps s₀ s) : Keeps s₀ (State.selfWaitExpiry s) := by
  unfold State.selfWaitExpiry
  split
  · exact emits_keeps _ (modClaims_keeps _ rfl rfl rfl (fun _ => claimsFit_noWaiter rfl) h)
  · exact h

theorem denyClaim_keeps {s₀ s : State} (tag : Nat) (r : DenyReason) (h : Keeps s₀ s) :
    Keeps s₀ (State.denyClaim tag r s) := by
  unfold State.denyClaim
  repeat' first
    | with_reducible assumption
    | with_reducible apply send_keeps

theorem dealClaimAsk_keeps {s₀ s : State} (c : UpperClaim) (h : Keeps s₀ s) : Keeps s₀ (State.dealClaimAsk c s) := by
  unfold State.dealClaimAsk
  split
  · exact denyClaim_keeps _ _ h
  · split
    · exact denyClaim_keeps _ _ h
    · rename_i hb
      repeat' first
        | with_reducible apply denyClaim_keeps
        | with_reducible assumption
        | split
      · rename_i hg
        refine grantUpper_keeps _ hg.2.2 ?_ h
        have := hg.2.1
        cases hw : s.chamber.waiter <;> simp_all [Waiter.kind]
      · exact send_keeps _ _ _ _ (setWaiter_keeps _ (claimsFit_upperWaiter rfl (fun e => hb (Or.inl e))
          (fun e => hb (Or.inr (Or.inl e)))) h)

theorem onClaimAsk_keeps {s₀ s : State} (rx : Rx) (h : Keeps s₀ s) : Keeps s₀ (State.onClaimAsk rx s) := by
  unfold State.onClaimAsk
  repeat' first
    | with_reducible assumption
    | with_reducible apply wake_keeps
    | with_reducible apply dealClaimAsk_keeps
    | dsimp only

theorem releaseUpper_keeps {s₀ s : State} (c : UpperClaim) (arrived : Bool) (h : Keeps s₀ s) :
    Keeps s₀ (State.releaseUpper c arrived s) := by
  unfold State.releaseUpper
  repeat' first
    | with_reducible assumption
    | with_reducible apply setOccupancy_keeps
    | with_reducible apply emit_keeps
    | with_reducible apply returnReservation_keeps
    | with_reducible apply holderFreed_keeps
    | dsimp only
    | split

theorem onClaimDrop_keeps {s₀ s : State} (rx : Rx) (h : Keeps s₀ s) : Keeps s₀ (State.onClaimDrop rx s) := by
  unfold State.onClaimDrop
  repeat' first
    | with_reducible assumption
    | with_reducible apply noWaiter_keeps
    | with_reducible apply releaseUpper_keeps
    | dsimp only
    | split

theorem upperLost_keeps {s₀ s : State} (h : Keeps s₀ s) : Keeps s₀ (State.upperLost s) := by
  unfold State.upperLost
  dsimp only
  have k : Keeps s₀ (if s.chamber.waiter.isUpper then s.setWaiter .none else s) := by
    split
    · exact noWaiter_keeps h
    · exact h
  have hw : ∀ c, (if s.chamber.waiter.isUpper then s.setWaiter .none else s).chamber.waiter ≠ .upper c := by
    intro c
    by_cases hu : s.chamber.waiter.isUpper = true
    · rw [if_pos hu]; intro e; cases e
    · rw [if_neg hu]; intro e; rw [e] at hu; exact hu rfl
  generalize (if s.chamber.waiter.isUpper then s.setWaiter .none else s) = t at k hw ⊢
  split
  · rename_i c hc
    refine emit_keeps _ (stopFeed_keeps (setHolder_keeps _ ?_ k))
    cases hx : t.chamber.waiter with
    | none => exact claimsFit_noWaiter hx
    | upper w => exact absurd hx (hw w)
    | self w => exact claimsFit_selfWaiter hx (fun x e => by cases e)
  · exact stopFeed_keeps k
  · exact k

theorem clearOrphan_keeps {s₀ s : State} (h : Keeps s₀ s) : Keeps s₀ (State.clearOrphan s) := by
  unfold State.clearOrphan
  repeat' first
    | with_reducible assumption
    | with_reducible apply releaseUpper_keeps
    | split

theorem setLower_keeps {s₀ s : State} (l : LowerClaim) (h : Keeps s₀ s) : Keeps s₀ (State.setLower l s) := by
  unfold State.setLower
  repeat' first
    | with_reducible assumption
    | (with_reducible refine modChamber_keeps _ rfl rfl rfl rfl rfl ?_)
    | dsimp only

theorem tellLower_keeps {s₀ s : State} (n : LowerNotice) (h : Keeps s₀ s) : Keeps s₀ (State.tellLower n s) := by
  unfold State.tellLower
  repeat' first
    | with_reducible assumption
    | with_reducible apply emit_keeps

theorem endLower_keeps {s₀ s : State} (h : Keeps s₀ s) : Keeps s₀ (State.endLower s) := by
  unfold State.endLower
  repeat' first
    | with_reducible assumption
    | (with_reducible refine modChamber_keeps _ rfl rfl rfl rfl rfl ?_)
    | with_reducible apply claimsCeased_keeps
    | with_reducible apply emit_keeps
    | dsimp only

theorem sendDrop_keeps {s₀ s : State} (tag : Nat) (arrival : Bool) (key : BatchKey) (cancels : Bool) (h : Keeps s₀ s) :
    Keeps s₀ (State.sendDrop tag arrival key cancels s) := by
  unfold State.sendDrop
  repeat' first
    | with_reducible assumption
    | with_reducible apply serveAll_keeps
    | with_reducible apply offer_keeps

theorem cancelTag_keeps {s₀ s : State} (tag : Nat) (h : Keeps s₀ s) : Keeps s₀ (State.cancelTag tag s) := by
  unfold State.cancelTag
  repeat' first
    | with_reducible assumption
    | (with_reducible refine modChamber_keeps _ rfl rfl rfl rfl rfl ?_)
    | with_reducible apply sendDrop_keeps
    | dsimp only

theorem makeLowerAsk_keeps {s₀ s : State} (h : Keeps s₀ s) : Keeps s₀ (State.makeLowerAsk s) := by
  unfold State.makeLowerAsk
  repeat' first
    | with_reducible assumption
    | with_reducible apply setLower_keeps
    | with_reducible apply request_keeps
    | dsimp only

theorem askLower_keeps {s₀ s : State} (purpose : Purpose) (key : BatchKey) (need : Nat) (h : Keeps s₀ s) :
    Keeps s₀ (State.askLower purpose key need s) := by
  unfold State.askLower
  repeat' first
    | with_reducible assumption
    | with_reducible apply emit_keeps
    | with_reducible apply setLower_keeps
    | with_reducible apply makeLowerAsk_keeps
    | dsimp only
    | split

theorem lowerUnmarked_keeps {s₀ s : State} (h : Keeps s₀ s) : Keeps s₀ (State.lowerUnmarked s) := by
  unfold State.lowerUnmarked
  repeat' first
    | with_reducible assumption
    | with_reducible apply makeLowerAsk_keeps
    | split

theorem dropWaitingRequest_keeps {s₀ s : State} (b : Block) (k : Kind) (h : Keeps s₀ s) :
    Keeps s₀ (State.dropWaitingRequest b k s) := by
  unfold State.dropWaitingRequest
  repeat' first
    | with_reducible assumption
    | with_reducible apply dropHeld_keeps
    | (with_reducible refine keeps_link rfl rfl id ?_)

theorem giveUpAsk_keeps {s₀ s : State} (h : Keeps s₀ s) : Keeps s₀ (State.giveUpAsk s) := by
  unfold State.giveUpAsk
  repeat' first
    | with_reducible assumption
    | with_reducible apply endLower_keeps
    | with_reducible apply dropWaitingRequest_keeps
    | with_reducible apply cancelTag_keeps
    | dsimp only
    | split

theorem withdrawLower_keeps {s₀ s : State} (h : Keeps s₀ s) : Keeps s₀ (State.withdrawLower s) := by
  unfold State.withdrawLower
  repeat' first
    | with_reducible assumption
    | with_reducible apply giveUpAsk_keeps
    | with_reducible apply endLower_keeps
    | split

theorem releaseLower_keeps {s₀ s : State} (arrival : Bool) (key : BatchKey) (h : Keeps s₀ s) :
    Keeps s₀ (State.releaseLower arrival key s) := by
  unfold State.releaseLower
  repeat' first
    | with_reducible assumption
    | with_reducible apply endLower_keeps
    | with_reducible apply sendDrop_keeps
    | dsimp only
    | split

theorem leaveLower_keeps {s₀ s : State} (h : Keeps s₀ s) : Keeps s₀ (State.leaveLower s) := by
  unfold State.leaveLower
  repeat' first
    | with_reducible assumption
    | with_reducible apply releaseLower_keeps
    | with_reducible apply withdrawLower_keeps
    | split

theorem lowerHeld_keeps {s₀ s : State} (level : Nat) (h : Keeps s₀ s) : Keeps s₀ (State.lowerHeld level s) := by
  unfold State.lowerHeld
  repeat' first
    | with_reducible assumption
    | (with_reducible refine modChamber_keeps _ rfl rfl rfl rfl rfl ?_)
    | with_reducible apply tellLower_keeps
    | dsimp only

theorem lowerEnded_keeps {s₀ s : State} (n : LowerNotice) (h : Keeps s₀ s) : Keeps s₀ (State.lowerEnded n s) := by
  unfold State.lowerEnded
  repeat' first
    | with_reducible assumption
    | with_reducible apply endLower_keeps
    | with_reducible apply emit_keeps
    | dsimp only

theorem onClaimGive_keeps {s₀ s : State} (rx : Rx) (h : Keeps s₀ s) : Keeps s₀ (State.onClaimGive rx s) := by
  unfold State.onClaimGive
  repeat' first
    | with_reducible assumption
    | with_reducible apply endEntry_keeps
    | with_reducible apply lowerHeld_keeps
    | with_reducible apply send_keeps
    | dsimp only
    | split

theorem onClaimWait_keeps {s₀ s : State} (rx : Rx) (h : Keeps s₀ s) : Keeps s₀ (State.onClaimWait rx s) := by
  unfold State.onClaimWait
  repeat' first
    | with_reducible assumption
    | with_reducible apply setLower_keeps
    | with_reducible apply tellLower_keeps
    | with_reducible apply endEntry_keeps
    | dsimp only
    | split

theorem onClaimDeny_keeps {s₀ s : State} (rx : Rx) (h : Keeps s₀ s) : Keeps s₀ (State.onClaimDeny rx s) := by
  unfold State.onClaimDeny
  repeat' first
    | with_reducible assumption
    | with_reducible apply lowerEnded_keeps
    | with_reducible apply endEntry_keeps
    | dsimp only
    | split

theorem claimRefused_keeps {s₀ s : State} (tag : Nat) (r : Reason) (h : Keeps s₀ s) :
    Keeps s₀ (State.claimRefused tag r s) := by
  unfold State.claimRefused
  repeat' first
    | with_reducible assumption
    | with_reducible apply lowerEnded_keeps
    | split

theorem claimNotSent_keeps {s₀ s : State} (tag : Nat) (h : Keeps s₀ s) : Keeps s₀ (State.claimNotSent tag s) := by
  unfold State.claimNotSent
  repeat' first
    | with_reducible assumption
    | with_reducible apply lowerEnded_keeps
    | split

theorem claimNoReply_keeps {s₀ s : State} (tag : Nat) (h : Keeps s₀ s) : Keeps s₀ (State.claimNoReply tag s) := by
  unfold State.claimNoReply
  repeat' first
    | with_reducible assumption
    | with_reducible apply giveUpAsk_keeps
    | with_reducible apply emit_keeps
    | dsimp only
    | split

theorem claimWaitExpiry_keeps {s₀ s : State} (h : Keeps s₀ s) : Keeps s₀ (State.claimWaitExpiry s) := by
  unfold State.claimWaitExpiry
  repeat' first
    | with_reducible assumption
    | with_reducible apply giveUpAsk_keeps
    | with_reducible apply emits_keeps
    | dsimp only
    | split

theorem cancelledTagExpiry_keeps {s₀ s : State} (tag : Nat) (h : Keeps s₀ s) :
    Keeps s₀ (State.cancelledTagExpiry tag s) := by
  unfold State.cancelledTagExpiry
  repeat' first
    | with_reducible assumption
    | (with_reducible refine modChamber_keeps _ rfl rfl rfl rfl rfl ?_)
    | with_reducible apply serveAll_keeps
    | dsimp only
    | split

theorem dropNotSent_keeps {s₀ s : State} (f : Offer) (h : Keeps s₀ s) : Keeps s₀ (State.dropNotSent f s) := by
  unfold State.dropNotSent
  repeat' first
    | with_reducible assumption
    | with_reducible apply serveAll_keeps
    | with_reducible apply offer_keeps

theorem lowerPeerLost_keeps {s₀ s : State} (h : Keeps s₀ s) : Keeps s₀ (State.lowerPeerLost s) := by
  unfold State.lowerPeerLost
  repeat' first
    | with_reducible assumption
    | with_reducible apply emit_keeps
    | with_reducible apply withdrawLower_keeps
    | dsimp only
    | split

theorem claimLostTest_keeps {s₀ s : State} (b : BeaconContents) (h : Keeps s₀ s) :
    Keeps s₀ (State.claimLostTest b s) := by
  unfold State.claimLostTest
  repeat' first
    | with_reducible assumption
    | with_reducible apply endLower_keeps
    | with_reducible apply emits_keeps
    | dsimp only
    | split

theorem onLevelFeed_keeps {s₀ s : State} (rx : Rx) (h : Keeps s₀ s) : Keeps s₀ (State.onLevelFeed rx s) := by
  unfold State.onLevelFeed
  repeat' first
    | with_reducible assumption
    | (with_reducible refine modChamber_keeps _ rfl rfl rfl rfl rfl ?_)
    | with_reducible apply emit_keeps
    | dsimp only
    | split

theorem fedStale_keeps {s₀ s : State} (h : Keeps s₀ s) : Keeps s₀ (State.fedStale s) := by
  unfold State.fedStale
  repeat' first
    | with_reducible assumption
    | (with_reducible refine modChamber_keeps _ rfl rfl rfl rfl rfl ?_)
    | with_reducible apply emit_keeps
    | dsimp only
    | split

theorem raiseAlarm_keeps {s₀ s : State} (v limit : Nat) (h : Keeps s₀ s) : Keeps s₀ (State.raiseAlarm v limit s) := by
  unfold State.raiseAlarm
  repeat' first
    | with_reducible assumption
    | with_reducible apply wake_keeps
    | with_reducible apply placeSafety_keeps
    | with_reducible apply send_keeps
    | with_reducible apply emit_keeps
    | dsimp only
    | split

theorem alarmCloseNotSent_keeps {s₀ s : State} (f : Offer) (h : Keeps s₀ s) : Keeps s₀ (State.alarmCloseNotSent f s) := by
  unfold State.alarmCloseNotSent
  repeat' first
    | with_reducible assumption
    | with_reducible apply offer_keeps
    | split

theorem onAlarmClose_keeps {s₀ s : State} (rx : Rx) (h : Keeps s₀ s) : Keeps s₀ (State.onAlarmClose rx s) := by
  unfold State.onAlarmClose
  repeat' first
    | with_reducible assumption
    | with_reducible apply wake_keeps
    | with_reducible apply placeSafety_keeps

end Sys2Proof.Machine
end

