-- ==== Sys2Proof/Laws/TollKeeps.lean ====
section
/-! SUPPORT. What the operations of the Toll Log keep. -/

set_option linter.unusedTactic false
set_option linter.unreachableTactic false

namespace Sys2Proof.Machine
open Sys2Proof

theorem closeRecord_keeps {s₀ s : State} (r : Record) (h : Keeps s₀ s) : Keeps s₀ (State.closeRecord s r) := by
  unfold State.closeRecord
  dsimp only
  split
  · rename_i hc
    have hr : r ∈ s.store.records := by simpa using hc.2
    suffices k : Keeps s₀ { s with store := { s.store with records := s.store.records.erase r
        ++ [{ r with state := .closed, logNumber := s.toll.next, total := r.totalNow }] } } from keeps_toll k
    refine keeps_store rfl ?_ h
    refine pagesWhole_of_perm ?_ ?_ ?_
    · dsimp only
      refine List.Perm.append_left _ ?_
      have := (List.perm_cons_erase hr).flatMap_right Record.pages
      refine List.Perm.trans ?_ this.symm
      simp only [List.flatMap_append, List.flatMap_cons, List.flatMap_nil, List.append_nil]
      exact List.perm_append_comm
    · intro k x hx
      rcases List.mem_append.mp hx with hx | hx
      · exact k x (List.mem_of_mem_erase hx)
      · have hx := List.mem_singleton.mp hx
        subst hx
        exact k r hr
    · refine promisesFit_same rfl rfl (fun k => ?_)
      rw [receivingPages_eq, receivingPages_eq]
      have := ((List.perm_cons_erase hr).map (recvOf k)).sum_eq
      rw [this, List.map_append, List.sum_append, List.map_cons, List.sum_cons, Nat.add_comm]
      congr 1
      unfold recvOf
      simp [hc.1]
  · exact h

theorem sendExitNote_keeps {s₀ s : State} (key : BatchKey) (h : Keeps s₀ s) : Keeps s₀ (State.sendExitNote key s) := by
  unfold State.sendExitNote
  repeat' first
    | with_reducible assumption
    | with_reducible apply send_keeps
    | split

theorem closeBatch_keeps {s₀ s : State} (key : BatchKey) (h : Keeps s₀ s) : Keeps s₀ (State.closeBatch key s) := by
  unfold State.closeBatch
  repeat' first
    | with_reducible assumption
    | with_reducible apply closeRecord_keeps
    | with_reducible apply sendExitNote_keeps
    | with_reducible apply offerTollReady_keeps
    | (with_reducible refine foldl_keeps _ _ (fun _ _ _ => ?_) ?_)
    | (intro _)

theorem tollReadyNotSent_keeps {s₀ s : State} (h : Keeps s₀ s) : Keeps s₀ (State.tollReadyNotSent s) := by
  unfold State.tollReadyNotSent
  repeat' first
    | with_reducible assumption
    | with_reducible apply offerTollReady_keeps
    | split

theorem tollDeskPresent_keeps {s₀ s : State} (h : Keeps s₀ s) : Keeps s₀ (State.tollDeskPresent s) := by
  unfold State.tollDeskPresent
  repeat' first
    | with_reducible assumption
    | with_reducible apply offerTollReady_keeps
    | split

theorem sendLogFull_keeps {s₀ s : State} (places : Nat) (again : Bool) (h : Keeps s₀ s) :
    Keeps s₀ (State.sendLogFull places again s) := by
  unfold State.sendLogFull
  repeat' first
    | with_reducible assumption
    | with_reducible apply offer_keeps

theorem logFullNotSent_keeps {s₀ s : State} (f : Offer) (h : Keeps s₀ s) : Keeps s₀ (State.logFullNotSent f s) := by
  unfold State.logFullNotSent
  repeat' first
    | with_reducible assumption
    | with_reducible apply sendLogFull_keeps
    | split

theorem setReadStream_keeps {s₀ s : State} (r : Option ReadStream) (h : Keeps s₀ s) :
    Keeps s₀ (State.setReadStream r s) := by
  unfold State.setReadStream
  repeat' first
    | with_reducible assumption
    | with_reducible apply keeps_toll

theorem takeStream_keeps {s₀ s : State} (h : Keeps s₀ s) : Keeps s₀ s.takeStream := keeps_link rfl rfl id h

theorem abandonRead_keeps {s₀ s : State} (h : Keeps s₀ s) : Keeps s₀ s.abandonRead := by
  unfold State.abandonRead
  split
  · exact h
  · exact fillQueue_keeps (breakStream_keeps _ _ (setReadStream_keeps _ h))

theorem abandonRead_store (s : State) : s.abandonRead.store = s.store := by
  unfold State.abandonRead
  split
  · rfl
  · exact fillQueue_store _

theorem readNext_keeps {s₀ s : State} (h : Keeps s₀ s) : Keeps s₀ (State.readNext s) := by
  unfold State.readNext
  repeat' first
    | with_reducible assumption
    | with_reducible apply setReadStream_keeps
    | with_reducible apply offer_keeps
    | with_reducible apply sendWide_keeps
    | split

theorem onTollRead_keeps {s₀ s : State} (rx : Rx) (h : Keeps s₀ s) : Keeps s₀ (State.onTollRead rx s) := by
  unfold State.onTollRead
  repeat' first
    | with_reducible assumption
    | with_reducible apply refuseRx_keeps
    | with_reducible apply readNext_keeps
    | with_reducible apply setReadStream_keeps
    | with_reducible apply takeStream_keeps
    | with_reducible apply abandonRead_keeps
    | dsimp only
    | split

theorem readNotSent_keeps {s₀ s : State} (f : Offer) (h : Keeps s₀ s) : Keeps s₀ (State.readNotSent f s) := by
  unfold State.readNotSent
  repeat' first
    | with_reducible assumption
    | with_reducible apply abandonRead_keeps
    | split

theorem freeOne_keeps {s₀ s : State} (r : Record) (hr : r ∈ s.store.records) (h : Keeps s₀ s) :
    Keeps s₀ (s.setStore (s.store.freeOne r)) := setStore_keeps _ h rfl (freeOne_whole hr)

theorem onTollRemove_keeps {s₀ s : State} (rx : Rx) (h : Keeps s₀ s) : Keeps s₀ (State.onTollRemove rx s) := by
  unfold State.onTollRemove
  split
  · exact refuseRx_keeps _ _ _ h
  · rename_i r l hl
    have hr : r ∈ s.store.records := by
      have : r ∈ s.store.log := by rw [hl]; exact List.mem_cons_self
      exact List.mem_of_mem_filter this
    split
    · dsimp only
      apply offerTollReady_keeps
      apply emit_keeps
      split
      · exact freeOne_keeps (s := s.abandonRead) r (by rw [abandonRead_store]; exact hr) (abandonRead_keeps h)
      · exact freeOne_keeps r hr h
    · exact refuseRx_keeps _ _ _ h

end Sys2Proof.Machine
end

