-- ==== Sys2Proof/Laws/UnitsKeeps.lean ====
section
/-! SUPPORT. What the operations of the boundary units keep. -/

set_option linter.unusedTactic false
set_option linter.unreachableTactic false

namespace Sys2Proof.Machine
open Sys2Proof

/-! ### One ACTIVE slot (R100) -/

theorem idle_slots {b : BoundaryUnit} (h : b.idle = true) : b.below.active? = none ∧ b.above.active? = none := by
  unfold BoundaryUnit.idle BoundaryUnit.active? at h
  split at h
  · cases h
  · rename_i hb
    exact ⟨hb, Option.isNone_iff_eq_none.mp h⟩

theorem emptyActive_oneActive {b : BoundaryUnit} (h : b.OneActive) : b.emptyActive.OneActive := by
  unfold BoundaryUnit.emptyActive
  split
  · exact Or.inl rfl
  · exact Or.inr rfl
  · exact h

theorem mapActive_oneActive {b : BoundaryUnit} (f : Crossing → Crossing) (h : b.OneActive) : (b.mapActive f).OneActive := by
  unfold BoundaryUnit.mapActive
  split
  · rename_i hb
    exact Or.inr (h.resolve_left (fun e => by rw [hb] at e; cases e))
  · rename_i ha _
    exact Or.inl (h.resolve_right (fun e => by rw [ha] at e; cases e))
  · exact h

theorem placeCrossing_keeps {s₀ s : State} (u : UnitId) (below : Bool) (c : Crossing) (h : Keeps s₀ s) :
    Keeps s₀ (State.placeCrossing u below c s) := by
  unfold State.placeCrossing
  refine emit_keeps _ (modUnit_keeps _ _ (fun _ => ?_) h)
  cases below
  · exact Or.inr rfl
  · exact Or.inl rfl

theorem beginCrossing_keeps {s₀ s : State} (u : UnitId) (h : Keeps s₀ s) : Keeps s₀ (State.beginCrossing u s) := by
  unfold State.beginCrossing
  dsimp only
  split
  · exact h
  · rename_i hi
    have hi : (s.unit u).idle = true := by
      by_contra hc
      simp only [Bool.not_eq_true] at hc
      exact hi (by simp [hc])
    obtain ⟨hb, ha⟩ := idle_slots hi
    split
    · exact h
    · rename_i below c _
      refine emit_keeps _ (modUnit_keeps _ _ (fun _ => ?_) h)
      cases below
      · exact Or.inl hb
      · exact Or.inr ha

theorem occupyAtOpen_keeps {s₀ s : State} (c : Crossing) (h : Keeps s₀ s) : Keeps s₀ (State.occupyAtOpen c s) := by
  unfold State.occupyAtOpen
  repeat' first
    | with_reducible assumption
    | with_reducible apply setOccupancy_keeps
    | split

theorem endCrossing_keeps {s₀ s : State} (u : UnitId) (c : Crossing) (h : Keeps s₀ s) :
    Keeps s₀ (State.endCrossing u c s) := by
  unfold State.endCrossing
  exact emits_keeps _ (modUnit_keeps _ _ (fun k => emptyActive_oneActive k) h)

theorem advance_keeps {s₀ s : State} (u : UnitId) (h : Keeps s₀ s) : Keeps s₀ (State.advance u s) := by
  unfold State.advance
  repeat' first
    | with_reducible assumption
    | with_reducible apply endCrossing_keeps
    | ((with_reducible refine modUnit_slots _ _ ?hb ?ha ?_); (case hb => exact fun _ => rfl); (case ha => exact fun _ => rfl))
    | with_reducible apply emit_keeps
    | with_reducible apply occupyAtOpen_keeps
    | dsimp only
    | split

theorem askMotion_keeps {s₀ s : State} (u : UnitId) (e : Element) (t : Target) (h : Keeps s₀ s) :
    Keeps s₀ (State.askMotion u e t s) := by
  unfold State.askMotion
  repeat' first
    | with_reducible assumption
    | ((with_reducible refine modUnit_slots _ _ ?hb ?ha ?_); (case hb => exact fun _ => rfl); (case ha => exact fun _ => rfl))
    | with_reducible apply requestMotion_keeps
    | dsimp only
    | split

theorem withdrawMotion_keeps {s₀ s : State} (u : UnitId) (e : Element) (t : Target) (h : Keeps s₀ s) :
    Keeps s₀ (State.withdrawMotion u e t s) := by
  unfold State.withdrawMotion
  repeat' first
    | with_reducible assumption
    | with_reducible apply withdraw_keeps
    | split

theorem setHold_keeps {s₀ s : State} (u : UnitId) (hx : Hold) (h : Keeps s₀ s) : Keeps s₀ (State.setHold u hx s) := by
  unfold State.setHold
  repeat' first
    | with_reducible assumption
    | ((with_reducible refine modUnit_slots _ _ ?hb ?ha ?_); (case hb => exact fun _ => rfl); (case ha => exact fun _ => rfl))
    | dsimp only

theorem onSlotFree_keeps {s₀ s : State} (u : UnitId) (h : Keeps s₀ s) : Keeps s₀ (State.onSlotFree u s) := by
  unfold State.onSlotFree
  repeat' first
    | with_reducible assumption
    | ((with_reducible refine modUnit_slots _ _ ?hb ?ha ?_); (case hb => exact fun _ => rfl); (case ha => exact fun _ => rfl))
    | with_reducible apply requestMotion_keeps
    | with_reducible apply askMotion_keeps
    | dsimp only
    | split

theorem reserveTest_keeps {s₀ s : State} (u : UnitId) (h : Keeps s₀ s) : Keeps s₀ (State.reserveTest u s) := by
  unfold State.reserveTest
  dsimp only
  split
  · split
    · split
      · rename_i hc
        exact advance_keeps _ (reserve_keeps _ _ hc.2 h)
      · exact h
    all_goals
      repeat' first
        | with_reducible assumption
        | with_reducible apply advance_keeps
        | ((with_reducible refine modUnit_slots _ _ ?hb ?ha ?_); (case hb => exact fun _ => rfl); (case ha => exact fun _ => rfl))
        | with_reducible apply sendLogFull_keeps
        | split
  · exact h

theorem askSluiceClosed_keeps {s₀ s : State} (u : UnitId) (h : Keeps s₀ s) : Keeps s₀ (State.askSluiceClosed u s) := by
  unfold State.askSluiceClosed
  repeat' first
    | with_reducible assumption
    | with_reducible apply askMotion_keeps
    | split

theorem equalizeTest_keeps {s₀ s : State} (u : UnitId) (h : Keeps s₀ s) : Keeps s₀ (State.equalizeTest u s) := by
  unfold State.equalizeTest
  repeat' first
    | with_reducible assumption
    | ((with_reducible refine modUnit_slots _ _ ?hb ?ha ?_); (case hb => exact fun _ => rfl); (case ha => exact fun _ => rfl))
    | with_reducible apply withdrawMotion_keeps
    | with_reducible apply advance_keeps
    | with_reducible apply askSluiceClosed_keeps
    | with_reducible apply askMotion_keeps
    | dsimp only
    | split

theorem equalizeExpiry_keeps {s₀ s : State} (u : UnitId) (h : Keeps s₀ s) : Keeps s₀ (State.equalizeExpiry u s) := by
  unfold State.equalizeExpiry
  repeat' first
    | with_reducible assumption
    | ((with_reducible refine modUnit_slots _ _ ?hb ?ha ?_); (case hb => exact fun _ => rfl); (case ha => exact fun _ => rfl))
    | with_reducible apply withdrawMotion_keeps
    | with_reducible apply placeSafety_keeps
    | with_reducible apply setHold_keeps
    | with_reducible apply emit_keeps
    | dsimp only
    | split

theorem entryRecords_keeps {s₀ s : State} (key : BatchKey) (entered : Nat) (h : Keeps s₀ s) :
    Keeps s₀ (State.entryRecords key entered s) := by
  unfold State.entryRecords
  dsimp only
  exact move_keeps _ _ _ (Or.inl ⟨by decide, by decide⟩) (addLines_keeps _ _ _ (freeWhere_keeps _ _ h))

theorem inFlight_filter_fits {t : Token} (p : InFlight → Bool) (h : t.Fits) :
    ({ t with inFlight := t.inFlight.filter p } : Token).Fits :=
  ⟨(List.length_filter_le _ _).trans h.1, h.2⟩

theorem entryMembers_keeps {s₀ s : State} (key : BatchKey) (entered : Nat) (h : Keeps s₀ s) :
    Keeps s₀ (State.entryMembers key entered s) := by
  unfold State.entryMembers
  dsimp only
  split
  · exact emit_keeps _ (keeps_token (inFlight_filter_fits _) (keeps_approach (fun w => w) h))
  · exact keeps_approach (fun w => w) h

theorem transitHooks_keeps {s₀ s : State} (c : Crossing) (count : Nat) (h : Keeps s₀ s) :
    Keeps s₀ (State.transitHooks c count s) := by
  unfold State.transitHooks
  repeat' first
    | with_reducible assumption
    | with_reducible apply entryRecords_keeps
    | with_reducible apply entryMembers_keeps
    | with_reducible apply setOccupancy_keeps
    | with_reducible apply closeBatch_keeps
    | dsimp only
    | split

theorem endTransit_keeps {s₀ s : State} (u : UnitId) (h : Keeps s₀ s) : Keeps s₀ (State.endTransit u s) := by
  unfold State.endTransit
  repeat' first
    | with_reducible assumption
    | with_reducible apply transitHooks_keeps
    | with_reducible apply advance_keeps
    | split

theorem transitTest_keeps {s₀ s : State} (u : UnitId) (h : Keeps s₀ s) : Keeps s₀ (State.transitTest u s) := by
  unfold State.transitTest
  repeat' first
    | with_reducible assumption
    | with_reducible apply endTransit_keeps
    | dsimp only
    | split

theorem entryExpiry_keeps {s₀ s : State} (u : UnitId) (h : Keeps s₀ s) : Keeps s₀ (State.entryExpiry u s) := by
  unfold State.entryExpiry
  repeat' first
    | with_reducible assumption
    | ((with_reducible refine modUnit_slots _ _ ?hb ?ha ?_); (case hb => exact fun _ => rfl); (case ha => exact fun _ => rfl))
    | (with_reducible refine modUnit_keeps _ _ (fun k => mapActive_oneActive _ k) ?_)
    | with_reducible apply endTransit_keeps
    | dsimp only
    | split

theorem raiseMismatch_keeps {s₀ s : State} (u : UnitId) (v1 v2 : Nat) (h : Keeps s₀ s) :
    Keeps s₀ (State.raiseMismatch u v1 v2 s) := by
  unfold State.raiseMismatch
  repeat' first
    | with_reducible assumption
    | with_reducible apply emit_keeps
    | split

theorem mismatchHold_keeps {s₀ s : State} (u : UnitId) (h : Keeps s₀ s) : Keeps s₀ (State.mismatchHold u s) := by
  unfold State.mismatchHold
  repeat' first
    | with_reducible assumption
    | with_reducible apply setHold_keeps
    | ((with_reducible refine modUnit_slots _ _ ?hb ?ha ?_); (case hb => exact fun _ => rfl); (case ha => exact fun _ => rfl))
    | dsimp only
    | split

theorem onPassage_keeps {s₀ s : State} (u : UnitId) (d : Direction) (h : Keeps s₀ s) :
    Keeps s₀ (State.onPassage u d s) := by
  unfold State.onPassage
  repeat' first
    | with_reducible assumption
    | ((with_reducible refine modUnit_slots _ _ ?hb ?ha ?_); (case hb => exact fun _ => rfl); (case ha => exact fun _ => rfl))
    | with_reducible apply mismatchHold_keeps
    | with_reducible apply raiseMismatch_keeps
    | with_reducible apply transitTest_keeps
    | dsimp only
    | split

theorem releaseStep_keeps {s₀ s : State} (u : UnitId) (c : Crossing) (h : Keeps s₀ s) :
    Keeps s₀ (State.releaseStep u c s) := by
  unfold State.releaseStep
  repeat' first
    | with_reducible assumption
    | with_reducible apply releaseOwn_keeps
    | with_reducible apply releaseLower_keeps
    | with_reducible apply emit_keeps
    | with_reducible apply advance_keeps
    | dsimp only
    | split

theorem actStep_keeps {s₀ s : State} (u : UnitId) (h : Keeps s₀ s) : Keeps s₀ (State.actStep u s) := by
  unfold State.actStep
  repeat' first
    | with_reducible assumption
    | with_reducible apply reserve_keeps
    | with_reducible apply reserveTest_keeps
    | with_reducible apply equalizeTest_keeps
    | with_reducible apply askMotion_keeps
    | with_reducible apply transitTest_keeps
    | with_reducible apply releaseStep_keeps
    | dsimp only
    | split

theorem claimsComplete_keeps {s₀ s : State} (u : UnitId) (h : Keeps s₀ s) : Keeps s₀ (State.claimsComplete u s) := by
  unfold State.claimsComplete
  repeat' first
    | with_reducible assumption
    | with_reducible apply advance_keeps
    | ((with_reducible refine modUnit_slots _ _ ?hb ?ha ?_); (case hb => exact fun _ => rfl); (case ha => exact fun _ => rfl))
    | with_reducible apply actStep_keeps
    | dsimp only
    | split

theorem claimStep_keeps {s₀ s : State} (u : UnitId) (h : Keeps s₀ s) : Keeps s₀ (State.claimStep u s) := by
  unfold State.claimStep
  repeat' first
    | with_reducible assumption
    | ((with_reducible refine modUnit_slots _ _ ?hb ?ha ?_); (case hb => exact fun _ => rfl); (case ha => exact fun _ => rfl))
    | with_reducible apply askOwn_keeps
    | with_reducible apply askLower_keeps
    | with_reducible apply claimsComplete_keeps
    | dsimp only
    | split

theorem enterStep_keeps {s₀ s : State} (u : UnitId) (h : Keeps s₀ s) : Keeps s₀ (State.enterStep u s) := by
  unfold State.enterStep
  repeat' first
    | with_reducible assumption
    | with_reducible apply claimStep_keeps
    | with_reducible apply actStep_keeps
    | dsimp only
    | split

theorem claimOn_keeps {s₀ s : State} (u : UnitId) (h : Keeps s₀ s) : Keeps s₀ (State.claimOn u s) := by
  unfold State.claimOn
  repeat' first
    | with_reducible assumption
    | with_reducible apply claimStep_keeps
    | split

theorem giveOwn_keeps {s₀ s : State} (u : UnitId) (h : Keeps s₀ s) : Keeps s₀ (State.giveOwn u s) := by
  unfold State.giveOwn
  repeat' first
    | with_reducible assumption
    | with_reducible apply releaseOwn_keeps
    | split

theorem onOwnClaim_keeps {s₀ s : State} (u : UnitId) (n : OwnNotice) (h : Keeps s₀ s) :
    Keeps s₀ (State.onOwnClaim u n s) := by
  unfold State.onOwnClaim
  repeat' first
    | with_reducible assumption
    | with_reducible apply claimOn_keeps
    | ((with_reducible refine modUnit_slots _ _ ?hb ?ha ?_); (case hb => exact fun _ => rfl); (case ha => exact fun _ => rfl))
    | with_reducible apply giveOwn_keeps
    | with_reducible apply setHold_keeps
    | dsimp only
    | split

theorem onHolderFree_keeps {s₀ s : State} (h : Keeps s₀ s) : Keeps s₀ (State.onHolderFree s) := by
  unfold State.onHolderFree
  repeat' first
    | with_reducible assumption
    | with_reducible apply claimOn_keeps
    | (with_reducible refine foldl_keeps _ _ (fun _ _ _ => ?_) ?_)
    | (intro _)
    | dsimp only
    | split

theorem freezePeer_keeps {s₀ s : State} (h : Keeps s₀ s) : Keeps s₀ (State.freezePeer s) := by
  unfold State.freezePeer
  repeat' first
    | with_reducible assumption
    | ((with_reducible refine modUnit_slots _ _ ?hb ?ha ?_); (case hb => exact fun _ => rfl); (case ha => exact fun _ => rfl))
    | with_reducible apply withdrawMotion_keeps
    | with_reducible apply placeSafety_keeps
    | dsimp only
    | split

theorem onLowerClaim_keeps {s₀ s : State} (n : LowerNotice) (h : Keeps s₀ s) : Keeps s₀ (State.onLowerClaim n s) := by
  unfold State.onLowerClaim
  repeat' first
    | with_reducible assumption
    | with_reducible apply claimOn_keeps
    | with_reducible apply giveOwn_keeps
    | ((with_reducible refine modUnit_slots _ _ ?hb ?ha ?_); (case hb => exact fun _ => rfl); (case ha => exact fun _ => rfl))
    | with_reducible apply freezePeer_keeps
    | with_reducible apply setHold_keeps
    | dsimp only
    | split

theorem claimRetry_keeps {s₀ s : State} (u : UnitId) (h : Keeps s₀ s) : Keeps s₀ (State.claimRetry u s) := by
  unfold State.claimRetry
  repeat' first
    | with_reducible assumption
    | ((with_reducible refine modUnit_slots _ _ ?hb ?ha ?_); (case hb => exact fun _ => rfl); (case ha => exact fun _ => rfl))
    | with_reducible apply claimOn_keeps
    | dsimp only
    | split

/-- A slot whose ACTIVE crossing waits again holds none ACTIVE. -/
theorem requeued_slot (x : CrossSlot) (m : Nat) :
    (match x with
      | .active c => CrossSlot.waiting { c with mark := m, requeued := true }
      | y => y).active? = none := by cases x <;> rfl

theorem requeue_keeps {s₀ s : State} (u : UnitId) (h : Keeps s₀ s) : Keeps s₀ (State.requeue u s) := by
  unfold State.requeue
  repeat' first
    | with_reducible assumption
    | with_reducible apply giveOwn_keeps
    | with_reducible apply leaveLower_keeps
    | ((with_reducible refine modUnit_keeps _ _ ?hf ?_); (case hf => exact fun _ => Or.inl (requeued_slot _ _)))
    | with_reducible apply emits_keeps
    | with_reducible apply beginCrossing_keeps
    | dsimp only
    | split

theorem withdrawWaiting_keeps {s₀ s : State} (u : UnitId) (h : Keeps s₀ s) : Keeps s₀ (State.withdrawWaiting u s) := by
  unfold State.withdrawWaiting
  repeat' first
    | with_reducible assumption
    | with_reducible apply withdraw_keeps
    | split

theorem restartStep_keeps {s₀ s : State} (u : UnitId) (h : Keeps s₀ s) : Keeps s₀ (State.restartStep u s) := by
  unfold State.restartStep
  repeat' first
    | with_reducible assumption
    | with_reducible apply withdrawWaiting_keeps
    | ((with_reducible refine modUnit_slots _ _ ?hb ?ha ?_); (case hb => exact fun _ => rfl); (case ha => exact fun _ => rfl))
    | with_reducible apply requeue_keeps
    | with_reducible apply claimStep_keeps
    | with_reducible apply reserve_keeps
    | with_reducible apply actStep_keeps
    | dsimp only
    | split

theorem alarmWaitTest_keeps {s₀ s : State} (h : Keeps s₀ s) : Keeps s₀ (State.alarmWaitTest s) := by
  unfold State.alarmWaitTest
  repeat' first
    | with_reducible assumption
    | with_reducible apply restartStep_keeps
    | (with_reducible refine foldl_keeps _ _ (fun _ _ _ => ?_) ?_)
    | (intro _)
    | dsimp only
    | split

theorem peerRestartTest_keeps {s₀ s : State} (h : Keeps s₀ s) : Keeps s₀ (State.peerRestartTest s) := by
  unfold State.peerRestartTest
  repeat' first
    | with_reducible assumption
    | with_reducible apply restartStep_keeps
    | dsimp only
    | split

theorem freezeUnits_keeps {s₀ s : State} (h : Keeps s₀ s) : Keeps s₀ (State.freezeUnits s) := by
  unfold State.freezeUnits
  exact foldl_keeps _ _ (fun s u h => modUnit_slots u _ (fun b => by split <;> rfl) (fun b => by split <;> rfl) h) h

theorem unfreezeUnits_keeps {s₀ s : State} (h : Keeps s₀ s) : Keeps s₀ (State.unfreezeUnits s) := by
  unfold State.unfreezeUnits
  repeat' first
    | with_reducible assumption
    | ((with_reducible refine modUnit_slots _ _ ?hb ?ha ?_); (case hb => exact fun _ => rfl); (case ha => exact fun _ => rfl))
    | with_reducible apply peerRestartTest_keeps
    | with_reducible apply restartStep_keeps
    | (with_reducible refine foldl_keeps _ _ (fun _ _ _ => ?_) ?_)
    | (intro _)
    | dsimp only
    | split

theorem recoveryRestart_keeps {s₀ s : State} (u : UnitId) (key : BatchKey) (st : Step) (h : Keeps s₀ s) :
    Keeps s₀ (State.recoveryRestart u key st s) := by
  unfold State.recoveryRestart
  repeat' first
    | with_reducible assumption
    | with_reducible apply restartStep_keeps
    | dsimp only
    | split

theorem transitRecovered_keeps {s₀ s : State} (u : UnitId) (h : Keeps s₀ s) : Keeps s₀ (State.transitRecovered u s) := by
  unfold State.transitRecovered
  repeat' first
    | with_reducible assumption
    | with_reducible apply restartStep_keeps
    | dsimp only
    | split

theorem timeoutRecovered_keeps {s₀ s : State} (u : UnitId) (h : Keeps s₀ s) : Keeps s₀ (State.timeoutRecovered u s) := by
  unfold State.timeoutRecovered
  repeat' first
    | with_reducible assumption
    | with_reducible apply requeue_keeps
    | dsimp only
    | split

theorem recoverGate_keeps {s₀ s : State} (u : UnitId) (e : Element) (h : Keeps s₀ s) :
    Keeps s₀ (State.recoverGate u e s) := by
  unfold State.recoverGate
  repeat' first
    | with_reducible assumption
    | ((with_reducible refine modUnit_slots _ _ ?hb ?ha ?_); (case hb => exact fun _ => rfl); (case ha => exact fun _ => rfl))
    | with_reducible apply onSlotFree_keeps
    | dsimp only

theorem motionComplete_keeps {s₀ s : State} (u : UnitId) (h : Keeps s₀ s) : Keeps s₀ (State.motionComplete u s) := by
  unfold State.motionComplete
  repeat' first
    | with_reducible assumption
    | with_reducible apply advance_keeps
    | with_reducible apply equalizeTest_keeps
    | dsimp only
    | split

theorem stepMotion_keeps {s₀ s : State} (u : UnitId) (e : Element) (t : Target) (n : MotionNotice) (atOnce : Bool) (h : Keeps s₀ s) :
    Keeps s₀ (State.stepMotion u e t n atOnce s) := by
  unfold State.stepMotion
  repeat' first
    | with_reducible assumption
    | with_reducible apply motionComplete_keeps
    | with_reducible apply setHold_keeps
    | with_reducible apply emit_keeps
    | with_reducible apply alarmWaitTest_keeps
    | with_reducible apply doIf_keeps
    | with_reducible apply placeSafety_keeps
    | with_reducible apply askMotion_keeps
    | ((with_reducible refine modUnit_slots _ _ ?hb ?ha ?_); (case hb => exact fun _ => rfl); (case ha => exact fun _ => rfl))
    | dsimp only
    | split

theorem recoveryMotion_keeps {s₀ s : State} (u : UnitId) (e : Element) (n : MotionNotice) (atOnce : Bool) (h : Keeps s₀ s) :
    Keeps s₀ (State.recoveryMotion u e n atOnce s) := by
  unfold State.recoveryMotion
  repeat' first
    | with_reducible assumption
    | ((with_reducible refine modUnit_slots _ _ ?hb ?ha ?_); (case hb => exact fun _ => rfl); (case ha => exact fun _ => rfl))
    | with_reducible apply doIf_keeps
    | with_reducible apply emit_keeps
    | dsimp only
    | split

theorem onMotion_keeps {s₀ s : State} (u : UnitId) (e : Element) (t : Target) (n : MotionNotice) (atOnce : Bool) (h : Keeps s₀ s) :
    Keeps s₀ (State.onMotion u e t n atOnce s) := by
  unfold State.onMotion
  repeat' first
    | with_reducible assumption
    | with_reducible apply recoveryMotion_keeps
    | with_reducible apply stepMotion_keeps
    | dsimp only
    | split

theorem suspendClaims_keeps {s₀ s : State} (h : Keeps s₀ s) : Keeps s₀ (State.suspendClaims s) := by
  unfold State.suspendClaims
  repeat' first
    | with_reducible assumption
    | with_reducible apply withdrawOwn_keeps
    | with_reducible apply withdrawLower_keeps
    | ((with_reducible refine modUnit_slots _ _ ?hb ?ha ?_); (case hb => exact fun _ => rfl); (case ha => exact fun _ => rfl))
    | (with_reducible refine foldl_keeps _ _ (fun _ _ _ => ?_) ?_)
    | (intro _)
    | dsimp only
    | split

theorem localResume_keeps {s₀ s : State} (h : Keeps s₀ s) : Keeps s₀ (State.localResume s) := by
  unfold State.localResume
  repeat' first
    | with_reducible assumption
    | with_reducible apply claimStep_keeps
    | with_reducible apply onSlotFree_keeps
    | (with_reducible refine foldl_keeps _ _ (fun _ _ _ => ?_) ?_)
    | (intro _)
    | dsimp only
    | split

theorem modOnward_keeps {s₀ s : State} (f : Onward → Onward) (h : Keeps s₀ s) : Keeps s₀ (s.modOnward f) := h

theorem askOnward_keeps {s₀ s : State} (h : Keeps s₀ s) : Keeps s₀ (State.askOnward s) := by
  unfold State.askOnward
  repeat' first
    | with_reducible assumption
    | with_reducible apply modOnward_keeps
    | with_reducible apply request_keeps
    | dsimp only
    | split

theorem makeOnward_keeps {s₀ s : State} (h : Keeps s₀ s) : Keeps s₀ (State.makeOnward s) := by
  unfold State.makeOnward
  repeat' first
    | with_reducible assumption
    | with_reducible apply modOnward_keeps
    | with_reducible apply placeCrossing_keeps
    | with_reducible apply askOnward_keeps
    | dsimp only
    | split

theorem onwardTest_keeps {s₀ s : State} (h : Keeps s₀ s) : Keeps s₀ (State.onwardTest s) := by
  unfold State.onwardTest
  repeat' first
    | with_reducible assumption
    | with_reducible apply makeOnward_keeps
    | with_reducible apply askOnward_keeps
    | with_reducible apply modOnward_keeps
    | split

theorem onwardEnd_keeps {s₀ s : State} (h : Keeps s₀ s) : Keeps s₀ (State.onwardEnd s) := by
  unfold State.onwardEnd
  repeat' first
    | with_reducible assumption
    | with_reducible apply dropWaitingRequest_keeps
    | split
    | with_reducible apply keeps_onward

theorem takeBack_fits {l : Link} (b : Block) (k : Kind) (h : l.Fits) : (l.takeBack b k).Fits := filterEntries_fits _ h

/-- Nothing of the kind is left to be placed once it is taken back. -/
theorem takeBack_unplaced (b : Block) (k : Kind) (l : Link) : (l.takeBack b k).unplaced.any (fun o => o.kind = k) = false := by
  simp only [Link.unplaced, Link.takeBack, List.any_append, List.any_filter, List.any_filterMap, Bool.or_eq_false_iff,
    List.any_eq_false]
  refine ⟨fun o _ => by simp, fun x _ => ?_⟩
  cases x <;> simp +contextual [Held.isFrame, Held.isAsk]

theorem withholdOnward_keeps {s₀ s : State} (h : Keeps s₀ s) : Keeps s₀ (State.withholdOnward s) := by
  unfold State.withholdOnward
  split
  · exact serveAll_keeps (fillQueue_keeps (keeps_link (s := { s with onward := _ }) rfl rfl (takeBack_fits _ _)
      (keeps_onward h)))
  · exact h

theorem onwardFailed_keeps {s₀ s : State} (tag : Nat) (h : Keeps s₀ s) : Keeps s₀ (State.onwardFailed tag s) := by
  unfold State.onwardFailed
  repeat' first
    | with_reducible assumption
    | with_reducible apply modOnward_keeps
    | dsimp only
    | split

theorem onCrossTaken_keeps {s₀ s : State} (rx : Rx) (h : Keeps s₀ s) : Keeps s₀ (State.onCrossTaken rx s) := by
  unfold State.onCrossTaken
  repeat' first
    | with_reducible assumption
    | with_reducible apply modOnward_keeps
    | with_reducible apply endEntry_keeps
    | dsimp only
    | split

theorem onCrossDeny_keeps {s₀ s : State} (rx : Rx) (h : Keeps s₀ s) : Keeps s₀ (State.onCrossDeny rx s) := by
  unfold State.onCrossDeny
  repeat' first
    | with_reducible assumption
    | with_reducible apply onwardFailed_keeps
    | with_reducible apply endEntry_keeps
    | split

theorem onwardRetry_keeps {s₀ s : State} (h : Keeps s₀ s) : Keeps s₀ (State.onwardRetry s) := by
  unfold State.onwardRetry
  repeat' first
    | with_reducible assumption
    | with_reducible apply modOnward_keeps
    | with_reducible apply onwardTest_keeps
    | dsimp only
    | split

theorem onwardRepeat_keeps {s₀ s : State} (h : Keeps s₀ s) : Keeps s₀ (State.onwardRepeat s) := by
  unfold State.onwardRepeat
  repeat' first
    | with_reducible assumption
    | with_reducible apply modOnward_keeps
    | with_reducible apply onwardTest_keeps
    | dsimp only
    | split

theorem dealCrossAsk_keeps {s₀ s : State} (tag : Nat) (c : Crossing) (h : Keeps s₀ s) :
    Keeps s₀ (State.dealCrossAsk tag c s) := by
  unfold State.dealCrossAsk
  repeat' first
    | with_reducible assumption
    | with_reducible apply send_keeps
    | with_reducible apply placeCrossing_keeps
    | dsimp only
    | split

theorem onCrossAsk_keeps {s₀ s : State} (rx : Rx) (h : Keeps s₀ s) : Keeps s₀ (State.onCrossAsk rx s) := by
  unfold State.onCrossAsk
  repeat' first
    | with_reducible assumption
    | with_reducible apply wake_keeps
    | with_reducible apply dealCrossAsk_keeps
    | dsimp only

end Sys2Proof.Machine
end

