-- ==== Sys2Proof/Laws/LocalKeeps.lean ====
section
/-! SUPPORT. What the operations of local working keep. -/

set_option linter.unusedTactic false
set_option linter.unreachableTactic false

namespace Sys2Proof.Machine
open Sys2Proof

theorem setLocal_keeps {s₀ s : State} (x : LocalState) (h : Keeps s₀ s) : Keeps s₀ (State.setLocal x s) := by
  unfold State.setLocal
  repeat' first
    | with_reducible assumption
    | with_reducible apply emits_keeps
    | with_reducible apply localResume_keeps
    | (with_reducible refine keeps_ctl rfl rfl rfl ?_)

theorem setLocalPhase_keeps {s₀ s : State} (p : LocalPhase) (h : Keeps s₀ s) : Keeps s₀ (State.setLocalPhase p s) := by
  unfold State.setLocalPhase
  repeat' first
    | with_reducible assumption
    | (with_reducible refine keeps_ctl rfl rfl rfl ?_)

theorem localTest_keeps {s₀ s : State} (h : Keeps s₀ s) : Keeps s₀ (State.localTest s) := by
  unfold State.localTest
  repeat' first
    | with_reducible assumption
    | with_reducible apply suspendClaims_keeps
    | with_reducible apply emits_keeps
    | dsimp only
    | split
    | (with_reducible refine keeps_ctl rfl rfl rfl ?_)

theorem localClaims_keeps {s₀ s : State} (h : Keeps s₀ s) : Keeps s₀ (State.localClaims s) := by
  unfold State.localClaims
  repeat' first
    | with_reducible assumption
    | with_reducible apply setLocalPhase_keeps
    | with_reducible apply askOwn_keeps
    | split

theorem localWorking_keeps {s₀ s : State} (h : Keeps s₀ s) : Keeps s₀ (State.localWorking s) := by
  unfold State.localWorking
  repeat' first
    | with_reducible assumption
    | with_reducible apply setMode_keeps
    | dsimp only
    | split
    | (with_reducible refine keeps_ctl rfl rfl rfl ?_)

theorem localGiveBack_keeps {s₀ s : State} (h : Keeps s₀ s) : Keeps s₀ (State.localGiveBack s) := by
  unfold State.localGiveBack
  repeat' first
    | with_reducible assumption
    | with_reducible apply releaseOwn_keeps
    | with_reducible apply withdrawOwn_keeps
    | with_reducible apply leaveLower_keeps
    | dsimp only
    | split

theorem localAbandon_keeps {s₀ s : State} (x : LocalState) (h : Keeps s₀ s) : Keeps s₀ (State.localAbandon x s) := by
  unfold State.localAbandon
  repeat' first
    | with_reducible assumption
    | with_reducible apply localGiveBack_keeps
    | with_reducible apply setLocalPhase_keeps
    | with_reducible apply setLocal_keeps
    | dsimp only
    | split

theorem localOwn_keeps {s₀ s : State} (n : OwnNotice) (h : Keeps s₀ s) : Keeps s₀ (State.localOwn n s) := by
  unfold State.localOwn
  repeat' first
    | with_reducible assumption
    | with_reducible apply setLocalPhase_keeps
    | with_reducible apply askLower_keeps
    | with_reducible apply localWorking_keeps
    | with_reducible apply localAbandon_keeps
    | split

theorem localLower_keeps {s₀ s : State} (n : LowerNotice) (h : Keeps s₀ s) : Keeps s₀ (State.localLower n s) := by
  unfold State.localLower
  repeat' first
    | with_reducible assumption
    | with_reducible apply localWorking_keeps
    | with_reducible apply localAbandon_keeps
    | split

theorem localEndTest_keeps {s₀ s : State} (h : Keeps s₀ s) : Keeps s₀ (State.localEndTest s) := by
  unfold State.localEndTest
  repeat' first
    | with_reducible assumption
    | with_reducible apply owe_keeps
    | with_reducible apply localGiveBack_keeps
    | with_reducible apply setMode_keeps
    | with_reducible apply setLocal_keeps
    | dsimp only
    | split
    | (with_reducible refine keeps_ctl rfl rfl rfl ?_)

theorem localRestored_keeps {s₀ s : State} (h : Keeps s₀ s) : Keeps s₀ (State.localRestored s) := by
  unfold State.localRestored
  repeat' first
    | with_reducible assumption
    | with_reducible apply setLocal_keeps
    | with_reducible apply localEndTest_keeps
    | split

theorem keyToLocal_keeps {s₀ s : State} (h : Keeps s₀ s) : Keeps s₀ (State.keyToLocal s) := by
  unfold State.keyToLocal
  repeat' first
    | with_reducible assumption
    | with_reducible apply wake_keeps
    | with_reducible apply localTest_keeps
    | with_reducible apply setLocal_keeps
    | split

theorem keyToAuto_keeps {s₀ s : State} (h : Keeps s₀ s) : Keeps s₀ (State.keyToAuto s) := by
  unfold State.keyToAuto
  repeat' first
    | with_reducible assumption
    | with_reducible apply localAbandon_keeps
    | with_reducible apply setLocal_keeps
    | with_reducible apply localEndTest_keeps
    | split

theorem onElementKey_keeps {s₀ s : State} (e : Element) (t : Target) (h : Keeps s₀ s) :
    Keeps s₀ (State.onElementKey e t s) := by
  unfold State.onElementKey
  repeat' first
    | with_reducible assumption
    | with_reducible apply requestMotion_keeps
    | split

end Sys2Proof.Machine
end

