-- ==== Sys2Proof/Laws/RecordsKeeps.lean ====
section
/-! SUPPORT. What the operations of the Record Store keep. -/

set_option linter.unusedTactic false
set_option linter.unreachableTactic false

namespace Sys2Proof.Machine
open Sys2Proof

theorem onHold_keeps {s₀ s : State} (rx : Rx) (h : Keeps s₀ s) : Keeps s₀ (State.onHold rx s) := by
  unfold State.onHold
  repeat' first
    | with_reducible assumption
    | with_reducible apply applyHold_keeps

theorem holdExpiry_keeps {s₀ s : State} (p : Party) (h : Keeps s₀ s) : Keeps s₀ (State.holdExpiry p s) := by
  unfold State.holdExpiry
  repeat' first
    | with_reducible assumption
    | with_reducible apply clearHold_keeps
    | split

theorem lowStoreRepeat_keeps {s₀ s : State} (h : Keeps s₀ s) : Keeps s₀ (State.lowStoreRepeat s) := by
  unfold State.lowStoreRepeat
  repeat' first
    | with_reducible assumption
    | with_reducible apply holdEnds_keeps
    | split
    | (with_reducible refine keeps_store rfl id ?_)

theorem holdNotSent_keeps {s₀ s : State} (f : Offer) (h : Keeps s₀ s) : Keeps s₀ (State.holdNotSent f s) := by
  unfold State.holdNotSent
  repeat' first
    | with_reducible assumption
    | with_reducible apply offer_keeps
    | split

theorem setStream_keeps {s₀ s : State} (x : Option Stream) (h : Keeps s₀ s) : Keeps s₀ (State.setStream x s) := by
  unfold State.setStream
  repeat' first
    | with_reducible assumption
    | (with_reducible refine keeps_store rfl id ?_)

theorem streamNext_keeps {s₀ s : State} (h : Keeps s₀ s) : Keeps s₀ (State.streamNext s) := by
  unfold State.streamNext
  repeat' first
    | with_reducible assumption
    | with_reducible apply setStream_keeps
    | with_reducible apply offer_keeps
    | split

theorem abandonStream_keeps {s₀ s : State} (h : Keeps s₀ s) : Keeps s₀ (State.abandonStream s) := by
  unfold State.abandonStream
  split
  · exact h
  · exact dropHeld_keeps _ (setStream_keeps _ h)

theorem streamNotSent_keeps {s₀ s : State} (f : Offer) (h : Keeps s₀ s) : Keeps s₀ (State.streamNotSent f s) := by
  unfold State.streamNotSent
  repeat' first
    | with_reducible assumption
    | with_reducible apply abandonStream_keeps
    | split

theorem onXferBad_keeps {s₀ s : State} (rx : Rx) (h : Keeps s₀ s) : Keeps s₀ (State.onXferBad rx s) := by
  unfold State.onXferBad
  repeat' first
    | with_reducible assumption
    | with_reducible apply abandonStream_keeps
    | dsimp only
    | split

theorem modInbound_keeps {s₀ s : State} (f : Inbound → Inbound) (h : Keeps s₀ s) : Keeps s₀ (s.modInbound f) :=
  keeps_store rfl id h

theorem transferTest_keeps {s₀ s : State} (h : Keeps s₀ s) : Keeps s₀ (State.transferTest s) := by
  unfold State.transferTest
  repeat' first
    | with_reducible assumption
    | with_reducible apply modInbound_keeps
    | with_reducible apply request_keeps
    | dsimp only
    | split

theorem onHandIn_keeps {s₀ s : State} (key : BatchKey) (sender : Addr) (h : Keeps s₀ s) :
    Keeps s₀ (State.onHandIn key sender s) := by
  unfold State.onHandIn
  split
  · exact transferTest_keeps (modInbound_keeps _ h)
  · exact keeps_store rfl id h

theorem nextHandIn_keeps {s₀ s : State} (h : Keeps s₀ s) : Keeps s₀ (State.nextHandIn s) := by
  unfold State.nextHandIn
  repeat' first
    | with_reducible assumption
    | with_reducible apply onHandIn_keeps
    | split
    | (with_reducible refine keeps_store rfl id ?_)

theorem attemptFailed_keeps {s₀ s : State} (b : Bool) (h : Keeps s₀ s) : Keeps s₀ (State.attemptFailed b s) := by
  unfold State.attemptFailed
  dsimp only
  have k : Keeps s₀ { s.freeBatch s.store.inbound.key .receiving with
      store := { (s.freeBatch s.store.inbound.key .receiving).store with gapTimer := none } } :=
    keeps_store rfl id (freeBatch_keeps _ _ h)
  generalize hx : ({ s.freeBatch s.store.inbound.key .receiving with
      store := { (s.freeBatch s.store.inbound.key .receiving).store with gapTimer := none } } : State) = x at k ⊢
  have k2 : Keeps s₀ (if b = true then State.send .record .xferBad s.store.inbound.sender [s.store.inbound.key] x
      else x) := by
    split
    · exact send_keeps _ _ _ _ k
    · exact k
  generalize (if b = true then State.send .record .xferBad s.store.inbound.sender [s.store.inbound.key] x
      else x) = y at k2 ⊢
  split
  · exact modInbound_keeps _ (keeps_store rfl id k2)
  · exact emit_keeps _ (modInbound_keeps _ k2)

theorem xferEnded_keeps {s₀ s : State} (key : BatchKey) (sendBad : Bool) (h : Keeps s₀ s) :
    Keeps s₀ (State.xferEnded key sendBad s) := by
  unfold State.xferEnded
  repeat' first
    | with_reducible assumption
    | with_reducible apply attemptFailed_keeps
    | split

theorem attemptWaitExpiry_keeps {s₀ s : State} (h : Keeps s₀ s) : Keeps s₀ (State.attemptWaitExpiry s) := by
  unfold State.attemptWaitExpiry
  repeat' first
    | with_reducible assumption
    | with_reducible apply transferTest_keeps
    | split
    | (with_reducible refine keeps_store rfl id ?_)

theorem gapExpiry_keeps {s₀ s : State} (h : Keeps s₀ s) : Keeps s₀ (State.gapExpiry s) := by
  unfold State.gapExpiry
  repeat' first
    | with_reducible assumption
    | with_reducible apply attemptFailed_keeps
    | split

theorem newSeries_keeps {s₀ s : State} (h : Keeps s₀ s) : Keeps s₀ (State.newSeries s) := by
  unfold State.newSeries
  repeat' first
    | with_reducible assumption
    | with_reducible apply modInbound_keeps
    | with_reducible apply transferTest_keeps
    | dsimp only
    | split

/-- A batch whose reservation has been returned becomes RESIDENT. -/
theorem moveReceived_keeps {s₀ s : State} (key : BatchKey) (hn : ∀ x ∈ s.store.reservations, x.key ≠ key)
    (h : Keeps s₀ s) : Keeps s₀ { s with store := { s.store.move key .receiving .resident with gapTimer := none } } :=
  keeps_store rfl (fun w => move_whole (st := s.store) key .receiving .resident (Or.inr hn) w) h

theorem returned_reservations (key : BatchKey) (s : State) :
    ∀ x ∈ (s.setStore (s.store.returnReservation key)).store.reservations, x.key ≠ key := by
  rw [setStore_reservations]
  intro x hx
  exact of_decide_eq_true (List.mem_filter.mp hx).2

theorem transferComplete_keeps {s₀ s : State} (h : Keeps s₀ s) : Keeps s₀ (State.transferComplete s) := by
  unfold State.transferComplete
  dsimp only
  exact emits_keeps _ (nextHandIn_keeps (modInbound_keeps _ (send_keeps _ _ _ _ (payOwed_keeps _
    (moveReceived_keeps _ (returned_reservations _ _) (returnReservation_keeps _ (addLines_keeps _ _ _ h)))))))

theorem segmentStored_keeps {s₀ s : State} (h : Keeps s₀ s) : Keeps s₀ (State.segmentStored s) :=
  modInbound_keeps _ (keeps_store rfl id h)

theorem recordWhole_keeps {s₀ s : State} (h : Keeps s₀ s) : Keeps s₀ (State.recordWhole s) := by
  unfold State.recordWhole
  repeat' first
    | with_reducible assumption
    | with_reducible apply modInbound_keeps
    | with_reducible apply transferComplete_keeps
    | dsimp only
    | split

theorem expectAfter_keeps {s₀ s : State} (linesLeft : Bool) (h : Keeps s₀ s) :
    Keeps s₀ (State.expectAfter linesLeft s) := by
  unfold State.expectAfter
  repeat' first
    | with_reducible assumption
    | with_reducible apply modInbound_keeps
    | with_reducible apply recordWhole_keeps
    | dsimp only
    | split

theorem takeHeaderA_keeps {s₀ s : State} (rx : Rx) (h : Keeps s₀ s) : Keeps s₀ (State.takeHeaderA rx s) := by
  unfold State.takeHeaderA
  dsimp only
  split
  · exact attemptFailed_keeps _ h
  · rename_i page free ha
    exact segmentStored_keeps (modInbound_keeps _ (setStore_keeps _ h rfl (addRecord_whole ha rfl (fun _ => rfl) rfl rfl)))

theorem update_keeps {s₀ s : State} (r : Record) (f : Record → Record) (hp : ∀ x, (f x).pages = x.pages)
    (hl : ∀ x, (f x).lines = x.lines) (hk : ∀ x, (f x).key = x.key) (hs : ∀ x, (f x).state = x.state) (h : Keeps s₀ s) :
    Keeps s₀ { s with store := s.store.update r f } :=
  keeps_store rfl (fun w => update_whole _ _ hp hl hk hs w) h

theorem takeHeaderB_keeps {s₀ s : State} (rx : Rx) (r : Record) (h : Keeps s₀ s) :
    Keeps s₀ (State.takeHeaderB rx r s) := by
  unfold State.takeHeaderB
  dsimp only
  exact expectAfter_keeps _ (segmentStored_keeps (modInbound_keeps _
    (update_keeps _ _ (fun _ => rfl) (fun _ => rfl) (fun _ => rfl) (fun _ => rfl) h)))

theorem takeCarry_keeps {s₀ s : State} (rx : Rx) (r : Record) (h : Keeps s₀ s) :
    Keeps s₀ (State.takeCarry rx r s) := by
  unfold State.takeCarry
  dsimp only
  exact expectAfter_keeps _ (segmentStored_keeps
    (update_keeps _ _ (fun _ => rfl) (fun _ => rfl) (fun _ => rfl) (fun _ => rfl) h))

theorem receiveLine_whole {st st' : Store} (l : Line) (r : Record)
    (hr : st.records.find? (Record.standsAt r.key r.position) = some r) (h : st.receiveLine l r = some st') :
    st'.custody = st.custody ∧ (st.PagesWhole → st'.PagesWhole) := by
  have hx : st.Holds r.key r.position r.lines.length r.state := ⟨r, hr, rfl, rfl⟩
  unfold Store.receiveLine at h
  split at h
  · rename_i hm
    cases ha : st.alloc r.key (r.state = .receiving) with
    | none => rw [ha] at h; cases h
    | some p =>
      rw [ha] at h
      cases h
      exact ⟨rfl, fun w => extend_whole l ha hx hm w⟩
  · rename_i hm
    cases h
    exact ⟨rfl, fun w => appendOnly_whole l hx hm w⟩

theorem takeLine_keeps {s₀ s : State} (rx : Rx) (r : Record)
    (hr : s.store.records.find? (Record.standsAt r.key r.position) = some r) (h : Keeps s₀ s) :
    Keeps s₀ (State.takeLine rx r s) := by
  unfold State.takeLine
  dsimp only
  split
  · split
    · exact attemptFailed_keeps _ h
    · rename_i st hst
      obtain ⟨hc, hw⟩ := receiveLine_whole _ _ hr hst
      exact expectAfter_keeps _ (segmentStored_keeps (setStore_keeps _ h hc hw))
  · exact attemptFailed_keeps _ h

theorem takeSegment_keeps {s₀ s : State} (rx : Rx) (h : Keeps s₀ s) : Keeps s₀ (State.takeSegment rx s) := by
  unfold State.takeSegment
  dsimp only
  split
  · split
    · exact takeHeaderA_keeps _ h
    · split
      · exact attemptFailed_keeps _ h
      · rename_i r hr
        obtain ⟨-, -, hfind⟩ := recordAt_find hr
        split
        · exact takeHeaderB_keeps _ _ h
        · split
          · exact takeCarry_keeps _ _ h
          · exact takeLine_keeps _ _ hfind h
  · exact attemptFailed_keeps _ h

theorem onRecSeg_keeps {s₀ s : State} (rx : Rx) (h : Keeps s₀ s) : Keeps s₀ (State.onRecSeg rx s) := by
  unfold State.onRecSeg
  repeat' first
    | with_reducible assumption
    | with_reducible apply endEntry_keeps
    | with_reducible apply takeSegment_keeps
    | dsimp only
    | split

theorem repeatXferEnd_keeps {s₀ s : State} (station : Nat) (b : BeaconContents) (h : Keeps s₀ s) :
    Keeps s₀ (State.repeatXferEnd station b s) := by
  unfold State.repeatXferEnd
  repeat' first
    | with_reducible assumption
    | with_reducible apply send_keeps
    | dsimp only
    | split

end Sys2Proof.Machine
end

