-- ==== Sys2Proof/Laws/ApproachKeeps.lean ====
section
/-! SUPPORT. What the operations of the Approach Unit keep. -/

set_option linter.unusedTactic false
set_option linter.unreachableTactic false

namespace Sys2Proof.Machine
open Sys2Proof

theorem modApproach_keeps {s₀ s : State} (f : Approach → Approach) (hf : s.approach.Fits → (f s.approach).Fits)
    (h : Keeps s₀ s) : Keeps s₀ (s.modApproach f) := keeps_approach hf h

theorem answer_keeps {s₀ s : State} (r : BitVec 32) (x : CallResult) (pos : Nat) (h : Keeps s₀ s) :
    Keeps s₀ (State.answer r x pos s) := by
  unfold State.answer
  split
  · exact h
  · rename_i hn
    refine modApproach_keeps _ (fun w => ⟨w.1, ?_, w.2.2⟩) h
    simp only [List.length_append, List.length_singleton]; omega

theorem answerSent_keeps {s₀ s : State} (h : Keeps s₀ s) : Keeps s₀ (State.answerSent s) := by
  refine modApproach_keeps _ (fun w => ⟨w.1, ?_, w.2.2⟩) h
  have := w.2.1
  simp only [List.length_tail]; omega

theorem queryVessel_keeps {s₀ s : State} (r : BitVec 32) (h : Keeps s₀ s) : Keeps s₀ (State.queryVessel r s) := by
  unfold State.queryVessel
  repeat' first
    | with_reducible assumption
    | with_reducible apply request_keeps

theorem modUnresolved_keeps {s₀ s : State} (r : BitVec 32) (f : QueueEntry → QueueEntry) (h : Keeps s₀ s) :
    Keeps s₀ (State.modUnresolved r f s) :=
  modApproach_keeps _ (fun w => ⟨by simpa using w.1, w.2⟩) h

theorem defaultReg_keeps {s₀ s : State} (r : BitVec 32) (h : Keeps s₀ s) : Keeps s₀ (State.defaultReg r s) := by
  unfold State.defaultReg
  repeat' first
    | with_reducible assumption
    | with_reducible apply modUnresolved_keeps
    | with_reducible apply emit_keeps

theorem beginResolution_keeps {s₀ s : State} (r : BitVec 32) (h : Keeps s₀ s) : Keeps s₀ (State.beginResolution r s) := by
  unfold State.beginResolution
  repeat' first
    | with_reducible assumption
    | with_reducible apply defaultReg_keeps
    | with_reducible apply modUnresolved_keeps
    | with_reducible apply queryVessel_keeps
    | dsimp only
    | split

theorem queryEnded_keeps {s₀ s : State} (r : BitVec 32) (h : Keeps s₀ s) : Keeps s₀ (State.queryEnded r s) := by
  unfold State.queryEnded
  repeat' first
    | with_reducible assumption
    | with_reducible apply queryVessel_keeps
    | split

theorem resolutionExpiry_keeps {s₀ s : State} (r : BitVec 32) (h : Keeps s₀ s) :
    Keeps s₀ (State.resolutionExpiry r s) := by
  unfold State.resolutionExpiry
  repeat' first
    | with_reducible assumption
    | with_reducible apply defaultReg_keeps
    | split

theorem approachDeskLost_keeps {s₀ s : State} (h : Keeps s₀ s) : Keeps s₀ (State.approachDeskLost s) := by
  unfold State.approachDeskLost
  split
  · exact emit_keeps _ (modApproach_keeps _ (fun w => ⟨by simpa using w.1, w.2⟩) h)
  · exact h

theorem unqueue_keeps {s₀ s : State} (r : BitVec 32) (h : Keeps s₀ s) : Keeps s₀ (State.unqueue r s) :=
  modApproach_keeps _ (fun w => ⟨(List.length_filter_le _ _).trans w.1, w.2⟩) h

theorem resolveWith_keeps {s₀ s : State} (v : Vessel) (h : Keeps s₀ s) : Keeps s₀ (State.resolveWith v s) := by
  unfold State.resolveWith
  repeat' first
    | with_reducible assumption
    | with_reducible apply unqueue_keeps
    | with_reducible apply answer_keeps
    | with_reducible apply modUnresolved_keeps
    | with_reducible apply emit_keeps
    | dsimp only
    | split

theorem enqueue_keeps {s₀ s : State} (e : QueueEntry) (hl : s.approach.queue.length < 12) (h : Keeps s₀ s) :
    Keeps s₀ (State.enqueue e s) := by
  unfold State.enqueue
  dsimp only
  refine answer_keeps _ _ _ (modApproach_keeps _ (fun w => ⟨?_, w.2⟩) h)
  simp only [List.length_append, List.length_singleton]; omega

theorem onCancel_keeps {s₀ s : State} (r : BitVec 32) (len : Byte) (h : Keeps s₀ s) :
    Keeps s₀ (State.onCancel r len s) := by
  unfold State.onCancel
  repeat' first
    | with_reducible assumption
    | with_reducible apply answer_keeps
    | with_reducible apply unqueue_keeps
    | split

theorem placeEntry_keeps {s₀ s : State} (key : BatchKey) (vessels : Nat) (h : Keeps s₀ s) :
    Keeps s₀ (State.placeEntry key vessels s) := by
  unfold State.placeEntry
  repeat' first
    | with_reducible assumption
    | with_reducible apply placeCrossing_keeps
    | split

theorem createRecord_token (key : BatchKey) (pos : Nat) (e : QueueEntry) (s : State) :
    (s.createRecord key pos e).token = s.token := by
  unfold State.createRecord
  split
  · rfl
  · exact setStore_token _ _

theorem createRecords_token (key : BatchKey) (l : List (QueueEntry × Nat)) (s : State) :
    (l.foldl (fun s x => s.createRecord key x.2 x.1) s).token = s.token := by
  induction l generalizing s with
  | nil => rfl
  | cons x l ih => exact (ih _).trans (createRecord_token _ _ _ _)

theorem admit_fits {t : Token} (key : BatchKey) (hl : t.inFlight.length < 8) : (t.takeKey key).Fits := by
  unfold Token.takeKey
  refine ⟨?_, ?_⟩
  · dsimp only
    split
    · omega
    · simp only [List.length_append, List.length_singleton]; omega
  · exact Nat.min_le_right _ _

theorem completeBatch_keeps {s₀ s : State} (f : Forming) (hl : s.token.inFlight.length < 8) (h : Keeps s₀ s) :
    Keeps s₀ (State.completeBatch f s) := by
  unfold State.completeBatch
  dsimp only
  refine placeEntry_keeps _ _ (modApproach_keeps _ id ?_)
  refine keeps_token (fun _ => admit_fits _ ?_) (foldl_keeps _ _ (fun s x h => createRecord_keeps _ _ _ h) ?_)
  · rw [createRecords_token]; exact hl
  · refine modApproach_keeps _ (fun w => ⟨?_, w.2⟩) h
    simp only [List.length_map]
    exact (List.length_filter_le _ _).trans w.1

theorem admissionTest_keeps {s₀ s : State} (h : Keeps s₀ s) : Keeps s₀ (State.admissionTest s) := by
  unfold State.admissionTest
  split
  · rename_i hm
    refine completeBatch_keeps _ ?_ h
    unfold State.mayAdmit at hm
    simp only [Bool.and_eq_true, decide_eq_true_eq] at hm
    tauto
  · exact h

theorem entryEnded_keeps {s₀ s : State} (key : BatchKey) (h : Keeps s₀ s) : Keeps s₀ (State.entryEnded key s) := by
  unfold State.entryEnded
  repeat' first
    | with_reducible assumption
    | (with_reducible refine modApproach_keeps _ id ?_)
    | with_reducible apply emit_keeps
    | with_reducible apply admissionTest_keeps
    | dsimp only

theorem insertByOrder_length (e : QueueEntry) (q : List QueueEntry) : (insertByOrder e q).length = q.length + 1 := by
  unfold insertByOrder
  rw [List.length_append, List.length_cons]
  have := List.length_eq_length_filter_add (l := q) (fun x => decide (x.order < e.order))
  omega

theorem returnMember_keeps {s₀ s : State} (e : QueueEntry) (h : Keeps s₀ s) : Keeps s₀ (State.returnMember s e) := by
  unfold State.returnMember
  split
  · exact answer_keeps _ _ _ h
  · rename_i hn
    refine modApproach_keeps _ (fun w => ⟨?_, w.2⟩) h
    rw [insertByOrder_length]; omega

theorem withdrawEntry_keeps {s₀ s : State} (h : Keeps s₀ s) : Keeps s₀ (State.withdrawEntry s) := by
  unfold State.withdrawEntry
  repeat' first
    | with_reducible assumption
    | (with_reducible refine modApproach_keeps _ id ?_)
    | ((with_reducible refine modUnit_keeps _ _ ?hf ?_); (case hf => intro k; split; exacts [Or.inl rfl, Or.inr rfl]))
    | with_reducible apply freeBatch_keeps
    | with_reducible apply returnMember_keeps
    | (with_reducible refine foldl_keeps _ _ (fun _ _ _ => ?_) ?_)
    | (intro _)
    | dsimp only
    | split

end Sys2Proof.Machine
end

