-- ==== Sys2Proof/Laws/TokenKeeps.lean ====
section
/-! SUPPORT. What the operations of the token record keep. -/

set_option linter.unusedTactic false
set_option linter.unreachableTactic false

namespace Sys2Proof.Machine
open Sys2Proof

theorem modToken_keeps {s₀ s : State} (f : Token → Token) (hf : s.token.Fits → (f s.token).Fits)
    (h : Keeps s₀ s) : Keeps s₀ (s.modToken f) := keeps_token hf h

theorem recoveryGovern_keeps {s₀ s : State} (h : Keeps s₀ s) : Keeps s₀ (State.recoveryGovern s) := by
  unfold State.recoveryGovern
  repeat' first
    | with_reducible assumption
    | (with_reducible refine modToken_keeps _ id ?_)
    | dsimp only
    | split

theorem recoveryTest_keeps {s₀ s : State} (h : Keeps s₀ s) : Keeps s₀ (State.recoveryTest s) := by
  unfold State.recoveryTest
  split
  · exact emit_keeps _ (modToken_keeps _ (fun _ => ⟨Nat.zero_le _, Nat.zero_le _⟩) h)
  · exact h

theorem recoveryExpiry_keeps {s₀ s : State} (h : Keeps s₀ s) : Keeps s₀ (State.recoveryExpiry s) := by
  unfold State.recoveryExpiry
  repeat' first
    | with_reducible assumption
    | (with_reducible refine modToken_keeps _ id ?_)
    | with_reducible apply recoveryTest_keeps
    | dsimp only
    | split

theorem leaveFlight_keeps {s₀ s : State} (key : BatchKey) (h : Keeps s₀ s) : Keeps s₀ (State.leaveFlight key s) := by
  unfold State.leaveFlight
  split
  · exact emit_keeps _ (modToken_keeps _ (inFlight_filter_fits _) h)
  · exact h

theorem onExitNote_keeps {s₀ s : State} (rx : Rx) (h : Keeps s₀ s) : Keeps s₀ (State.onExitNote rx s) := by
  unfold State.onExitNote
  repeat' first
    | with_reducible assumption
    | with_reducible apply leaveFlight_keeps
    | dsimp only
    | split

theorem sweep_keeps {s₀ s : State} (h : Keeps s₀ s) : Keeps s₀ (State.sweep s) := by
  unfold State.sweep
  split
  · dsimp only
    have k := modToken_keeps (fun t => { t with
        inFlight := (s.token.inFlight.map s.swept).filter (fun x => x.misses < 3), sweepTimer := some (sec 2) })
      (fun w => ⟨(List.length_filter_le _ _).trans (by simpa using w.1), w.2⟩) h
    refine recoveryTest_keeps ?_
    split
    · exact emit_keeps _ k
    · exact k
  · exact h

theorem offerTest_keeps {s₀ s : State} (h : Keeps s₀ s) : Keeps s₀ (State.offerTest s) := by
  unfold State.offerTest
  repeat' first
    | with_reducible assumption
    | (with_reducible refine modToken_keeps _ id ?_)
    | with_reducible apply request_keeps
    | dsimp only
    | split

theorem tokenGone_keeps {s₀ s : State} (h : Keeps s₀ s) : Keeps s₀ (State.tokenGone s) :=
  recoveryGovern_keeps (modToken_keeps _ (fun w => ⟨w.1, Nat.zero_le _⟩) h)

theorem tokenKept_keeps {s₀ s : State} (h : Keeps s₀ s) : Keeps s₀ (State.tokenKept s) :=
  emit_keeps _ (modToken_keeps _ id h)

theorem offerEnded_keeps {s₀ s : State} (h : Keeps s₀ s) : Keeps s₀ (State.offerEnded s) := by
  unfold State.offerEnded
  repeat' first
    | with_reducible assumption
    | with_reducible apply tokenKept_keeps
    | split

theorem takeToken_keeps {s₀ s : State} (e : BitVec 14) (h : Keeps s₀ s) : Keeps s₀ (State.takeToken e s) :=
  emit_keeps _ (modToken_keeps _ (fun _ => ⟨Nat.zero_le _, Nat.zero_le _⟩) h)

theorem onTokenOffer_keeps {s₀ s : State} (rx : Rx) (h : Keeps s₀ s) : Keeps s₀ (State.onTokenOffer rx s) := by
  unfold State.onTokenOffer
  repeat' first
    | with_reducible assumption
    | with_reducible apply send_keeps
    | with_reducible apply takeToken_keeps
    | dsimp only
    | split

theorem onTokenTake_keeps {s₀ s : State} (rx : Rx) (h : Keeps s₀ s) : Keeps s₀ (State.onTokenTake rx s) := by
  unfold State.onTokenTake
  repeat' first
    | with_reducible assumption
    | with_reducible apply endEntry_keeps
    | with_reducible apply offer_keeps
    | with_reducible apply tokenGone_keeps
    | with_reducible apply tokenKept_keeps
    | dsimp only
    | split

theorem onTokenDecline_keeps {s₀ s : State} (rx : Rx) (h : Keeps s₀ s) : Keeps s₀ (State.onTokenDecline rx s) := by
  unfold State.onTokenDecline
  repeat' first
    | with_reducible assumption
    | with_reducible apply endEntry_keeps
    | with_reducible apply offerEnded_keeps
    | split

theorem dropToken_keeps {s₀ s : State} (e : BitVec 14) (h : Keeps s₀ s) : Keeps s₀ (State.dropToken e s) :=
  recoveryGovern_keeps (withdrawEntry_keeps (modToken_keeps _ (fun _ => ⟨Nat.zero_le _, Nat.zero_le _⟩) h))

theorem adoptEpoch_keeps {s₀ s : State} (b : BeaconContents) (h : Keeps s₀ s) : Keeps s₀ (State.adoptEpoch b s) := by
  unfold State.adoptEpoch
  repeat' first
    | with_reducible assumption
    | (with_reducible refine modToken_keeps _ id ?_)
    | dsimp only
    | split

theorem resolveClash_keeps {s₀ s : State} (b : BeaconContents) (h : Keeps s₀ s) : Keeps s₀ (State.resolveClash b s) := by
  unfold State.resolveClash
  repeat' first
    | with_reducible assumption
    | (with_reducible refine modToken_keeps _ id ?_)
    | with_reducible apply doIf_keeps
    | with_reducible apply emit_keeps
    | with_reducible apply dropToken_keeps
    | dsimp only
    | split

theorem tokenBeacon_keeps {s₀ s : State} (b : BeaconContents) (h : Keeps s₀ s) : Keeps s₀ (State.tokenBeacon b s) := by
  unfold State.tokenBeacon
  repeat' first
    | with_reducible assumption
    | (with_reducible refine modToken_keeps _ id ?_)
    | with_reducible apply offer_keeps
    | with_reducible apply tokenGone_keeps
    | with_reducible apply adoptEpoch_keeps
    | with_reducible apply resolveClash_keeps
    | with_reducible apply recoveryGovern_keeps
    | with_reducible apply emit_keeps
    | with_reducible apply admissionTest_keeps
    | dsimp only
    | split

end Sys2Proof.Machine
end

