-- ==== Sys2Proof/Laws/FaultUnitKeeps.lean ====
section
/-! SUPPORT. What the operations of the Fault Unit keep. -/

set_option linter.unusedTactic false
set_option linter.unreachableTactic false

namespace Sys2Proof.Machine
open Sys2Proof

theorem modFault_keeps {s₀ s : State} (f : FaultUnit → FaultUnit) (h : Keeps s₀ s) : Keeps s₀ (s.modFault f) := h

theorem setMark_keeps {s₀ s : State} (c : Cause) (p : Option Place) (h : Keeps s₀ s) :
    Keeps s₀ (State.setMark c p s) := by
  unfold State.setMark
  repeat' first
    | with_reducible assumption
    | with_reducible apply modFault_keeps
    | dsimp only
    | split

theorem clearMark_keeps {s₀ s : State} (c : Cause) (h : Keeps s₀ s) : Keeps s₀ (State.clearMark c s) := by
  unfold State.clearMark
  repeat' first
    | with_reducible assumption
    | with_reducible apply modFault_keeps
    | dsimp only

theorem endRecovery_keeps {s₀ s : State} (c : Cause) (h : Keeps s₀ s) : Keeps s₀ (State.endRecovery c s) := by
  unfold State.endRecovery
  repeat' first
    | with_reducible assumption
    | with_reducible apply modFault_keeps
    | dsimp only

theorem enterRecovery_keeps {s₀ s : State} (r : Recovery) (h : Keeps s₀ s) : Keeps s₀ (State.enterRecovery r s) := by
  unfold State.enterRecovery
  repeat' first
    | with_reducible assumption
    | with_reducible apply modFault_keeps
    | dsimp only

theorem recoverElement_keeps {s₀ s : State} (e : Element) (h : Keeps s₀ s) : Keeps s₀ (State.recoverElement e s) := by
  unfold State.recoverElement
  repeat' first
    | with_reducible assumption
    | with_reducible apply recoverGate_keeps
    | with_reducible apply placeSafety_keeps
    | with_reducible apply emit_keeps
    | dsimp only
    | split

theorem startRecovery_keeps {s₀ s : State} (c : Cause) (v1 : BitVec 32) (b : Bound) (p : Option Place) (h : Keeps s₀ s) :
    Keeps s₀ (State.startRecovery c v1 b p s) := by
  unfold State.startRecovery
  repeat' first
    | with_reducible assumption
    | with_reducible apply enterRecovery_keeps
    | with_reducible apply recoverElement_keeps
    | with_reducible apply emit_keeps
    | with_reducible apply transitRecovered_keeps
    | with_reducible apply requeue_keeps
    | dsimp only
    | split

theorem sendNote_keeps {s₀ s : State} (r : FaultRecord) (again : Bool) (h : Keeps s₀ s) :
    Keeps s₀ (State.sendNote r again s) := by
  unfold State.sendNote
  repeat' first
    | with_reducible assumption
    | with_reducible apply offer_keeps
    | dsimp only
    | split

theorem noteNotSent_keeps {s₀ s : State} (f : Offer) (h : Keeps s₀ s) : Keeps s₀ (State.noteNotSent f s) := by
  unfold State.noteNotSent
  repeat' first
    | with_reducible assumption
    | with_reducible apply sendNote_keeps
    | split

theorem sendFaultClear_keeps {s₀ s : State} (c : Cause) (h : Keeps s₀ s) : Keeps s₀ (State.sendFaultClear c s) := by
  unfold State.sendFaultClear
  repeat' first
    | with_reducible assumption
    | with_reducible apply send_keeps

theorem clearRecord_keeps {s₀ s : State} (h : Keeps s₀ s) : Keeps s₀ (State.clearRecord s) := by
  unfold State.clearRecord
  repeat' first
    | with_reducible assumption
    | with_reducible apply modFault_keeps
    | with_reducible apply emits_keeps
    | with_reducible apply alarmWaitTest_keeps
    | with_reducible apply admissionTest_keeps
    | dsimp only

theorem flightDone_keeps {s₀ s : State} (c : Cause) (h : Keeps s₀ s) : Keeps s₀ (State.flightDone c s) := by
  unfold State.flightDone
  repeat' first
    | with_reducible assumption
    | with_reducible apply sendFaultClear_keeps
    | with_reducible apply clearRecord_keeps

theorem actDesk_keeps {s₀ s : State} (r : FaultRecord) (h : Keeps s₀ s) : Keeps s₀ (State.actDesk r s) := by
  unfold State.actDesk
  repeat' first
    | with_reducible assumption
    | with_reducible apply clearMark_keeps
    | with_reducible apply endRecovery_keeps
    | with_reducible apply sendNote_keeps
    | with_reducible apply setMode_keeps
    | dsimp only
    | split

theorem record_keeps {s₀ s : State} (r : FaultRecord) (h : Keeps s₀ s) : Keeps s₀ (State.record r s) := by
  unfold State.record
  repeat' first
    | with_reducible assumption
    | with_reducible apply modFault_keeps
    | with_reducible apply clearRecord_keeps
    | with_reducible apply sendNote_keeps
    | with_reducible apply flightDone_keeps
    | with_reducible apply actDesk_keeps
    | dsimp only
    | split

theorem wakeForDesk_keeps {s₀ s : State} (c : Cause) (l : FaultLevel) (h : Keeps s₀ s) :
    Keeps s₀ (State.wakeForDesk c l s) := by
  unfold State.wakeForDesk
  repeat' first
    | with_reducible assumption
    | with_reducible apply wake_keeps
    | split

theorem recordPending_keeps {s₀ s : State} (x : PendingCause) (prior : Mode) (h : Keeps s₀ s) :
    Keeps s₀ (State.recordPending x prior s) := by
  unfold State.recordPending
  repeat' first
    | with_reducible assumption
    | with_reducible apply modFault_keeps
    | with_reducible apply record_keeps
    | dsimp only

theorem takeAll_keeps {s₀ : State} (n : Nat) : ∀ {s : State}, Keeps s₀ s → Keeps s₀ (State.takeAll n s) := by
  induction n with
  | zero => intro s h; exact h
  | succ n ih =>
    intro s h
    unfold State.takeAll
    split
    · exact ih (recordPending_keeps _ _ (wakeForDesk_keeps _ _ h))
    · exact h

theorem takePending_keeps {s₀ s : State} (h : Keeps s₀ s) : Keeps s₀ (State.takePending s) := takeAll_keeps _ h

theorem recordFresh_keeps {s₀ s : State} (r : FaultRecord) (h : Keeps s₀ s) : Keeps s₀ (State.recordFresh r s) := by
  unfold State.recordFresh
  repeat' first
    | with_reducible assumption
    | with_reducible apply takePending_keeps
    | with_reducible apply wakeForDesk_keeps
    | with_reducible apply record_keeps
    | dsimp only

theorem dealRaise_keeps {s₀ s : State} (new : FaultRecord) (escalated : Bool) (h : Keeps s₀ s) :
    Keeps s₀ (State.dealRaise new escalated s) := by
  unfold State.dealRaise
  repeat' first
    | with_reducible assumption
    | with_reducible apply modFault_keeps
    | with_reducible apply record_keeps
    | with_reducible apply recordFresh_keeps
    | dsimp only
    | split

theorem onRaise_keeps {s₀ s : State} (c : Cause) (v1 v2 : BitVec 32) (b : Bound) (h : Keeps s₀ s) :
    Keeps s₀ (State.onRaise c v1 v2 b s) := by
  unfold State.onRaise
  repeat' first
    | with_reducible assumption
    | with_reducible apply setMark_keeps
    | with_reducible apply startRecovery_keeps
    | with_reducible apply dealRaise_keeps
    | dsimp only
    | split

theorem recoverySuccess_keeps {s₀ s : State} (c : Cause) (h : Keeps s₀ s) : Keeps s₀ (State.recoverySuccess c s) := by
  unfold State.recoverySuccess
  repeat' first
    | with_reducible assumption
    | with_reducible apply takePending_keeps
    | with_reducible apply endRecovery_keeps
    | with_reducible apply flightDone_keeps
    | dsimp only
    | split

theorem recoveryClosed_keeps {s₀ s : State} (e : Element) (h : Keeps s₀ s) : Keeps s₀ (State.recoveryClosed e s) := by
  unfold State.recoveryClosed
  repeat' first
    | with_reducible assumption
    | with_reducible apply recoverySuccess_keeps
    | with_reducible apply recoveryRestart_keeps
    | (with_reducible refine foldl_keeps _ _ (fun _ _ _ => ?_) ?_)
    | (intro _)
    | dsimp only
    | split

theorem stepDone_keeps {s₀ s : State} (u : UnitId) (key : BatchKey) (st : Step) (h : Keeps s₀ s) :
    Keeps s₀ (State.stepDone u key st s) := by
  unfold State.stepDone
  repeat' first
    | with_reducible assumption
    | with_reducible apply modFault_keeps
    | with_reducible apply recoverySuccess_keeps
    | (with_reducible refine foldl_keeps _ _ (fun _ _ _ => ?_) ?_)
    | (intro _)
    | dsimp only
    | split

theorem transferDone_keeps {s₀ s : State} (key : BatchKey) (h : Keeps s₀ s) : Keeps s₀ (State.transferDone key s) := by
  unfold State.transferDone
  repeat' first
    | with_reducible assumption
    | with_reducible apply modFault_keeps
    | with_reducible apply recoverySuccess_keeps
    | dsimp only
    | split

theorem peerReturned_keeps {s₀ s : State} (i : Nat) (h : Keeps s₀ s) : Keeps s₀ (State.peerReturned i s) := by
  unfold State.peerReturned
  repeat' first
    | with_reducible assumption
    | with_reducible apply recoverySuccess_keeps
    | dsimp only
    | split

theorem transferRecovery_keeps {s₀ s : State} (station : Nat) (b : BeaconContents) (h : Keeps s₀ s) :
    Keeps s₀ (State.transferRecovery station b s) := by
  unfold State.transferRecovery
  repeat' first
    | with_reducible assumption
    | with_reducible apply newSeries_keeps
    | dsimp only
    | split

theorem clearActs_keeps {s₀ s : State} (c : Cause) (h : Keeps s₀ s) : Keeps s₀ (State.clearActs c s) := by
  unfold State.clearActs
  repeat' first
    | with_reducible assumption
    | with_reducible apply clearOrphan_keeps
    | with_reducible apply newSeries_keeps
    | split

theorem onClear_keeps {s₀ s : State} (rx : Rx) (h : Keeps s₀ s) : Keeps s₀ (State.onClear rx s) := by
  unfold State.onClear
  repeat' first
    | with_reducible assumption
    | with_reducible apply modFault_keeps
    | with_reducible apply record_keeps
    | with_reducible apply clearActs_keeps
    | with_reducible apply recordPending_keeps
    | with_reducible apply emit_keeps
    | with_reducible apply alarmWaitTest_keeps
    | with_reducible apply setMode_keeps
    | with_reducible apply emits_keeps
    | with_reducible apply takePending_keeps
    | with_reducible apply admissionTest_keeps
    | with_reducible apply refuseRx_keeps
    | dsimp only
    | split

end Sys2Proof.Machine
end

