-- ==== Sys2Proof/Laws/PresenceKeeps.lean ====
section
/-! SUPPORT. What the operations of the Presence Monitor keep. -/

set_option linter.unusedTactic false
set_option linter.unreachableTactic false

namespace Sys2Proof.Machine
open Sys2Proof

theorem modPresence_keeps {s₀ s : State} (f : Presence → Presence) (h1 : (f s.presence).peers = s.presence.peers)
    (h2 : (f s.presence).desk = s.presence.desk) (h3 : (f s.presence).deskSince = s.presence.deskSince)
    (h4 : (f s.presence).clash = s.presence.clash) (h5 : (f s.presence).calmTimer = s.presence.calmTimer)
    (h : Keeps s₀ s) : Keeps s₀ (s.modPresence f) := keeps_presence h1 h2 h3 h4 h5 h

theorem beaconExpiry_keeps {s₀ s : State} (h : Keeps s₀ s) : Keeps s₀ (State.beaconExpiry s) := by
  unfold State.beaconExpiry
  repeat' first
    | with_reducible assumption
    | with_reducible apply offerTest_keeps
    | with_reducible apply beaconAtOnce_keeps
    | split

theorem onStatusAsk_keeps {s₀ s : State} (rx : Rx) (h : Keeps s₀ s) : Keeps s₀ (State.onStatusAsk rx s) := by
  unfold State.onStatusAsk
  repeat' first
    | with_reducible assumption
    | with_reducible apply refuseRx_keeps
    | with_reducible apply offer_keeps
    | dsimp only
    | split

theorem onPeerLost_keeps {s₀ s : State} (i : Fin 16) (h : Keeps s₀ s) : Keeps s₀ (State.onPeerLost i s) := by
  unfold State.onPeerLost
  repeat' first
    | with_reducible assumption
    | with_reducible apply doIf_keeps
    | with_reducible apply upperLost_keeps
    | with_reducible apply lowerPeerLost_keeps
    | with_reducible apply withholdOnward_keeps
    | with_reducible apply recoveryGovern_keeps
    | with_reducible apply emit_keeps
    | dsimp only
    | split

theorem onPeerPresent_keeps {s₀ s : State} (i : Fin 16) (h : Keeps s₀ s) : Keeps s₀ (State.onPeerPresent i s) := by
  unfold State.onPeerPresent
  repeat' first
    | with_reducible assumption
    | with_reducible apply peerReturned_keeps
    | with_reducible apply doIf_keeps
    | with_reducible apply sendFeed_keeps
    | with_reducible apply peerRestartTest_keeps
    | with_reducible apply claimOn_keeps
    | with_reducible apply onwardTest_keeps
    | with_reducible apply transferTest_keeps
    | with_reducible apply recoveryGovern_keeps
    | dsimp only
    | split

theorem onBeaconTaken_keeps {s₀ s : State} (i : Fin 16) (h : Keeps s₀ s) : Keeps s₀ (State.onBeaconTaken i s) := by
  unfold State.onBeaconTaken
  repeat' first
    | with_reducible assumption
    | with_reducible apply doIf_keeps
    | with_reducible apply claimLostTest_keeps
    | with_reducible apply repeatXferEnd_keeps
    | with_reducible apply transferRecovery_keeps
    | with_reducible apply alarmWaitTest_keeps
    | with_reducible apply tokenBeacon_keeps
    | dsimp only
    | split

theorem onMarkSet_keeps {s₀ s : State} (i : Fin 16) (h : Keeps s₀ s) : Keeps s₀ (State.onMarkSet i s) :=
  doIf_keeps _ _ (withholdOnward_keeps h) h

theorem onMarkCleared_keeps {s₀ s : State} (i : Fin 16) (h : Keeps s₀ s) : Keeps s₀ (State.onMarkCleared i s) := by
  unfold State.onMarkCleared
  repeat' first
    | with_reducible assumption
    | with_reducible apply doIf_keeps
    | with_reducible apply testWaiter_keeps
    | with_reducible apply lowerUnmarked_keeps
    | with_reducible apply onwardTest_keeps
    | with_reducible apply transferTest_keeps
    | with_reducible apply emit_keeps
    | with_reducible apply admissionTest_keeps
    | dsimp only
    | split

end Sys2Proof.Machine
end

