-- ==== Sys2Proof/Laws/StartupKeeps.lean ====
section
/-! SUPPORT. What the operations of starting keep. -/

set_option linter.unusedTactic false
set_option linter.unreachableTactic false

namespace Sys2Proof.Machine
open Sys2Proof

theorem dropLong_keeps {s₀ s : State} (e : QueueEntry) (h : Keeps s₀ s) : Keeps s₀ (State.dropLong s e) := by
  unfold State.dropLong
  repeat' first
    | with_reducible assumption
    | with_reducible apply unqueue_keeps
    | with_reducible apply answer_keeps
    | split

theorem reform_keeps {s₀ s : State} (h : Keeps s₀ s) : Keeps s₀ (State.reform s) := by
  unfold State.reform
  repeat' first
    | with_reducible assumption
    | (with_reducible refine modApproach_keeps _ id ?_)
    | with_reducible apply placeEntry_keeps
    | dsimp only
    | split

theorem resumeApproach_keeps {s₀ s : State} (h : Keeps s₀ s) : Keeps s₀ (State.resumeApproach s) := by
  unfold State.resumeApproach
  repeat' first
    | with_reducible assumption
    | with_reducible apply dropLong_keeps
    | with_reducible apply beginResolution_keeps
    | with_reducible apply reform_keeps
    | (with_reducible refine foldl_keeps _ _ (fun _ _ _ => ?_) ?_)
    | (intro _)
    | dsimp only

end Sys2Proof.Machine
end

