-- ==== Sys2Proof/Laws/SettleKeeps.lean ====
section
/-! SUPPORT. What the operations of acting on a notice keep. -/

set_option linter.unusedTactic false
set_option linter.unreachableTactic false

namespace Sys2Proof.Machine
open Sys2Proof

theorem enterHeld_keeps {s₀ s : State} (h : Keeps s₀ s) : Keeps s₀ (State.enterHeld s) := by
  unfold State.enterHeld
  repeat' first
    | with_reducible assumption
    | with_reducible apply freezeUnits_keeps
    | with_reducible apply localAbandon_keeps
    | with_reducible apply pushAtHeld_keeps

theorem leaveHeld_keeps {s₀ s : State} (h : Keeps s₀ s) : Keeps s₀ (State.leaveHeld s) := by
  unfold State.leaveHeld
  repeat' first
    | with_reducible assumption
    | with_reducible apply decideGrant_keeps
    | with_reducible apply unfreezeUnits_keeps
    | with_reducible apply localTest_keeps
    | with_reducible apply localRestored_keeps
    | with_reducible apply testWaiter_keeps
    | with_reducible apply emits_keeps
    | with_reducible apply beginCrossing_keeps
    | with_reducible apply onwardTest_keeps
    | with_reducible apply admissionTest_keeps
    | dsimp only

theorem leaveLocal_keeps {s₀ s : State} (old new : Mode) (h : Keeps s₀ s) : Keeps s₀ (State.leaveLocal old new s) := by
  unfold State.leaveLocal
  repeat' first
    | with_reducible assumption
    | with_reducible apply withdraw_keeps
    | split

theorem onModeChanged_keeps {s₀ s : State} (old new : Mode) (h : Keeps s₀ s) :
    Keeps s₀ (State.onModeChanged old new s) := by
  unfold State.onModeChanged
  repeat' first
    | with_reducible assumption
    | with_reducible apply enterHeld_keeps
    | with_reducible apply leaveHeld_keeps
    | with_reducible apply leaveLocal_keeps
    | with_reducible apply decideGrant_keeps
    | with_reducible apply localTest_keeps
    | with_reducible apply emit_keeps
    | with_reducible apply admissionTest_keeps
    | split

theorem onStopChanged_keeps {s₀ s : State} (old new : StopState) (h : Keeps s₀ s) :
    Keeps s₀ (State.onStopChanged old new s) := by
  unfold State.onStopChanged
  repeat' first
    | with_reducible assumption
    | with_reducible apply freezeMotion_keeps
    | with_reducible apply emit_keeps
    | with_reducible apply unfreezeMotion_keeps
    | with_reducible apply admissionTest_keeps
    | split

theorem onLevelsChanged_keeps {s₀ s : State} (h : Keeps s₀ s) : Keeps s₀ (State.onLevelsChanged s) := by
  unfold State.onLevelsChanged
  repeat' first
    | with_reducible assumption
    | with_reducible apply peerRestartTest_keeps
    | with_reducible apply equalizeTest_keeps
    | (with_reducible refine foldl_keeps _ _ (fun _ _ _ => ?_) ?_)
    | (intro _)
    | dsimp only

theorem reserveTests_keeps {s₀ s : State} (h : Keeps s₀ s) : Keeps s₀ (State.reserveTests s) := by
  unfold State.reserveTests
  repeat' first
    | with_reducible assumption
    | with_reducible apply reserveTest_keeps
    | (with_reducible refine foldl_keeps _ _ (fun _ _ _ => ?_) ?_)
    | (intro _)
    | dsimp only

theorem onOccupancy_keeps {s₀ s : State} (h : Keeps s₀ s) : Keeps s₀ (State.onOccupancy s) := by
  unfold State.onOccupancy
  repeat' first
    | with_reducible assumption
    | with_reducible apply testWaiter_keeps
    | with_reducible apply onwardEnd_keeps
    | with_reducible apply reserveTests_keeps
    | with_reducible apply onwardTest_keeps
    | with_reducible apply emit_keeps
    | with_reducible apply admissionTest_keeps
    | dsimp only
    | split

theorem onPages_keeps {s₀ s : State} (h : Keeps s₀ s) : Keeps s₀ (State.onPages s) := by
  unfold State.onPages
  repeat' first
    | with_reducible assumption
    | with_reducible apply testWaiter_keeps
    | with_reducible apply reserveTests_keeps
    | with_reducible apply emit_keeps
    | with_reducible apply admissionTest_keeps

theorem onElementClosed_keeps {s₀ s : State} (e : Element) (h : Keeps s₀ s) : Keeps s₀ (State.onElementClosed e s) := by
  unfold State.onElementClosed
  repeat' first
    | with_reducible assumption
    | ((with_reducible refine modUnit_slots _ _ ?hb ?ha ?_); (case hb => intro b; split <;> rfl); (case ha => intro b; split <;> rfl))
    | with_reducible apply recoveryClosed_keeps
    | with_reducible apply localEndTest_keeps
    | dsimp only
    | split

theorem onNotSent_keeps {s₀ s : State} (f : Offer) (h : Keeps s₀ s) : Keeps s₀ (State.onNotSent f s) := by
  unfold State.onNotSent
  repeat' first
    | with_reducible assumption
    | with_reducible apply stopNotSent_keeps
    | with_reducible apply alarmCloseNotSent_keeps
    | with_reducible apply dropNotSent_keeps
    | with_reducible apply claimNotSent_keeps
    | with_reducible apply onwardFailed_keeps
    | with_reducible apply xferEnded_keeps
    | with_reducible apply readNotSent_keeps
    | with_reducible apply streamNotSent_keeps
    | with_reducible apply offer_keeps
    | with_reducible apply holdNotSent_keeps
    | with_reducible apply tollReadyNotSent_keeps
    | with_reducible apply logFullNotSent_keeps
    | with_reducible apply queryEnded_keeps
    | with_reducible apply offerEnded_keeps
    | with_reducible apply noteNotSent_keeps
    | split

theorem onRequestRefused_keeps {s₀ s : State} (e : ReplyEntry) (r : Reason) (h : Keeps s₀ s) :
    Keeps s₀ (State.onRequestRefused e r s) := by
  unfold State.onRequestRefused
  repeat' first
    | with_reducible assumption
    | with_reducible apply claimRefused_keeps
    | with_reducible apply onwardFailed_keeps
    | with_reducible apply xferEnded_keeps
    | with_reducible apply queryEnded_keeps
    | with_reducible apply offerEnded_keeps
    | split

theorem onNoReply_keeps {s₀ s : State} (e : ReplyEntry) (h : Keeps s₀ s) : Keeps s₀ (State.onNoReply e s) := by
  unfold State.onNoReply
  repeat' first
    | with_reducible assumption
    | with_reducible apply claimNoReply_keeps
    | with_reducible apply onwardFailed_keeps
    | with_reducible apply xferEnded_keeps
    | with_reducible apply queryEnded_keeps
    | with_reducible apply offerEnded_keeps
    | split

theorem onOwnNotice_keeps {s₀ s : State} (u : UnitId) (p : Purpose) (n : OwnNotice) (h : Keeps s₀ s) :
    Keeps s₀ (State.onOwnNotice u p n s) := by
  unfold State.onOwnNotice
  repeat' first
    | with_reducible assumption
    | with_reducible apply localOwn_keeps
    | with_reducible apply onOwnClaim_keeps
    | split

theorem onLowerNotice_keeps {s₀ s : State} (p : Purpose) (n : LowerNotice) (h : Keeps s₀ s) :
    Keeps s₀ (State.onLowerNotice p n s) := by
  unfold State.onLowerNotice
  repeat' first
    | with_reducible assumption
    | with_reducible apply localLower_keeps
    | with_reducible apply onLowerClaim_keeps
    | split

theorem onMotionNotice_keeps {s₀ s : State} (src : Source) (e : Element) (t : Target) (n : MotionNotice) (atOnce : Bool) (h : Keeps s₀ s) :
    Keeps s₀ (State.onMotionNotice src e t n atOnce s) := by
  unfold State.onMotionNotice
  repeat' first
    | with_reducible assumption
    | with_reducible apply onMotion_keeps
    | split

theorem act_keeps {s₀ s : State} (t : Notice) (h : Keeps s₀ s) : Keeps s₀ (State.act t s) := by
  cases t with
  | modeChanged old new => exact onModeChanged_keeps _ _ h
  | stopChanged old new => exact onStopChanged_keeps _ _ h
  | raise c v1 v2 b => exact onRaise_keeps _ _ _ _ h
  | takePending => exact takePending_keeps h
  | elementClosed e => exact onElementClosed_keeps _ h
  | transitRecovered u => exact transitRecovered_keeps _ h
  | requeue u => exact timeoutRecovered_keeps _ h
  | stepDone u key st => exact stepDone_keeps _ _ _ h
  | grantDecision => exact decideGrant_keeps h
  | motion src e t n atOnce => exact onMotionNotice_keeps _ _ _ _ _ h
  | alarmWaitTest => exact alarmWaitTest_keeps h
  | peerPresent i => exact onPeerPresent_keeps _ h
  | peerLost i => exact onPeerLost_keeps _ h
  | beaconTaken i => exact onBeaconTaken_keeps _ h
  | markSet i => exact onMarkSet_keeps _ h
  | markCleared i => exact onMarkCleared_keeps _ h
  | deskPresent => exact tollDeskPresent_keeps h
  | deskLost => exact approachDeskLost_keeps h
  | holderFree => exact onHolderFree_keeps h
  | ownClaim u p n => exact onOwnNotice_keeps _ _ _ h
  | lowerClaim p n => exact onLowerNotice_keeps _ _ h
  | levelsChanged => exact onLevelsChanged_keeps h
  | occupancyChanged => exact onOccupancy_keeps h
  | pagesChanged => exact onPages_keeps h
  | localClaims => exact localClaims_keeps h
  | localResume => exact localResume_keeps h
  | beginCrossing u => exact beginCrossing_keeps _ h
  | enterStep u => exact enterStep_keeps _ h
  | logWaitTest => exact reserveTest_keeps _ h
  | slotFree u => exact onSlotFree_keeps _ h
  | onwardTest => exact onwardTest_keeps h
  | admissionTest => exact admissionTest_keeps h
  | entryEnded key => exact entryEnded_keeps _ h
  | handIn key sender => exact onHandIn_keeps _ _ h
  | transferDone key => exact transferDone_keeps _ h
  | streamNext => exact streamNext_keeps h
  | readNext => exact readNext_keeps h
  | notSent f => exact serveAll_keeps (onNotSent_keeps _ h)
  | requestRefused e r => exact serveAll_keeps (onRequestRefused_keeps _ _ h)
  | noReply e => exact serveAll_keeps (onNoReply_keeps _ h)

/-- Acting on the notices that stand, however many, keeps what every single one keeps. -/
theorem settle_keeps {s₀ s : State} (n : Nat) (h : Keeps s₀ s) : Keeps s₀ (State.settle n s) := by
  induction n generalizing s with
  | zero => exact h
  | succ n ih =>
    unfold State.settle
    split
    · exact h
    · exact ih (act_keeps (s := { s with notices := [] }) _ h)

theorem finish_keeps {s₀ s' : State} (h : Keeps s₀ s') : Keeps s₀ (finish s₀ s') := by
  obtain ⟨h1, h2⟩ := settle_keeps settleBound h
  refine ⟨?_, h2⟩
  have hp : (State.settle settleBound s').pending = s₀.pending := congrArg StillView.pending h1
  unfold finish
  rw [← h1, ← hp]

/-- The end of a command leaves the still view of its effect as it was, the commands that wait apart. -/
theorem finish_still (s s' : State) : (finish s s').still = { s'.still with pending := s.pending } := by
  have h := (settle_keeps settleBound (Keeps.refl s')).1
  rw [← h]; rfl

theorem finish_sound {s s' : State} (h : s'.Sound) : (finish s s').Sound := by
  exact (settle_keeps settleBound (Keeps.refl s')).sound h

/-- Where nothing is to be made known, the end of a command changes nothing. -/
theorem settle_nil {s : State} (n : Nat) (h : s.notices = []) : State.settle n s = s := by
  cases n with
  | zero => rfl
  | succ n => unfold State.settle; rw [h]

theorem finish_quiet {s s' : State} (h : s'.notices = []) : finish s s' = { s' with pending := s.pending } := by
  unfold finish; rw [settle_nil _ h]

end Sys2Proof.Machine
end

