-- ==== Sys2Proof/Laws/DriveCommands.lean ====
section
/-! SUPPORT. What the Drive Arbiter's acting on a switch, an allowance and the end of LOADING keeps. -/

namespace Sys2Proof.Machine
open Sys2Proof

/-! ### Elements that the ending of a motion leaves as they are -/

theorem cancelOthers_element (e : Element) (s : State) : (s.cancelOthers e).element = s.element := by
  have one : ∀ (s : State) (src : Source), (match s.slot src with
      | some m => if m.element = e then (s.clearSlot src).tell src m .cancelled else s
      | none => s).element = s.element := by
    intro s src
    split
    · split
      · unfold State.tell State.tellFree; split <;> rfl
      · rfl
    · rfl
  unfold State.cancelOthers
  simp only [List.foldl_cons, List.foldl_nil]
  exact (one _ _).trans ((one _ _).trans (one _ _))

theorem pointSafety_element (n : Nat) : ∀ s : State, (State.pointSafety n s).element = s.element := by
  induction n with
  | zero => intro s; rfl
  | succ n ih =>
    intro s
    unfold State.pointSafety
    split
    · split
      · rfl
      · split
        · rfl
        split
        · exact (ih _).trans (cancelOthers_element _ _)
        · rfl
    · rfl

theorem retire_element (src : Source) (m : Motion) (n : MotionNotice) (s : State) :
    (s.retire src m n).element = s.element := by
  unfold State.retire
  dsimp only
  split
  · split
    · exact (pointSafety_element 4 _).trans (cancelOthers_element _ _)
    · exact pointSafety_element 4 _
  · unfold State.tell State.tellFree; split <;> rfl

/-! ### Switches (R81, R82) -/

theorem allSources_all (a : Source) : a ∈ allSources := by cases a <;> decide

theorem drivenBy_some {s : State} {e : Element} {src : Source} {m : Motion} (h : s.drivenBy e = some (src, m)) :
    s.slot src = some m ∧ m.element = e ∧ m.phase = .running := by
  unfold State.drivenBy at h
  obtain ⟨a, -, ha⟩ := List.exists_of_findSome?_eq_some h
  split at ha
  · rename_i x hx
    split at ha
    · rename_i hc
      cases ha
      exact ⟨hx, hc⟩
    · cases ha
  · cases ha

theorem restedMotion_some {s : State} {e : Element} {src : Source} {m : Motion} (h : s.restedMotion e = some (src, m)) :
    s.slot src = some m ∧ m.element = e ∧ (m.phase = .frozen ∨ m.phase = .stacked) := by
  unfold State.restedMotion at h
  obtain ⟨a, -, ha⟩ := List.exists_of_findSome?_eq_some h
  split at ha
  · rename_i x hx
    split at ha
    · rename_i hc
      cases ha
      exact ⟨hx, hc.1, hc.2.1⟩
    · cases ha
  · cases ha

/-- An element without a driving motion may take any state of rest. -/
theorem one_setElement {s : State} {e : Element} {x : ElementState} (hx : AtRest x)
    (hno : ∀ a m, s.slot a = some m → m.phase = .running → m.element ≠ e) (h : s.One) : (s.setElement e x).One := by
  obtain ⟨⟨h1, h2, h3⟩, hst⟩ := h
  refine ⟨⟨h1, fun a m hm hp => ?_, fun y t hy => ?_⟩, hst⟩
  · rw [element_setElement, if_neg (hno a m hm hp)]; exact h2 a m hm hp
  · rw [element_setElement] at hy
    split at hy
    · exact absurd hy (hx t)
    · exact h3 y t hy

theorem reachEnd_eq (e : Element) (t : Target) (s : State) :
    ∃ l, s.reachEnd e t = { s.setElement e (restState t) with notices := l } := by
  cases t
  · exact ⟨_, rfl⟩
  · exact ⟨_, rfl⟩

theorem reachEnd_keeps {s₀ s : State} (e : Element) (t : Target) (h : Keeps s₀ (s.setElement e (restState t))) :
    Keeps s₀ (s.reachEnd e t) := by cases t <;> exact h

theorem judgeDriven_keeps {s₀ s : State} (src : Source) (m : Motion) (hm : s.slot src = some m) (hp : m.phase = .running)
    (h : Keeps s₀ s) : Keeps s₀ (s.judgeDriven src m) := by
  unfold State.judgeDriven
  dsimp only
  split
  · refine endWith_keeps src m _ _ (fun _ hc => by cases hc) ?_
    exact keeps_of_one h rfl (one_restClear hm (Or.inl hp) atRest_failed)
  · split
    · have core : Keeps s₀ ((s.setElement m.element (restState m.target)).clearSlot src) :=
        keeps_of_one h rfl (one_restClear hm (Or.inl hp) (atRest_restState _))
      refine endMotion_keeps src m _ (fun _ _ => ?_) ?_
      · have : (s.reachEnd m.element m.target).element m.element = restState m.target := by
          cases m.target
          · show (s.setElement m.element .opened).element m.element = _
            rw [element_setElement, if_pos rfl]; rfl
          · show (s.setElement m.element .closed).element m.element = _
            rw [element_setElement, if_pos rfl]; rfl
        rw [this]; exact atRest_restState _
      · revert core; cases m.target <;> exact id
    · exact h

theorem failOne_keeps {s₀ s : State} (e : Element) (src : Source) (hr : AtRest (s.element e)) (h : Keeps s₀ s) :
    Keeps s₀ (match s.slot src with
      | some m => if m.element = e then s.retire src m .failed else s
      | none => s)
    ∧ (match s.slot src with
      | some m => if m.element = e then s.retire src m .failed else s
      | none => s).element = s.element := by
  split
  · rename_i m hm
    split
    · rename_i he
      refine ⟨retire_keeps src m _ (fun _ hc => by cases hc) (keeps_of_one h rfl (fun k => one_clear src ?_ k)),
        retire_element _ _ _ _⟩
      intro x hx
      exact DriveOne.not_running k.1 hx (by rw [hm] at hx; cases hx; rw [he]; exact hr)
    · exact ⟨h, rfl⟩
  · exact ⟨h, rfl⟩

theorem failMotions_keeps {s₀ s : State} (e : Element) (hr : AtRest (s.element e)) (h : Keeps s₀ s) :
    Keeps s₀ (s.failMotions e) := by
  unfold State.failMotions allSources
  simp only [List.foldl_cons, List.foldl_nil]
  have h1 := failOne_keeps e .safety hr h
  have h2 := failOne_keeps e .panel (by rw [h1.2]; exact hr) h1.1
  have h3 := failOne_keeps e .seqHead (by rw [h2.2, h1.2]; exact hr) h2.1
  have h4 := failOne_keeps e .seqLower (by rw [h3.2, h2.2, h1.2]; exact hr) h3.1
  exact h4.1

theorem becomeFailed_keeps {s₀ s : State} (e : Element) (h : Keeps s₀ (s.setElement e .failed)) :
    Keeps s₀ (s.becomeFailed e) := by
  have k := failMotions_keeps e (by rw [element_setElement, if_pos rfl]; exact atRest_failed) h
  exact doIf_keeps _ _ (emit_keeps _ (emit_keeps _ k)) (emit_keeps _ k)

theorem drivenBy_none {s : State} {e : Element} (h : s.drivenBy e = none) (a : Source) (m : Motion)
    (hm : s.slot a = some m) (hp : m.phase = .running) : m.element ≠ e := by
  intro he
  unfold State.drivenBy at h
  have := List.findSome?_eq_none_iff.mp h a (allSources_all a)
  rw [hm] at this
  simp [he, hp] at this

theorem judgeAtRest_keeps {s₀ s : State} (e : Element) (hno : s.drivenBy e = none) (h : Keeps s₀ s) :
    Keeps s₀ (s.judgeAtRest e) := by
  unfold State.judgeAtRest
  have one : ∀ x, AtRest x → Keeps s₀ (s.setElement e x) := fun x hx =>
    keeps_of_one h rfl (one_setElement hx (drivenBy_none hno))
  split
  · rename_i src m hm
    obtain ⟨hs, he, hph⟩ := restedMotion_some hm
    have core : Keeps s₀ ((s.setElement e (restState m.target)).clearSlot src) := by
      refine keeps_of_one (one _ (atRest_restState m.target)) rfl (one_clear src ?_)
      intro x hx hc
      rw [slot_setElement, hs] at hx; cases hx
      rcases hph with hph | hph <;> rw [hph] at hc <;> cases hc
    refine endMotion_keeps src m _ (fun _ _ => ?_) ?_
    · have : (s.reachEnd e m.target).element m.element = restState m.target := by
        rw [he]
        cases m.target
        · show (s.setElement e .opened).element e = _
          rw [element_setElement, if_pos rfl]; rfl
        · show (s.setElement e .closed).element e = _
          rw [element_setElement, if_pos rfl]; rfl
      rw [this]; exact atRest_restState _
    · revert core; cases m.target <;> exact id
  · split
    · split
      · exact one _ atRest_closed
      · exact h
    · exact becomeFailed_keeps e (one _ atRest_failed)

/-! ### The allowance (R84) -/

theorem allowanceOut_keeps {s₀ s : State} (h : Keeps s₀ s) : Keeps s₀ s.allowanceOut := by
  unfold State.allowanceOut
  split
  · split
    · rename_i src _ m hm
      split
      · rename_i hp
        dsimp only
        refine endWith_keeps _ m _ _ (fun _ hc => by cases hc) ?_
        exact keeps_of_one h rfl (one_restClear hm (Or.inl hp) atRest_halted)
      · exact h
    · exact h
  · exact h

/-! ### The end of LOADING (R80) -/

theorem foundState_rest (sw : Switches) : AtRest (foundState sw) := by
  unfold foundState
  split <;> intro t <;> cases t <;> decide

theorem findElements_one (s : State) : s.findElements.One := by
  have none' : ∀ a, s.findElements.slot a = none := by intro a; cases a <;> rfl
  refine ⟨⟨?_, ?_, ?_⟩, List.Pairwise.nil, fun a ha => by cases ha⟩
  · rintro a b ⟨m, hm, -⟩; rw [none'] at hm; cases hm
  · intro a m hm; rw [none'] at hm; cases hm
  · intro e t he
    have hf : ∀ e, AtRest (if s.drives e then foundState (s.switchesOf e) else .unheld) := by
      intro e
      split
      · exact foundState_rest _
      · intro t; cases t <;> decide
    have : AtRest (s.findElements.element e) := by
      cases e
      · exact hf .lowerGate
      · exact hf .lowerSluice
      · exact hf .headGate
      · exact hf .headSluice
    exact absurd he (this t)

theorem findElements_keeps {s₀ s : State} (h : Keeps s₀ s) : Keeps s₀ s.findElements :=
  keeps_of_one h rfl (fun _ => findElements_one s)

end Sys2Proof.Machine
end

