-- ==== Sys2Proof/Laws/VesselLaws.lean ====
section
/-! SUPPORT. The vessel table keeps one entry per registration (R167). -/

namespace Sys2Proof.Machine
open Sys2Proof

theorem holdsReg_iff (r : BitVec 32) (o : Option Vessel) : holdsReg r o = true ↔ ∃ v, o = some v ∧ v.registration = r := by
  cases o with
  | none => simp [holdsReg]
  | some v => simp [holdsReg]

/-- The slot in which an entry for a registration may stand: no other slot holds the registration. -/
def VesselTable.Fit (t : VesselTable) (r : BitVec 32) : VesselSlot → Prop
  | .home i => i = homeSlot r ∧ ∀ j : Fin 16, holdsReg r t.overflow[j] = false
  | .overflow i => holdsReg r t.home[homeSlot r] = false ∧ ∀ j : Fin 16, holdsReg r t.overflow[j] = true → j = i

theorem put_onePerVessel {t : VesselTable} {x : VesselSlot} {v : Vessel} (hx : t.Fit v.registration x)
    (h : t.OnePerVessel) : (t.put x (some v)).OnePerVessel := by
  obtain ⟨h1, h2, h3⟩ := h
  cases x with
  | home i =>
    obtain ⟨rfl, hno⟩ := hx
    refine ⟨?_, ?_, h3⟩
    · intro j w hw
      by_cases hj : homeSlot v.registration = j
      · subst hj
        have : w = v := by simpa [VesselTable.put] using hw.symm
        rw [this]
      · have hv : (homeSlot v.registration).val ≠ j.val := fun e => hj (Fin.ext e)
        exact h1 j w (by simpa [VesselTable.put, Vector.getElem_set, hv] using hw)
    · intro j w hw
      have hw' : t.overflow[j] = some w := hw
      have old := h2 j w hw'
      by_cases hj : homeSlot v.registration = homeSlot w.registration
      · have : w.registration ≠ v.registration := by
          intro e
          have := hno j
          rw [hw'] at this
          simp [holdsReg, e] at this
        simp [VesselTable.put, ← hj, holdsReg, Ne.symm this]
      · have hv : (homeSlot v.registration).val ≠ (homeSlot w.registration).val := fun e => hj (Fin.ext e)
        simpa [VesselTable.put, Vector.getElem_set, hv] using old
  | overflow i =>
    obtain ⟨hhome, huniq⟩ := hx
    have get : ∀ (j : Fin 16) (w : Vessel), (t.put (.overflow i) (some v)).overflow[j] = some w →
        (j = i ∧ w = v) ∨ (j ≠ i ∧ t.overflow[j] = some w) := by
      intro j w hw
      by_cases hj : i = j
      · subst hj
        left
        exact ⟨rfl, by simpa [VesselTable.put] using hw.symm⟩
      · right
        have hv : i.val ≠ j.val := fun e => hj (Fin.ext e)
        exact ⟨fun e => hj e.symm, by simpa [VesselTable.put, Vector.getElem_set, hv] using hw⟩
    refine ⟨h1, ?_, ?_⟩
    · intro j w hw
      rcases get j w hw with ⟨-, rfl⟩ | ⟨-, hw'⟩
      · exact hhome
      · exact h2 j w hw'
    · intro j k w u hw hu hr
      rcases get j w hw with ⟨hj, rfl⟩ | ⟨hj, hw'⟩ <;> rcases get k u hu with ⟨hk, rfl⟩ | ⟨hk, hu'⟩
      · rw [hj, hk]
      · exact absurd (huniq k ((holdsReg_iff _ _).mpr ⟨u, hu', hr.symm⟩)) hk
      · exact absurd (huniq j ((holdsReg_iff _ _).mpr ⟨w, hw', hr⟩)) hj
      · exact h3 j k w u hw' hu' hr

/-- Entries that go, or change in another field than the registration, leave the table one entry per registration. -/
theorem shrink_onePerVessel {t u : VesselTable}
    (hh : ∀ (i : Fin 256) (v : Vessel), u.home[i] = some v → ∃ w, t.home[i] = some w ∧ w.registration = v.registration)
    (ho : ∀ (i : Fin 16) (v : Vessel), u.overflow[i] = some v → ∃ w, t.overflow[i] = some w ∧ w.registration = v.registration)
    (h : t.OnePerVessel) : u.OnePerVessel := by
  obtain ⟨h1, h2, h3⟩ := h
  refine ⟨?_, ?_, ?_⟩
  · intro i v hv
    obtain ⟨w, hw, hr⟩ := hh i v hv
    rw [← hr]; exact h1 i w hw
  · intro i v hv
    obtain ⟨w, hw, hr⟩ := ho i v hv
    have old := h2 i w hw
    by_contra hc
    have hc : holdsReg v.registration u.home[homeSlot v.registration] = true := by
      cases hb : holdsReg v.registration u.home[homeSlot v.registration] with
      | true => rfl
      | false => exact absurd hb hc
    obtain ⟨x, hx, hxr⟩ := (holdsReg_iff _ _).mp hc
    obtain ⟨y, hy, hyr⟩ := hh _ x hx
    have old' : ∀ r, w.registration = r → holdsReg r t.home[homeSlot r] = false := by rintro _ rfl; exact old
    have old := old' _ hr
    rw [(holdsReg_iff _ _).mpr ⟨y, hy, hyr.trans hxr⟩] at old
    cases old
  · intro i j v w hv hw hr
    obtain ⟨v', hv', hr1⟩ := ho i v hv
    obtain ⟨w', hw', hr2⟩ := ho j w hw
    exact h3 i j v' w' hv' hw' (hr1.trans (hr.trans hr2.symm))

theorem putNone_onePerVessel {t : VesselTable} (x : VesselSlot) (h : t.OnePerVessel) : (t.put x none).OnePerVessel := by
  refine shrink_onePerVessel ?_ ?_ h
  · intro i v hv
    refine ⟨v, ?_, rfl⟩
    cases x with
    | overflow j => exact hv
    | home j =>
      by_cases hj : j.val = i.val
      · exfalso
        have : j = i := Fin.ext hj
        subst this
        simp [VesselTable.put] at hv
      · simpa [VesselTable.put, Vector.getElem_set, hj] using hv
  · intro i v hv
    refine ⟨v, ?_, rfl⟩
    cases x with
    | home j => exact hv
    | overflow j =>
      by_cases hj : j.val = i.val
      · exfalso
        have : j = i := Fin.ext hj
        subst this
        simp [VesselTable.put] at hv
      · simpa [VesselTable.put, Vector.getElem_set, hj] using hv

theorem map_onePerVessel {t : VesselTable} (f : Option Vessel → Option Vessel)
    (hf : ∀ o v, f o = some v → ∃ w, o = some w ∧ w.registration = v.registration) (h : t.OnePerVessel) :
    VesselTable.OnePerVessel { home := t.home.map f, overflow := t.overflow.map f } := by
  refine shrink_onePerVessel ?_ ?_ h
  · intro i v hv
    exact hf _ v (by simpa using hv)
  · intro i v hv
    exact hf _ v (by simpa using hv)

/-- Where a lookup finds a registration, no other slot holds it. -/
theorem find_fit {t : VesselTable} {r : BitVec 32} {x : VesselSlot} (h : t.find r = some x) (k : t.OnePerVessel) :
    t.Fit r x ∧ ∃ v, t.at x = some v ∧ v.registration = r := by
  obtain ⟨-, h2, h3⟩ := k
  unfold VesselTable.find at h
  split at h
  · rename_i hh
    cases h
    obtain ⟨v, hv, hr⟩ := (holdsReg_iff _ _).mp hh
    refine ⟨⟨rfl, fun j => ?_⟩, v, hv, hr⟩
    cases hb : holdsReg r t.overflow[j] with
    | false => rfl
    | true =>
      obtain ⟨w, hw, rfl⟩ := (holdsReg_iff _ _).mp hb
      have := h2 j w hw
      rw [hh] at this; cases this
  · rename_i hh
    obtain ⟨i, hi, rfl⟩ := Option.map_eq_some_iff.mp h
    have hhold := List.find?_some hi
    obtain ⟨v, hv, hr⟩ := (holdsReg_iff _ _).mp hhold
    refine ⟨⟨by simpa using hh, fun j hj => ?_⟩, v, hv, hr⟩
    obtain ⟨w, hw, hwr⟩ := (holdsReg_iff _ _).mp hj
    exact h3 j i w v hw hv (hwr.trans hr.symm)

/-- Where a lookup misses, an insert's place is one no other slot contests. -/
theorem place_fit {t : VesselTable} {r : BitVec 32} {now : Option (BitVec 16 × Nat)} {p : Nat} {x : VesselSlot}
    (h : t.find r = none) (hp : t.placeFor r now p = some x) : t.Fit r x := by
  have hhome : holdsReg r t.home[homeSlot r] = false := by
    unfold VesselTable.find at h
    split at h
    · cases h
    · rename_i hh; simpa using hh
  have hover : ∀ j : Fin 16, holdsReg r t.overflow[j] = false := by
    intro j
    unfold VesselTable.find at h
    rw [hhome] at h
    simp only [Bool.false_eq_true, if_false, Option.map_eq_none_iff] at h
    have := List.find?_eq_none.mp h j (List.mem_finRange j)
    simpa using this
  have hfit : ∀ x, (x = .home (homeSlot r) ∨ ∃ i, x = .overflow i) → t.Fit r x := by
    rintro x (rfl | ⟨i, rfl⟩)
    · exact ⟨rfl, hover⟩
    · exact ⟨hhome, fun j hj => by rw [hover j] at hj; cases hj⟩
  apply hfit
  unfold VesselTable.placeFor at hp
  split at hp
  · cases hp; exact Or.inl rfl
  · split at hp
    · cases hp; exact Or.inr ⟨_, rfl⟩
    · split at hp
      · cases hp; exact Or.inl rfl
      · cases hp

end Sys2Proof.Machine
end

