-- ==== Sys2Proof/Laws/CommandsSound.lean ====
section
/-! SUPPORT. What every command's effect keeps: the facts of `State.Sound`, one lemma per effect. -/

namespace Sys2Proof.Machine
open Sys2Proof

/-! ### Changes of one block -/

theorem sound_link {s : State} {l : Link} (hf : s.link.Fits → l.Fits) (h : s.Sound) : State.Sound { s with link := l } :=
  ⟨hf h.1, h.2⟩
theorem sound_presence {s : State} {p : Presence} (h : s.Sound) : State.Sound { s with presence := p } := h
theorem sound_pins {s : State} {p : Pins} (h : s.Sound) : State.Sound { s with pins := p } := h
theorem sound_loader {s : State} {l : Loader} (h : s.Sound) : State.Sound { s with loader := l } := h
theorem sound_ctl {s : State} {c : Control} (hf : s.ctl.StopFits → c.StopFits) (h : s.Sound) :
    State.Sound { s with ctl := c } := by
  obtain ⟨hl, ha, ht, hp, ho, hs, hc, hu, hh, hx, hr⟩ := h
  exact ⟨hl, ha, ht, hp, ho, hs, hc, hu, hh, hf hx, hr⟩
theorem sound_chamber {s : State} {c : Chamber} (h1 : c.holder = s.chamber.holder) (h2 : c.waiter = s.chamber.waiter)
    (hf : s.chamber.LevelsFit → c.LevelsFit) (h : s.Sound) : State.Sound { s with chamber := c } := by
  obtain ⟨hl, ha, ht, hp, ho, hs, hc, hu, hh, hx, hm, hv, hw⟩ := h
  refine ⟨hl, ha, ht, hp, ho, hs, ?_, hu, hh, hx, hm, hf hv, hw⟩
  unfold Chamber.ClaimsFit at hc ⊢
  rw [h1, h2]; exact hc
theorem sound_tariff {s : State} {t : Tariff} (hf : s.tariff.minute < 1440 → t.minute < 1440) (h : s.Sound) :
    State.Sound { s with tariff := t } := by
  obtain ⟨hl, ha, ht, hp, ho, hs, hc, hu, hh, hx, hm, hr⟩ := h
  exact ⟨hl, ha, ht, hp, ho, hs, hc, hu, hh, hx, hf hm, hr⟩
theorem sound_vessels {s : State} {t : VesselTable} (hf : s.vessels.OnePerVessel → t.OnePerVessel) (h : s.Sound) :
    State.Sound (s.setVessels t) := by
  obtain ⟨hl, ha, ht, hp, ho, hs, hc, hu, hh, hx, hm, hv, hw⟩ := h
  exact ⟨hl, ha, ht, hp, ho, hs, hc, hu, hh, hx, hm, hv, hf hw⟩
theorem sound_store {s : State} {st : Store} (hf : s.store.PagesWhole → st.PagesWhole) (h : s.Sound) :
    State.Sound { s with store := st } := ⟨h.1, h.2.1, h.2.2.1, hf h.2.2.2.1, h.2.2.2.2⟩
theorem sound_emit {s : State} (t : Notice) (h : s.Sound) : (s.emit t).Sound := h
theorem sound_pending {s : State} {l : List Instr} (h : s.Sound) : State.Sound { s with pending := l } := h

theorem State.Sound.table {s : State} (h : s.Sound) : s.vessels.OnePerVessel := h.2.2.2.2.2.2.2.2.2.2.2.2

/-! ### The link (chapter 1) -/

theorem doIf_sound {s : State} (c : Bool) (f : State → State) (hf : (f s).Sound) (h : s.Sound) : (s.doIf c f).Sound := by
  unfold State.doIf; split
  · exact hf
  · exact h

theorem reportSource_sound {s : State} (src : Addr) (h : s.Sound) : (s.reportSource src).Sound := by
  unfold State.reportSource
  split
  · exact doIf_sound _ _ h h
  · exact h

theorem overhear_sound {s : State} (src dst : Addr) (h : s.Sound) : (s.overhear src dst).Sound := by
  unfold State.overhear
  split
  · exact reportSource_sound _ h
  · exact h

theorem widenSlots_fits {l : Link} (i : Fin 17) (w : WidenSlot) (hw : w.passesFit) (h : l.Fits) :
    Link.Fits { l with widenSlots := l.widenSlots.set i w } := by
  obtain ⟨a, b, c, d, e, f⟩ := h
  refine ⟨a, b, c, d, e, fun j => ?_⟩
  by_cases hj : i.val = j.val
  · have : i = j := Fin.ext hj
    subst this
    simpa using hw
  · simpa [Vector.getElem_set, hj] using f j

theorem setWidenSlot_sound {s : State} (src : Addr) (w : WidenSlot) (hw : s.link.Fits → w.passesFit) (h : s.Sound) :
    (s.setWidenSlot src w).Sound := sound_link (fun k => widenSlots_fits _ _ (hw k) k) h

theorem advance_fits (b : Bool) {w : WidenSlot} (h : w.passesFit) : (w.advance b).passesFit := by
  cases w with
  | empty => trivial
  | pending u a p =>
    unfold WidenSlot.advance
    dsimp only
    split
    · trivial
    · split
      · trivial
      · rename_i hp
        have : p ≤ 3 := h
        show p + 1 ≤ 3
        omega

theorem refuse_sound {s : State} (src : Addr) (bc : Bool) (kind : BitVec 6) (tag : Nat) (r : Reason) (h : s.Sound) :
    (s.refuse src bc kind tag r).Sound := (refuse_keeps src bc kind tag r (Keeps.refl s)).sound h

theorem refuseRx_sound {s : State} (k : Kind) (rx : Rx) (r : Reason) (h : s.Sound) : (s.refuseRx k rx r).Sound :=
  (refuseRx_keeps k rx r (Keeps.refl s)).sound h

/-- A frame is received soundly when its owner acts soundly on every payload its kind's format allows. -/
theorem receive_sound {s : State} (k : Kind) (src dst : Addr) (p : List Byte) (owner : Rx → State → State)
    (hu : fieldsOk k p = true ∨ k.takenUnconfigured = true ∨ k.broadcastUnconfigured = true → ∀ rx t, rx.payload = p → State.Sound t → (owner rx t).Sound)
    (h : s.Sound) : (s.receive k src dst p owner).Sound := by
  unfold State.receive
  split
  · exact h
  · dsimp only
    have h1 := reportSource_sound src h
    generalize s.reportSource src = t at h1
    split
    · exact h1
    · split
      · unfold State.takeUnconfigured
        dsimp only
        split
        · split
          · rename_i hk
            exact hu (Or.inr (Or.inr hk)) _ _ rfl h1
          · exact h1
        · split
          · rename_i hk
            split
            · exact hu (Or.inr (Or.inl hk)) _ _ rfl h1
            · exact h1
          · exact refuse_sound _ _ _ _ _ h1
      · unfold State.takeFrame
        dsimp only
        split
        · exact refuse_sound _ _ _ _ _ h1
        · have h2 := setWidenSlot_sound src ((t.widenSlot src).advance k.widenable)
            (fun w => advance_fits _ (w.2.2.2.2.2 _)) h1
          generalize t.setWidenSlot src _ = t2 at h2
          split
          · exact refuse_sound _ _ _ _ _ h2
          · rename_i hk
            split
            · exact h2
            · exact hu (Or.inl (by simpa using hk)) _ _ rfl h2

theorem receiveUnknown_sound {s : State} (src dst : Addr) (kind : BitVec 6) (h : s.Sound) :
    (s.receiveUnknown src dst kind).Sound := by
  unfold State.receiveUnknown
  split
  · exact h
  · dsimp only
    have h1 := reportSource_sound src h
    split
    · exact h1
    · exact refuse_sound _ _ _ _ _ h1

theorem onWiden_sound {s : State} (rx : Rx) (h : s.Sound) : (s.onWiden rx).Sound :=
  setWidenSlot_sound _ _ (fun _ => Nat.zero_le 3) h

theorem onEcho_sound {s : State} (rx : Rx) (h : s.Sound) : (s.onEcho rx).Sound := by
  unfold State.onEcho
  split
  · exact h
  · exact (sendOwn_keeps _ _ _ (Keeps.refl s)).sound h

theorem onRefuse_sound {s : State} (rx : Rx) (h : s.Sound) : (s.onRefuse rx).Sound := by
  unfold State.onRefuse
  split
  · exact (endEntry_keeps _ (Keeps.refl s)).sound h
  · exact h

theorem onPlainReply_sound {s : State} (k : Kind) (rx : Rx) (h : s.Sound) : (s.onPlainReply k rx).Sound := by
  unfold State.onPlainReply
  split
  · exact (endEntry_keeps _ (Keeps.refl s)).sound h
  · exact h

theorem startHead_sound {s : State} (h : s.Sound) : s.startHead.Sound := by
  unfold State.startHead
  split
  · exact h
  · split
    · exact sound_link id h
    · exact h

theorem startDeadline_keeps {s₀ s : State} (tag : Nat) (h : Keeps s₀ s) : Keeps s₀ (s.startDeadline tag) :=
  keeps_link rfl rfl (fun w => mapEntries_fits _ (fun e => by split <;> rfl) w) h

theorem onSent_keeps {s₀ s : State} (f : TxFrame) (h : Keeps s₀ s) : Keeps s₀ (s.onSent f) := by
  unfold State.onSent
  exact doIf_keeps _ _ (startDeadline_keeps _ h) h

theorem mapFrame_fits {l : Link} (id : Nat) (g : TxFrame → TxFrame) (hg : ∀ f, (g f).upper = f.upper) (h : l.Fits) :
    (l.mapFrame id g).Fits := mapTxq_fits _ (fun f => by split <;> simp [hg]) h

theorem lineSent_sound {s : State} (h : s.Sound) : s.lineSent.Sound := by
  unfold State.lineSent
  split
  · exact h
  · rename_i f _
    have hz : s.link.Fits → Link.Fits { s.link with onLine := false, lineWiden := false, attempts := 0 } := fun w =>
      ⟨w.1, w.2.1, w.2.2.1, w.2.2.2.1, Nat.zero_le _, w.2.2.2.2.2⟩
    have hy : s.link.Fits → Link.Fits { s.link with onLine := false, attempts := 0 } := fun w =>
      ⟨w.1, w.2.1, w.2.2.1, w.2.2.2.1, Nat.zero_le _, w.2.2.2.2.2⟩
    split
    · exact sound_link (fun w => refreshHead_fits (mapFrame_fits _ _ (fun _ => rfl) (hz w))) h
    · have h2 : State.Sound { s with link := Link.refreshHead ({ s.link with onLine := false, attempts := 0 }.remove f.id) } :=
        sound_link (fun w => refreshHead_fits (remove_fits _ (hy w))) h
      exact (fillQueue_keeps (onSent_keeps f (Keeps.refl _))).sound h2

theorem addHold_fits {l : Link} (f : TxFrame) (h : l.Fits) : (l.addHold f).Fits := by
  unfold Link.addHold
  split
  · split
    · exact h
    · exact h
  · exact h

theorem dropHead_sound {s : State} (f : TxFrame) (h : s.Sound) : (s.dropHead f).Sound := by
  unfold State.dropHead
  dsimp only
  apply sound_emit
  refine (serveAll_keeps (fillQueue_keeps (removeUnsent_keeps f (Keeps.refl _)))).sound ?_
  exact sound_link (fun w => addHold_fits f ⟨w.1, w.2.1, w.2.2.1, w.2.2.2.1, Nat.zero_le _, w.2.2.2.2.2⟩) h

theorem lineCollision_sound {s : State} (h : s.Sound) : s.lineCollision.Sound := by
  unfold State.lineCollision
  split
  · exact h
  · split
    · exact dropHead_sound _ h
    · rename_i f _ hn
      split
      · exact sound_link (fun w => ⟨w.1, w.2.1, w.2.2.1, w.2.2.2.1, Nat.zero_le _, w.2.2.2.2.2⟩) h
      · refine sound_link (s := { s with draws := s.draws + 1 }) (fun w => refreshHead_fits ?_) h
        refine ⟨w.1, w.2.1, w.2.2.1, w.2.2.2.1, ?_, w.2.2.2.2.2⟩
        have := w.2.2.2.2.1
        show s.link.attempts + 1 ≤ 11
        change s.link.attempts ≤ 11 at this
        omega

theorem resendWiden_sound {s : State} (h : s.Sound) : s.resendWiden.Sound := by
  unfold State.resendWiden
  split
  · exact h
  · dsimp only
    refine sound_link (fun w => ?_) h
    rename_i f _
    have k := mapFrame_fits (l := s.link) f.id (fun g => { g with widenDue := true }) (fun _ => rfl) w
    split
    · exact k
    · exact ⟨k.1, k.2.1, k.2.2.1, k.2.2.2.1, Nat.zero_le _, k.2.2.2.2.2⟩

theorem backoffOut_sound {s : State} (h : s.Sound) : s.backoffOut.Sound := sound_link id h

theorem widenHoldOut_sound {s : State} (dst : Addr) (h : s.Sound) : (s.widenHoldOut dst).Sound :=
  sound_link (fun w => refreshHead_fits w) h

theorem widenSlotOut_sound {s : State} (p : Party) (h : s.Sound) : (s.widenSlotOut p).Sound :=
  sound_link (fun w => widenSlots_fits _ _ trivial w) h

theorem deadlineOut_sound {s : State} (tag : Nat) (h : s.Sound) : (s.deadlineOut tag).Sound := by
  unfold State.deadlineOut
  split
  · exact (dropEntry_keeps _ (Keeps.refl s)).sound h
  · exact h

/-! ### The stop state (chapter 3) -/

theorem setStop_sound {s : State} (x : StopState) (h : State.Sound { s with ctl := { s.ctl with stop := x } }) :
    (s.setStop x).Sound := by
  unfold State.setStop
  split
  · rename_i hx; subst hx; exact h
  · exact h

/-- The stop state changes soundly together with the latch and the timer. -/
theorem stopTo_sound {s : State} (c : Control) (x : StopState) (hf : Control.StopFits { c with stop := x }) (h : s.Sound) :
    (State.setStop x { s with ctl := c }).Sound :=
  setStop_sound (s := { s with ctl := c }) x (sound_ctl (s := s) (fun _ => hf) h)

theorem State.Sound.stop {s : State} (h : s.Sound) : s.ctl.StopFits := h.2.2.2.2.2.2.2.2.2.1

theorem stopTaken_sound {s : State} (h : s.Sound) : s.stopTaken.Sound := by
  have k := h.stop
  unfold Control.StopFits at k
  unfold State.stopTaken
  split
  · rename_i hs
    refine setStop_sound _ (sound_ctl (fun _ => ?_) h)
    rw [hs] at k
    refine ⟨fun hl => ?_, ?_⟩
    · have := k.1 hl; cases this
    · have := k.2
      constructor
      · intro hr; have := this.mp hr; cases this
      · intro hc; cases hc
  · exact h
  · rename_i hs
    exact sound_ctl (fun _ => ⟨fun _ => hs, k.2⟩) h

theorem resumeTaken_sound {s : State} (h : s.Sound) : s.resumeTaken.Sound := by
  have k := h.stop
  unfold Control.StopFits at k
  unfold State.resumeTaken
  split
  · exact h
  · rename_i hs
    exact stopTo_sound _ _ ⟨fun _ => rfl, by simp⟩ h
  · rename_i hs
    split
    · exact sound_ctl (fun _ => ⟨fun hl => (by cases hl), by simp [hs]⟩) h
    · exact h

theorem resumeSettleExpiry_sound {s : State} (h : s.Sound) : s.resumeSettleExpiry.Sound := by
  unfold State.resumeSettleExpiry
  split
  · dsimp only
    refine stopTo_sound _ _ ⟨fun hl => (by cases hl), ?_⟩ h
    cases s.ctl.latch <;> simp
  · exact h

theorem stopPress_sound {s : State} (h : s.Sound) : s.stopPress.Sound := by
  unfold State.stopPress
  have k := stopTaken_sound h
  dsimp only
  split
  · exact k
  · exact (send_keeps _ _ _ _ (Keeps.refl _)).sound k

theorem onFlightStop_sound {s : State} (rx : Rx) (h : s.Sound) : (s.onFlightStop rx).Sound := stopTaken_sound h

theorem onResume_sound {s : State} (rx : Rx) (h : s.Sound) : (s.onResume rx).Sound := by
  unfold State.onResume
  split
  · exact resumeTaken_sound h
  · exact h

theorem onStopButton_sound {s : State} (b : Bool) (h : s.Sound) : (s.onStopButton b).Sound := by
  unfold State.onStopButton
  dsimp only
  split
  · exact stopPress_sound (sound_pins h)
  · exact sound_pins h

/-! ### The presence and the faults of others (chapters 2 and 10) -/

theorem modPeer_sound {s : State} (i : Fin 16) (f : Peer → Peer) (h : s.Sound) : (s.modPeer i f).Sound := h

theorem setFaulted_sound {s : State} (i : Fin 16) (v : Bool) (h : s.Sound) : (s.setFaulted i v).Sound := by
  unfold State.setFaulted
  dsimp only
  split
  · exact h
  · exact h

theorem onFaultNote_sound {s : State} (rx : Rx) (h : s.Sound) : (s.onFaultNote rx).Sound := by
  unfold State.onFaultNote
  split
  · exact setFaulted_sound _ _ h
  · exact h

theorem onFaultClear_sound {s : State} (rx : Rx) (h : s.Sound) : (s.onFaultClear rx).Sound := by
  unfold State.onFaultClear
  split
  · exact setFaulted_sound _ _ h
  · exact h

theorem onBeacon_sound {s : State} (rx : Rx) (h : s.Sound) : (s.onBeacon rx).Sound := by
  unfold State.onBeacon
  split
  · exact h
  · split
    · exact h
    · split
      · unfold State.clashTest
        split
        · split
          · exact h
          · unfold State.clashingBeacon
            dsimp only
            split
            · exact h
            · exact (refreshInterval_keeps (Keeps.refl _)).sound h
        · exact h
      · split
        · exact h
        · unfold State.enterBeacon
          dsimp only
          apply sound_emit
          rename_i b _ _ _ _
          have k : State.Sound (if b.cause.isNone = true then
              State.setFaulted (peerIdx rx.src.toNat) false (s.modPeer (peerIdx rx.src.toNat) (fun p =>
                { p with presence := .present, interval := some b.interval, since := 0, contents := some b }))
              else s.modPeer (peerIdx rx.src.toNat) (fun p =>
                { p with presence := .present, interval := some b.interval, since := 0, contents := some b })) := by
            split
            · exact setFaulted_sound _ _ h
            · exact h
          split
          · exact k
          · exact sound_emit _ k

theorem peerSilence_sound {s : State} (i : Fin 16) (h : s.Sound) : (s.peerSilence i).Sound := by
  unfold State.peerSilence
  split
  · exact h
  · exact h

theorem deskSilence_sound {s : State} (h : s.Sound) : s.deskSilence.Sound := by
  unfold State.deskSilence
  split
  · exact h
  · exact h

theorem clashCalm_sound {s : State} (h : s.Sound) : s.clashCalm.Sound := by
  unfold State.clashCalm
  split
  · exact (refreshInterval_keeps (Keeps.refl _)).sound h
  · exact h

/-! ### Levels (chapter 4) -/

theorem setLevel_sound {s : State} (l : LevelLine) (x : Level) (hx : s.chamber.LevelsFit → x.value ≤ 2000) (h : s.Sound) :
    (s.setLevel l x).Sound := by
  cases l
  · exact sound_chamber rfl rfl (fun k => ⟨hx k, k.2⟩) h
  · exact sound_chamber rfl rfl (fun k => ⟨k.1, hx k⟩) h

theorem levelOf_fits {s : State} (l : LevelLine) (k : s.chamber.LevelsFit) : (s.levelOf l).value ≤ 2000 := by
  cases l
  · exact k.1
  · exact k.2

theorem limitTest_sound {s : State} (v : Nat) (h : s.Sound) : (s.limitTest v).Sound := by
  unfold State.limitTest
  dsimp only
  split
  · exact h
  · apply sound_emit
    have k : State.Sound (s.modChamber (fun c => { c with alarm := s.alarmOf v })) := sound_chamber rfl rfl id h
    split
    · exact k
    · exact (raiseAlarm_keeps _ _ (Keeps.refl _)).sound k
    · exact (raiseAlarm_keeps _ _ (Keeps.refl _)).sound k

theorem chamberReading_sound {s : State} (b : Bool) (v : Nat) (h : s.Sound) : (s.chamberReading b v).Sound := by
  unfold State.chamberReading
  dsimp only
  have k := limitTest_sound v h
  split
  · exact (feedOnReading_keeps (Keeps.refl _)).sound k
  · split
    · exact (testWaiter_keeps (Keeps.refl _)).sound k
    · exact (sendFeed_keeps (Keeps.refl _)).sound k

theorem onReading_sound {s : State} (l : LevelLine) (value : BitVec 16) (valid : Bool) (h : s.Sound) :
    (s.onReading l value valid).Sound := by
  have fin : ∀ (c : Prop) [Decidable c] (t : State), t.Sound → (if c then t else t.emit .levelsChanged).Sound := by
    intro c _ t ht; split
    · exact ht
    · exact sound_emit _ ht
  unfold State.onReading
  split
  · dsimp only
    split
    · rename_i hv
      have k := setLevel_sound l (validLevel value.toNat) (fun _ => hv.2) h
      cases l
      · exact fin _ _ (chamberReading_sound _ _ k)
      · exact fin _ _ k
    · have k := setLevel_sound l (s.levelOf l).toUnknown (fun w => levelOf_fits l w) h
      split
      · exact sound_emit _ ((stopFeed_keeps (Keeps.refl _)).sound k)
      · exact k
  · exact h

theorem levelStale_sound {s : State} (l : LevelLine) (h : s.Sound) : (s.levelStale l).Sound := by
  unfold State.levelStale
  split
  · exact sound_emit _ ((stopFeed_keeps (Keeps.refl _)).sound
      (setLevel_sound l (s.levelOf l).toUnknown (fun w => levelOf_fits l w) h))
  · exact h

theorem levelLoss_sound {s : State} (l : LevelLine) (h : s.Sound) : (s.levelLoss l).Sound := by
  unfold State.levelLoss
  split
  · exact setLevel_sound l _ (fun w => levelOf_fits l w) h
  · exact h

theorem onSwitches_sound {s : State} (e : Element) (sw : Switches) (h : s.Sound) : (s.onSwitches e sw).Sound := by
  unfold State.onSwitches
  dsimp only
  have k : State.Sound { s with pins := { s.pins with switches := s.pins.switches.set (elementIdx e) sw } } := sound_pins h
  split
  · exact k
  · split
    · rename_i src m hm
      obtain ⟨h1, -, h3⟩ := drivenBy_some hm
      exact (judgeDriven_keeps src m h1 h3 (Keeps.refl _)).sound k
    · rename_i hm
      exact (judgeAtRest_keeps e hm (Keeps.refl _)).sound k

/-! ### Local working (chapter 3) -/

theorem onKey_sound {s : State} (pos : KeyPos) (h : s.Sound) : (s.onKey pos).Sound := by
  unfold State.onKey
  dsimp only
  have k : State.Sound { s with pins := { s.pins with key := pos } } := sound_pins h
  split
  · exact k
  · split
    · exact (keyToLocal_keeps (Keeps.refl _)).sound k
    · exact (keyToAuto_keeps (Keeps.refl _)).sound k

theorem onSelector_sound {s : State} (pos : UnitId) (h : s.Sound) : (s.onSelector pos).Sound := h

/-! ### Records (chapter 8) -/

theorem acceptXfer_sound {s : State} (key : BatchKey) (attempt : Nat) (dst : Addr) (h : s.Sound) :
    (s.acceptXfer key attempt dst).Sound := by
  have rest : ∀ u : State, u.Sound →
      (if u.store.stream.any (fun r => r.key = key && r.attempt = attempt) then u
        else (u.abandonStream.takeStream.setStream (some
          { number := u.abandonStream.link.nextStream, key := key, dst := dst, attempt := attempt,
            segments := u.abandonStream.store.streamSegments key })).streamNext).Sound := by
    intro u hu
    split
    · exact hu
    · exact (streamNext_keeps (setStream_keeps _ (takeStream_keeps (abandonStream_keeps (Keeps.refl _))))).sound hu
  have k : State.Sound { s with store := { s.store.move key .resident .sending with custody := key } } :=
    sound_store (fun w => move_whole key .resident .sending (Or.inl ⟨by decide, by decide⟩) w) h
  refine rest _ ?_
  split
  · exact (setOccupancy_keeps _ _ (Keeps.refl _)).sound k
  · exact k

theorem onXferAsk_sound {s : State} (rx : Rx) (h : s.Sound) : (s.onXferAsk rx).Sound := by
  unfold State.onXferAsk
  dsimp only
  split
  · exact refuseRx_sound _ _ _ h
  · split
    · exact refuseRx_sound _ _ _ h
    · exact acceptXfer_sound _ _ _ h

theorem onXferEnd_sound {s : State} (rx : Rx) (h : s.Sound) : (s.onXferEnd rx).Sound := by
  unfold State.onXferEnd
  dsimp only
  split
  · have k : State.Sound (s.abandonStream.freeBatch (keyAt rx.payload 0) .sending) :=
      (freeBatch_keeps _ _ (abandonStream_keeps (Keeps.refl _))).sound h
    generalize s.abandonStream.freeBatch (keyAt rx.payload 0) .sending = t at k ⊢
    have k2 : State.Sound { t with store := { t.store with custody := 0 } } := sound_store id k
    split
    · exact (setOccupancy_keeps _ _ (Keeps.refl _)).sound k2
    · exact k2
  · exact h

/-! ### Vessels, the clock and the rates (chapters 7 and 9) -/

theorem touchVessel_sound {s : State} (r : BitVec 32) (h : s.Sound) : (s.touchVessel r).Sound := by
  unfold State.touchVessel
  split
  · rename_i x hx
    refine sound_vessels (fun w => ?_) h
    obtain ⟨hfit, v, hv, hr⟩ := find_fit hx w
    rw [hv]
    refine put_onePerVessel ?_ w
    show s.vessels.Fit v.registration x
    rw [hr]; exact hfit
  · exact h

theorem putVessel_sound {s : State} (v : Vessel) (h : s.Sound) :
    (∀ x, s.vessels.find v.registration = some x → (s.setVessels (s.vessels.put x (some v))).Sound)
    ∧ (s.vessels.find v.registration = none → ∀ now p x, s.vessels.placeFor v.registration now p = some x →
        (s.setVessels (s.vessels.put x (some v))).Sound) :=
  ⟨fun _ hx => sound_vessels (fun w => put_onePerVessel (find_fit hx w).1 w) h,
   fun hn _ _ _ hp => sound_vessels (fun w => put_onePerVessel (place_fit hn hp) w) h⟩

theorem onVesselSet_sound {s : State} (rx : Rx) (h : s.Sound) : (s.onVesselSet rx).Sound := by
  unfold State.onVesselSet
  dsimp only
  split
  · rename_i x hx; exact (putVessel_sound _ h).1 x hx
  · rename_i hn
    split
    · rename_i x hx; exact (putVessel_sound _ h).2 hn _ _ x hx
    · exact refuseRx_sound _ _ _ h

theorem onVesselDel_sound {s : State} (rx : Rx) (h : s.Sound) : (s.onVesselDel rx).Sound := by
  unfold State.onVesselDel
  split
  · exact sound_vessels (fun w => putNone_onePerVessel _ w) h
  · exact h

theorem learnVessel_sound {s : State} (v : Vessel) (h : s.Sound) : (s.learnVessel v).Sound := by
  unfold State.learnVessel
  split
  · rename_i x hx
    split
    · exact h
    · exact (putVessel_sound _ h).1 x hx
  · rename_i hn
    split
    · rename_i x hx; exact (putVessel_sound _ h).2 hn _ _ x hx
    · exact h

theorem onVesselInfo_sound {s : State} (rx : Rx) (h : s.Sound) : (s.onVesselInfo rx).Sound := by
  unfold State.onVesselInfo
  split
  · exact h
  · dsimp only
    exact (endEntry_keeps _ (resolveWith_keeps _ (Keeps.refl _))).sound (learnVessel_sound _ h)

theorem agePass_sound {s : State} (h : s.Sound) : s.agePass.Sound := by
  unfold State.agePass
  split
  · refine sound_vessels (fun w => map_onePerVessel _ (fun o v hv => ?_) w) h
    unfold ageKeeps at hv
    exact ⟨v, (Option.filter_eq_some_iff.mp hv).1, rfl⟩
  · exact h

theorem onTime_sound {s : State} (rx : Rx) (hm : be16 rx.payload 2 < 1440) (h : s.Sound) : (s.onTime rx).Sound := by
  unfold State.onTime
  dsimp only
  refine agePass_sound ?_
  have k : State.Sound { s with tariff := { s.tariff with
      day := BitVec.ofNat 16 (be16 rx.payload 0), minute := be16 rx.payload 2, known := true,
      minuteTimer := some (sec 60) } } := sound_tariff (fun _ => hm) h
  split
  · refine sound_vessels (fun w => map_onePerVessel _ (fun o v hv => ?_) w) k
    unfold seenFirst at hv
    obtain ⟨w, hw, rfl⟩ := Option.map_eq_some_iff.mp hv
    refine ⟨w, hw, ?_⟩
    split <;> rfl
  · exact k

theorem minuteExpiry_sound {s : State} (h : s.Sound) : s.minuteExpiry.Sound := by
  unfold State.minuteExpiry
  split
  · refine agePass_sound (sound_tariff (fun k => ?_) h)
    dsimp only
    split <;> omega
  · exact h

theorem onRateSet_sound {s : State} (rx : Rx) (h : s.Sound) : (s.onRateSet rx).Sound := sound_tariff id h
theorem onRateCommit_sound {s : State} (rx : Rx) (h : s.Sound) : (s.onRateCommit rx).Sound := sound_tariff id h

/-! ### Calls (chapter 7) -/

theorem touchVessel_approach (r : BitVec 32) (s : State) : (s.touchVessel r).approach = s.approach := by
  unfold State.touchVessel; split <;> rfl

theorem dealCall_sound {s : State} (r : BitVec 32) (len : Nat) (h : s.Sound) : (s.dealCall r len).Sound := by
  unfold State.dealCall
  have ans : ∀ {t : State} (r x p), t.Sound → (t.answer r x p).Sound := fun r x p h =>
    (answer_keeps r x p (Keeps.refl _)).sound h
  split
  · exact ans _ _ _ h
  · rename_i hl
    have hl : s.approach.queue.length < 12 := by omega
    split
    · exact ans _ _ _ h
    · split
      · rename_i v hv
        have k := touchVessel_sound r h
        have hl' : (s.touchVessel r).approach.queue.length < 12 := by rw [touchVessel_approach]; exact hl
        dsimp only
        split
        · exact ans _ _ _ k
        · split
          · exact ans _ _ _ k
          · exact sound_emit _ ((enqueue_keeps _ hl' (Keeps.refl _)).sound k)
      · split
        · exact ans _ _ _ h
        · exact (beginResolution_keeps _ (enqueue_keeps _ hl (Keeps.refl _))).sound h

theorem onCall_sound {s : State} (r : BitVec 32) (len : Byte) (h : s.Sound) : (s.onCall r len).Sound := by
  unfold State.onCall
  split
  · exact h
  · split
    · exact (answer_keeps _ _ _ (Keeps.refl _)).sound h
    · exact dealCall_sound _ _ ((wake_keeps _ (Keeps.refl _)).sound h)

/-! ### Starting (chapters 2 and 12) -/

theorem stack_initial : Drive.initial.StackFalls := ⟨List.Pairwise.nil, fun a ha => by cases ha⟩

theorem claims_initial : Chamber.initial.ClaimsFit := claimsFit_free rfl

theorem unit_initial : BoundaryUnit.initial.OneActive := Or.inl rfl

theorem one_initial : Drive.initial.OneMotion := by
  refine ⟨?_, ?_, ?_⟩
  · rintro i j (h | h) <;> (simp [Drive.initial, slotPhase] at h)
  · intro i m hm; simp [Drive.initial] at hm
  · intro e t he
    exfalso
    cases e <;> cases t <;> revert he <;> decide +kernel

theorem levels_initial : Chamber.initial.LevelsFit := by constructor <;> decide

theorem stop_initial : Control.initial.StopFits := by
  refine ⟨?_, ?_⟩ <;> decide

theorem link_initial : Link.initial.Fits := by
  refine ⟨by decide +kernel, by decide, by decide, ?_, by decide, ?_⟩
  · intro e he; cases he
  · intro i
    have : Link.initial.widenSlots[i] = .empty := by simp [Link.initial]
    rw [this]; trivial

theorem approach_initial : Approach.initial.Fits := by
  refine ⟨by decide, by decide, ?_⟩
  intro i; simp [Approach.initial]

theorem token_initial : Token.initial.Fits := ⟨by decide, by decide⟩

theorem store_initial : Store.initial.PagesWhole := by
  refine ⟨?_, ?_, by decide, by decide⟩
  · have : Store.initial.free ++ Store.initial.records.flatMap Record.pages = List.range 96 := by decide +kernel
    rw [this]
  · intro r hr; cases hr

theorem vessels_initial : VesselTable.initial.OnePerVessel := by
  refine ⟨?_, ?_, ?_⟩
  · intro i v hv; simp [VesselTable.initial] at hv
  · intro i v hv; simp [VesselTable.initial] at hv
  · intro i j v w hv; simp [VesselTable.initial] at hv

theorem tariff_initial : Tariff.initial.minute < 1440 := by decide

/-- What START leaves is sound, whatever stood before. -/
theorem startState_sound (s : State) : s.startState.Sound :=
  ⟨link_initial, approach_initial, token_initial, store_initial, one_initial, stack_initial, claims_initial, unit_initial,
    unit_initial, stop_initial, tariff_initial, levels_initial, vessels_initial⟩

theorem setAside_sound {s : State} (h : s.Sound) : s.setAside.Sound := by
  unfold State.setAside
  exact sound_ctl (s := { s.startState with loader := s.loader }) (fun _ => h.stop) (sound_loader (startState_sound s))

theorem restartState_sound {s : State} (h : s.Sound) : s.restartState.Sound := by
  obtain ⟨hl, ha, ht, hs, -, -, -, -, -, -, hm, -, ho⟩ := h
  refine ⟨link_initial, ⟨?_, ?_, ?_⟩, ⟨?_, ht.2⟩, hs, one_initial, stack_initial, claimsFit_free rfl, unit_initial,
    unit_initial, ⟨?_, ?_⟩, hm, levels_initial, ho⟩
  · show (s.approach.queue.map _).length ≤ 12
    rw [List.length_map]; exact ha.1
  · exact approach_initial.2.1
  · exact approach_initial.2.2
  · show (s.token.inFlight.map _).length ≤ 8
    rw [List.length_map]; exact ht.1
  · intro h; cases h
  · have : s.ctl.keptStop ≠ .stopSettling := by
      unfold Control.keptStop
      split <;> decide
    show (none : Timer).isSome = true ↔ s.ctl.keptStop = .stopSettling
    simp [this]

theorem onRestart_sound {s : State} (rx : Rx) (h : s.Sound) : (s.onRestart rx).Sound := by
  unfold State.onRestart
  split
  · exact h
  · split
    · exact restartState_sound h
    · exact refuseRx_sound _ _ _ h

theorem sampleStraps_sound {s : State} (x : BitVec 4) (h : s.Sound) : (s.sampleStraps x).Sound := by
  unfold State.sampleStraps
  split
  · exact sound_loader h
  · exact h

theorem pressedAtEnd_sound {s : State} (h : s.Sound) : s.pressedAtEnd.Sound := by
  unfold State.pressedAtEnd
  split
  · exact stopPress_sound h
  · exact h

theorem loadFresh_sound {s : State} (h : s.Sound) : s.loadFresh.Sound := by
  refine ⟨h.1, h.2.1, ?_, h.2.2.2⟩
  unfold State.loadFresh
  dsimp only
  split
  · exact token_initial
  · exact h.2.2.1

theorem enterWaking_sound {s : State} (h : s.Sound) : s.enterWaking.Sound := sound_ctl id h

theorem startTimers_sound {s : State} (h : s.Sound) : s.startTimers.Sound := h

theorem startFlasher_sound {s : State} (h : s.Sound) : s.startFlasher.Sound := h

theorem loadingPassed_sound {s : State} (c : Settings) (h : s.Sound) : (s.loadingPassed c).Sound := by
  unfold State.loadingPassed
  dsimp only
  have h1 : State.Sound (if s.loader.fromRestart = true ∧ ¬ s.keptStands c = true then s.setAside else s) := by
    split
    · exact setAside_sound h
    · exact h
  generalize (if s.loader.fromRestart = true ∧ ¬ s.keptStands c = true then s.setAside else s) = a at h1 ⊢
  have h2 : (a.handOut c).Sound := h1
  generalize a.handOut c = b at h2 ⊢
  have h3 : State.Sound (if s.keptStands c = true then b else b.loadFresh) := by
    split
    · exact h2
    · exact loadFresh_sound h2
  generalize (if s.keptStands c = true then b else b.loadFresh) = d at h3 ⊢
  have h4 := (beaconAtOnce_keeps (findElements_keeps (Keeps.refl _))).sound
    (startFlasher_sound (startTimers_sound (enterWaking_sound h3)))
  have h5 := pressedAtEnd_sound h4
  generalize State.pressedAtEnd _ = e at h5 ⊢
  apply sound_emit
  exact (transferTest_keeps (lowStoreTest_keeps (recoveryGovern_keeps
    (doIf_keeps _ _ (resumeApproach_keeps (Keeps.refl e)) (Keeps.refl e))))).sound h5

theorem loadingFailed_sound {s : State} (r f : Nat) (n : Option (BitVec 24)) (h : s.Sound) : (s.loadingFailed r f n).Sound := by
  unfold State.loadingFailed
  dsimp only
  refine pressedAtEnd_sound ((beaconAtOnce_keeps (Keeps.refl _)).sound ?_)
  exact sound_emit _ (startFlasher_sound (sound_ctl (s := { s with loader := _ }) id (sound_loader h)))

theorem recordRead_sound {s : State} (bytes : List Byte) (h : s.Sound) : (s.recordRead bytes).Sound := by
  unfold State.recordRead
  split
  · split
    · exact loadingPassed_sound _ h
    · exact loadingFailed_sound _ _ _ h
  · exact h

/-! ### Timers -/

theorem toggleFlasher_sound {s : State} (h : s.Sound) : s.toggleFlasher.Sound := by
  unfold State.toggleFlasher
  split <;> exact h

end Sys2Proof.Machine
end

