-- ==== Sys2Proof/Laws/TickSound.lean ====
section
/-! SUPPORT. One bit time passing keeps the facts of `State.Sound`. -/

namespace Sys2Proof.Machine
open Sys2Proof

theorem link_tick_fits {l : Link} (h : l.Fits) : l.tick.Fits := by
  have h1 := mapEntries_fits (l := l) (fun e => { e with deadline := Timer.down e.deadline }) (fun _ => rfl) h
  have h2 := mapTxq_fits (l := l) (fun f => { f with widenAge := f.widenAge.map (fun a => a + 1) }) (fun _ => rfl) h
  refine ⟨h2.1, h1.2.1, h1.2.2.1, h1.2.2.2.1, h.2.2.2.2.1, fun i => ?_⟩
  have := h.2.2.2.2.2 i
  unfold Link.tick
  simp only [Fin.getElem_fin, Vector.getElem_map] at this ⊢
  revert this
  generalize l.widenSlots[i.val] = w
  cases w <;> exact id

theorem drive_tick_one {s : State} (h : s.One) : State.One { s with drive := s.drive.tick } := by
  have hslot : ∀ a, State.slot { s with drive := s.drive.tick } a
      = (s.slot a).map (fun m => if m.phase = .running then { m with allowance := m.allowance - 1 } else m) := by
    intro a
    unfold State.slot Drive.tick
    simp
  have fwd : ∀ a m, State.slot { s with drive := s.drive.tick } a = some m →
      ∃ x, s.slot a = some x ∧ x.phase = m.phase ∧ x.element = m.element ∧ x.target = m.target := by
    intro a m hm
    rw [hslot] at hm
    obtain ⟨x, hx, rfl⟩ := Option.map_eq_some_iff.mp hm
    refine ⟨x, hx, ?_, ?_, ?_⟩ <;> split <;> rfl
  obtain ⟨⟨h1, h2, h3⟩, hst⟩ := h
  have pump : ∀ a, holdsPump (State.slot { s with drive := s.drive.tick }) a → holdsPump s.slot a := by
    rintro a ⟨m, hm, hp⟩
    obtain ⟨x, hx, hxp, -⟩ := fwd a m hm
    exact ⟨x, hx, by rw [hxp]; exact hp⟩
  refine ⟨⟨fun a b ha hb => h1 a b (pump a ha) (pump b hb), fun a m hm hp => ?_, fun e t he => ?_⟩,
    hst.mono (List.Sublist.refl _) pump⟩
  · obtain ⟨x, hx, hxp, hxe, hxt⟩ := fwd a m hm
    rw [← hxe, ← hxt]
    exact h2 a x hx (hxp.trans hp)
  · obtain ⟨a, m, hm, hp, k⟩ := h3 e t he
    refine ⟨a, { m with allowance := m.allowance - 1 }, ?_, hp, k⟩
    rw [hslot, hm]
    simp [hp]

theorem timerDown_isSome (t : Timer) : (Timer.down t).isSome = t.isSome := by cases t <;> rfl

theorem tick_sound {s : State} (h : s.Sound) : s.tick.Sound := by
  obtain ⟨hl, ha, ht, hs, hd, hf, hcl, hlo, hh, hc, hm, hv, ho⟩ := h
  have hone := (one_iff { s with drive := s.drive.tick }).mpr (drive_tick_one ((one_iff s).mp ⟨hd, hf⟩))
  refine ⟨link_tick_fits hl, ⟨?_, ha.2.1, fun i => ?_⟩, ht, hs, hone.1, hone.2, hcl, hlo, hh, ⟨hc.1, ?_⟩, hm, hv, ho⟩
  · show (s.approach.queue.map _).length ≤ 12
    rw [List.length_map]; exact ha.1
  · have := ha.2.2 i
    simpa [State.tick, Approach.tick] using this
  · show (Timer.down s.ctl.resumeTimer).isSome = true ↔ _
    rw [timerDown_isSome]; exact hc.2

end Sys2Proof.Machine
end

