-- ==== Sys2Proof/Laws/ExecSound.lean ====
section
/-! SUPPORT. Every command keeps what `State.Sound` says. -/

namespace Sys2Proof.Machine
open Sys2Proof

theorem ran_sound {s : State} {f : State → State} (h : (f s).Sound) : ∀ t, ran f s = .next t → t.Sound := by
  intro t ht; cases ht; exact finish_sound h

theorem time_minute {p : List Byte} (h : fieldsOk .time p = true ∨ Kind.takenUnconfigured .time = true
    ∨ Kind.broadcastUnconfigured .time = true) : be16 p 2 < 1440 := by
  rcases h with h | h | h
  · unfold fieldsOk at h; simp only [Bool.and_eq_true, decide_eq_true_eq] at h; omega
  · cases h
  · cases h

theorem exec_sound (i : Instr) {s : State} (h : s.Sound) : ∀ t, exec i s = .next t → t.Sound := by
  cases i with
  | start => exact ran_sound (startState_sound s)
  | strapSample straps => exact ran_sound (sampleStraps_sound _ h)
  | configRecordRead bytes => exact ran_sound (recordRead_sound _ h)
  | frameDiscarded wholeFrame bytes => exact ran_sound h
  | frameNotTaken src dst => exact ran_sound (overhear_sound _ _ h)
  | unknownKind src dst kind payload => exact ran_sound (receiveUnknown_sound _ _ _ h)
  | widen src dst payload => exact ran_sound (receive_sound _ _ _ _ _ (fun _ rx t _ h => onWiden_sound rx h) h)
  | echo src dst payload => exact ran_sound (receive_sound _ _ _ _ _ (fun _ rx t _ h => onEcho_sound rx h) h)
  | echoBack src dst payload => exact ran_sound (receive_sound _ _ _ _ _ (fun _ rx t _ h => onPlainReply_sound _ rx h) h)
  | refuse src dst payload => exact ran_sound (receive_sound _ _ _ _ _ (fun _ rx t _ h => onRefuse_sound rx h) h)
  | beacon src dst payload => exact ran_sound (receive_sound _ _ _ _ _ (fun _ rx t _ h => onBeacon_sound rx h) h)
  | statusAsk src dst payload => exact ran_sound (receive_sound _ _ _ _ _ (fun _ rx t _ h => (onStatusAsk_keeps rx (Keeps.refl t)).sound h) h)
  | statusReply src dst payload => exact ran_sound (receive_sound _ _ _ _ _ (fun _ rx t _ h => onPlainReply_sound _ rx h) h)
  | flightStop src dst payload => exact ran_sound (receive_sound _ _ _ _ _ (fun _ rx t _ h => onFlightStop_sound rx h) h)
  | resume src dst payload => exact ran_sound (receive_sound _ _ _ _ _ (fun _ rx t _ h => onResume_sound rx h) h)
  | rest src dst payload => exact ran_sound (receive_sound _ _ _ _ _ (fun _ rx t _ h => (onRest_keeps rx (Keeps.refl t)).sound h) h)
  | wake src dst payload => exact ran_sound (receive_sound _ _ _ _ _ (fun _ rx t _ h => (onWake_keeps rx (Keeps.refl t)).sound h) h)
  | restart src dst payload => exact ran_sound (receive_sound _ _ _ _ _ (fun _ rx t _ h => onRestart_sound rx h) h)
  | claimAsk src dst payload => exact ran_sound (receive_sound _ _ _ _ _ (fun _ rx t _ h => (onClaimAsk_keeps rx (Keeps.refl t)).sound h) h)
  | claimDrop src dst payload => exact ran_sound (receive_sound _ _ _ _ _ (fun _ rx t _ h => (onClaimDrop_keeps rx (Keeps.refl t)).sound h) h)
  | levelFeed src dst payload => exact ran_sound (receive_sound _ _ _ _ _ (fun _ rx t _ h => (onLevelFeed_keeps rx (Keeps.refl t)).sound h) h)
  | alarmClose src dst payload => exact ran_sound (receive_sound _ _ _ _ _ (fun _ rx t _ h => (onAlarmClose_keeps rx (Keeps.refl t)).sound h) h)
  | crossAsk src dst payload => exact ran_sound (receive_sound _ _ _ _ _ (fun _ rx t _ h => (onCrossAsk_keeps rx (Keeps.refl t)).sound h) h)
  | crossTaken src dst payload => exact ran_sound (receive_sound _ _ _ _ _ (fun _ rx t _ h => (onCrossTaken_keeps rx (Keeps.refl t)).sound h) h)
  | crossDeny src dst payload => exact ran_sound (receive_sound _ _ _ _ _ (fun _ rx t _ h => (onCrossDeny_keeps rx (Keeps.refl t)).sound h) h)
  | claimGive src dst payload => exact ran_sound (receive_sound _ _ _ _ _ (fun _ rx t _ h => (onClaimGive_keeps rx (Keeps.refl t)).sound h) h)
  | claimWait src dst payload => exact ran_sound (receive_sound _ _ _ _ _ (fun _ rx t _ h => (onClaimWait_keeps rx (Keeps.refl t)).sound h) h)
  | claimDeny src dst payload => exact ran_sound (receive_sound _ _ _ _ _ (fun _ rx t _ h => (onClaimDeny_keeps rx (Keeps.refl t)).sound h) h)
  | xferAsk src dst payload => exact ran_sound (receive_sound _ _ _ _ _ (fun _ rx t _ h => onXferAsk_sound rx h) h)
  | recSeg src dst payload => exact ran_sound (receive_sound _ _ _ _ _ (fun _ rx t _ h => (onRecSeg_keeps rx (Keeps.refl t)).sound h) h)
  | xferEnd src dst payload => exact ran_sound (receive_sound _ _ _ _ _ (fun _ rx t _ h => onXferEnd_sound rx h) h)
  | xferBad src dst payload => exact ran_sound (receive_sound _ _ _ _ _ (fun _ rx t _ h => (onXferBad_keeps rx (Keeps.refl t)).sound h) h)
  | hold src dst payload => exact ran_sound (receive_sound _ _ _ _ _ (fun _ rx t _ h => (onHold_keeps rx (Keeps.refl t)).sound h) h)
  | exitNote src dst payload => exact ran_sound (receive_sound _ _ _ _ _ (fun _ rx t _ h => (onExitNote_keeps rx (Keeps.refl t)).sound h) h)
  | tokenOffer src dst payload => exact ran_sound (receive_sound _ _ _ _ _ (fun _ rx t _ h => (onTokenOffer_keeps rx (Keeps.refl t)).sound h) h)
  | tokenTake src dst payload => exact ran_sound (receive_sound _ _ _ _ _ (fun _ rx t _ h => (onTokenTake_keeps rx (Keeps.refl t)).sound h) h)
  | tokenDecline src dst payload => exact ran_sound (receive_sound _ _ _ _ _ (fun _ rx t _ h => (onTokenDecline_keeps rx (Keeps.refl t)).sound h) h)
  | vesselSet src dst payload => exact ran_sound (receive_sound _ _ _ _ _ (fun _ rx t _ h => onVesselSet_sound rx h) h)
  | vesselDel src dst payload => exact ran_sound (receive_sound _ _ _ _ _ (fun _ rx t _ h => onVesselDel_sound rx h) h)
  | vesselInfo src dst payload => exact ran_sound (receive_sound _ _ _ _ _ (fun _ rx t _ h => onVesselInfo_sound rx h) h)
  | time src dst payload => exact ran_sound (receive_sound _ _ _ _ _ (fun hk rx t hp h => onTime_sound rx (by rw [hp]; exact time_minute hk) h) h)
  | rateSet src dst payload => exact ran_sound (receive_sound _ _ _ _ _ (fun _ rx t _ h => onRateSet_sound rx h) h)
  | rateCommit src dst payload => exact ran_sound (receive_sound _ _ _ _ _ (fun _ rx t _ h => onRateCommit_sound rx h) h)
  | tollRead src dst payload => exact ran_sound (receive_sound _ _ _ _ _ (fun _ rx t _ h => (onTollRead_keeps rx (Keeps.refl t)).sound h) h)
  | tollRemove src dst payload => exact ran_sound (receive_sound _ _ _ _ _ (fun _ rx t _ h => (onTollRemove_keeps rx (Keeps.refl t)).sound h) h)
  | faultNote src dst payload => exact ran_sound (receive_sound _ _ _ _ _ (fun _ rx t _ h => onFaultNote_sound rx h) h)
  | faultClear src dst payload => exact ran_sound (receive_sound _ _ _ _ _ (fun _ rx t _ h => onFaultClear_sound rx h) h)
  | clear src dst payload => exact ran_sound (receive_sound _ _ _ _ _ (fun _ rx t _ h => (onClear_keeps rx (Keeps.refl t)).sound h) h)
  | vesselQuery src dst payload => exact ran_sound (receive_sound _ _ _ _ _ (fun _ _ _ _ h => h) h)
  | tollReady src dst payload => exact ran_sound (receive_sound _ _ _ _ _ (fun _ _ _ _ h => h) h)
  | tollEnd src dst payload => exact ran_sound (receive_sound _ _ _ _ _ (fun _ _ _ _ h => h) h)
  | logFull src dst payload => exact ran_sound (receive_sound _ _ _ _ _ (fun _ _ _ _ h => h) h)
  | headFrameStart => exact ran_sound (startHead_sound h)
  | frameSent => exact ran_sound (lineSent_sound h)
  | collision => exact ran_sound (lineCollision_sound h)
  | backoffExpiry => exact ran_sound (backoffOut_sound h)
  | widenResendExpiry => exact ran_sound (resendWiden_sound h)
  | widenHoldExpiry dst => exact ran_sound (widenHoldOut_sound _ h)
  | widenSlotExpiry party => exact ran_sound (widenSlotOut_sound _ h)
  | replyDeadlineExpiry tag => exact ran_sound (deadlineOut_sound _ h)
  | beaconTimerExpiry => exact ran_sound ((beaconExpiry_keeps (Keeps.refl s)).sound h)
  | peerSilenceTimeout station => exact ran_sound (peerSilence_sound _ h)
  | deskSilenceTimeout => exact ran_sound (deskSilence_sound h)
  | clashCalmExpiry => exact ran_sound (clashCalm_sound h)
  | wakeSettleExpiry => exact ran_sound ((wakeSettleExpiry_keeps (Keeps.refl s)).sound h)
  | resumeSettleExpiry => exact ran_sound (resumeSettleExpiry_sound h)
  | stopButtonPress pressed => exact ran_sound (onStopButton_sound _ h)
  | keySwitchTurn pos => exact ran_sound (onKey_sound _ h)
  | selectorChange pos => exact ran_sound (onSelector_sound _ h)
  | elementKeyPress element target => exact ran_sound ((onElementKey_keeps _ _ (Keeps.refl s)).sound h)
  | levelReading line value valid => exact ran_sound (onReading_sound _ _ _ h)
  | levelStaleTimeout line => exact ran_sound (levelStale_sound _ h)
  | levelLossExpiry line => exact ran_sound (levelLoss_sound _ h)
  | selfWaitExpiry => exact ran_sound ((selfWaitExpiry_keeps (Keeps.refl s)).sound h)
  | claimWaitExpiry => exact ran_sound ((claimWaitExpiry_keeps (Keeps.refl s)).sound h)
  | cancelledTagExpiry tag => exact ran_sound ((cancelledTagExpiry_keeps _ (Keeps.refl s)).sound h)
  | levelFeedTimerExpiry => exact ran_sound ((feedTimerExpiry_keeps (Keeps.refl s)).sound h)
  | fedLevelStale => exact ran_sound ((fedStale_keeps (Keeps.refl s)).sound h)
  | switchChange element closedSwitch openSwitch => exact ran_sound (onSwitches_sound _ _ h)
  | travelAllowanceExpiry => exact ran_sound ((allowanceOut_keeps (Keeps.refl s)).sound h)
  | onwardRetryExpiry => exact ran_sound ((onwardRetry_keeps (Keeps.refl s)).sound h)
  | onwardRepeatExpiry => exact ran_sound ((onwardRepeat_keeps (Keeps.refl s)).sound h)
  | claimRetryExpiry boundary => exact ran_sound ((claimRetry_keeps _ (Keeps.refl s)).sound h)
  | equalizeTimerExpiry boundary => exact ran_sound ((equalizeExpiry_keeps _ (Keeps.refl s)).sound h)
  | entryTimeLimitExpiry boundary => exact ran_sound ((entryExpiry_keeps _ (Keeps.refl s)).sound h)
  | detectorPassage boundary direction => exact ran_sound ((onPassage_keeps _ _ (Keeps.refl s)).sound h)
  | call registration lengthClass => exact ran_sound (onCall_sound _ _ h)
  | cancel registration lengthClass => exact ran_sound ((onCancel_keeps _ _ (Keeps.refl s)).sound h)
  | callRecordBad bytes => exact ran_sound h
  | callAnswerSent => exact ran_sound ((answerSent_keeps (Keeps.refl s)).sound h)
  | resolutionTimerExpiry registration => exact ran_sound ((resolutionExpiry_keeps _ (Keeps.refl s)).sound h)
  | holdEntryExpiry party => exact ran_sound ((holdExpiry_keeps _ (Keeps.refl s)).sound h)
  | sweepTimerExpiry => exact ran_sound ((sweep_keeps (Keeps.refl s)).sound h)
  | recoveryTimerExpiry => exact ran_sound ((recoveryExpiry_keeps (Keeps.refl s)).sound h)
  | gapTimerExpiry => exact ran_sound ((gapExpiry_keeps (Keeps.refl s)).sound h)
  | attemptWaitExpiry => exact ran_sound ((attemptWaitExpiry_keeps (Keeps.refl s)).sound h)
  | lowStoreRepeatExpiry => exact ran_sound ((lowStoreRepeat_keeps (Keeps.refl s)).sound h)
  | minuteTimerExpiry => exact ran_sound (minuteExpiry_sound h)
  | flasherToggle => exact ran_sound (toggleFlasher_sound h)

end Sys2Proof.Machine
end

