-- ==== Sys2Proof/Laws/Receiving.lean ====
section
/-! SUPPORT. What the handing over of a frame, an offer with room and the end of an entry come to. -/

namespace Sys2Proof.Machine
open Sys2Proof

theorem State.calm_iff (s : State) : s.calm = true ↔ s.notices = [] := by
  unfold State.calm; exact List.isEmpty_iff

theorem follows_reportSource {s : State} {src : Addr} (h : s.follows src = true) : s.reportSource src = s.noted src := by
  unfold State.follows at h
  simp only [Bool.and_eq_true, Bool.or_eq_true, decide_eq_true_eq] at h
  unfold State.reportSource State.noted
  split
  · rename_i hs
    rcases h.2 with h2 | h2
    · exact absurd hs h2
    · unfold State.doIf
      simp [h2]
  · rfl

theorem noted_ctl (src : Addr) (s : State) : (s.noted src).ctl = s.ctl := by unfold State.noted; split <;> rfl
theorem noted_link (src : Addr) (s : State) : (s.noted src).link = s.link := by unfold State.noted; split <;> rfl
theorem noted_loader (src : Addr) (s : State) : (s.noted src).loader = s.loader := by unfold State.noted; split <;> rfl
theorem noted_notices (src : Addr) (s : State) : (s.noted src).notices = s.notices := by unfold State.noted; split <;> rfl
theorem noted_pending (src : Addr) (s : State) : (s.noted src).pending = s.pending := by unfold State.noted; split <;> rfl
theorem noted_of_ne {src : Addr} (h : src ≠ deskAddr) (s : State) : s.noted src = s := by unfold State.noted; rw [if_neg h]

theorem after_notices (k : Kind) (src : Addr) (s : State) : (s.after k src).notices = s.notices := noted_notices src s
theorem after_pending (k : Kind) (src : Addr) (s : State) : (s.after k src).pending = s.pending := noted_pending src s
theorem after_ctl (k : Kind) (src : Addr) (s : State) : (s.after k src).ctl = s.ctl := noted_ctl src s
theorem after_loader (k : Kind) (src : Addr) (s : State) : (s.after k src).loader = s.loader := noted_loader src s

theorem follows_calm {s : State} {src : Addr} (h : s.follows src = true) : s.notices = [] := by
  unfold State.follows at h
  simp only [Bool.and_eq_true] at h
  exact s.calm_iff.mp h.1.1

theorem follows_hears {s : State} {src : Addr} (h : s.follows src = true) : s.hears = true ∧ validSource src = true := by
  unfold State.follows State.catches at h
  simp only [Bool.and_eq_true] at h
  unfold State.hears
  simp only [Bool.and_eq_true]
  exact ⟨h.1.2.1, h.1.2.2⟩

theorem accepts_follows {s : State} {k : Kind} {src dst : Addr} {p : List Byte} (h : s.accepts k src dst p = true) :
    s.follows src = true := by
  unfold State.accepts at h
  simp only [Bool.and_eq_true] at h
  exact h.1.1.1.1.1

theorem accepts_calm {s : State} {k : Kind} {src dst : Addr} {p : List Byte} (h : s.accepts k src dst p = true) :
    s.notices = [] := follows_calm (accepts_follows h)

/-- An accepted frame goes to its owner, the source noted and the sender's widen slot used. -/
theorem receive_accepted {s : State} {k : Kind} {src dst : Addr} {p : List Byte} (h : s.accepts k src dst p = true)
    (owner : Rx → State → State) : s.receive k src dst p owner = owner (s.rxOf k src dst p) (s.after k src) := by
  have hf := accepts_follows h
  obtain ⟨hh, hv⟩ := follows_hears hf
  unfold State.accepts at h
  simp only [Bool.and_eq_true, decide_eq_true_eq, Bool.not_eq_true'] at h
  obtain ⟨⟨⟨⟨⟨-, hm⟩, ht⟩, hr⟩, hk⟩, hb⟩ := h
  unfold State.receive
  rw [hh, hv, follows_reportSource hf]
  have ht' : (s.noted src).isTaken dst = true := by
    unfold State.isTaken State.ownAddr State.k at ht ⊢; rw [noted_loader]; exact ht
  have hr' : (s.noted src).roleTest k src = true := by
    unfold State.roleTest State.roleMet State.isEnd State.isFoot State.isHead State.k State.n State.cfg at hr ⊢
    rw [noted_loader]; exact hr
  have hw : (s.noted src).widenSlot src = s.widenSlot src := by unfold State.widenSlot; rw [noted_link]
  simp only [Bool.not_true, Bool.or_self, Bool.false_eq_true, if_false, ht']
  rw [noted_ctl, if_neg hm]
  unfold State.takeFrame
  simp only [hr', hk, Bool.not_true, Bool.false_eq_true, if_false, hw]
  rw [if_neg (by simp only [Bool.and_eq_true, decide_eq_true_eq]; intro hc; rw [hc.1, hc.2] at hb; simp at hb)]
  unfold State.setWidenSlot State.rxOf State.after
  rw [noted_link]

/-- What a frame command answers once its frame is accepted. -/
theorem ran_accepted {s : State} {k : Kind} {src dst : Addr} {p : List Byte} (h : s.accepts k src dst p = true)
    (owner : Rx → State → State) :
    ran (State.receive k src dst p owner) s = .next (finish s (owner (s.rxOf k src dst p) (s.after k src))) := by
  unfold ran; rw [receive_accepted h]

/-- A command whose effect makes nothing known answers its effect. -/
theorem ran_quiet {f : State → State} {s t : State} (h : f s = t) (hn : t.notices = []) (hp : t.pending = s.pending) :
    ran f s = .next t := by
  unfold ran; rw [h, finish_quiet hn, ← hp]

theorem room_parts {s : State} {n : Nat} (h : s.room n = true) :
    s.link.waiting = [] ∧ s.link.backlog = [] ∧ s.link.used + n ≤ 8 := by
  unfold State.room at h
  simp only [Bool.and_eq_true, List.isEmpty_iff, decide_eq_true_eq] at h
  exact ⟨h.1.1, h.1.2, h.2⟩

theorem room_of_parts {s : State} {n : Nat} (h1 : s.link.waiting = []) (h2 : s.link.backlog = []) (h3 : s.link.used + n ≤ 8) :
    s.room n = true := by
  unfold State.room
  simp [h1, h2, h3]

/-- A frame of this kind starts nothing when it is placed, a drop of a cancelled tag apart. -/
def Kind.plain : Kind → Bool
  | .claimAsk | .claimGive | .levelFeed | .tollEnd | .recSeg => false
  | _ => true

theorem onPlaced_plain {o : Offer} (hk : o.kind.plain = true) (hc : o.cancels = false) (p : List Byte) (s : State) :
    s.onPlaced o p = s := by
  unfold State.onPlaced
  rw [hc]
  cases h : o.kind <;> first | rfl | (rw [h] at hk; exact absurd hk (by decide))

theorem place_link (o : Offer) (s : State) : (s.place o).link = Link.refreshHead (Link.insert
    (o.toFrame s.link.nextId (s.renderBody o.body)) { s.link with nextId := s.link.nextId + 1 }) := by
  unfold State.place; rw [onPlaced_link]

theorem insert_waiting (f : TxFrame) (l : Link) : (l.insert f).waiting = l.waiting := by unfold Link.insert; split <;> rfl
theorem insert_backlog (f : TxFrame) (l : Link) : (l.insert f).backlog = l.backlog := by unfold Link.insert; split <;> rfl
theorem insert_entries (f : TxFrame) (l : Link) : (l.insert f).entries = l.entries := by unfold Link.insert; split <;> rfl
theorem insert_requests (f : TxFrame) (l : Link) : (l.insert f).requests = l.requests := by
  unfold Link.insert; split <;> rfl

/-- An offer with room is placed. -/
theorem offer_room {s : State} {o : Offer} (h : s.room o.places = true) : s.offer o = s.place o := by
  obtain ⟨h1, h2, h3⟩ := room_parts h
  unfold State.offer
  have hw : s.link.blockWaits o.block = false := by unfold Link.blockWaits; rw [h1]; rfl
  have hr : s.link.hasRoom o = true := by unfold Link.hasRoom; simpa using h3
  rw [hw]
  unfold State.tryPlace
  rw [hr]
  simp only [Bool.false_eq_true, if_false, if_true]
  have hw2 : (s.place o).link.waiting = [] := by
    rw [place_link, refreshHead_waiting, insert_waiting]; exact h1
  have hb2 : (s.place o).link.backlog = [] := by
    rw [place_link, refreshHead_backlog, insert_backlog]; exact h2
  unfold State.fillQueue
  rw [hw2, hb2]
  rfl

theorem send_room {s : State} (b : Block) (k : Kind) (dst : Addr) (p : List Byte) (h : s.room 1 = true) :
    s.send b k dst p = s.queued b k dst p := offer_room (o := frame b k dst p) h

theorem sendOwn_room {s : State} (k : Kind) (dst : Addr) (p : List Byte) (h : s.room 1 = true) :
    s.sendOwn k dst p = s.queued .link k dst p := by
  unfold State.sendOwn
  have hw : s.link.blockWaits .link = false := by unfold Link.blockWaits; rw [(room_parts h).1]; rfl
  rw [hw]
  exact send_room _ _ _ _ h

theorem refuse_room {s : State} (src : Addr) (kind : BitVec 6) (tag : Nat) (r : Reason)
    (hk : kind ≠ BitVec.ofNat 6 Kind.refuse.code) (h : s.room 1 = true) :
    s.refuse src false kind tag r = s.queued .link .refuse src [byte r.code, byte kind.toNat, byte tag] := by
  unfold State.refuse
  rw [if_neg (by simpa using hk)]
  exact sendOwn_room _ _ _ h

/-- A frame that starts nothing is placed: the link alone changes. -/
theorem queued_eq (b : Block) (k : Kind) (dst : Addr) (p : List Byte) (s : State) (hk : k.plain = true) :
    s.queued b k dst p = { s with link := Link.refreshHead (Link.insert ((frame b k dst p).toFrame s.link.nextId p)
      { s.link with nextId := s.link.nextId + 1 }) } := by
  unfold State.queued State.place
  rw [onPlaced_plain (o := frame b k dst p) hk rfl]
  rfl

theorem queued_notices (b : Block) (k : Kind) (dst : Addr) (p : List Byte) (s : State) (hk : k.plain = true) :
    (s.queued b k dst p).notices = s.notices := by rw [queued_eq _ _ _ _ _ hk]
theorem queued_pending (b : Block) (k : Kind) (dst : Addr) (p : List Byte) (s : State) (hk : k.plain = true) :
    (s.queued b k dst p).pending = s.pending := by rw [queued_eq _ _ _ _ _ hk]

/-- Placing a frame that starts nothing changes the link alone: one frame more, the tables as they were. -/
theorem place_only (o : Offer) (s : State) (hk : o.kind.plain = true) (hc : o.cancels = false) : ∃ l : Link, s.place o = { s with link := l }
    ∧ l.waiting = s.link.waiting ∧ l.backlog = s.link.backlog ∧ l.requests = s.link.requests ∧ l.entries = s.link.entries
    ∧ l.used = s.link.used + o.places
    ∧ l.txq = (Link.insert (o.toFrame s.link.nextId (s.renderBody o.body)) s.link).txq := by
  refine ⟨Link.refreshHead (Link.insert (o.toFrame s.link.nextId (s.renderBody o.body))
    { s.link with nextId := s.link.nextId + 1 }), ?_, ?_, ?_, ?_, ?_, ?_, ?_⟩
  · unfold State.place
    rw [onPlaced_plain hk hc]
  · rw [refreshHead_waiting, insert_waiting]
  · rw [refreshHead_backlog, insert_backlog]
  · rw [refreshHead_requests, insert_requests]
  · rw [refreshHead_entries, insert_entries]
  · rw [refreshHead_used, insert_used, toFrame_places]; rfl
  · rw [refreshHead_txq]; unfold Link.insert; split <;> rfl

/-- An offer with room, and room for more after it. -/
theorem offer_only {s : State} {o : Offer} {n : Nat} (hr : s.room (o.places + n) = true) (hk : o.kind.plain = true)
    (hc : o.cancels = false) :
    ∃ l : Link, s.offer o = { s with link := l } ∧ State.room { s with link := l } n = true
      ∧ l.requests = s.link.requests ∧ l.entries = s.link.entries
      ∧ l.txq = (Link.insert (o.toFrame s.link.nextId (s.renderBody o.body)) s.link).txq := by
  obtain ⟨h1, h2, h3⟩ := room_parts hr
  obtain ⟨l, e, a, b, c, d, u, q⟩ := place_only o s hk hc
  refine ⟨l, ?_, ?_, c, d, q⟩
  · rw [offer_room (room_of_parts h1 h2 (by omega))]; exact e
  · exact room_of_parts (a.trans h1) (b.trans h2) (by show l.used + n ≤ 8; omega)

/-- A beacon offered with room takes at most a place. -/
theorem offerBeacon_only {s : State} {n : Nat} (hr : s.room (1 + n) = true) : ∃ l : Link, s.offerBeacon = { s with link := l }
    ∧ State.room { s with link := l } n = true ∧ l.requests = s.link.requests ∧ l.entries = s.link.entries
    ∧ (s.link.txq = [] → l.txq.map TxFrame.kind = [.beacon]) := by
  obtain ⟨h1, h2, h3⟩ := room_parts hr
  unfold State.offerBeacon
  split
  · rename_i hq
    refine ⟨_, rfl, ?_, rfl, rfl, fun he => ?_⟩
    rotate_left
    · unfold Link.hasQueued at hq; rw [he] at hq; simp at hq
    have hu : (s.link.replaceQueued .presence .beacon (renderBeacon s.beaconNow)).used = s.link.used := by
      unfold Link.replaceQueued
      exact mapTxq_used _ (fun f => by split <;> rfl) _
    refine room_of_parts (s := { s with link := s.link.replaceQueued .presence .beacon (renderBeacon s.beaconNow) }) h1 h2 ?_
    show (s.link.replaceQueued .presence .beacon (renderBeacon s.beaconNow)).used + n ≤ 8
    omega
  · rw [if_neg]
    · obtain ⟨l, e, r, a, b, q⟩ := offer_only (s := s) (o := { frame .presence .beacon broadcastAddr [] with body := .beacon })
        (n := n) hr rfl rfl
      refine ⟨l, e, r, a, b, fun he => ?_⟩
      rw [q]; unfold Link.insert; dsimp only; rw [he]; rfl
    · unfold Link.hasWaiting Link.unplaced; rw [h1, h2]; simp

theorem after_used (k : Kind) (src : Addr) (s : State) : (s.after k src).link.used = s.link.used := rfl

theorem after_room {s : State} (k : Kind) (src : Addr) {n : Nat} (h : s.room n = true) : (s.after k src).room n = true := h

/-- With no request waiting, the end of an entry takes it from the table alone. -/
theorem endEntry_eq {s : State} (tag : Nat) (h : s.link.requests = []) : s.endEntry tag = s.without tag := by
  unfold State.endEntry State.serveAll State.dropEntry State.without
  dsimp only
  rw [h]
  rfl

theorem serveAll_eq {s : State} (h : s.link.requests = []) : s.serveAll = s := by
  unfold State.serveAll; rw [h]; rfl

end Sys2Proof.Machine
end

