-- ==== Sys2Proof/Laws/Inert.lean ====
section
/-! SUPPORT. Notices on which nothing follows: at rest, no source holding a motion, both units quiet, no batch to let in. -/

namespace Sys2Proof.Machine
open Sys2Proof

/-- The first notice is acted on, and what follows from it before the next. -/
theorem settle_cons (b : State) (t : Notice) (ts : List Notice) (n : Nat) :
    State.settle (n + 1) { b with notices := t :: ts } = State.settle n
      { State.act t { b with notices := [] } with notices := (State.act t { b with notices := [] }).notices ++ ts } := rfl

/-- Notices on which a state does nothing leave it as it is. -/
theorem settle_inert {b : State} (hb : b.notices = []) (ts : List Notice) (n : Nat) (hl : ts.length ≤ n)
    (h : ∀ t ∈ ts, State.act t b = b) : State.settle n { b with notices := ts } = b := by
  have hbb : { b with notices := [] } = b := by rw [← hb]
  induction ts generalizing n with
  | nil => rw [settle_nil _ rfl]; exact hbb
  | cons t ts ih =>
    obtain ⟨n, rfl⟩ : ∃ m, n = m + 1 := ⟨n - 1, by simp at hl; omega⟩
    have ht : State.act t { b with notices := [] } = b := by rw [hbb]; exact h t List.mem_cons_self
    rw [settle_cons, ht, hb, List.nil_append]
    exact ih n (by simp at hl; omega) (fun t' ht' => h t' (List.mem_cons_of_mem _ ht'))

/-- A command whose effect makes known only what leads to nothing answers its effect. -/
theorem finish_inert {s b : State} {ts : List Notice} (hb : b.notices = []) (hl : ts.length ≤ 4096)
    (h : ∀ t ∈ ts, State.act t b = b) (hp : b.pending = s.pending) : finish s { b with notices := ts } = b := by
  unfold finish
  rw [settle_inert hb ts settleBound hl h, ← hp]

theorem ran_inert {f : State → State} {s b : State} {ts : List Notice} (hf : f s = { b with notices := ts })
    (hb : b.notices = []) (hl : ts.length ≤ 4096) (h : ∀ t ∈ ts, State.act t b = b) (hp : b.pending = s.pending) :
    ran f s = .next b := by
  unfold ran; rw [hf, finish_inert hb hl h hp]

/-- A notice that leads to further notices alone is followed by those. -/
theorem settle_more {b : State} (hb : b.notices = []) {t : Notice} {us : List Notice}
    (h : State.act t b = { b with notices := us }) (ts : List Notice) (n : Nat) :
    State.settle (n + 1) { b with notices := t :: ts } = State.settle n { b with notices := us ++ ts } := by
  have hbb : { b with notices := [] } = b := by rw [← hb]
  have ht : State.act t { b with notices := [] } = { b with notices := us } := by rw [hbb]; exact h
  rw [settle_cons, ht]

/-- A command whose effect makes one thing known, on which further notices follow that lead to nothing, answers its effect. -/
theorem ran_inert_more {f : State → State} {s b : State} {t : Notice} {ts us : List Notice}
    (hf : f s = { b with notices := t :: ts }) (hb : b.notices = []) (hl : (us ++ ts).length ≤ 4095)
    (ht : State.act t b = { b with notices := us }) (h : ∀ u ∈ us ++ ts, State.act u b = b) (hp : b.pending = s.pending) :
    ran f s = .next b := by
  unfold ran finish settleBound
  rw [hf, settle_more hb ht ts 4095, settle_inert hb _ _ hl h, ← hp]

/-! ### The Drive Arbiter at rest -/

theorem restful_slot {s : State} (h : s.drive.restful = true) (src : Source) : s.slot src = none := by
  unfold Drive.restful at h
  simp only [Bool.and_eq_true, List.all_eq_true] at h
  have := h.1.1 s.drive.slots[sourceIdx src] (by simp)
  unfold State.slot
  simpa using this

theorem restful_stack {s : State} (h : s.drive.restful = true) : s.drive.stack = [] := by
  unfold Drive.restful at h
  simp only [Bool.and_eq_true, List.isEmpty_iff] at h
  exact h.1.2

theorem restful_safety {s : State} (h : s.drive.restful = true) : s.drive.safetySet = [] := by
  unfold Drive.restful at h
  simp only [Bool.and_eq_true, List.isEmpty_iff] at h
  exact h.2

theorem restful_running {s : State} (h : s.drive.restful = true) : s.runningSource = none := by
  unfold State.runningSource State.inPhase
  rw [List.find?_eq_none]
  intro src _
  rw [restful_slot h]; simp

theorem restful_candidates {s : State} (h : s.drive.restful = true) (n : Nat) : s.candidates n = [] := by
  unfold State.candidates
  rw [List.filter_eq_nil_iff]
  intro src _
  rw [restful_slot h]; simp

theorem decideGrant_restful {s : State} (h : s.drive.restful = true) : s.decideGrant = s := by
  unfold State.decideGrant State.grantFree
  rw [restful_running h, restful_stack h, restful_candidates h]

theorem freezeMotion_restful {s : State} (h : s.drive.restful = true) : s.freezeMotion = s := by
  unfold State.freezeMotion; rw [restful_running h]

theorem claimsCeased_restful {s : State} (h : s.drive.restful = true) : s.claimsCeased = s := by
  unfold State.claimsCeased
  simp only [List.foldl]
  simp only [restful_slot h]

theorem withdraw_restful {s : State} (h : s.drive.restful = true) (src : Source) (b : Bool) : s.withdraw src b = s := by
  unfold State.withdraw; rw [restful_slot h]

/-! ### Quiet units -/

theorem quiet_parts {b : BoundaryUnit} (h : b.quiet = true) :
    b.below.isEmpty = true ∧ b.above.isEmpty = true ∧ b.busyOwn = false ∧ b.atClaimStart = false ∧ b.hold = .none
      ∧ b.frozen = false ∧ b.recovery = none ∧ b.wanted = none ∧ b.step = none := by
  unfold BoundaryUnit.quiet at h
  simp only [Bool.and_eq_true, Bool.not_eq_true', decide_eq_true_eq, Option.isNone_iff_eq_none] at h
  obtain ⟨⟨⟨⟨⟨⟨⟨⟨h1, h2⟩, h3⟩, h4⟩, h5⟩, h6⟩, h7⟩, h8⟩, h9⟩ := h
  exact ⟨h1, h2, h3, h4, h5, h6, h7, h8, h9⟩

theorem unit_quiet {s : State} (h : s.unitsQuiet = true) (u : UnitId) : (s.unit u).quiet = true := by
  unfold State.unitsQuiet at h
  rw [Bool.and_eq_true] at h
  cases u
  · exact h.1
  · exact h.2

theorem emptySlot_active {c : CrossSlot} (h : c.isEmpty = true) : c.active? = none ∧ c.waiting? = none := by
  cases c with
  | empty => exact ⟨rfl, rfl⟩
  | waiting c => cases h
  | active c => cases h

theorem quiet_active {b : BoundaryUnit} (h : b.quiet = true) : b.active? = none := by
  obtain ⟨h1, h2, -⟩ := quiet_parts h
  unfold BoundaryUnit.active?
  rw [(emptySlot_active h1).1, (emptySlot_active h2).1]

theorem quiet_pick {b : BoundaryUnit} (h : b.quiet = true) : b.pick = none := by
  obtain ⟨h1, h2, -⟩ := quiet_parts h
  unfold BoundaryUnit.pick
  rw [(emptySlot_active h1).2, (emptySlot_active h2).2]

theorem quiet_acts {b : BoundaryUnit} (h : b.quiet = true) (st : Step) : b.acts st = false := by
  unfold BoundaryUnit.acts BoundaryUnit.worksIn
  rw [(quiet_parts h).2.2.2.2.2.2.2.2]; simp

theorem quiet_claims {b : BoundaryUnit} (h : b.quiet = true) : b.claims = false := by
  unfold BoundaryUnit.claims; rw [quiet_active h]; simp

theorem units_foldl_same {s : State} {f : State → UnitId → State} (h : ∀ u, f s u = s) : s.units.foldl f s = s := by
  unfold State.units
  split
  · simp only [List.foldl, h]
  · simp only [List.foldl, h]

theorem alarmWaitTest_quiet {s : State} (h : s.unitsQuiet = true) : s.alarmWaitTest = s := by
  unfold State.alarmWaitTest
  refine units_foldl_same (fun u => ?_)
  rw [(quiet_parts (unit_quiet h u)).2.2.2.2.1]; simp

theorem peerRestartTest_quiet {s : State} (h : s.unitsQuiet = true) : s.peerRestartTest = s := by
  have hf := (quiet_parts (unit_quiet h .lower)).2.2.2.2.2.1
  unfold State.peerRestartTest
  have : s.lowerUnit.frozenPeer = false := by
    unfold BoundaryUnit.frozen at hf; rw [Bool.or_eq_false_iff] at hf; exact hf.2
  dsimp only
  rw [this]; simp

theorem equalizeTest_quiet {s : State} (h : s.unitsQuiet = true) (u : UnitId) : s.equalizeTest u = s := by
  unfold State.equalizeTest; dsimp only; rw [quiet_acts (unit_quiet h u)]; rfl

theorem reserveTest_quiet {s : State} (h : s.unitsQuiet = true) (u : UnitId) : s.reserveTest u = s := by
  unfold State.reserveTest; dsimp only; rw [quiet_acts (unit_quiet h u)]

theorem onLevelsChanged_quiet {s : State} (h : s.unitsQuiet = true) : s.onLevelsChanged = s := by
  unfold State.onLevelsChanged
  rw [peerRestartTest_quiet h]
  exact units_foldl_same (fun u => equalizeTest_quiet h u)

theorem onHolderFree_quiet {s : State} (h : s.unitsQuiet = true) : s.onHolderFree = s := by
  unfold State.onHolderFree
  refine units_foldl_same (fun u => ?_)
  rw [(quiet_parts (unit_quiet h u)).2.2.1]; simp

theorem beginCrossing_quiet {s : State} (h : s.unitsQuiet = true) (u : UnitId) : s.beginCrossing u = s := by
  unfold State.beginCrossing
  dsimp only
  rw [quiet_pick (unit_quiet h u)]
  split <;> rfl

theorem unfreezeUnits_quiet {s : State} (h : s.unitsQuiet = true) : s.unfreezeUnits = s := by
  unfold State.unfreezeUnits
  refine units_foldl_same (fun u => ?_)
  have hf := (quiet_parts (unit_quiet h u)).2.2.2.2.2.1
  have : (s.unit u).frozenHeld = false := by
    unfold BoundaryUnit.frozen at hf; rw [Bool.or_eq_false_iff] at hf; exact hf.1
  simp [this]

/-- Where the unit remembers no recovery's gate close, none waits for its slot (R187). -/
theorem closeWanted_none {s : State} {u : UnitId} (h : (s.unit u).recovery = none) : s.closeWanted u = none := by
  unfold State.closeWanted
  rw [h]
  split <;> rfl

theorem onSlotFree_quiet {s : State} (h : s.unitsQuiet = true) (u : UnitId) : s.onSlotFree u = s := by
  obtain ⟨-, -, -, -, -, -, h7, h8, -⟩ := quiet_parts (unit_quiet h u)
  unfold State.onSlotFree
  simp only [closeWanted_none h7, h8]
  split <;> rfl

theorem localResume_quiet {s : State} (h : s.unitsQuiet = true) : s.localResume = s := by
  unfold State.localResume
  split
  · rfl
  · refine units_foldl_same (fun u => ?_)
    simp only [(quiet_parts (unit_quiet h u)).2.2.2.1, Bool.false_and, Bool.false_eq_true, if_false]
    exact onSlotFree_quiet h u

theorem suspendClaims_quiet {s : State} (h : s.unitsQuiet = true) : s.suspendClaims = s := by
  unfold State.suspendClaims
  refine units_foldl_same (fun u => ?_)
  simp only [quiet_claims (unit_quiet h u), Bool.false_and, Bool.false_eq_true, if_false]

/-! ### Admission, the onward request, local working -/

theorem admissionTest_shut {s : State} (h : s.shutToEntry = true) : s.admissionTest = s := by
  unfold State.admissionTest
  rw [if_neg]
  intro hm
  unfold State.mayAdmit at hm
  unfold State.shutToEntry at h
  simp only [Bool.and_eq_true, Bool.or_eq_true, Bool.not_eq_true', decide_eq_true_eq] at hm h
  rcases h with (h | h) | h
  · rw [hm.1.1.1.1.1.1.1.1.1.1.1.1.1.2] at h; cases h
  · exact h hm.1.1.1.1.1.2
  · rw [hm.2] at h; cases h

theorem admissionTest_occupied {s : State} (h : s.chamber.occupancy ≠ .empty) : s.admissionTest = s :=
  admissionTest_shut (by unfold State.shutToEntry; simp [h])

theorem admissionTest_mode {s : State} (h : s.ctl.mode ≠ .inService) : s.admissionTest = s := by
  unfold State.admissionTest
  rw [if_neg]
  intro hm
  unfold State.mayAdmit at hm
  simp only [Bool.and_eq_true, decide_eq_true_eq] at hm
  exact h hm.1.1.1.1.1.1.1.1.1.2

theorem onwardTest_keeps_batch {s : State} (h : s.keepsBatch = true) : s.onwardTest = s := by
  unfold State.keepsBatch at h
  unfold State.onwardTest
  rw [if_pos]; simp only [Bool.or_eq_true]; exact Or.inr h

theorem localTest_auto {s : State} (h : s.pins.key = .auto) : s.localTest = s := by
  unfold State.localTest; rw [if_neg]; rw [h]; simp

theorem localClaims_not_pending {s : State} (h : s.ctl.localState ≠ .pending) : s.localClaims = s := by
  unfold State.localClaims; rw [if_neg]; intro hc; exact h hc.1

theorem localRestored_not_local {s : State} (h : s.ctl.mode ≠ .localMode) : s.localRestored = s := by
  unfold State.localRestored; rw [if_neg h]

theorem testWaiter_none {s : State} (h : s.chamber.waiter = .none) : s.testWaiter = s := by
  unfold State.testWaiter; rw [h]; split <;> rfl

theorem takePending_empty {s : State} (h : s.fault.pendingSet = []) : s.takePending = s := by
  unfold State.takePending
  rw [h]
  rfl

/-- A record that stands keeps the pending causes where they are (R194). -/
theorem takePending_recorded {s : State} {r : FaultRecord} (h : s.fault.record = some r) : s.takePending = s := by
  unfold State.takePending
  cases s.fault.pendingSet.length with
  | zero => rfl
  | succ n => unfold State.takeAll; rw [h]

theorem emit_eq (t : Notice) (s : State) : s.emit t = { s with notices := s.notices ++ [t] } := rfl

theorem emits_eq (ts : List Notice) (s : State) : s.emits ts = { s with notices := s.notices ++ ts } := rfl

end Sys2Proof.Machine
end

