-- ==== Sys2Proof/Laws/Cited.lean ====
section
/-! SUPPORT. What the proofs about commands cite: what a received frame leaves as it was, a command that makes known nothing, or
what leads to nothing, and the shapes of the shared operations where they change one part of the state. -/

namespace Sys2Proof.Machine
open Sys2Proof

theorem ran_next (f : State → State) (s : State) : ∃ t, ran f s = .next t ∧ t.pending = s.pending :=
  ⟨_, rfl, rfl⟩

theorem ran_owner {s t : State} {k : Kind} {src dst : Addr} {p : List Byte} (h : s.accepts k src dst p = true)
    {owner : Rx → State → State} (ho : owner (s.rxOf k src dst p) (s.after k src) = t) (hn : t.notices = [])
    (hp : t.pending = s.pending) : ran (State.receive k src dst p owner) s = .next t :=
  ran_quiet ((receive_accepted h owner).trans ho) hn hp

theorem after_calm {s : State} {k : Kind} {src dst : Addr} {p : List Byte} (h : s.accepts k src dst p = true) :
  (s.after k src).notices = [] := (after_notices k src s).trans (accepts_calm h)

theorem ran_refused {s : State} {k : Kind} {src dst : Addr} {p : List Byte} (h : s.accepts k src dst p = true)
    {owner : Rx → State → State} {kind : BitVec 6} {tag : Nat} {r : Reason} {q : List Byte} (hb : dst ≠ broadcastAddr)
    (ho : owner (s.rxOf k src dst p) (s.after k src) = (s.after k src).refuse src (s.rxOf k src dst p).broadcast kind tag r)
    (hk : kind ≠ BitVec.ofNat 6 Kind.refuse.code) (hr : s.room 1 = true) 
    (hq : [byte r.code, byte kind.toNat, byte tag] = q) :
    ran (State.receive k src dst p owner) s = .next ((s.after k src).queued .link .refuse src q) := by
  have hb' : (s.rxOf k src dst p).broadcast = false := by unfold State.rxOf; simpa using hb
  rw [hb', refuse_room _ _ _ _ hk (after_room k src hr), hq] at ho
  exact ran_owner h ho ((queued_notices _ _ _ _ _ (by decide)).trans (after_calm h)) ((queued_pending _ _ _ _ _ (by decide)).trans (after_pending k src s))

theorem ran_without {s : State} {k k' : Kind} {src dst : Addr} {p : List Byte} (h : s.accepts k src dst p = true)
    (hr : s.link.requests = []) : ran (State.receive k src dst p (State.onPlainReply k')) s = .next
      (match s.matchReply k' src (byteAt p 0) with
        | some e => (s.after k src).without e.tag
        | none => s.after k src) := by
  have hm : (s.after k src).matchReply k' src (byteAt p 0) = s.matchReply k' src (byteAt p 0) := by
    rfl
  refine ran_owner h ?_ ?_ ?_
  · unfold State.onPlainReply
    show (match (s.after k src).matchReply k' src (byteAt p 0) with | some e => _ | none => _) = _
    rw [hm]
    cases s.matchReply k' src (byteAt p 0) with
    | none => rfl
    | some e => exact endEntry_eq _ hr
  · split
    · exact after_calm h
    · exact after_calm h
  · split
    · exact after_pending k src s
    · exact after_pending _ _ _

theorem noted_taken (src dst : Addr) (s : State) : (s.noted src).isTaken dst = s.isTaken dst := by
  unfold State.isTaken State.ownAddr State.k; rw [noted_loader]

theorem noted_room {src : Addr} {s : State} {n : Nat} (h : s.room n = true) : (s.noted src).room n = true := by
  unfold State.room at h ⊢; rw [noted_link]; exact h

theorem refuse_bc {s : State} (src : Addr) (kind : BitVec 6) (tag : Nat) (r : Reason) : s.refuse src true kind tag r = s := by
  unfold State.refuse; rw [if_pos]; rfl

theorem noted_calm {s : State} {src : Addr} (h : s.follows src = true) : (s.noted src).notices = [] :=
  (noted_notices src s).trans (follows_calm h)

theorem queued_calm {s : State} {b : Block} {k : Kind} {d : Addr} {q : List Byte} (h : s.notices = []) (hk : k.plain = true := by decide) :
    (s.queued b k d q).notices = [] := (queued_notices b k d q s hk).trans h

theorem queued_pend {s : State} {b : Block} {k : Kind} {d : Addr} {q : List Byte} {l : List Instr} (h : s.pending = l) (hk : k.plain = true := by decide) :
    (s.queued b k d q).pending = l := (queued_pending b k d q s hk).trans h

theorem queryEnded_none {s : State} (r : BitVec 32) (h : s.approach.queue.all (fun q => q.ready) = true) : s.queryEnded r = s := by
  unfold State.queryEnded State.unresolved?
  have : s.approach.queue.find? (fun q => decide (q.registration = r) && !q.ready) = none := by
    rw [List.find?_eq_none]; intro q hq2; rw [List.all_eq_true] at h; simp [h q hq2]
  rw [this]

theorem after_approach (k : Kind) (src : Addr) (s : State) : (s.after k src).approach = s.approach := by
  unfold State.after State.noted; split <;> rfl

theorem ran_owner_still {s : State} {k : Kind} {src dst : Addr} {p : List Byte} (h : s.accepts k src dst p = true)
    {owner : Rx → State → State} {v : StillView} (ho : (owner (s.rxOf k src dst p) (s.after k src)).still = v)
    (hp : v.pending = s.pending) :
    ∃ t, ran (State.receive k src dst p owner) s = .next t ∧ t.still = v := by
  refine ⟨_, ran_accepted h owner, ?_⟩
  rw [finish_still, ho, ← hp]

theorem after_peers (k : Kind) (src : Addr) (s : State) : (s.after k src).presence.peers = s.presence.peers := by
  unfold State.after State.noted; split <;> rfl

/-- a desk frame heard: its parts -/
theorem reportSource_desk (s : State) : ∃ ns pr, s.reportSource deskAddr = { s with notices := ns, presence := pr } := by
  unfold State.reportSource State.doIf
  rw [if_pos rfl]
  split
  · exact ⟨_, _, rfl⟩
  · exact ⟨s.notices, _, rfl⟩

theorem receive_restart {s : State} {dst : Addr} (h : s.catches deskAddr = true) (hd : dst = s.ownAddr)
    (hb : dst ≠ broadcastAddr) (ha : s.ctl.mode = .unconfigured ∨ s.restartAllowed = true) :
    State.receive .restart deskAddr dst [] State.onRestart s = s.restartState := by
  unfold State.catches at h
  simp only [Bool.and_eq_true, decide_eq_true_eq] at h
  have hh : s.hears = true := by unfold State.hears; simp only [Bool.and_eq_true, decide_eq_true_eq]; exact h.1
  unfold State.receive
  rw [hh, h.2]
  obtain ⟨ns, pr, hx⟩ := reportSource_desk s
  rw [hx]
  have ht : State.isTaken { s with notices := ns, presence := pr } dst = true := by
    unfold State.isTaken State.ownAddr State.k; rw [hd]; simp [State.ownAddr, State.k]
  dsimp only
  rw [ht]
  simp only [Bool.not_true, Bool.or_self, Bool.false_eq_true, if_false]
  by_cases hm : s.ctl.mode = .unconfigured
  · rw [if_pos hm]
    unfold State.takeUnconfigured
    rw [if_neg hb]
    simp only [Kind.takenUnconfigured, if_true, decide_true, Bool.true_or]
    unfold State.onRestart
    rw [if_neg (by simpa using hb), if_pos (Or.inl hm)]
    rfl
  · rw [if_neg hm]
    have ha' := ha.resolve_left hm
    unfold State.takeFrame
    have hr : State.roleTest { s with notices := ns, presence := pr } .restart deskAddr = true := by rfl
    have hf : fieldsOk .restart [] = true := by decide
    have hq : (decide (dst = broadcastAddr) && Kind.restart.isRequest) = false := by simp [Kind.isRequest]
    dsimp only
    rw [hr, hf, hq]
    simp only [Bool.not_true, Bool.false_eq_true, if_false]
    unfold State.onRestart
    rw [if_neg (by simpa using hb), if_pos]
    · rfl
    · refine Or.inr ?_; rw [← ha']; rfl

theorem conflict_cause (e : Element) (s : State) : ∃ a b c, s.conflict e = .raise .positionConflict a b c := ⟨_, _, _, rfl⟩

theorem works_unconf {s : State} (h : s.ctl.mode = .unconfigured) : s.works = false := by
  unfold State.works; rw [h]; rfl

theorem stopPress_shape {s : State} {n : Nat} (hr : s.room (1 + n) = true) (hq : s.stopFrameOut = false) :
    ∃ (l : Link) (x : StopState) (b : Bool) (ns : List Notice), s.stopPress = { s with link := l, ctl := { s.ctl with stop := x, latch := b }, notices := s.notices ++ ns }
      ∧ State.room { s with link := l } n = true ∧ (∀ t ∈ ns, ∃ a b, t = .stopChanged a b) ∧ ns.length ≤ 1 := by
  have hst : ∃ (x : StopState) (b : Bool) (ns : List Notice), s.stopTaken = { s with ctl := { s.ctl with stop := x, latch := b }, notices := s.notices ++ ns }
      ∧ (∀ t ∈ ns, ∃ a b, t = .stopChanged a b) ∧ ns.length ≤ 1 := by
    unfold State.stopTaken
    rcases hs : s.ctl.stop with _ | _ | _
    · refine ⟨.stopActive, s.ctl.latch, [.stopChanged .stopClear .stopActive], ?_, ?_, by simp⟩
      · dsimp only; unfold State.setStop; rw [hs, if_neg (by decide)]; rfl
      · intro t ht; simp at ht; exact ⟨_, _, ht⟩
    · refine ⟨s.ctl.stop, s.ctl.latch, [], ?_, by simp, by simp⟩
      dsimp only; rw [List.append_nil]
    · refine ⟨s.ctl.stop, true, [], ?_, by simp, by simp⟩
      dsimp only; rw [List.append_nil]
  obtain ⟨x, b, ns, e, hn, hl⟩ := hst
  unfold State.stopPress
  rw [e]
  have hq' : State.stopFrameOut { s with ctl := { s.ctl with stop := x, latch := b }, notices := s.notices ++ ns } = false := hq
  dsimp only
  rw [hq']
  obtain ⟨l, e2, r2, -⟩ := offer_only (s := { s with ctl := { s.ctl with stop := x, latch := b }, notices := s.notices ++ ns })
    (o := frame .control .flightStop broadcastAddr []) (n := n) hr rfl rfl
  refine ⟨l, x, b, ns, ?_, r2, hn, hl⟩
  exact e2

theorem onStopChanged_idle {s : State} (h : s.works = false) (a b : StopState) : s.onStopChanged a b = s := by
  unfold State.onStopChanged; rw [h]; rfl

theorem room_initial {s : State} (h : s.link = Link.initial) : s.room 8 = true := by
  unfold State.room; rw [h]; decide

theorem room_le {s : State} {m n : Nat} (h : s.room m = true) (hl : n ≤ m) : s.room n = true := by
  obtain ⟨a, b, c⟩ := room_parts h
  exact room_of_parts a b (by omega)

theorem settle_pair {b : State} {t : Notice} {ts : List Notice} {x : State} (n : Nat) (ht : State.act t { b with notices := [] } = x)
    (hx : x.notices = []) : State.settle (n + 1) { b with notices := t :: ts } = State.settle n { x with notices := ts } := by
  rw [settle_cons, ht, hx, List.nil_append]

/-- what the raise of CONFIG_INVALID comes to with after_calm empty Fault Unit -/
theorem act_config {s : State} (r p : Nat) (hf : s.fault = FaultUnit.initial) (hm : s.ctl.mode = .unconfigured) (hr : s.room 1 = true) :
    ∃ (l : Link) (fr : FaultRecord), State.act (.raise .configInvalid (BitVec.ofNat 32 r) (BitVec.ofNat 32 p) .none) s
        = { s with link := l, fault := { s.fault with record := some fr } }
      ∧ fr.cause = .configInvalid ∧ fr.level = .desk ∧ fr.bound = .none ∧ fr.value1 = BitVec.ofNat 32 r
      ∧ fr.value2 = BitVec.ofNat 32 p ∧ fr.valuesLost = false := by
  let fr : FaultRecord := {
    cause := .configInvalid, level := .desk, bound := .none, value1 := BitVec.ofNat 32 r,
    value2 := BitVec.ofNat 32 p, step := none, prior := .unconfigured, valuesLost := false }
  have hw : ∀ c, s.wake c = s := by intro c; unfold State.wake; rw [hm]; rfl
  obtain ⟨l, e, -⟩ := offer_only (s := { s with fault := { s.fault with record := some fr } })
    (o := { frame .fault .faultNote broadcastAddr ([byte fr.cause.code, byte (fr.level.code * 64 + fr.bound.code * 16 + bit fr.valuesLost * 8)]
      ++ bytes32 fr.value1.toNat ++ bytes32 fr.value2.toNat) with again := false }) (n := 0) hr rfl rfl
  refine ⟨l, fr, ?_, rfl, rfl, rfl, rfl, rfl, rfl⟩
  show State.onRaise _ _ _ _ s = _
  unfold State.onRaise
  have hp : s.placeOf .configInvalid .none = none := rfl
  have hl : s.raiseLevel .configInvalid none = .desk := rfl
  have hrec : s.fault.record = none := by rw [hf]; rfl
  dsimp only
  rw [hp, hl]
  unfold State.dealRaise
  dsimp only [if_true]
  rw [if_pos rfl, hrec]
  dsimp only
  unfold State.recordFresh State.wakeForDesk
  dsimp only
  rw [if_pos rfl, if_neg (by decide), hw]
  refine Eq.trans (congrArg State.takePending (a₂ := { s with link := l, fault := { s.fault with record := some fr } }) ?_)
    (takePending_recorded (r := fr) rfl)
  unfold State.record State.actDesk State.sendNote State.clearMark State.endRecovery State.modFault
  have hmk : s.fault.marks = [] := by rw [hf]; rfl
  have hrc : s.fault.recoveries = [] := by rw [hf]; rfl
  dsimp only
  rw [hmk, hrc, hm, if_pos rfl, if_neg (by rintro ⟨h1, -⟩; cases h1)]
  refine Eq.trans (Eq.trans ?_ e) ?_
  · show State.offer _ _ = State.offer _ _
    rw [show s.fault = FaultUnit.initial from hf]
    rfl
  · rw [show s.fault = FaultUnit.initial from hf]
    rfl

theorem keeps_loader {s t : State} (h : Keeps s t) : t.loader = s.loader := by
  have := h.1; exact congrArg StillView.loader this

theorem pressedAtEnd_loader (s : State) : s.pressedAtEnd.loader = s.loader := by
  unfold State.pressedAtEnd
  split
  · unfold State.stopPress
    have h1 : s.stopTaken.loader = s.loader := by
      unfold State.stopTaken State.setStop State.emit; repeat' split
      all_goals rfl
    dsimp only
    split
    · exact h1
    · exact (keeps_loader (send_keeps _ _ _ _ (Keeps.refl _))).trans h1
  · rfl

theorem loadingPassed_settings (s : State) (c : Settings) : (s.loadingPassed c).loader.settings = some c := by
  unfold State.loadingPassed
  dsimp only
  generalize (if s.loader.fromRestart = true ∧ ¬ s.keptStands c = true then s.setAside else s) = a
  have h2 : (a.handOut c).loader.settings = some c := rfl
  generalize a.handOut c = b at h2 ⊢
  have h3 : State.loader (if s.keptStands c = true then b else b.loadFresh) = b.loader := by split <;> rfl
  generalize (if s.keptStands c = true then b else b.loadFresh) = d at h3 ⊢
  have h4 := keeps_loader (beaconAtOnce_keeps (findElements_keeps (Keeps.refl d.enterWaking.startTimers.startFlasher)))
  have h5 := pressedAtEnd_loader (d.enterWaking.startTimers.startFlasher.findElements.beaconAtOnce)
  generalize State.pressedAtEnd _ = e at h5 ⊢
  have h6 := keeps_loader (transferTest_keeps (lowStoreTest_keeps (recoveryGovern_keeps
    (doIf_keeps (s.keptStands c && e.isEnd) _ (resumeApproach_keeps (Keeps.refl e)) (Keeps.refl e)))))
  have h7 : e.loader.settings = some c := by rw [h5, h4]; show d.loader.settings = some c; rw [h3]; exact h2
  show (State.loader (State.transferTest _)).settings = _
  rw [h6]; exact h7

theorem after_pend {k : Kind} {src : Addr} {s : State} : (s.after k src).pending = s.pending := after_pending k src s

theorem addr_of_lt {p : List Byte} {s : State} {src : Addr} (h : s.accepts .beacon src broadcastAddr p = true) (hd : src ≠ deskAddr) : src.toNat < 16 := by
  obtain ⟨-, h2⟩ := follows_hears (accepts_follows h)
  unfold validSource at h2
  simp only [Bool.or_eq_true, decide_eq_true_eq] at h2
  exact h2.resolve_right hd

theorem after_ownAddr (k : Kind) (src : Addr) (s : State) : (s.after k src).ownAddr = s.ownAddr := by
  unfold State.ownAddr State.k; rw [after_loader]

theorem after_n (k : Kind) (src : Addr) (s : State) : (s.after k src).n = s.n := by
  unfold State.n State.cfg; rw [after_loader]

theorem enterBeacon_still (i : Fin 16) (b : BeaconContents) (a : State) : (a.enterBeacon i b).still = { a.still with
      peers := a.presence.peers.set i
        { presence := .present, interval := some b.interval, since := 0, contents := some b,
          faulted := if b.cause.isNone then false else a.presence.peers[i].faulted } } := by
  unfold State.enterBeacon State.setFaulted State.modPeer State.modPresence State.emit
  dsimp only
  generalize hold : a.presence.peers[i] = old
  by_cases hc : b.cause.isNone = true
  · simp only [hc, if_true, Vector.set_set]
    have hg : (a.presence.peers.set i { old with presence := .present, interval := some b.interval, since := 0, contents := some b })[i]
      = { old with presence := .present, interval := some b.interval, since := 0, contents := some b } := by simp
    rw [hg]
    dsimp only
    cases hf : old.faulted
    · simp only [if_true]
      split <;> rfl
    · simp only [Bool.true_eq_false, if_false]
      split <;> rfl
  · simp only [hc, if_false, Bool.false_eq_true]
    split <;> rfl

theorem stopTaken_still (s : State) : s.stopTaken.still = { s.still with
      stop := if s.ctl.stop = .stopClear then .stopActive else s.ctl.stop,
      latch := s.ctl.latch || decide (s.ctl.stop = .stopSettling) } := by
  unfold State.stopTaken State.setStop State.emit
  rcases hs : s.ctl.stop with _ | _ | _
  · simp [State.still]
  · simp [State.still, hs]
  · simp [State.still, hs]

theorem stopPress_still (s : State) : s.stopPress.still = s.stopTaken.still := by
  unfold State.stopPress
  dsimp only
  split
  · rfl
  · exact (send_keeps _ _ _ _ (Keeps.refl _)).1

theorem offerBeacon_shape {x : State} (hr : x.room 1 = true) : ∃ l : Link, x.offerBeacon = { x with link := l } := by
  obtain ⟨l, e, -⟩ := offerBeacon_only (s := x) (n := 0) hr
  exact ⟨l, e⟩

theorem act_modeChanged_plain {s : State} {old new : Mode} (hw : s.works = true) (h1 : new ≠ .held) (h2 : old ≠ .held)
    (h3 : ¬ (old = .localMode ∧ new = .inService)) (hr : s.drive.restful = true) (hl : s.localTest = s) (hn : s.notices = []) :
    State.act (.modeChanged old new) s = { s with notices := [.admissionTest] } := by
  show State.onModeChanged old new s = _
  unfold State.onModeChanged State.leaveLocal
  rw [hw, if_neg h1, if_neg h2, if_neg h3, decideGrant_restful hr, hl]
  simp only [Bool.not_true, Bool.false_eq_true, if_false]
  unfold State.emit
  rw [hn]; rfl

theorem crcBit_lt {c : Nat} (h : c < 65536) : crcBit c < 65536 := by
  unfold crcBit
  split
  · omega
  · have : (2 * c - 65536) ^^^ 0x1021 < 2 ^ 16 := Nat.xor_lt_two_pow (by omega) (by decide)
    exact this

theorem crcByte_lt {c : Nat} (h : c < 65536) (b : Byte) : crcByte c b < 65536 := by
  unfold crcByte
  have hb := b.isLt
  have : c ^^^ (b.toNat * 256) < 2 ^ 16 := Nat.xor_lt_two_pow (by omega) (by omega)
  exact crcBit_lt (crcBit_lt (crcBit_lt (crcBit_lt (crcBit_lt (crcBit_lt (crcBit_lt (crcBit_lt this)))))))

theorem crc16_lt (p : List Byte) : crc16 p < 65536 := by
  have h : ∀ (p : List Byte) (c : Nat), c < 65536 → p.foldl crcByte c < 65536 := by
    intro p
    induction p with
    | nil => intro c h; exact h
    | cons b p ih => intro c h; rw [List.foldl_cons]; exact ih (crcByte c b) (crcByte_lt h b)
  unfold crc16; exact h p 0xFFFF (by norm_num)

theorem byte_toNat (n : Nat) : (byte n).toNat = n % 256 := by unfold byte; simp

theorem be16_bytes (n : Nat) (h : n < 65536) : n / 256 % 256 * 256 + n % 256 = n := by omega

theorem accepts_role {s : State} {k : Kind} {src dst : Addr} {p : List Byte} (h : s.accepts k src dst p = true) :
    s.roleTest k src = true := by
  unfold State.accepts at h
  simp only [Bool.and_eq_true] at h
  exact h.1.1.2

theorem addr_eq {src : Addr} {n : Nat} (h : src.toNat = n) : stationAddr n = src := by
  unfold stationAddr; rw [← h]; simp

theorem after_k (k : Kind) (src : Addr) (s : State) : (s.after k src).k = s.k := by
  unfold State.k; rw [after_loader]

theorem after_chamber (k : Kind) (src : Addr) (s : State) : (s.after k src).chamber = s.chamber := by
  unfold State.after State.noted; split <;> rfl

theorem after_store (k : Kind) (src : Addr) (s : State) : (s.after k src).store = s.store := by
  unfold State.after State.noted; split <;> rfl

theorem after_marked (k : Kind) (src : Addr) (s : State) (i : Nat) : (s.after k src).isMarked i = s.isMarked i := by
  unfold State.isMarked State.peer; rw [after_peers]

theorem wake_other {s : State} (w : WakeSource) (h : s.ctl.mode ≠ .resting) : s.wake w = s := by unfold State.wake; rw [if_neg h]

theorem Waiter.isUpper_iff (w : Waiter) : (w.isUpper = true) ↔ w.kind = .upper := by cases w <;> simp [Waiter.isUpper, Waiter.kind]

theorem after_drive (k : Kind) (src : Addr) (s : State) : (s.after k src).drive = s.drive := by
  unfold State.after State.noted; split <;> rfl

theorem after_units (k : Kind) (src : Addr) (s : State) : (s.after k src).unitsQuiet = s.unitsQuiet := by
  unfold State.after State.noted; split <;> rfl

theorem after_restful {k : Kind} {src : Addr} {s : State} (h : s.drive.restful = true) : (s.after k src).drive.restful = true := by
  rw [after_drive]; exact h

theorem src_upper {s : State} {k : Kind} {src dst : Addr} {p : List Byte} (h : s.accepts k src dst p = true) (hk : k.role = .upper) :
    (s.after k src).upperAddr = src := by
  have hrole := accepts_role h
  unfold State.roleTest at hrole
  simp only [Bool.and_eq_true] at hrole
  have h2 := hrole.2
  rw [hk] at h2
  unfold State.roleMet at h2
  simp only [Bool.and_eq_true, decide_eq_true_eq] at h2
  unfold State.upperAddr
  rw [after_k]; exact addr_eq h2.1

theorem src_lower {s : State} {k : Kind} {src dst : Addr} {p : List Byte} (h : s.accepts k src dst p = true) (hk : k.role = .lower) :
    (s.after k src).lowerAddr = src := by
  have hrole := accepts_role h
  unfold State.roleTest at hrole
  simp only [Bool.and_eq_true] at hrole
  have h2 := hrole.2
  rw [hk] at h2
  unfold State.roleMet at h2
  simp only [decide_eq_true_eq] at h2
  unfold State.lowerAddr
  rw [after_k]; exact addr_eq (by omega)

theorem field_0_1 (n : Nat) : field n 0 1 = n % 2 := by unfold field; simp

theorem placeClass_remote : placeClass .remote [] = [.remote] := by decide

theorem setSlot_same {s : State} {src : Source} {m : Option Motion} (h : s.slot src = m) : s.setSlot src m = s := by
  unfold State.setSlot
  have : s.drive.slots.set (sourceIdx src) m = s.drive.slots := by
    rw [← h]; unfold State.slot; simp
  rw [this]

theorem cancelOthers_none {s : State} (e : Element) (h : ∀ src : Source, s.slot src = none) : s.cancelOthers e = s := by
  unfold State.cancelOthers
  simp only [List.foldl, h]

theorem ran_one {f : State → State} {s b x : State} {t : Notice} (hf : f s = { b with notices := [t] })
    (ht : State.act t { b with notices := [] } = x) (hx : x.notices = []) (hp : x.pending = s.pending) : ran f s = .next x := by
  unfold ran finish settleBound
  rw [hf, settle_cons, ht, settle_nil _ (by rw [hx]; rfl)]
  show Host.Outcome.next { x with notices := x.notices ++ [], pending := s.pending } = _
  rw [List.append_nil, ← hp]

/-- With one PENDING motion that may drive, and the pump free, the grant decision grants it. -/
theorem decideGrant_one {s : State} {src : Source} {m : Motion} (hs : ∀ x : Source, s.slot x = if x = src then some m else none)
    (hp : m.phase = .pending) (hst : s.drive.stack = []) (hpe : s.permits src m.target = true) (ha : s.motionBar m = none) :
    s.decideGrant = s.grant src m := by
  have hrun : s.runningSource = none := by
    unfold State.runningSource State.inPhase
    rw [List.find?_eq_none]
    intro x _
    rw [hs x]
    by_cases hx : x = src
    · rw [if_pos hx]; simp [hp]
    · rw [if_neg hx]; simp
  have hc : s.candidates 0 = [src] := by
    unfold State.candidates
    have hl : 0 < sourceLevel src := by cases src <;> decide
    refine (List.filter_congr (q := fun x => decide (x = src)) ?_).trans ?_
    · intro x _
      rw [hs x]
      by_cases hx : x = src
      · rw [if_pos hx, hx]; simp [hp, hpe, hl]
      · rw [if_neg hx]; simp [hx]
    cases src <;> decide
  unfold State.decideGrant
  rw [hrun]
  dsimp only
  unfold State.grantFree
  rw [hst]
  dsimp only
  rw [hc]
  dsimp only
  rw [hs src, if_pos rfl]
  dsimp only
  unfold State.grantOrRemove
  rw [ha]

theorem after_lowerUnit (k : Kind) (src : Addr) (s : State) : (s.after k src).lowerUnit = s.lowerUnit := by
  unfold State.after State.noted; split <;> rfl

theorem CrossSlot.isEmpty_iff (c : CrossSlot) : c.isEmpty = true ↔ c = .empty := by
  cases c <;> simp [CrossSlot.isEmpty, CrossSlot.crossing?]

theorem after_onward (k : Kind) (src : Addr) (s : State) : (s.after k src).onward = s.onward := by
  unfold State.after State.noted; split <;> rfl

theorem endEntry_after {k : Kind} {src : Addr} {s : State} (tag : Nat) (h : s.link.requests = []) :
    (s.after k src).endEntry tag = (s.after k src).without tag := endEntry_eq tag h

theorem place_requests (o : Offer) (s : State) : (s.place o).link.requests = s.link.requests := by
  rw [place_link, refreshHead_requests, insert_requests]

theorem claims_quiet_lower {s : State} (h : ¬ (s.lowerUnit.claims = true ∧ s.lowerUnit.free = true)) : s.claimOn .lower = s := by
  unfold State.claimOn
  rw [if_neg]; simp only [Bool.and_eq_true]; exact h

theorem ceaseOne_link {s : State} (src : Source) (hs : src ≠ .safety) : State.link (match s.slot src with
      | some m =>
        if m.target = Target.toOpen ∧ m.phase ≠ Phase.pending ∧ ¬ s.claimsHeld (elementUnit m.element) then
          let s := if m.phase = Phase.running then s.haltMotion m else s
          s.endMotion src m .noClaim
        else s
      | none => s) = s.link := by
  split
  · split
    · dsimp only
      unfold State.endMotion State.endWith State.retire State.haltMotion
      dsimp only
      rw [if_neg hs]
      unfold State.tell State.tellFree State.clearSlot
      split <;> split <;> rfl
    · rfl
  · rfl

theorem claimsCeased_link (s : State) : s.claimsCeased.link = s.link := by
  unfold State.claimsCeased
  simp only [List.foldl]
  exact (ceaseOne_link .seqLower (by decide)).trans ((ceaseOne_link .seqHead (by decide)).trans (ceaseOne_link .panel (by decide)))

theorem endLower_link (s : State) : s.endLower.link = s.link := by
  unfold State.endLower State.emit
  exact claimsCeased_link _

theorem eta_notices_chamber {x : State} {c : Chamber} (hn : x.notices = []) (hc : x.chamber = c) : x = { x with notices := [], chamber := c } := by
  subst hc; rw [← hn]

theorem all_held_iff (l : List Record) : l.all (fun r => r.state = .resident || r.state = .sending) = true ↔ ∀ r ∈ l, r.state = .resident ∨ r.state = .sending := by
  simp

theorem isNextFor_iff {s : State} (key : BatchKey) (src : Addr) : s.isNextFor key src = true ↔ (if keyFromHead key then src.toNat + 1 = s.k else src.toNat = s.k + 1) := by
  unfold State.isNextFor keyDirection
  cases keyFromHead key <;> simp

theorem field_6_2 (n : Nat) (h : n < 256) : field n 6 2 = n / 64 := by unfold field; omega

theorem field_4_2 (n : Nat) : field n 4 2 = n / 16 % 4 := by unfold field; omega

theorem field_3_3 (n : Nat) : field n 3 3 = n / 8 % 8 := by unfold field; omega

theorem field_4_4 (n : Nat) (h : n < 256) : field n 4 4 = n / 16 := by unfold field; omega

theorem field_2_2 (n : Nat) : field n 2 2 = n / 4 % 4 := by unfold field; omega

theorem field_1_1 (n : Nat) : field n 1 1 = n / 2 % 2 := by unfold field; omega

theorem field_2_1 (n : Nat) : field n 2 1 = n / 4 % 2 := by unfold field; omega

theorem field_3_1 (n : Nat) : field n 3 1 = n / 8 % 2 := by unfold field; omega

theorem field_4_1 (n : Nat) : field n 4 1 = n / 16 % 2 := by unfold field; omega

theorem field_7_1 (n : Nat) (h : n < 256) : field n 7 1 = n / 128 := by unfold field; omega

theorem field_0_4 (n : Nat) : field n 0 4 = n % 16 := by unfold field; omega

theorem field_5_2 (n : Nat) : field n 5 2 = n / 32 % 4 := by unfold field; omega

theorem byteAt_lt (p : List Byte) (i : Nat) : byteAt p i < 256 := BitVec.isLt _

theorem after_token (k : Kind) (src : Addr) (s : State) : (s.after k src).token = s.token := by
  unfold State.after State.noted; split <;> rfl

theorem noted_approach (src : Addr) (s : State) : (s.noted src).approach = s.approach := by unfold State.noted; split <;> rfl

theorem after_shut (k : Kind) (src : Addr) (s : State) : (s.after k src).shutToEntry = s.shutToEntry := by
  unfold State.after State.noted; split <;> rfl

theorem after_tariff (k : Kind) (src : Addr) (s : State) : (s.after k src).tariff = s.tariff := by
  unfold State.after State.noted; split <;> rfl

theorem after_vessels (k : Kind) (src : Addr) (s : State) : (s.after k src).vessels = s.vessels := by
  unfold State.after State.noted; split <;> rfl

theorem changeFirst_find {p : Record → Bool} {f : Record → Record} (l : List Record) {r : Record} (h : l.find? p = some r)
    (hf : p (f r) = true) : (changeFirst p f l).find? p = some (f r) := by
  induction l with
  | nil => cases h
  | cons x xs ih =>
    unfold changeFirst
    by_cases c : p x = true
    · rw [List.find?_cons_of_pos c] at h; cases h
      rw [if_pos c, List.find?_cons_of_pos hf]
    · rw [List.find?_cons_of_neg c] at h
      rw [if_neg c, List.find?_cons_of_neg c]; exact ih h

theorem changeFirst_sum {p q : Record → Bool} {f : Record → Record} {g : Record → Nat} (hq : ∀ r, q (f r) = q r) (hg : ∀ r, g (f r) = g r) (l : List Record) :
    ((changeFirst p f l).filter q).map g = (l.filter q).map g := by
  induction l with
  | nil => rfl
  | cons x xs ih =>
    unfold changeFirst
    split
    · simp only [List.filter_cons, hq]; split <;> simp [hg]
    · simp only [List.filter_cons]; split <;> simp [ih]

theorem after_interval (k : Kind) (src : Addr) (s : State) : (s.after k src).presence.interval = s.presence.interval := by
  unfold State.after State.noted; split <;> rfl

theorem after_clash (k : Kind) (src : Addr) (s : State) : (s.after k src).presence.clash = s.presence.clash := by
  unfold State.after State.noted; split <;> rfl

theorem after_fault (k : Kind) (src : Addr) (s : State) : (s.after k src).fault = s.fault := by
  unfold State.after State.noted; split <;> rfl

theorem after_pins (k : Kind) (src : Addr) (s : State) : (s.after k src).pins = s.pins := by
  unfold State.after State.noted; split <;> rfl

theorem after_toll (k : Kind) (src : Addr) (s : State) : (s.after k src).toll = s.toll := by
  unfold State.after State.noted; split <;> rfl

theorem setFaulted_still (i : Fin 16) (v : Bool) (a : State) : (a.setFaulted i v).still = { a.still with
    peers := a.presence.peers.set i { a.presence.peers[i] with faulted := v } } := by
  unfold State.setFaulted
  dsimp only
  split
  · rename_i hv
    rw [← hv, show ({ a.presence.peers[i] with faulted := a.presence.peers[i].faulted } : Peer) = a.presence.peers[i] from rfl]
    simp only [Fin.getElem_fin, Vector.set_getElem_self]; rfl
  · rfl

theorem after_clockNow (k : Kind) (src : Addr) (s : State) : (s.after k src).clockNow = s.clockNow := by
  unfold State.clockNow; rw [after_tariff]

theorem after_cfg (k : Kind) (src : Addr) (s : State) : (s.after k src).cfg = s.cfg := by
  unfold State.cfg; rw [after_loader]

theorem refreshHead_entries_comm (l : Link) (es : List ReplyEntry) : Link.refreshHead { l with entries := es } = { l.refreshHead with entries := es } := by
  unfold Link.refreshHead
  dsimp only
  rw [show Link.head? { l with entries := es } = l.head? from rfl]
  split
  · rfl
  · split <;> rfl

theorem fillQueue_none {s : State} (h1 : s.link.waiting = []) (h2 : s.link.backlog = []) : s.fillQueue = s := by
  unfold State.fillQueue; rw [h1, h2]; rfl

theorem setLevel_still (s : State) (line : LevelLine) (x : Level) : (s.setLevel line x).still = (match line with
      | .chamber => { s.still with level := x }
      | .outer => { s.still with outer := x }) := by cases line <;> rfl

theorem withdrawMotion_chamber (s : State) (u : UnitId) (e : Element) (t : Target) : (s.withdrawMotion u e t).chamber = s.chamber := by
  unfold State.withdrawMotion State.withdraw
  split
  · split
    · rfl
    · dsimp only
      unfold State.tellFree State.haltMotion
      cases u <;> (simp only [seqOf, unitOfSource?, Bool.false_eq_true, if_false]; rename_i m _ _; by_cases hp : m.phase = .running ∨ m.phase = .frozen <;> [rw [if_pos hp]; rw [if_neg hp]] <;> rfl)
  · rfl

theorem withdrawMotion_loader (s : State) (u : UnitId) (e : Element) (t : Target) : (s.withdrawMotion u e t).loader = s.loader := by
  unfold State.withdrawMotion State.withdraw
  split
  · split
    · rfl
    · dsimp only
      unfold State.tellFree State.haltMotion
      cases u <;> (simp only [seqOf, unitOfSource?, Bool.false_eq_true, if_false]; rename_i m _ _; by_cases hp : m.phase = .running ∨ m.phase = .frozen <;> [rw [if_pos hp]; rw [if_neg hp]] <;> rfl)
  · rfl

theorem levels_of_eq {s t : State} (h1 : t.chamber = s.chamber) (h2 : t.loader = s.loader) (u : UnitId) :
    t.upperLevel u = s.upperLevel u ∧ t.lowerLevel u = s.lowerLevel u := by
  unfold State.upperLevel State.lowerLevel State.hasLower State.k State.fedValue
  rw [h1, h2]; exact ⟨rfl, rfl⟩

theorem units_contains {s : State} {u : UnitId} (h : u ∈ s.units) : s.units.contains u = true := by simpa using h

theorem ran_settle {f : State → State} {s b x : State} {ts : List Notice} {n : Nat} (hf : f s = { b with notices := ts })
    (hs : State.settle n { b with notices := ts } = x) (hn : n = 4096) (hp : x.pending = s.pending) : ran f s = .next x := by
  subst hn
  unfold ran finish settleBound
  rw [hf, hs, ← hp]

theorem answer_room {s : State} (r : BitVec 32) (x : CallResult) (pos : Nat) (h : s.approach.answers.length < 8) :
    s.answer r x pos = { s with approach := { s.approach with answers := s.approach.answers ++ [⟨r, x, pos⟩] } } := by
  unfold State.answer; rw [if_neg (by omega)]; rfl

/-! ### A frame that is not heard, or not for this station -/
theorem not_heard {s : State} {src : Addr} (h : s.catches src = false) : (!s.hears || !validSource src) = true := by
  unfold State.catches at h; unfold State.hears
  revert h
  cases (decide (s.ctl.mode ≠ .loading) && !s.link.onLine) <;> cases validSource src <;> simp

/-- A frame that the station does not hear changes nothing. -/
theorem receive_not_heard {s : State} {src : Addr} (h : s.catches src = false) (k : Kind) (dst : Addr) (p : List Byte)
    (owner : Rx → State → State) : s.receive k src dst p owner = s := by
  unfold State.receive; rw [not_heard h]; rfl

/-- A frame for another station leaves only its note of the source. -/
theorem receive_untaken {s : State} {src dst : Addr} (h : s.follows src = true) (ht : s.isTaken dst = false) (k : Kind) (p : List Byte)
    (owner : Rx → State → State) : s.receive k src dst p owner = s.noted src := by
  obtain ⟨h1, h2⟩ := follows_hears h
  unfold State.receive
  rw [h1, h2, follows_reportSource h]
  dsimp only
  rw [noted_taken, ht]; rfl

/-- The two cases above as steps, for any frame row. -/
theorem frame_nothing {s : State} (hn : s.notices = []) (k : Kind) (owner : Rx → State → State) (src dst : Addr) (p : List Byte) :
    (s.catches src = false → ran (State.receive k src dst p owner) s = .next s)
      ∧ (s.follows src = true → s.isTaken dst = false → ran (State.receive k src dst p owner) s = .next (s.noted src)) :=
  ⟨fun h => ran_quiet (receive_not_heard h k dst p owner) hn rfl,
   fun h ht => ran_quiet (receive_untaken h ht k p owner) (noted_calm h) (noted_pending src s)⟩

/-! ### Sending a grant or a feed -/
theorem unit_modUnit (s : State) (u : UnitId) (f : BoundaryUnit → BoundaryUnit) : (s.modUnit u f).unit u = f (s.unit u) := by cases u <;> rfl

theorem modUnit_notices (s : State) (u : UnitId) (f : BoundaryUnit → BoundaryUnit) : (s.modUnit u f).notices = s.notices := by cases u <;> rfl

theorem modUnit_pending (s : State) (u : UnitId) (f : BoundaryUnit → BoundaryUnit) : (s.modUnit u f).pending = s.pending := by cases u <;> rfl

theorem modUnit_chamber (s : State) (u : UnitId) (f : BoundaryUnit → BoundaryUnit) : (s.modUnit u f).chamber = s.chamber := by cases u <;> rfl

theorem modUnit_loader (s : State) (u : UnitId) (f : BoundaryUnit → BoundaryUnit) : (s.modUnit u f).loader = s.loader := by cases u <;> rfl

/-- A grant or a feed placed in the queue starts the feed timer. -/
theorem queued_fed {k : Kind} (hk : k = .claimGive ∨ k = .levelFeed) (b : Block) (d : Addr) (q : List Byte) (s : State) :
    s.queued b k d q = State.feedSent (byteAt q 0) { s with link := Link.refreshHead (Link.insert ((frame b k d q).toFrame s.link.nextId q)
      { s.link with nextId := s.link.nextId + 1 }) } := by
  unfold State.queued State.place State.onPlaced
  rcases hk with rfl | rfl <;> rfl

theorem feedSent_link (t : Nat) (s : State) : (s.feedSent t).link = s.link := by unfold State.feedSent; split <;> rfl

theorem feedSent_notices (t : Nat) (s : State) : (s.feedSent t).notices = s.notices := by unfold State.feedSent; split <;> rfl

theorem feedSent_pending (t : Nat) (s : State) : (s.feedSent t).pending = s.pending := by unfold State.feedSent; split <;> rfl

/-- A grant for GATE_DOWN: the reservation, the occupancy ARRIVING, and the CLAIM_GIVE with the level. -/
theorem grantUpper_down (c : UpperClaim) (a : State) (hp : c.purpose = .gateDown) (hc : a.store.canReserve c.key c.need = true) :
    a.grantUpper c =
      let y := (State.setStore (a.store.reserve c.key c.need) { a with chamber := { a.chamber with holder := .upper c } }).setOccupancy .arriving c.key
      State.send .chamber .claimGive a.upperAddr (byte c.tag :: bytes16 a.chamber.level.value)
        { y with chamber := { y.chamber with lastFed := a.chamber.level.value } } := by
  unfold State.grantUpper
  dsimp only
  rw [if_pos hp]
  have hx : a.setHolder (.upper c) = { a with chamber := { a.chamber with holder := .upper c } } := rfl
  rw [hx]
  have hk2 : (State.setOccupancy .arriving c.key (State.setStore (a.store.reserve c.key c.need) { a with chamber := { a.chamber with holder := .upper c } })).still
      = ({ a with chamber := { a.chamber with holder := .upper c } } : State).still := by
    refine (setOccupancy_keeps _ _ (Keeps.refl _)).1.trans ?_
    exact (setStore_keeps (a.store.reserve c.key c.need) (Keeps.refl { a with chamber := { a.chamber with holder := .upper c } })
      (by rw [reserve_custody]) (reserve_whole hc)).1
  show State.send .chamber .claimGive (State.upperAddr (State.setOccupancy .arriving c.key (State.setStore (a.store.reserve c.key c.need) { a with chamber := { a.chamber with holder := .upper c } })))
      (byte c.tag :: bytes16 (State.setOccupancy .arriving c.key (State.setStore (a.store.reserve c.key c.need) { a with chamber := { a.chamber with holder := .upper c } })).chamber.level.value)
      (State.modChamber (fun x => { x with lastFed := x.level.value }) (State.setOccupancy .arriving c.key (State.setStore (a.store.reserve c.key c.need) { a with chamber := { a.chamber with holder := .upper c } }))) = _
  generalize State.setOccupancy .arriving c.key (State.setStore (a.store.reserve c.key c.need) { a with chamber := { a.chamber with holder := .upper c } }) = y at hk2 ⊢
  have hl2 : y.chamber.level = a.chamber.level := by
    have := congrArg StillView.level hk2; exact this
  have hld : y.loader = a.loader := by
    have := congrArg StillView.loader hk2; exact this
  unfold State.modChamber
  rw [show y.upperAddr = a.upperAddr by unfold State.upperAddr State.k; rw [hld], hl2]
  dsimp only
  rw [hl2]

theorem feedSent_free {t : Nat} {s : State} (h : s.chamber.holder.kind = .free) : s.feedSent t = s := by
  unfold State.feedSent
  rw [if_neg]
  cases hx : s.chamber.holder <;> rw [hx] at h <;> simp [Holder.kind, Holder.upperTag?] at h ⊢

theorem byteAt_byte_cons (n : Nat) (q : List Byte) (h : n < 256) : byteAt (byte n :: q) 0 = n := by
  show (byte n).toNat = n
  rw [byte_toNat]; exact Nat.mod_eq_of_lt h

/-- A grant for another purpose, with room in the queue. -/
theorem grantUpper_up (c : UpperClaim) (a : State) (hp : c.purpose ≠ .gateDown) (hf : a.chamber.holder.kind = .free) (ht : c.tag < 256) (hr : a.room 1 = true) :
    a.grantUpper c = { a.queued .chamber .claimGive a.upperAddr (byte c.tag :: bytes16 a.chamber.level.value) with
      chamber := { a.chamber with holder := .upper c, lastFed := a.chamber.level.value, feedTimer := some (sec 1) } } := by
  unfold State.grantUpper
  dsimp only
  rw [if_neg hp]
  show State.send .chamber .claimGive a.upperAddr (byte c.tag :: bytes16 a.chamber.level.value) { a with chamber := { a.chamber with holder := .upper c, lastFed := a.chamber.level.value } } = _
  rw [send_room _ _ _ _ (by exact hr)]
  have h1 : State.queued .chamber .claimGive a.upperAddr (byte c.tag :: bytes16 a.chamber.level.value) a = _ :=
    (queued_fed (Or.inl rfl) _ _ _ _).trans (feedSent_free hf)
  rw [h1]
  refine (queued_fed (Or.inl rfl) _ _ _ _).trans ?_
  unfold State.feedSent
  rw [byteAt_byte_cons _ _ ht]
  exact if_pos rfl

/-! ### Streams of records -/
/-- Abandoning a stream takes back what it has not offered, and nothing else. -/
theorem abandonStream_eq (s : State) : s.abandonStream = { s with
    store := { s.store with stream := none },
    link := { s.link with backlog := s.link.backlog.filter (fun h => !s.store.stream.any (fun r => Held.ofStream .record r.number h)) } } := by
  unfold State.abandonStream State.dropHeld State.setStream
  cases h : s.store.stream with
  | none =>
    have : s.link.backlog.filter (fun h => !(none : Option Stream).any (fun r => Held.ofStream .record r.number h)) = s.link.backlog :=
      List.filter_eq_self.mpr (fun _ _ => rfl)
    dsimp only
    rw [this, ← h]
  | some r => rfl

theorem abandonStream_streamSegments (s : State) (key : BatchKey) : s.abandonStream.store.streamSegments key = s.store.streamSegments key := by
  rw [abandonStream_eq]; rfl

theorem unsent_loader {s t : State} (h : s.unsent = t.unsent) : s.loader = t.loader := by
  have := congrArg State.loader h; exact this

theorem setStore_inbound (st : Store) (s : State) : (s.setStore st).store.inbound = st.inbound := by
  obtain ⟨low, timer, h⟩ := setStore_store st s
  rw [h]

/-- A stored segment over a change of the inbound transfer. -/
theorem segmentStored_modInbound {f : Inbound → Inbound} {Y : State} {i : Inbound} (h : Y.store.inbound = i) :
    State.segmentStored (Y.modInbound f) = { Y with store := { Y.store with
      gapTimer := some (ms 500), inbound := { f i with state := .streaming } } } := by
  rw [← h]; rfl

/-! ### Which command is due -/
theorem dueIf_some {p : Bool} {i c : Instr} : dueIf p i = some c ↔ p = true ∧ i = c := by
  unfold dueIf; cases p <;> simp

theorem some_dueIf {p : Bool} {i c : Instr} : some c = dueIf p i ↔ p = true ∧ i = c := by
  rw [eq_comm]; exact dueIf_some

theorem dueIf_none {p : Bool} {i : Instr} : dueIf p i = none ↔ p = false := by
  unfold dueIf; cases p <;> simp

theorem allParties_mem (q : Party) : q ∈ allParties := by
  unfold allParties
  cases q <;> simp

theorem findSome_id_none {α} (l : List (Option α)) : l.findSome? id = none ↔ ∀ x ∈ l, x = none := by
  rw [List.findSome?_eq_none_iff]; rfl

theorem findSome_id_some {α} {l : List (Option α)} {c : α} (h : l.findSome? id = some c) : some c ∈ l := by
  obtain ⟨a, ha, hb⟩ := List.exists_of_findSome?_eq_some h
  rw [← hb]; exact ha

/-- The travel allowance is up just where some running motion has none left. -/
theorem allowanceUp_iff (s : State) : s.allowanceUp = true ↔ ∃ src m, s.slot src = some m ∧ m.phase = .running ∧ m.allowance = 0 := by
  unfold State.allowanceUp State.slot
  rw [List.any_eq_true]
  constructor
  · rintro ⟨x, hx, h⟩
    cases x with
    | none => simp at h
    | some m =>
      obtain ⟨i, hi⟩ := (Vector.mem_iff_getElem.mp (Vector.mem_toList_iff.mp hx))
      obtain ⟨hlt, he⟩ := hi
      have hm : m.phase = .running ∧ m.allowance = 0 := by simpa using h
      match i, hlt, he with
      | 0, _, he => exact ⟨.safety, m, he, hm⟩
      | 1, _, he => exact ⟨.panel, m, he, hm⟩
      | 2, _, he => exact ⟨.seqHead, m, he, hm⟩
      | 3, _, he => exact ⟨.seqLower, m, he, hm⟩
  · rintro ⟨src, m, hs, hp, ha⟩
    refine ⟨some m, ?_, by simp [hp, ha]⟩
    rw [← hs]
    exact Vector.mem_toList_iff.mpr (Vector.getElem_mem _)

theorem lapsed_iff (w : WidenSlot) : w.lapsed = true ↔ ∃ u a n, w = .pending u a n ∧ ms 100 ≤ a := by
  cases w <;> simp [WidenSlot.lapsed]

end Sys2Proof.Machine
end

