-- ==== Sys2Proof/WellFormed.lean ====
section
/-! DEFINITION. Which commands the line and the field can give: the operands of every row lie where the rows' own rules put
them. exec is total and gives every command a meaning; this says which ones a party or a line can send. -/

namespace Sys2Proof
open Sys2Proof.Machine

/-- An accepted frame from a source that R3 does not discard: an address 0 to 15 or 30, and at most 16 payload bytes
(R1 to R3). -/
def frameWf (src : Addr) (payload : List Byte) : Bool :=
  (decide (src.toNat < 16) || decide (src = deskAddr)) && decide (payload.length ≤ 16)

/-- The source address in a frame's header (R1, 12.2). -/
def headerSource (bs : List Byte) : Nat := byteAt bs 0 % 8 * 4 + byteAt bs 1 / 64

/-- A frame that R2 discards, or whose source R3 discards. -/
def discardedWf (wholeFrame : Bool) (bs : List Byte) : Bool :=
  !frameAccepted wholeFrame bs
    || (decide (16 ≤ headerSource bs) && decide (headerSource bs ≤ 31) && decide (headerSource bs ≠ 30))

/-- A CALL or CANCEL record that R121 can read: its length class is 1 to 8. -/
def callWf (lengthClass : Byte) : Bool := decide (1 ≤ lengthClass.toNat) && decide (lengthClass.toNat ≤ 8)

/-- The commands the line, the field and the timers can give. -/
def Instr.wf : Instr → Bool
  | .configRecordRead bs => decide (bs.length ≤ 108)
  | .frameDiscarded w bs => discardedWf w bs
  | .frameNotTaken src dst => frameWf src [] && decide (dst ≠ broadcastAddr)
  | .unknownKind src _ kind p => frameWf src p && (Kind.ofCode? kind.toNat).isNone
  | .widen src _ p | .echo src _ p | .echoBack src _ p | .refuse src _ p | .beacon src _ p | .statusAsk src _ p
  | .statusReply src _ p | .flightStop src _ p | .resume src _ p | .rest src _ p | .wake src _ p | .restart src _ p
  | .claimAsk src _ p | .claimDrop src _ p | .levelFeed src _ p | .alarmClose src _ p | .crossAsk src _ p
  | .crossTaken src _ p | .crossDeny src _ p | .claimGive src _ p | .claimWait src _ p | .claimDeny src _ p
  | .xferAsk src _ p | .recSeg src _ p | .xferEnd src _ p | .xferBad src _ p | .hold src _ p | .exitNote src _ p
  | .tokenOffer src _ p | .tokenTake src _ p | .tokenDecline src _ p | .vesselSet src _ p | .vesselDel src _ p
  | .vesselInfo src _ p | .time src _ p | .rateSet src _ p | .rateCommit src _ p | .tollRead src _ p
  | .tollRemove src _ p | .faultNote src _ p | .faultClear src _ p | .clear src _ p | .vesselQuery src _ p
  | .tollReady src _ p | .tollEnd src _ p | .logFull src _ p => frameWf src p
  | .replyDeadlineExpiry tag | .cancelledTagExpiry tag => decide (1 ≤ tag) && decide (tag ≤ 15)
  | .call _ c | .cancel _ c => callWf c
  | .callRecordBad bs => !callRecordReadable bs
  | _ => true

end Sys2Proof
end

