-- ==== Sys2Proof/Laws/PerInstr.lean ====
section
/-! SUPPORT. What holds of every command as syntax: which operands its row admits, and that a frame command's kind has a
six-bit code that is read back as that kind. One lemma per command. -/

namespace Sys2Proof.Laws.Wire
open Sys2Proof Sys2Proof.Machine

/-- The kind of a frame command (12.1). -/
def kind? : Instr → Option Kind
  | .widen _ _ _ => some .widen
  | .echo _ _ _ => some .echo
  | .echoBack _ _ _ => some .echoBack
  | .refuse _ _ _ => some .refuse
  | .beacon _ _ _ => some .beacon
  | .statusAsk _ _ _ => some .statusAsk
  | .statusReply _ _ _ => some .statusReply
  | .flightStop _ _ _ => some .flightStop
  | .resume _ _ _ => some .resume
  | .rest _ _ _ => some .rest
  | .wake _ _ _ => some .wake
  | .restart _ _ _ => some .restart
  | .claimAsk _ _ _ => some .claimAsk
  | .claimDrop _ _ _ => some .claimDrop
  | .levelFeed _ _ _ => some .levelFeed
  | .alarmClose _ _ _ => some .alarmClose
  | .crossAsk _ _ _ => some .crossAsk
  | .crossTaken _ _ _ => some .crossTaken
  | .crossDeny _ _ _ => some .crossDeny
  | .claimGive _ _ _ => some .claimGive
  | .claimWait _ _ _ => some .claimWait
  | .claimDeny _ _ _ => some .claimDeny
  | .xferAsk _ _ _ => some .xferAsk
  | .recSeg _ _ _ => some .recSeg
  | .xferEnd _ _ _ => some .xferEnd
  | .xferBad _ _ _ => some .xferBad
  | .hold _ _ _ => some .hold
  | .exitNote _ _ _ => some .exitNote
  | .tokenOffer _ _ _ => some .tokenOffer
  | .tokenTake _ _ _ => some .tokenTake
  | .tokenDecline _ _ _ => some .tokenDecline
  | .vesselSet _ _ _ => some .vesselSet
  | .vesselDel _ _ _ => some .vesselDel
  | .vesselInfo _ _ _ => some .vesselInfo
  | .time _ _ _ => some .time
  | .rateSet _ _ _ => some .rateSet
  | .rateCommit _ _ _ => some .rateCommit
  | .tollRead _ _ _ => some .tollRead
  | .tollRemove _ _ _ => some .tollRemove
  | .faultNote _ _ _ => some .faultNote
  | .faultClear _ _ _ => some .faultClear
  | .clear _ _ _ => some .clear
  | .vesselQuery _ _ _ => some .vesselQuery
  | .tollReady _ _ _ => some .tollReady
  | .tollEnd _ _ _ => some .tollEnd
  | .logFull _ _ _ => some .logFull
  | _ => none

/-- A frame's operands: a station's source address or the desk's, and a payload of at most 16 bytes (R1 to R3). -/
def FrameFits (src : Addr) (p : List Byte) : Prop := (src.toNat < 16 ∨ src.toNat = 30) ∧ p.length ≤ 16

/-- The operands a row admits. -/
def Fits : Instr → Prop
  | .configRecordRead bs => bs.length ≤ 108
  | .frameDiscarded w bs => frameAccepted w bs = false ∨ (16 ≤ headerSource bs ∧ headerSource bs ≤ 31 ∧ headerSource bs ≠ 30)
  | .frameNotTaken src dst => FrameFits src [] ∧ dst ≠ broadcastAddr
  | .unknownKind src _ kind p => FrameFits src p ∧ Kind.ofCode? kind.toNat = none
  | .replyDeadlineExpiry tag | .cancelledTagExpiry tag => 1 ≤ tag ∧ tag ≤ 15
  | .call _ c | .cancel _ c => 1 ≤ c.toNat ∧ c.toNat ≤ 8
  | .callRecordBad bs => callRecordReadable bs = false
  | .widen src _ p | .echo src _ p | .echoBack src _ p | .refuse src _ p | .beacon src _ p | .statusAsk src _ p
  | .statusReply src _ p | .flightStop src _ p | .resume src _ p | .rest src _ p | .wake src _ p
  | .restart src _ p | .claimAsk src _ p | .claimDrop src _ p | .levelFeed src _ p | .alarmClose src _ p
  | .crossAsk src _ p | .crossTaken src _ p | .crossDeny src _ p | .claimGive src _ p | .claimWait src _ p
  | .claimDeny src _ p | .xferAsk src _ p | .recSeg src _ p | .xferEnd src _ p | .xferBad src _ p | .hold src _ p
  | .exitNote src _ p | .tokenOffer src _ p | .tokenTake src _ p | .tokenDecline src _ p | .vesselSet src _ p
  | .vesselDel src _ p | .vesselInfo src _ p | .time src _ p | .rateSet src _ p | .rateCommit src _ p
  | .tollRead src _ p | .tollRemove src _ p | .faultNote src _ p | .faultClear src _ p | .clear src _ p
  | .vesselQuery src _ p | .tollReady src _ p | .tollEnd src _ p | .logFull src _ p => FrameFits src p
  | _ => True

/-- A command is well formed exactly when its operands are ones its row admits, and a frame command's kind is read back
from its six-bit code (12.1). -/
def Statement (i : Instr) : Prop :=
  (i.wf = true ↔ Fits i) ∧ ∀ k, kind? i = some k → k.code < 64 ∧ Kind.ofCode? k.code = some k

theorem kindCode (k : Kind) : k.code < 64 ∧ Kind.ofCode? k.code = some k := by cases k <;> decide

theorem frameWf_iff (src : Addr) (p : List Byte) : frameWf src p = true ↔ FrameFits src p := by
  have h : src = deskAddr ↔ src.toNat = 30 := by
    rw [← BitVec.toNat_inj]; rfl
  unfold frameWf FrameFits
  rw [Bool.and_eq_true, Bool.or_eq_true, decide_eq_true_eq, decide_eq_true_eq, decide_eq_true_eq, h]

theorem ofFrame {i : Instr} {src : Addr} {p : List Byte} (h : i.wf = frameWf src p) (hf : Fits i = FrameFits src p) : Statement i :=
  ⟨by rw [h, hf]; exact frameWf_iff src p, fun k _ => kindCode k⟩

theorem ofAny {i : Instr} (h : i.wf = true) (hf : Fits i = True) : Statement i :=
  ⟨by rw [h, hf]; simp, fun k _ => kindCode k⟩

theorem start : Statement .start := ofAny rfl rfl
theorem strapSample (straps : BitVec 4) : Statement (.strapSample straps) := ofAny rfl rfl
theorem configRecordRead (bytes : List Byte) : Statement (.configRecordRead bytes) :=
  ⟨by unfold Instr.wf Fits; simp, fun k _ => kindCode k⟩
theorem frameDiscarded (w : Bool) (bytes : List Byte) : Statement (.frameDiscarded w bytes) :=
  ⟨by unfold Instr.wf Fits discardedWf; simp [and_assoc], fun k _ => kindCode k⟩
theorem frameNotTaken (src dst : Addr) : Statement (.frameNotTaken src dst) :=
  ⟨by unfold Instr.wf Fits; rw [Bool.and_eq_true, frameWf_iff]; simp, fun k _ => kindCode k⟩
theorem unknownKind (src dst : Addr) (kind : BitVec 6) (p : List Byte) : Statement (.unknownKind src dst kind p) :=
  ⟨by unfold Instr.wf Fits; rw [Bool.and_eq_true, frameWf_iff]; simp, fun k _ => kindCode k⟩
theorem widen (src dst : Addr) (p : List Byte) : Statement (.widen src dst p) := ofFrame rfl rfl
theorem echo (src dst : Addr) (p : List Byte) : Statement (.echo src dst p) := ofFrame rfl rfl
theorem echoBack (src dst : Addr) (p : List Byte) : Statement (.echoBack src dst p) := ofFrame rfl rfl
theorem refuse (src dst : Addr) (p : List Byte) : Statement (.refuse src dst p) := ofFrame rfl rfl
theorem beacon (src dst : Addr) (p : List Byte) : Statement (.beacon src dst p) := ofFrame rfl rfl
theorem statusAsk (src dst : Addr) (p : List Byte) : Statement (.statusAsk src dst p) := ofFrame rfl rfl
theorem statusReply (src dst : Addr) (p : List Byte) : Statement (.statusReply src dst p) := ofFrame rfl rfl
theorem flightStop (src dst : Addr) (p : List Byte) : Statement (.flightStop src dst p) := ofFrame rfl rfl
theorem resume (src dst : Addr) (p : List Byte) : Statement (.resume src dst p) := ofFrame rfl rfl
theorem rest (src dst : Addr) (p : List Byte) : Statement (.rest src dst p) := ofFrame rfl rfl
theorem wake (src dst : Addr) (p : List Byte) : Statement (.wake src dst p) := ofFrame rfl rfl
theorem restart (src dst : Addr) (p : List Byte) : Statement (.restart src dst p) := ofFrame rfl rfl
theorem claimAsk (src dst : Addr) (p : List Byte) : Statement (.claimAsk src dst p) := ofFrame rfl rfl
theorem claimDrop (src dst : Addr) (p : List Byte) : Statement (.claimDrop src dst p) := ofFrame rfl rfl
theorem levelFeed (src dst : Addr) (p : List Byte) : Statement (.levelFeed src dst p) := ofFrame rfl rfl
theorem alarmClose (src dst : Addr) (p : List Byte) : Statement (.alarmClose src dst p) := ofFrame rfl rfl
theorem crossAsk (src dst : Addr) (p : List Byte) : Statement (.crossAsk src dst p) := ofFrame rfl rfl
theorem crossTaken (src dst : Addr) (p : List Byte) : Statement (.crossTaken src dst p) := ofFrame rfl rfl
theorem crossDeny (src dst : Addr) (p : List Byte) : Statement (.crossDeny src dst p) := ofFrame rfl rfl
theorem claimGive (src dst : Addr) (p : List Byte) : Statement (.claimGive src dst p) := ofFrame rfl rfl
theorem claimWait (src dst : Addr) (p : List Byte) : Statement (.claimWait src dst p) := ofFrame rfl rfl
theorem claimDeny (src dst : Addr) (p : List Byte) : Statement (.claimDeny src dst p) := ofFrame rfl rfl
theorem xferAsk (src dst : Addr) (p : List Byte) : Statement (.xferAsk src dst p) := ofFrame rfl rfl
theorem recSeg (src dst : Addr) (p : List Byte) : Statement (.recSeg src dst p) := ofFrame rfl rfl
theorem xferEnd (src dst : Addr) (p : List Byte) : Statement (.xferEnd src dst p) := ofFrame rfl rfl
theorem xferBad (src dst : Addr) (p : List Byte) : Statement (.xferBad src dst p) := ofFrame rfl rfl
theorem hold (src dst : Addr) (p : List Byte) : Statement (.hold src dst p) := ofFrame rfl rfl
theorem exitNote (src dst : Addr) (p : List Byte) : Statement (.exitNote src dst p) := ofFrame rfl rfl
theorem tokenOffer (src dst : Addr) (p : List Byte) : Statement (.tokenOffer src dst p) := ofFrame rfl rfl
theorem tokenTake (src dst : Addr) (p : List Byte) : Statement (.tokenTake src dst p) := ofFrame rfl rfl
theorem tokenDecline (src dst : Addr) (p : List Byte) : Statement (.tokenDecline src dst p) := ofFrame rfl rfl
theorem vesselSet (src dst : Addr) (p : List Byte) : Statement (.vesselSet src dst p) := ofFrame rfl rfl
theorem vesselDel (src dst : Addr) (p : List Byte) : Statement (.vesselDel src dst p) := ofFrame rfl rfl
theorem vesselInfo (src dst : Addr) (p : List Byte) : Statement (.vesselInfo src dst p) := ofFrame rfl rfl
theorem time (src dst : Addr) (p : List Byte) : Statement (.time src dst p) := ofFrame rfl rfl
theorem rateSet (src dst : Addr) (p : List Byte) : Statement (.rateSet src dst p) := ofFrame rfl rfl
theorem rateCommit (src dst : Addr) (p : List Byte) : Statement (.rateCommit src dst p) := ofFrame rfl rfl
theorem tollRead (src dst : Addr) (p : List Byte) : Statement (.tollRead src dst p) := ofFrame rfl rfl
theorem tollRemove (src dst : Addr) (p : List Byte) : Statement (.tollRemove src dst p) := ofFrame rfl rfl
theorem faultNote (src dst : Addr) (p : List Byte) : Statement (.faultNote src dst p) := ofFrame rfl rfl
theorem faultClear (src dst : Addr) (p : List Byte) : Statement (.faultClear src dst p) := ofFrame rfl rfl
theorem clear (src dst : Addr) (p : List Byte) : Statement (.clear src dst p) := ofFrame rfl rfl
theorem vesselQuery (src dst : Addr) (p : List Byte) : Statement (.vesselQuery src dst p) := ofFrame rfl rfl
theorem tollReady (src dst : Addr) (p : List Byte) : Statement (.tollReady src dst p) := ofFrame rfl rfl
theorem tollEnd (src dst : Addr) (p : List Byte) : Statement (.tollEnd src dst p) := ofFrame rfl rfl
theorem logFull (src dst : Addr) (p : List Byte) : Statement (.logFull src dst p) := ofFrame rfl rfl
theorem headFrameStart : Statement .headFrameStart := ofAny rfl rfl
theorem frameSent : Statement .frameSent := ofAny rfl rfl
theorem collision : Statement .collision := ofAny rfl rfl
theorem backoffExpiry : Statement .backoffExpiry := ofAny rfl rfl
theorem widenResendExpiry : Statement .widenResendExpiry := ofAny rfl rfl
theorem widenHoldExpiry (dst : Addr) : Statement (.widenHoldExpiry dst) := ofAny rfl rfl
theorem widenSlotExpiry (party : Party) : Statement (.widenSlotExpiry party) := ofAny rfl rfl
theorem replyDeadlineExpiry (tag : Nat) : Statement (.replyDeadlineExpiry tag) :=
  ⟨by unfold Instr.wf Fits; simp, fun k _ => kindCode k⟩
theorem beaconTimerExpiry : Statement .beaconTimerExpiry := ofAny rfl rfl
theorem peerSilenceTimeout (station : Fin 16) : Statement (.peerSilenceTimeout station) := ofAny rfl rfl
theorem deskSilenceTimeout : Statement .deskSilenceTimeout := ofAny rfl rfl
theorem clashCalmExpiry : Statement .clashCalmExpiry := ofAny rfl rfl
theorem wakeSettleExpiry : Statement .wakeSettleExpiry := ofAny rfl rfl
theorem resumeSettleExpiry : Statement .resumeSettleExpiry := ofAny rfl rfl
theorem stopButtonPress (pressed : Bool) : Statement (.stopButtonPress pressed) := ofAny rfl rfl
theorem keySwitchTurn (pos : KeyPos) : Statement (.keySwitchTurn pos) := ofAny rfl rfl
theorem selectorChange (pos : UnitId) : Statement (.selectorChange pos) := ofAny rfl rfl
theorem elementKeyPress (element : Element) (target : Target) : Statement (.elementKeyPress element target) := ofAny rfl rfl
theorem levelReading (line : LevelLine) (value : BitVec 16) (valid : Bool) : Statement (.levelReading line value valid) := ofAny rfl rfl
theorem levelStaleTimeout (line : LevelLine) : Statement (.levelStaleTimeout line) := ofAny rfl rfl
theorem levelLossExpiry (line : LevelLine) : Statement (.levelLossExpiry line) := ofAny rfl rfl
theorem selfWaitExpiry : Statement .selfWaitExpiry := ofAny rfl rfl
theorem claimWaitExpiry : Statement .claimWaitExpiry := ofAny rfl rfl
theorem cancelledTagExpiry (tag : Nat) : Statement (.cancelledTagExpiry tag) :=
  ⟨by unfold Instr.wf Fits; simp, fun k _ => kindCode k⟩
theorem levelFeedTimerExpiry : Statement .levelFeedTimerExpiry := ofAny rfl rfl
theorem fedLevelStale : Statement .fedLevelStale := ofAny rfl rfl
theorem switchChange (element : Element) (closedSwitch openSwitch : Bool) : Statement (.switchChange element closedSwitch openSwitch) := ofAny rfl rfl
theorem travelAllowanceExpiry : Statement .travelAllowanceExpiry := ofAny rfl rfl
theorem onwardRetryExpiry : Statement .onwardRetryExpiry := ofAny rfl rfl
theorem onwardRepeatExpiry : Statement .onwardRepeatExpiry := ofAny rfl rfl
theorem claimRetryExpiry (boundary : UnitId) : Statement (.claimRetryExpiry boundary) := ofAny rfl rfl
theorem equalizeTimerExpiry (boundary : UnitId) : Statement (.equalizeTimerExpiry boundary) := ofAny rfl rfl
theorem entryTimeLimitExpiry (boundary : UnitId) : Statement (.entryTimeLimitExpiry boundary) := ofAny rfl rfl
theorem detectorPassage (boundary : UnitId) (direction : Direction) : Statement (.detectorPassage boundary direction) := ofAny rfl rfl
theorem call (r : BitVec 32) (c : Byte) : Statement (.call r c) :=
  ⟨by unfold Instr.wf Fits callWf; simp, fun k _ => kindCode k⟩
theorem cancel (r : BitVec 32) (c : Byte) : Statement (.cancel r c) :=
  ⟨by unfold Instr.wf Fits callWf; simp, fun k _ => kindCode k⟩
theorem callRecordBad (bytes : List Byte) : Statement (.callRecordBad bytes) :=
  ⟨by unfold Instr.wf Fits; simp, fun k _ => kindCode k⟩
theorem callAnswerSent : Statement .callAnswerSent := ofAny rfl rfl
theorem resolutionTimerExpiry (registration : BitVec 32) : Statement (.resolutionTimerExpiry registration) := ofAny rfl rfl
theorem holdEntryExpiry (party : Party) : Statement (.holdEntryExpiry party) := ofAny rfl rfl
theorem sweepTimerExpiry : Statement .sweepTimerExpiry := ofAny rfl rfl
theorem recoveryTimerExpiry : Statement .recoveryTimerExpiry := ofAny rfl rfl
theorem gapTimerExpiry : Statement .gapTimerExpiry := ofAny rfl rfl
theorem attemptWaitExpiry : Statement .attemptWaitExpiry := ofAny rfl rfl
theorem lowStoreRepeatExpiry : Statement .lowStoreRepeatExpiry := ofAny rfl rfl
theorem minuteTimerExpiry : Statement .minuteTimerExpiry := ofAny rfl rfl
theorem flasherToggle : Statement .flasherToggle := ofAny rfl rfl

end Sys2Proof.Laws.Wire
end

