-- ==== Sys2Proof/Laws/Raised.lean ====
section
/-! SUPPORT. What a raise leads to: a recovery begins, a record is made at its level, a note is sent, the mode is changed (R185 to R192). -/

namespace Sys2Proof.Machine
open Sys2Proof

/-- The part of the state that a recovery leaves as it was, but for the recoveries. -/
def State.faultView (s : State) : FaultUnit × Control × Link × Presence × Loader × Bool := (s.fault, s.ctl, s.link, s.presence, s.loader, s.works)

/-- The part of the state that a raise is stated over and that sending leaves as it was. -/
def State.faultCore (s : State) : FaultUnit × Control × Presence × Loader := (s.fault, s.ctl, s.presence, s.loader)

theorem faultCore_unsent {s t : State} (h : s.unsent = t.unsent) : State.faultCore s = State.faultCore t := by
  have h1 : ∀ x : State, State.faultCore x = State.faultCore x.unsent := fun _ => rfl
  rw [h1, h, ← h1]

theorem clearSlot_faultView (src : Source) (s : State) : State.faultView (s.clearSlot src) = State.faultView s := rfl

theorem tell_faultView (src : Source) (m : Motion) (n : MotionNotice) (s : State) : State.faultView (s.tell src m n) = State.faultView s := by
  unfold State.tell State.tellFree; split <;> rfl

theorem cancelOthers_faultView (e : Element) (s : State) : State.faultView (s.cancelOthers e) = State.faultView s := by
  unfold State.cancelOthers
  have : ∀ (l : List Source) (s : State), State.faultView (l.foldl (fun s src => match s.slot src with
      | some m => if m.element = e then (s.clearSlot src).tell src m .cancelled else s
      | none => s) s) = State.faultView s := by
    intro l
    induction l with
    | nil => intro s; rfl
    | cons a l ih =>
      intro s
      refine (ih _).trans ?_
      dsimp only
      cases s.slot a with
      | none => rfl
      | some m =>
        dsimp only
        by_cases h : m.element = e
        · rw [if_pos h]; exact tell_faultView _ _ _ _
        · rw [if_neg h]
  exact this _ s

theorem pointSafety_faultView (n : Nat) : ∀ s : State, State.faultView (State.pointSafety n s) = State.faultView s := by
  induction n with
  | zero => intro s; rfl
  | succ n ih =>
    intro s
    unfold State.pointSafety
    split
    · split
      · rfl
      · split
        · rfl
        split
        · refine (ih _).trans ?_
          unfold State.safetyDone
          exact (show State.faultView (State.emit _ (State.cancelOthers _ _)) = _ from cancelOthers_faultView _ _)
        · rfl
    · rfl

theorem placeSafety_faultView (c : SafetyClass) (s : State) : State.faultView (s.placeSafety c) = State.faultView s := by
  unfold State.placeSafety State.refreshSafety
  dsimp only
  split
  · rfl
  exact (show State.faultView (State.emit _ (State.pointSafety 4 _)) = _ from pointSafety_faultView 4 _)

theorem withdraw_faultView (src : Source) (b : Bool) (s : State) : State.faultView (s.withdraw src b) = State.faultView s := by
  unfold State.withdraw State.tellFree
  split
  · rfl
  · rename_i m _
    by_cases h : m.phase = .running ∨ m.phase = .frozen
    · simp only [if_pos h]
      cases b
      · simp only [Bool.false_eq_true, if_false]; cases unitOfSource? src <;> rfl
      · simp only [if_true]; exact tell_faultView _ _ _ _
    · simp only [if_neg h]
      cases b
      · simp only [Bool.false_eq_true, if_false]; cases unitOfSource? src <;> rfl
      · simp only [if_true]; exact tell_faultView _ _ _ _

theorem requestMotion_faultView (src : Source) (e : Element) (t : Target) (s : State) : State.faultView (s.requestMotion src e t) = State.faultView s := by
  unfold State.requestMotion
  dsimp only
  have h : State.faultView (if src = .panel then s.withdraw .panel true else s) = State.faultView s := by
    split
    · exact withdraw_faultView _ _ _
    · rfl
  rw [← h]
  generalize (if src = .panel then s.withdraw .panel true else s) = z
  clear h
  by_cases h1 : (z.slot src).isSome = true
  · rw [if_pos h1]; rfl
  rw [if_neg h1]
  by_cases h2 : z.element e = restState t
  · rw [if_pos h2]; rfl
  rw [if_neg h2]
  by_cases h3 : t = .toOpen ∧ z.element e = .failed
  · rw [if_pos h3]; rfl
  rw [if_neg h3]
  by_cases h4 : t = .toOpen ∧ ¬ z.claimsHeld (elementUnit e) = true
  · rw [if_pos h4]; rfl
  rw [if_neg h4]; rfl

theorem modUnit_faultView (u : UnitId) (f : BoundaryUnit → BoundaryUnit) (s : State) : State.faultView (s.modUnit u f) = State.faultView s := by cases u <;> rfl

theorem recoverGate_faultView (u : UnitId) (e : Element) (s : State) : State.faultView (s.recoverGate u e) = State.faultView s := by
  unfold State.recoverGate State.onSlotFree
  dsimp only
  split
  · exact modUnit_faultView _ _ _
  · split
    · exact (requestMotion_faultView _ _ _ _).trans ((modUnit_faultView _ _ _).trans (modUnit_faultView _ _ _))
    · split
      · have ha : ∀ (z : State) (x : Element) (t : Target), State.faultView (z.askMotion u x t) = State.faultView z := by
          intro z x t
          unfold State.askMotion
          split
          · exact modUnit_faultView _ _ _
          · exact (requestMotion_faultView _ _ _ _).trans (modUnit_faultView _ _ _)
        have ha2 : ∀ (z w : State) (x : Element) (t : Target) (q : Prop) [Decidable q], State.faultView z = State.faultView w → State.faultView (if q then z.askMotion u x t else z) = State.faultView w := by
          intro z w x t q _ h
          by_cases hq : q
          · rw [if_pos hq]; exact (ha _ _ _).trans h
          · rw [if_neg hq]; exact h
        exact ha2 _ _ _ _ _ (modUnit_faultView _ _ _)
      · exact modUnit_faultView _ _ _

theorem recoverElement_faultView (e : Element) (s : State) : State.faultView (s.recoverElement e) = State.faultView s := by
  unfold State.recoverElement
  have h : State.faultView (if elementIsGate e then s.recoverGate (elementUnit e) e else s.placeSafety (unitClass (elementUnit e))) = State.faultView s := by
    split
    · exact recoverGate_faultView _ _ _
    · exact placeSafety_faultView _ _
  dsimp only
  rw [← h]
  generalize (if elementIsGate e then s.recoverGate (elementUnit e) e else s.placeSafety (unitClass (elementUnit e))) = z
  by_cases h2 : z.element e = .closed
  · rw [if_pos h2]; rfl
  · rw [if_neg h2]

/-- Beginning a recovery changes only the recoveries, of the fault part: the one of the cause stands anew. -/
theorem startRecovery_faultView (c : Cause) (v1 : BitVec 32) (b : Bound) (p : Option Place) (s : State) :
    ∃ r, State.faultView (s.startRecovery c v1 b p) = State.faultView { s with fault := { s.fault with recoveries := r } }
      ∧ (c = .positionConflict ∨ c = .motionTimeout → ∀ e, elementOfCode? v1.toNat = some e → r = s.fault.recoveries.filter (fun r => r.cause ≠ c) ++ [⟨c, p, some e, 0⟩])
      ∧ (c = .peerLost → r = s.fault.recoveries.filter (fun r => r.cause ≠ c) ++ [⟨c, p, none, v1.toNat⟩])
      ∧ (c = .transferFail → r = s.fault.recoveries.filter (fun r => r.cause ≠ c) ++ [⟨c, p, none, 0⟩]) := by
  unfold State.startRecovery
  cases c <;> dsimp only
  case positionConflict =>
    cases he : elementOfCode? v1.toNat with
    | some e => refine ⟨_, recoverElement_faultView _ _, ?_, ?_, ?_⟩ <;> simp
    | none => refine ⟨s.fault.recoveries, rfl, ?_, ?_, ?_⟩ <;> simp
  case motionTimeout =>
    cases he : elementOfCode? v1.toNat with
    | some e => refine ⟨_, recoverElement_faultView _ _, ?_, ?_, ?_⟩ <;> simp
    | none => refine ⟨s.fault.recoveries, rfl, ?_, ?_, ?_⟩ <;> simp
  case equalizeTimeout =>
    cases b.unit? with
    | some u =>
      dsimp only
      by_cases h : (s.enterRecovery ⟨.equalizeTimeout, p, some (sluiceOf u), 0⟩).element (sluiceOf u) = .closed
      · rw [if_pos h]; refine ⟨_, rfl, ?_, ?_, ?_⟩ <;> simp
      · rw [if_neg h]; refine ⟨_, rfl, ?_, ?_, ?_⟩ <;> simp
    | none => refine ⟨s.fault.recoveries, rfl, ?_, ?_, ?_⟩ <;> simp
  case detectorMismatch =>
    cases b.unit? <;> (refine ⟨s.fault.recoveries, rfl, ?_, ?_, ?_⟩ <;> simp)
  case claimTimeout =>
    cases b.unit? <;> (refine ⟨s.fault.recoveries, rfl, ?_, ?_, ?_⟩ <;> simp)
  case peerLost => refine ⟨_, rfl, ?_, ?_, ?_⟩ <;> simp
  case transferFail => refine ⟨_, rfl, ?_, ?_, ?_⟩ <;> simp
  all_goals (refine ⟨s.fault.recoveries, rfl, ?_, ?_, ?_⟩ <;> simp)

/-- The place of a raise, said in full (R186). -/
theorem placeOf_eq (s : State) (c : Cause) (b : Bound) : s.placeOf c b = (if c = .transferFail then some { key := s.store.inbound.key, bound := .none, step := none }
      else match b with
        | .none => none
        | .lower => (s.unit .lower).active?.map (fun x => ({ key := x.key, bound := b, step := (s.unit .lower).step } : Place))
        | .head => (s.unit .head).active?.map (fun x => ({ key := x.key, bound := b, step := (s.unit .head).step } : Place))) := by
  unfold State.placeOf
  split
  · rfl
  · cases b <;> simp only [Bound.unit?]
    · cases (s.unit .lower).active? <;> rfl
    · cases (s.unit .head).active? <;> rfl

theorem sendNote_faultCore (r : FaultRecord) (a : Bool) (s : State) : State.faultCore (s.sendNote r a) = State.faultCore s := by
  unfold State.sendNote
  split
  · rfl
  · exact faultCore_unsent (offer_unsent _ _)

/-- Setting the mode sets it and leaves the fault record and the loader. -/
theorem setMode_fault (m : Mode) (s : State) : (s.setMode m).fault = s.fault ∧ (s.setMode m).ctl.mode = m ∧ (s.setMode m).loader = s.loader := by
  unfold State.setMode
  by_cases h : m = s.ctl.mode
  · rw [if_pos h]; exact ⟨rfl, h.symm, rfl⟩
  · rw [if_neg h]
    have hr : ∀ x : State, (State.faultCore x.refreshInterval).1 = x.fault ∧ (State.faultCore x.refreshInterval).2.1 = x.ctl ∧ (State.faultCore x.refreshInterval).2.2.2 = x.loader := by
      intro x
      unfold State.refreshInterval State.beaconAtOnce
      split
      · exact ⟨rfl, rfl, rfl⟩
      · rw [faultCore_unsent (offerBeacon_unsent _)]; exact ⟨rfl, rfl, rfl⟩
    obtain ⟨h1, h2, h3⟩ := hr { s with ctl := { s.ctl with mode := m, wakeTimer := (if (decide (m = .resting)) then none else s.ctl.wakeTimer), pumpReady := (if (decide (m = .resting)) then false else s.ctl.pumpReady) } }
    exact ⟨h1, congrArg Control.mode h2, h3⟩

theorem wake_faultCore (w : WakeSource) (s : State) : (s.wake w).fault = s.fault
    ∧ (s.wake w).ctl.mode = (if s.ctl.mode = .resting then .waking else s.ctl.mode) := by
  unfold State.wake
  by_cases h2 : s.ctl.mode = .resting
  · simp only [if_pos h2]
    exact ⟨(setMode_fault _ _).1, (setMode_fault _ _).2.1⟩
  · simp only [if_neg h2, and_self]

/-- A raise at level DESK wakes a RESTING station (R188). -/
theorem wakeForDesk_faultCore (c : Cause) (l : FaultLevel) (s : State) : (s.wakeForDesk c l).fault = s.fault
    ∧ (s.wakeForDesk c l).ctl.mode = (if s.ctl.mode = .resting ∧ l = .desk then .waking else s.ctl.mode) := by
  unfold State.wakeForDesk
  by_cases h : l = .desk
  · simp only [if_pos h]
    obtain ⟨a, b⟩ := wake_faultCore (if c = .levelAlarm then .alarm else .fault) s
    refine ⟨a, b.trans ?_⟩
    by_cases h2 : s.ctl.mode = .resting
    · rw [if_pos h2, if_pos ⟨h2, h⟩]
    · rw [if_neg h2, if_neg (fun x => h2 x.1)]
  · simp only [if_neg h]; exact ⟨trivial, (if_neg (fun x => h x.2)).symm⟩

/-- A record at level DESK stands, ends the mark and the recovery, and holds the station (R190, R192). -/
theorem record_desk {r : FaultRecord} (h : r.level = .desk) (s : State) :
    (s.record r).fault = { s.fault with record := some r, marks := s.fault.marks.filter (fun m => m.cause ≠ r.cause), recoveries := s.fault.recoveries.filter (fun x => x.cause ≠ r.cause) }
    ∧ (s.record r).ctl.mode = (if r.cause = .configInvalid then s.ctl.mode else .held) := by
  unfold State.record
  dsimp only
  rw [h]
  dsimp only
  unfold State.actDesk
  dsimp only
  have hn := sendNote_faultCore r false (State.endRecovery r.cause (State.clearMark r.cause (State.modFault (fun f => { f with record := some r }) s)))
  have hf := congrArg Prod.fst hn
  have hc := congrArg (fun x => x.2.1.mode) hn
  split
  · exact ⟨hf, hc⟩
  · exact ⟨(setMode_fault _ _).1.trans hf, (setMode_fault _ _).2.1⟩

theorem record_desk_eq {r : FaultRecord} (h : r.level = .desk) (s : State) : s.record r = (s.modFault (fun f => { f with record := some r })).actDesk r := by
  unfold State.record
  dsimp only
  rw [h]

theorem clearRecord_eq (s : State) : s.clearRecord.fault = { s.fault with record := none } ∧ s.clearRecord.ctl = s.ctl := ⟨rfl, rfl⟩

/-- A record at level LOCAL clears at once (R189). -/
theorem record_local {r : FaultRecord} (h : r.level = .localLevel) (s : State) :
    (s.record r).fault = { s.fault with record := none } ∧ (s.record r).ctl.mode = s.ctl.mode := by
  unfold State.record
  dsimp only
  rw [h]
  exact ⟨rfl, rfl⟩

/-- A record at level FLIGHT stands while its recovery is under way (R189). -/
theorem record_flight {r : FaultRecord} (h : r.level = .flight) (s : State) :
    (s.record r).fault = { s.fault with record := (if s.underWay r.cause then some r else none) } ∧ (s.record r).ctl.mode = s.ctl.mode := by
  unfold State.record
  dsimp only
  rw [h]
  dsimp only
  have hn := sendNote_faultCore r false (State.modFault (fun f => { f with record := some r }) s)
  have hf : (State.sendNote r false (State.modFault (fun f => { f with record := some r }) s)).fault = { s.fault with record := some r } := congrArg Prod.fst hn
  have hc : (State.sendNote r false (State.modFault (fun f => { f with record := some r }) s)).ctl = s.ctl := congrArg (fun x => x.2.1) hn
  have hu : (State.sendNote r false (State.modFault (fun f => { f with record := some r }) s)).underWay r.cause = s.underWay r.cause := by
    unfold State.underWay; rw [hf]
  rw [hu]
  cases s.underWay r.cause
  · simp only [Bool.false_eq_true, if_false]
    unfold State.flightDone State.sendFaultClear State.send
    have ho := faultCore_unsent (offer_unsent (frame .fault .faultClear broadcastAddr [byte r.cause.code]) (State.sendNote r false (State.modFault (fun f => { f with record := some r }) s)))
    have hof := congrArg Prod.fst ho
    have hoc := congrArg (fun x => x.2.1) ho
    obtain ⟨h1, h2⟩ := clearRecord_eq (State.offer (frame .fault .faultClear broadcastAddr [byte r.cause.code]) (State.sendNote r false (State.modFault (fun f => { f with record := some r }) s)))
    constructor
    · rw [h1]
      have : (State.offer (frame .fault .faultClear broadcastAddr [byte r.cause.code]) (State.sendNote r false (State.modFault (fun f => { f with record := some r }) s))).fault = { s.fault with record := some r } := hof.trans hf
      rw [this]
    · rw [h2]; exact (congrArg Control.mode hoc).trans (congrArg Control.mode hc)
  · simp only [if_true]
    exact ⟨hf, congrArg Control.mode hc⟩

theorem pending_higher_eq (x : PendingCause) (l : FaultLevel) : ({ x with level := x.level.higher l } : PendingCause)
    = if x.level.code < l.code then { x with level := l } else x := by
  unfold FaultLevel.higher
  split <;> rfl

end Sys2Proof.Machine
end

