-- ==== Sys2Proof/Laws/Restarted.lean ====
section
/-! SUPPORT. What the end of loading leaves of the state that a RESTART kept (R31, R138, R142, R183). -/

namespace Sys2Proof.Machine
open Sys2Proof

/-- A state with what the end of loading goes on to change laid flat. -/
def State.loadingFlat (y : State) : State := { y with
  presence := State.reset.presence, lowerUnit := State.reset.lowerUnit, headUnit := State.reset.headUnit,
  approach := { State.reset.approach with counter := y.approach.counter },
  ctl := { y.ctl with stop := .stopClear, latch := false },
  token := { y.token with recovery := .stopped },
  store := { y.store with low := false, lowTimer := none, inbound := Inbound.initial } }

/-- What the end of loading leaves as it was, sending apart. -/
def State.keptView (s : State) : State := State.loadingFlat s.unsent

/-- The registrations of the arrival queue in order. -/
def State.queuedRegistrations (s : State) : List (BitVec 32) := s.approach.queue.map QueueEntry.registration

/-- A field that sending leaves agrees where the unsent parts agree. -/
theorem unsent_field {α} (p : State → α) {s t : State} (h : s.unsent = t.unsent) (hp : ∀ x : State, p x = p x.unsent) : p s = p t := by rw [hp s, hp t, h]

theorem keptView_unsent {s t : State} (h : s.unsent = t.unsent) : State.keptView s = State.keptView t := congrArg State.loadingFlat h

theorem queuedRegistrations_unsent {s t : State} (h : s.unsent = t.unsent) : State.queuedRegistrations s = State.queuedRegistrations t := unsent_field State.queuedRegistrations h (fun _ => rfl)

theorem beaconAtOnce_keptView (s : State) : State.keptView s.beaconAtOnce = State.keptView s := by
  unfold State.beaconAtOnce
  refine (keptView_unsent (offerBeacon_unsent _)).trans ?_
  rfl

theorem beaconAtOnce_queuedRegistrations (s : State) : State.queuedRegistrations s.beaconAtOnce = State.queuedRegistrations s := by
  unfold State.beaconAtOnce
  refine (queuedRegistrations_unsent (offerBeacon_unsent _)).trans ?_
  rfl

theorem beaconAtOnce_field {α} (p : State → α) (hp : ∀ x : State, p x = p x.unsent) (hq : ∀ (x : State) (b : Presence), p { x with presence := b } = p x) (s : State) :
    p s.beaconAtOnce = p s := by
  unfold State.beaconAtOnce
  rw [unsent_field p (offerBeacon_unsent _) hp]
  exact hq s _

theorem stopTaken_keptView (s : State) : State.keptView s.stopTaken = State.keptView s ∧ State.queuedRegistrations s.stopTaken = State.queuedRegistrations s := by
  unfold State.stopTaken State.setStop
  split
  · split <;> exact ⟨rfl, rfl⟩
  · exact ⟨rfl, rfl⟩
  · exact ⟨rfl, rfl⟩

theorem pressedAtEnd_keptView (s : State) : State.keptView s.pressedAtEnd = State.keptView s ∧ State.queuedRegistrations s.pressedAtEnd = State.queuedRegistrations s := by
  unfold State.pressedAtEnd
  split
  · unfold State.stopPress
    dsimp only
    split
    · exact stopTaken_keptView s
    · exact ⟨(keptView_unsent (offer_unsent _ _)).trans (stopTaken_keptView s).1, (queuedRegistrations_unsent (offer_unsent _ _)).trans (stopTaken_keptView s).2⟩
  · exact ⟨rfl, rfl⟩

theorem pressedAtEnd_released (s : State) (h : s.pins.stopButton = false) : s.pressedAtEnd = s := by
  unfold State.pressedAtEnd; rw [h]; rfl

theorem modUnresolved_queuedRegistrations (r : BitVec 32) (f : QueueEntry → QueueEntry) (hf : ∀ e, (f e).registration = e.registration) (s : State) :
    State.keptView (s.modUnresolved r f) = State.keptView s ∧ State.queuedRegistrations (s.modUnresolved r f) = State.queuedRegistrations s := by
  refine ⟨rfl, ?_⟩
  show (s.approach.queue.map _).map _ = _
  rw [List.map_map]
  refine List.map_congr_left ?_
  intro e _
  show QueueEntry.registration (if _ then f e else e) = e.registration
  split
  · exact hf e
  · rfl

theorem beginResolution_keptView (r : BitVec 32) (s : State) : State.keptView (s.beginResolution r) = State.keptView s ∧ State.queuedRegistrations (s.beginResolution r) = State.queuedRegistrations s := by
  unfold State.beginResolution
  split
  · exact modUnresolved_queuedRegistrations r s.defaultEntry (fun _ => rfl) s
  · dsimp only
    have h := modUnresolved_queuedRegistrations r (fun e => { e with resolution := some (sec 2) }) (fun _ => rfl) s
    split
    · exact ⟨(keptView_unsent (request_unsent _ _)).trans h.1, (queuedRegistrations_unsent (request_unsent _ _)).trans h.2⟩
    · exact h

theorem dropLong_keptView (s : State) (e : QueueEntry) : State.keptView (s.dropLong e) = State.keptView s := by
  unfold State.dropLong State.answer
  split
  · split <;> rfl
  · rfl

theorem reform_keptView (s : State) : State.keptView s.reform = State.keptView s ∧ State.queuedRegistrations s.reform = State.queuedRegistrations s := by
  unfold State.reform
  split
  · exact ⟨rfl, rfl⟩
  · unfold State.placeEntry State.placeCrossing State.modUnit
    dsimp only
    cases State.approachUnit _ <;> exact ⟨rfl, rfl⟩

theorem foldl_view {α β} (v : State → β) (f : State → α → State) (h : ∀ s a, v (f s a) = v s) (l : List α) : ∀ s, v (l.foldl f s) = v s := by
  induction l with
  | nil => intro s; rfl
  | cons a l ih => intro s; exact (ih _).trans (h s a)

theorem keptView_cfg {s t : State} (h : State.keptView s = State.keptView t) : s.cfg = t.cfg := by
  have h2 : (State.keptView s).loader = (State.keptView t).loader := by rw [h]
  have : s.loader = t.loader := h2
  unfold State.cfg; rw [this]

theorem resumeApproach_keptView (s : State) : State.keptView s.resumeApproach = State.keptView s ∧ ((∀ e ∈ s.approach.queue, e.lengthClass ≤ s.cfg.capacity) → State.queuedRegistrations s.resumeApproach = State.queuedRegistrations s) := by
  unfold State.resumeApproach
  dsimp only
  constructor
  · rw [(reform_keptView _).1, foldl_view State.keptView _ (fun s a => (beginResolution_keptView a s).1)]
    exact foldl_view State.keptView _ (fun s a => dropLong_keptView s a) _ s
  · intro hq
    rw [(reform_keptView _).2, foldl_view State.queuedRegistrations _ (fun s a => (beginResolution_keptView a s).2)]
    have : ∀ l : List QueueEntry, (∀ e ∈ l, e.lengthClass ≤ s.cfg.capacity) → l.foldl State.dropLong s = s := by
      intro l
      induction l with
      | nil => intro _; rfl
      | cons a l ih =>
        intro h
        have ha : s.dropLong a = s := by
          unfold State.dropLong
          rw [if_neg (by have := h a (List.mem_cons_self ..); omega)]
        show l.foldl State.dropLong (s.dropLong a) = s
        rw [ha]; exact ih (fun e he => h e (List.mem_cons_of_mem _ he))
    rw [this _ hq]

theorem recoveryGovern_keptView (s : State) : State.keptView s.recoveryGovern = State.keptView s ∧ State.queuedRegistrations s.recoveryGovern = State.queuedRegistrations s := by
  unfold State.recoveryGovern State.modToken
  split
  · exact ⟨rfl, rfl⟩
  · split
    · split <;> exact ⟨rfl, rfl⟩
    · exact ⟨rfl, rfl⟩

theorem lowStoreTest_keptView (s : State) : State.keptView s.lowStoreTest = State.keptView s ∧ State.queuedRegistrations s.lowStoreTest = State.queuedRegistrations s := by
  obtain ⟨a, lo, ti, h⟩ := lowStoreTest_unsent s
  refine ⟨(keptView_unsent h).trans ?_, (queuedRegistrations_unsent h).trans ?_⟩ <;> rfl

theorem transferTest_keptView (s : State) : State.keptView s.transferTest = State.keptView s ∧ State.queuedRegistrations s.transferTest = State.queuedRegistrations s := by
  unfold State.transferTest State.modInbound
  dsimp only
  split
  · refine ⟨(keptView_unsent (request_unsent _ _)).trans ?_, (queuedRegistrations_unsent (request_unsent _ _)).trans ?_⟩ <;> rfl
  · exact ⟨rfl, rfl⟩

theorem lowStoreTest_ctl (s : State) : s.lowStoreTest.ctl = s.ctl := by
  obtain ⟨a, lo, ti, h⟩ := lowStoreTest_unsent s
  refine (unsent_field State.ctl h (fun _ => rfl)).trans ?_
  rfl

theorem transferTest_ctl (s : State) : s.transferTest.ctl = s.ctl := by
  unfold State.transferTest State.modInbound
  dsimp only
  split
  · refine (unsent_field State.ctl (request_unsent _ _) (fun _ => rfl)).trans ?_
    rfl
  · rfl

theorem resumeApproach_ctl (s : State) : s.resumeApproach.ctl = s.ctl := by
  unfold State.resumeApproach
  dsimp only
  have h1 : ∀ s : State, s.reform.ctl = s.ctl := by
    intro s; unfold State.reform
    split
    · rfl
    · unfold State.placeEntry State.placeCrossing State.modUnit
      dsimp only
      cases State.approachUnit _ <;> rfl
  have h2 : ∀ s r, (State.beginResolution r s).ctl = s.ctl := by
    intro s r; unfold State.beginResolution
    split
    · rfl
    · dsimp only
      split
      · refine (unsent_field State.ctl (request_unsent _ _) (fun _ => rfl)).trans ?_
        rfl
      · rfl
  have h3 : ∀ s e, (State.dropLong s e).ctl = s.ctl := by
    intro s e
    unfold State.dropLong State.answer
    split
    · split <;> rfl
    · rfl
  rw [h1, foldl_view State.ctl _ (fun s a => h2 s a)]
  exact foldl_view State.ctl _ (fun s a => h3 s a) _ s

/-- What loading does once the state stands: find the elements, send the beacon, take a pressed button, resume the approach
where the queue was kept, and make the tests. -/
def State.loadingTail (b : Bool) (y : State) : State :=
  let s := y.findElements.beaconAtOnce.pressedAtEnd
  let s := s.doIf b State.resumeApproach
  s.recoveryGovern.lowStoreTest.transferTest.emit .onwardTest

/-- The end of loading leaves the kept state, the queue where its entries still fit, and the stop state where the button is up. -/
theorem loadingTail_keptView (b : Bool) (y : State) : State.keptView (State.loadingTail b y) = State.keptView y.findElements
    ∧ ((∀ e ∈ y.approach.queue, e.lengthClass ≤ y.cfg.capacity) → State.queuedRegistrations (State.loadingTail b y) = State.queuedRegistrations y)
    ∧ (b = false → State.queuedRegistrations (State.loadingTail b y) = State.queuedRegistrations y)
    ∧ (y.pins.stopButton = false → (State.loadingTail b y).ctl = y.ctl) := by
  unfold State.loadingTail
  dsimp only
  have e : ∀ x : State, State.keptView (State.emit .onwardTest x) = State.keptView x ∧ State.queuedRegistrations (State.emit .onwardTest x) = State.queuedRegistrations x := fun x => ⟨rfl, rfl⟩
  rw [(e _).1, (e _).2, (transferTest_keptView _).1, (transferTest_keptView _).2, (lowStoreTest_keptView _).1, (lowStoreTest_keptView _).2, (recoveryGovern_keptView _).1, (recoveryGovern_keptView _).2]
  have hc : ∀ x : State, (State.emit .onwardTest x).ctl = x.ctl := fun _ => rfl
  have hg : ∀ x : State, x.recoveryGovern.ctl = x.ctl := by
    intro x; unfold State.recoveryGovern State.modToken
    split
    · rfl
    · split
      · split <;> rfl
      · rfl
  rw [hc, transferTest_ctl, lowStoreTest_ctl, hg]
  have hk : State.keptView (y.findElements.beaconAtOnce.pressedAtEnd) = State.keptView y.findElements := (pressedAtEnd_keptView _).1.trans (beaconAtOnce_keptView _)
  have hq : State.queuedRegistrations (y.findElements.beaconAtOnce.pressedAtEnd) = State.queuedRegistrations y := ((pressedAtEnd_keptView _).2.trans (beaconAtOnce_queuedRegistrations _)).trans rfl
  have hcf : (y.findElements.beaconAtOnce.pressedAtEnd).cfg = y.cfg := (keptView_cfg hk).trans rfl
  have hcb : y.pins.stopButton = false → (y.findElements.beaconAtOnce.pressedAtEnd).ctl = y.ctl := by
    intro h
    have hp : (y.findElements.beaconAtOnce).pins = y.pins := (beaconAtOnce_field State.pins (fun _ => rfl) (fun _ _ => rfl) _).trans rfl
    rw [pressedAtEnd_released _ (by rw [hp]; exact h)]
    exact (beaconAtOnce_field State.ctl (fun _ => rfl) (fun _ _ => rfl) _).trans rfl
  have hqq : (y.findElements.beaconAtOnce.pressedAtEnd).approach.queue = y.approach.queue := by
    unfold State.pressedAtEnd State.stopPress
    have hb : y.findElements.beaconAtOnce.approach = y.approach := (beaconAtOnce_field State.approach (fun _ => rfl) (fun _ _ => rfl) _).trans rfl
    have hst : ∀ x : State, x.stopTaken.approach = x.approach := by
      intro x; unfold State.stopTaken State.setStop
      split
      · split <;> rfl
      · rfl
      · rfl
    dsimp only
    split
    · split
      · rw [hst, hb]
      · rw [show ∀ x : State, (State.send .control .flightStop broadcastAddr [] x).approach = x.approach from fun x => unsent_field State.approach (offer_unsent _ x) (fun _ => rfl), hst, hb]
    · rw [hb]
  unfold State.doIf
  cases b with
  | false => exact ⟨hk, fun _ => hq, fun _ => hq, hcb⟩
  | true =>
    simp only [if_true]
    refine ⟨(resumeApproach_keptView _).1.trans hk, fun h => ((resumeApproach_keptView _).2 ?_).trans hq, fun h => absurd h (by decide), fun h => (resumeApproach_ctl _).trans (hcb h)⟩
    rw [hqq, hcf]; exact h

theorem findElements_element (y : State) (e : Element) (h : y.drives e = true) : y.findElements.element e = foundState (y.switchesOf e) := by
  have : y.findElements.element e = (if y.drives e then foundState (y.switchesOf e) else .unheld) := by cases e <;> rfl
  rw [this, h]; rfl

/-- A record that passes, as a state handed out and the end of loading. -/
theorem loadingPassed_eq (c : Settings) (s : State) : s.loadingPassed c =
    State.loadingTail (s.keptStands c && (if s.keptStands c then (if s.loader.fromRestart ∧ ¬ s.keptStands c then s.setAside else s).handOut c else ((if s.loader.fromRestart ∧ ¬ s.keptStands c then s.setAside else s).handOut c).loadFresh).enterWaking.startTimers.startFlasher.findElements.beaconAtOnce.pressedAtEnd.isEnd)
      ((if s.keptStands c then (if s.loader.fromRestart ∧ ¬ s.keptStands c then s.setAside else s).handOut c else ((if s.loader.fromRestart ∧ ¬ s.keptStands c then s.setAside else s).handOut c).loadFresh).enterWaking.startTimers.startFlasher) := rfl

end Sys2Proof.Machine
end

