-- ==== Sys2Proof/Laws/State.lean ====
section
/-! SUPPORT. What each named update of the state does to each field of it; true by unfolding, so that no proof needs to. -/

namespace Sys2Proof.Machine
open Sys2Proof

variable (s : State)

/-! ### State.emit -/

@[simp] theorem State.emit_pending (t : Notice) : (s.emit t).pending = s.pending := rfl
@[simp] theorem State.emit_notices (t : Notice) : (s.emit t).notices = s.notices ++ [t] := rfl
@[simp] theorem State.emit_draws (t : Notice) : (s.emit t).draws = s.draws := rfl
@[simp] theorem State.emit_pins (t : Notice) : (s.emit t).pins = s.pins := rfl
@[simp] theorem State.emit_loader (t : Notice) : (s.emit t).loader = s.loader := rfl
@[simp] theorem State.emit_link (t : Notice) : (s.emit t).link = s.link := rfl
@[simp] theorem State.emit_presence (t : Notice) : (s.emit t).presence = s.presence := rfl
@[simp] theorem State.emit_ctl (t : Notice) : (s.emit t).ctl = s.ctl := rfl
@[simp] theorem State.emit_chamber (t : Notice) : (s.emit t).chamber = s.chamber := rfl
@[simp] theorem State.emit_drive (t : Notice) : (s.emit t).drive = s.drive := rfl
@[simp] theorem State.emit_lowerUnit (t : Notice) : (s.emit t).lowerUnit = s.lowerUnit := rfl
@[simp] theorem State.emit_headUnit (t : Notice) : (s.emit t).headUnit = s.headUnit := rfl
@[simp] theorem State.emit_onward (t : Notice) : (s.emit t).onward = s.onward := rfl
@[simp] theorem State.emit_approach (t : Notice) : (s.emit t).approach = s.approach := rfl
@[simp] theorem State.emit_token (t : Notice) : (s.emit t).token = s.token := rfl
@[simp] theorem State.emit_store (t : Notice) : (s.emit t).store = s.store := rfl
@[simp] theorem State.emit_vessels (t : Notice) : (s.emit t).vessels = s.vessels := rfl
@[simp] theorem State.emit_tariff (t : Notice) : (s.emit t).tariff = s.tariff := rfl
@[simp] theorem State.emit_toll (t : Notice) : (s.emit t).toll = s.toll := rfl
@[simp] theorem State.emit_fault (t : Notice) : (s.emit t).fault = s.fault := rfl
@[simp] theorem State.emit_flasherOn (t : Notice) : (s.emit t).flasherOn = s.flasherOn := rfl
@[simp] theorem State.emit_flasherTimer (t : Notice) : (s.emit t).flasherTimer = s.flasherTimer := rfl

/-! ### State.emits -/

@[simp] theorem State.emits_pending (ts : List Notice) : (s.emits ts).pending = s.pending := rfl
@[simp] theorem State.emits_notices (ts : List Notice) : (s.emits ts).notices = s.notices ++ ts := rfl
@[simp] theorem State.emits_draws (ts : List Notice) : (s.emits ts).draws = s.draws := rfl
@[simp] theorem State.emits_pins (ts : List Notice) : (s.emits ts).pins = s.pins := rfl
@[simp] theorem State.emits_loader (ts : List Notice) : (s.emits ts).loader = s.loader := rfl
@[simp] theorem State.emits_link (ts : List Notice) : (s.emits ts).link = s.link := rfl
@[simp] theorem State.emits_presence (ts : List Notice) : (s.emits ts).presence = s.presence := rfl
@[simp] theorem State.emits_ctl (ts : List Notice) : (s.emits ts).ctl = s.ctl := rfl
@[simp] theorem State.emits_chamber (ts : List Notice) : (s.emits ts).chamber = s.chamber := rfl
@[simp] theorem State.emits_drive (ts : List Notice) : (s.emits ts).drive = s.drive := rfl
@[simp] theorem State.emits_lowerUnit (ts : List Notice) : (s.emits ts).lowerUnit = s.lowerUnit := rfl
@[simp] theorem State.emits_headUnit (ts : List Notice) : (s.emits ts).headUnit = s.headUnit := rfl
@[simp] theorem State.emits_onward (ts : List Notice) : (s.emits ts).onward = s.onward := rfl
@[simp] theorem State.emits_approach (ts : List Notice) : (s.emits ts).approach = s.approach := rfl
@[simp] theorem State.emits_token (ts : List Notice) : (s.emits ts).token = s.token := rfl
@[simp] theorem State.emits_store (ts : List Notice) : (s.emits ts).store = s.store := rfl
@[simp] theorem State.emits_vessels (ts : List Notice) : (s.emits ts).vessels = s.vessels := rfl
@[simp] theorem State.emits_tariff (ts : List Notice) : (s.emits ts).tariff = s.tariff := rfl
@[simp] theorem State.emits_toll (ts : List Notice) : (s.emits ts).toll = s.toll := rfl
@[simp] theorem State.emits_fault (ts : List Notice) : (s.emits ts).fault = s.fault := rfl
@[simp] theorem State.emits_flasherOn (ts : List Notice) : (s.emits ts).flasherOn = s.flasherOn := rfl
@[simp] theorem State.emits_flasherTimer (ts : List Notice) : (s.emits ts).flasherTimer = s.flasherTimer := rfl

/-! ### State.setElement -/

@[simp] theorem State.setElement_pending (e : Element) (x : ElementState) : (s.setElement e x).pending = s.pending :=
  rfl
@[simp] theorem State.setElement_notices (e : Element) (x : ElementState) : (s.setElement e x).notices = s.notices :=
  rfl
@[simp] theorem State.setElement_draws (e : Element) (x : ElementState) : (s.setElement e x).draws = s.draws := rfl
@[simp] theorem State.setElement_pins (e : Element) (x : ElementState) : (s.setElement e x).pins = s.pins := rfl
@[simp] theorem State.setElement_loader (e : Element) (x : ElementState) : (s.setElement e x).loader = s.loader := rfl
@[simp] theorem State.setElement_link (e : Element) (x : ElementState) : (s.setElement e x).link = s.link := rfl
@[simp] theorem State.setElement_presence (e : Element) (x : ElementState) : (s.setElement e x).presence = s.presence :=
  rfl
@[simp] theorem State.setElement_ctl (e : Element) (x : ElementState) : (s.setElement e x).ctl = s.ctl := rfl
@[simp] theorem State.setElement_chamber (e : Element) (x : ElementState) : (s.setElement e x).chamber = s.chamber :=
  rfl
@[simp] theorem State.setElement_drive (e : Element) (x : ElementState) : (s.setElement e x).drive = { s.drive with elements := s.drive.elements.set (elementIdx e) x } :=
  rfl
@[simp] theorem State.setElement_lowerUnit (e : Element) (x : ElementState) : (s.setElement e x).lowerUnit = s.lowerUnit :=
  rfl
@[simp] theorem State.setElement_headUnit (e : Element) (x : ElementState) : (s.setElement e x).headUnit = s.headUnit :=
  rfl
@[simp] theorem State.setElement_onward (e : Element) (x : ElementState) : (s.setElement e x).onward = s.onward := rfl
@[simp] theorem State.setElement_approach (e : Element) (x : ElementState) : (s.setElement e x).approach = s.approach :=
  rfl
@[simp] theorem State.setElement_token (e : Element) (x : ElementState) : (s.setElement e x).token = s.token := rfl
@[simp] theorem State.setElement_store (e : Element) (x : ElementState) : (s.setElement e x).store = s.store := rfl
@[simp] theorem State.setElement_vessels (e : Element) (x : ElementState) : (s.setElement e x).vessels = s.vessels :=
  rfl
@[simp] theorem State.setElement_tariff (e : Element) (x : ElementState) : (s.setElement e x).tariff = s.tariff := rfl
@[simp] theorem State.setElement_toll (e : Element) (x : ElementState) : (s.setElement e x).toll = s.toll := rfl
@[simp] theorem State.setElement_fault (e : Element) (x : ElementState) : (s.setElement e x).fault = s.fault := rfl
@[simp] theorem State.setElement_flasherOn (e : Element) (x : ElementState) : (s.setElement e x).flasherOn = s.flasherOn :=
  rfl
@[simp] theorem State.setElement_flasherTimer (e : Element) (x : ElementState) : (s.setElement e x).flasherTimer = s.flasherTimer :=
  rfl

/-! ### State.setSlot -/

@[simp] theorem State.setSlot_pending (a : Source) (m : Option Motion) : (s.setSlot a m).pending = s.pending := rfl
@[simp] theorem State.setSlot_notices (a : Source) (m : Option Motion) : (s.setSlot a m).notices = s.notices := rfl
@[simp] theorem State.setSlot_draws (a : Source) (m : Option Motion) : (s.setSlot a m).draws = s.draws := rfl
@[simp] theorem State.setSlot_pins (a : Source) (m : Option Motion) : (s.setSlot a m).pins = s.pins := rfl
@[simp] theorem State.setSlot_loader (a : Source) (m : Option Motion) : (s.setSlot a m).loader = s.loader := rfl
@[simp] theorem State.setSlot_link (a : Source) (m : Option Motion) : (s.setSlot a m).link = s.link := rfl
@[simp] theorem State.setSlot_presence (a : Source) (m : Option Motion) : (s.setSlot a m).presence = s.presence := rfl
@[simp] theorem State.setSlot_ctl (a : Source) (m : Option Motion) : (s.setSlot a m).ctl = s.ctl := rfl
@[simp] theorem State.setSlot_chamber (a : Source) (m : Option Motion) : (s.setSlot a m).chamber = s.chamber := rfl
@[simp] theorem State.setSlot_drive (a : Source) (m : Option Motion) : (s.setSlot a m).drive = { s.drive with slots := s.drive.slots.set (sourceIdx a) m } :=
  rfl
@[simp] theorem State.setSlot_lowerUnit (a : Source) (m : Option Motion) : (s.setSlot a m).lowerUnit = s.lowerUnit :=
  rfl
@[simp] theorem State.setSlot_headUnit (a : Source) (m : Option Motion) : (s.setSlot a m).headUnit = s.headUnit := rfl
@[simp] theorem State.setSlot_onward (a : Source) (m : Option Motion) : (s.setSlot a m).onward = s.onward := rfl
@[simp] theorem State.setSlot_approach (a : Source) (m : Option Motion) : (s.setSlot a m).approach = s.approach := rfl
@[simp] theorem State.setSlot_token (a : Source) (m : Option Motion) : (s.setSlot a m).token = s.token := rfl
@[simp] theorem State.setSlot_store (a : Source) (m : Option Motion) : (s.setSlot a m).store = s.store := rfl
@[simp] theorem State.setSlot_vessels (a : Source) (m : Option Motion) : (s.setSlot a m).vessels = s.vessels := rfl
@[simp] theorem State.setSlot_tariff (a : Source) (m : Option Motion) : (s.setSlot a m).tariff = s.tariff := rfl
@[simp] theorem State.setSlot_toll (a : Source) (m : Option Motion) : (s.setSlot a m).toll = s.toll := rfl
@[simp] theorem State.setSlot_fault (a : Source) (m : Option Motion) : (s.setSlot a m).fault = s.fault := rfl
@[simp] theorem State.setSlot_flasherOn (a : Source) (m : Option Motion) : (s.setSlot a m).flasherOn = s.flasherOn :=
  rfl
@[simp] theorem State.setSlot_flasherTimer (a : Source) (m : Option Motion) : (s.setSlot a m).flasherTimer = s.flasherTimer :=
  rfl

/-! ### State.setStack -/

@[simp] theorem State.setStack_pending (l : List Source) : (s.setStack l).pending = s.pending := rfl
@[simp] theorem State.setStack_notices (l : List Source) : (s.setStack l).notices = s.notices := rfl
@[simp] theorem State.setStack_draws (l : List Source) : (s.setStack l).draws = s.draws := rfl
@[simp] theorem State.setStack_pins (l : List Source) : (s.setStack l).pins = s.pins := rfl
@[simp] theorem State.setStack_loader (l : List Source) : (s.setStack l).loader = s.loader := rfl
@[simp] theorem State.setStack_link (l : List Source) : (s.setStack l).link = s.link := rfl
@[simp] theorem State.setStack_presence (l : List Source) : (s.setStack l).presence = s.presence := rfl
@[simp] theorem State.setStack_ctl (l : List Source) : (s.setStack l).ctl = s.ctl := rfl
@[simp] theorem State.setStack_chamber (l : List Source) : (s.setStack l).chamber = s.chamber := rfl
@[simp] theorem State.setStack_drive (l : List Source) : (s.setStack l).drive = { s.drive with stack := l } := rfl
@[simp] theorem State.setStack_lowerUnit (l : List Source) : (s.setStack l).lowerUnit = s.lowerUnit := rfl
@[simp] theorem State.setStack_headUnit (l : List Source) : (s.setStack l).headUnit = s.headUnit := rfl
@[simp] theorem State.setStack_onward (l : List Source) : (s.setStack l).onward = s.onward := rfl
@[simp] theorem State.setStack_approach (l : List Source) : (s.setStack l).approach = s.approach := rfl
@[simp] theorem State.setStack_token (l : List Source) : (s.setStack l).token = s.token := rfl
@[simp] theorem State.setStack_store (l : List Source) : (s.setStack l).store = s.store := rfl
@[simp] theorem State.setStack_vessels (l : List Source) : (s.setStack l).vessels = s.vessels := rfl
@[simp] theorem State.setStack_tariff (l : List Source) : (s.setStack l).tariff = s.tariff := rfl
@[simp] theorem State.setStack_toll (l : List Source) : (s.setStack l).toll = s.toll := rfl
@[simp] theorem State.setStack_fault (l : List Source) : (s.setStack l).fault = s.fault := rfl
@[simp] theorem State.setStack_flasherOn (l : List Source) : (s.setStack l).flasherOn = s.flasherOn := rfl
@[simp] theorem State.setStack_flasherTimer (l : List Source) : (s.setStack l).flasherTimer = s.flasherTimer := rfl

/-! ### State.dropEntry -/

@[simp] theorem State.dropEntry_pending (t : Nat) : (s.dropEntry t).pending = s.pending := rfl
@[simp] theorem State.dropEntry_notices (t : Nat) : (s.dropEntry t).notices = s.notices := rfl
@[simp] theorem State.dropEntry_draws (t : Nat) : (s.dropEntry t).draws = s.draws := rfl
@[simp] theorem State.dropEntry_pins (t : Nat) : (s.dropEntry t).pins = s.pins := rfl
@[simp] theorem State.dropEntry_loader (t : Nat) : (s.dropEntry t).loader = s.loader := rfl
@[simp] theorem State.dropEntry_link (t : Nat) : (s.dropEntry t).link = { s.link with entries := s.link.entries.filter (fun e => e.tag ≠ t) } :=
  rfl
@[simp] theorem State.dropEntry_presence (t : Nat) : (s.dropEntry t).presence = s.presence := rfl
@[simp] theorem State.dropEntry_ctl (t : Nat) : (s.dropEntry t).ctl = s.ctl := rfl
@[simp] theorem State.dropEntry_chamber (t : Nat) : (s.dropEntry t).chamber = s.chamber := rfl
@[simp] theorem State.dropEntry_drive (t : Nat) : (s.dropEntry t).drive = s.drive := rfl
@[simp] theorem State.dropEntry_lowerUnit (t : Nat) : (s.dropEntry t).lowerUnit = s.lowerUnit := rfl
@[simp] theorem State.dropEntry_headUnit (t : Nat) : (s.dropEntry t).headUnit = s.headUnit := rfl
@[simp] theorem State.dropEntry_onward (t : Nat) : (s.dropEntry t).onward = s.onward := rfl
@[simp] theorem State.dropEntry_approach (t : Nat) : (s.dropEntry t).approach = s.approach := rfl
@[simp] theorem State.dropEntry_token (t : Nat) : (s.dropEntry t).token = s.token := rfl
@[simp] theorem State.dropEntry_store (t : Nat) : (s.dropEntry t).store = s.store := rfl
@[simp] theorem State.dropEntry_vessels (t : Nat) : (s.dropEntry t).vessels = s.vessels := rfl
@[simp] theorem State.dropEntry_tariff (t : Nat) : (s.dropEntry t).tariff = s.tariff := rfl
@[simp] theorem State.dropEntry_toll (t : Nat) : (s.dropEntry t).toll = s.toll := rfl
@[simp] theorem State.dropEntry_fault (t : Nat) : (s.dropEntry t).fault = s.fault := rfl
@[simp] theorem State.dropEntry_flasherOn (t : Nat) : (s.dropEntry t).flasherOn = s.flasherOn := rfl
@[simp] theorem State.dropEntry_flasherTimer (t : Nat) : (s.dropEntry t).flasherTimer = s.flasherTimer := rfl

/-! ### State.setWidenSlot -/

@[simp] theorem State.setWidenSlot_pending (a : Addr) (w : WidenSlot) : (s.setWidenSlot a w).pending = s.pending := rfl
@[simp] theorem State.setWidenSlot_notices (a : Addr) (w : WidenSlot) : (s.setWidenSlot a w).notices = s.notices := rfl
@[simp] theorem State.setWidenSlot_draws (a : Addr) (w : WidenSlot) : (s.setWidenSlot a w).draws = s.draws := rfl
@[simp] theorem State.setWidenSlot_pins (a : Addr) (w : WidenSlot) : (s.setWidenSlot a w).pins = s.pins := rfl
@[simp] theorem State.setWidenSlot_loader (a : Addr) (w : WidenSlot) : (s.setWidenSlot a w).loader = s.loader := rfl
@[simp] theorem State.setWidenSlot_link (a : Addr) (w : WidenSlot) : (s.setWidenSlot a w).link = { s.link with widenSlots := s.link.widenSlots.set (partyIdx (partyOf a)) w } :=
  rfl
@[simp] theorem State.setWidenSlot_presence (a : Addr) (w : WidenSlot) : (s.setWidenSlot a w).presence = s.presence :=
  rfl
@[simp] theorem State.setWidenSlot_ctl (a : Addr) (w : WidenSlot) : (s.setWidenSlot a w).ctl = s.ctl := rfl
@[simp] theorem State.setWidenSlot_chamber (a : Addr) (w : WidenSlot) : (s.setWidenSlot a w).chamber = s.chamber := rfl
@[simp] theorem State.setWidenSlot_drive (a : Addr) (w : WidenSlot) : (s.setWidenSlot a w).drive = s.drive := rfl
@[simp] theorem State.setWidenSlot_lowerUnit (a : Addr) (w : WidenSlot) : (s.setWidenSlot a w).lowerUnit = s.lowerUnit :=
  rfl
@[simp] theorem State.setWidenSlot_headUnit (a : Addr) (w : WidenSlot) : (s.setWidenSlot a w).headUnit = s.headUnit :=
  rfl
@[simp] theorem State.setWidenSlot_onward (a : Addr) (w : WidenSlot) : (s.setWidenSlot a w).onward = s.onward := rfl
@[simp] theorem State.setWidenSlot_approach (a : Addr) (w : WidenSlot) : (s.setWidenSlot a w).approach = s.approach :=
  rfl
@[simp] theorem State.setWidenSlot_token (a : Addr) (w : WidenSlot) : (s.setWidenSlot a w).token = s.token := rfl
@[simp] theorem State.setWidenSlot_store (a : Addr) (w : WidenSlot) : (s.setWidenSlot a w).store = s.store := rfl
@[simp] theorem State.setWidenSlot_vessels (a : Addr) (w : WidenSlot) : (s.setWidenSlot a w).vessels = s.vessels := rfl
@[simp] theorem State.setWidenSlot_tariff (a : Addr) (w : WidenSlot) : (s.setWidenSlot a w).tariff = s.tariff := rfl
@[simp] theorem State.setWidenSlot_toll (a : Addr) (w : WidenSlot) : (s.setWidenSlot a w).toll = s.toll := rfl
@[simp] theorem State.setWidenSlot_fault (a : Addr) (w : WidenSlot) : (s.setWidenSlot a w).fault = s.fault := rfl
@[simp] theorem State.setWidenSlot_flasherOn (a : Addr) (w : WidenSlot) : (s.setWidenSlot a w).flasherOn = s.flasherOn :=
  rfl
@[simp] theorem State.setWidenSlot_flasherTimer (a : Addr) (w : WidenSlot) : (s.setWidenSlot a w).flasherTimer = s.flasherTimer :=
  rfl

/-! ### State.modPresence -/

@[simp] theorem State.modPresence_pending (f : Presence → Presence) : (s.modPresence f).pending = s.pending := rfl
@[simp] theorem State.modPresence_notices (f : Presence → Presence) : (s.modPresence f).notices = s.notices := rfl
@[simp] theorem State.modPresence_draws (f : Presence → Presence) : (s.modPresence f).draws = s.draws := rfl
@[simp] theorem State.modPresence_pins (f : Presence → Presence) : (s.modPresence f).pins = s.pins := rfl
@[simp] theorem State.modPresence_loader (f : Presence → Presence) : (s.modPresence f).loader = s.loader := rfl
@[simp] theorem State.modPresence_link (f : Presence → Presence) : (s.modPresence f).link = s.link := rfl
@[simp] theorem State.modPresence_presence (f : Presence → Presence) : (s.modPresence f).presence = f s.presence := rfl
@[simp] theorem State.modPresence_ctl (f : Presence → Presence) : (s.modPresence f).ctl = s.ctl := rfl
@[simp] theorem State.modPresence_chamber (f : Presence → Presence) : (s.modPresence f).chamber = s.chamber := rfl
@[simp] theorem State.modPresence_drive (f : Presence → Presence) : (s.modPresence f).drive = s.drive := rfl
@[simp] theorem State.modPresence_lowerUnit (f : Presence → Presence) : (s.modPresence f).lowerUnit = s.lowerUnit := rfl
@[simp] theorem State.modPresence_headUnit (f : Presence → Presence) : (s.modPresence f).headUnit = s.headUnit := rfl
@[simp] theorem State.modPresence_onward (f : Presence → Presence) : (s.modPresence f).onward = s.onward := rfl
@[simp] theorem State.modPresence_approach (f : Presence → Presence) : (s.modPresence f).approach = s.approach := rfl
@[simp] theorem State.modPresence_token (f : Presence → Presence) : (s.modPresence f).token = s.token := rfl
@[simp] theorem State.modPresence_store (f : Presence → Presence) : (s.modPresence f).store = s.store := rfl
@[simp] theorem State.modPresence_vessels (f : Presence → Presence) : (s.modPresence f).vessels = s.vessels := rfl
@[simp] theorem State.modPresence_tariff (f : Presence → Presence) : (s.modPresence f).tariff = s.tariff := rfl
@[simp] theorem State.modPresence_toll (f : Presence → Presence) : (s.modPresence f).toll = s.toll := rfl
@[simp] theorem State.modPresence_fault (f : Presence → Presence) : (s.modPresence f).fault = s.fault := rfl
@[simp] theorem State.modPresence_flasherOn (f : Presence → Presence) : (s.modPresence f).flasherOn = s.flasherOn := rfl
@[simp] theorem State.modPresence_flasherTimer (f : Presence → Presence) : (s.modPresence f).flasherTimer = s.flasherTimer :=
  rfl

/-! ### State.modChamber -/

@[simp] theorem State.modChamber_pending (f : Chamber → Chamber) : (s.modChamber f).pending = s.pending := rfl
@[simp] theorem State.modChamber_notices (f : Chamber → Chamber) : (s.modChamber f).notices = s.notices := rfl
@[simp] theorem State.modChamber_draws (f : Chamber → Chamber) : (s.modChamber f).draws = s.draws := rfl
@[simp] theorem State.modChamber_pins (f : Chamber → Chamber) : (s.modChamber f).pins = s.pins := rfl
@[simp] theorem State.modChamber_loader (f : Chamber → Chamber) : (s.modChamber f).loader = s.loader := rfl
@[simp] theorem State.modChamber_link (f : Chamber → Chamber) : (s.modChamber f).link = s.link := rfl
@[simp] theorem State.modChamber_presence (f : Chamber → Chamber) : (s.modChamber f).presence = s.presence := rfl
@[simp] theorem State.modChamber_ctl (f : Chamber → Chamber) : (s.modChamber f).ctl = s.ctl := rfl
@[simp] theorem State.modChamber_chamber (f : Chamber → Chamber) : (s.modChamber f).chamber = f s.chamber := rfl
@[simp] theorem State.modChamber_drive (f : Chamber → Chamber) : (s.modChamber f).drive = s.drive := rfl
@[simp] theorem State.modChamber_lowerUnit (f : Chamber → Chamber) : (s.modChamber f).lowerUnit = s.lowerUnit := rfl
@[simp] theorem State.modChamber_headUnit (f : Chamber → Chamber) : (s.modChamber f).headUnit = s.headUnit := rfl
@[simp] theorem State.modChamber_onward (f : Chamber → Chamber) : (s.modChamber f).onward = s.onward := rfl
@[simp] theorem State.modChamber_approach (f : Chamber → Chamber) : (s.modChamber f).approach = s.approach := rfl
@[simp] theorem State.modChamber_token (f : Chamber → Chamber) : (s.modChamber f).token = s.token := rfl
@[simp] theorem State.modChamber_store (f : Chamber → Chamber) : (s.modChamber f).store = s.store := rfl
@[simp] theorem State.modChamber_vessels (f : Chamber → Chamber) : (s.modChamber f).vessels = s.vessels := rfl
@[simp] theorem State.modChamber_tariff (f : Chamber → Chamber) : (s.modChamber f).tariff = s.tariff := rfl
@[simp] theorem State.modChamber_toll (f : Chamber → Chamber) : (s.modChamber f).toll = s.toll := rfl
@[simp] theorem State.modChamber_fault (f : Chamber → Chamber) : (s.modChamber f).fault = s.fault := rfl
@[simp] theorem State.modChamber_flasherOn (f : Chamber → Chamber) : (s.modChamber f).flasherOn = s.flasherOn := rfl
@[simp] theorem State.modChamber_flasherTimer (f : Chamber → Chamber) : (s.modChamber f).flasherTimer = s.flasherTimer :=
  rfl

/-! ### State.setLocalPhase -/

@[simp] theorem State.setLocalPhase_pending (p : LocalPhase) : (s.setLocalPhase p).pending = s.pending := rfl
@[simp] theorem State.setLocalPhase_notices (p : LocalPhase) : (s.setLocalPhase p).notices = s.notices := rfl
@[simp] theorem State.setLocalPhase_draws (p : LocalPhase) : (s.setLocalPhase p).draws = s.draws := rfl
@[simp] theorem State.setLocalPhase_pins (p : LocalPhase) : (s.setLocalPhase p).pins = s.pins := rfl
@[simp] theorem State.setLocalPhase_loader (p : LocalPhase) : (s.setLocalPhase p).loader = s.loader := rfl
@[simp] theorem State.setLocalPhase_link (p : LocalPhase) : (s.setLocalPhase p).link = s.link := rfl
@[simp] theorem State.setLocalPhase_presence (p : LocalPhase) : (s.setLocalPhase p).presence = s.presence := rfl
@[simp] theorem State.setLocalPhase_ctl (p : LocalPhase) : (s.setLocalPhase p).ctl = { s.ctl with localPhase := p } :=
  rfl
@[simp] theorem State.setLocalPhase_chamber (p : LocalPhase) : (s.setLocalPhase p).chamber = s.chamber := rfl
@[simp] theorem State.setLocalPhase_drive (p : LocalPhase) : (s.setLocalPhase p).drive = s.drive := rfl
@[simp] theorem State.setLocalPhase_lowerUnit (p : LocalPhase) : (s.setLocalPhase p).lowerUnit = s.lowerUnit := rfl
@[simp] theorem State.setLocalPhase_headUnit (p : LocalPhase) : (s.setLocalPhase p).headUnit = s.headUnit := rfl
@[simp] theorem State.setLocalPhase_onward (p : LocalPhase) : (s.setLocalPhase p).onward = s.onward := rfl
@[simp] theorem State.setLocalPhase_approach (p : LocalPhase) : (s.setLocalPhase p).approach = s.approach := rfl
@[simp] theorem State.setLocalPhase_token (p : LocalPhase) : (s.setLocalPhase p).token = s.token := rfl
@[simp] theorem State.setLocalPhase_store (p : LocalPhase) : (s.setLocalPhase p).store = s.store := rfl
@[simp] theorem State.setLocalPhase_vessels (p : LocalPhase) : (s.setLocalPhase p).vessels = s.vessels := rfl
@[simp] theorem State.setLocalPhase_tariff (p : LocalPhase) : (s.setLocalPhase p).tariff = s.tariff := rfl
@[simp] theorem State.setLocalPhase_toll (p : LocalPhase) : (s.setLocalPhase p).toll = s.toll := rfl
@[simp] theorem State.setLocalPhase_fault (p : LocalPhase) : (s.setLocalPhase p).fault = s.fault := rfl
@[simp] theorem State.setLocalPhase_flasherOn (p : LocalPhase) : (s.setLocalPhase p).flasherOn = s.flasherOn := rfl
@[simp] theorem State.setLocalPhase_flasherTimer (p : LocalPhase) : (s.setLocalPhase p).flasherTimer = s.flasherTimer :=
  rfl

/-! ### State.modOnward -/

@[simp] theorem State.modOnward_pending (f : Onward → Onward) : (s.modOnward f).pending = s.pending := rfl
@[simp] theorem State.modOnward_notices (f : Onward → Onward) : (s.modOnward f).notices = s.notices := rfl
@[simp] theorem State.modOnward_draws (f : Onward → Onward) : (s.modOnward f).draws = s.draws := rfl
@[simp] theorem State.modOnward_pins (f : Onward → Onward) : (s.modOnward f).pins = s.pins := rfl
@[simp] theorem State.modOnward_loader (f : Onward → Onward) : (s.modOnward f).loader = s.loader := rfl
@[simp] theorem State.modOnward_link (f : Onward → Onward) : (s.modOnward f).link = s.link := rfl
@[simp] theorem State.modOnward_presence (f : Onward → Onward) : (s.modOnward f).presence = s.presence := rfl
@[simp] theorem State.modOnward_ctl (f : Onward → Onward) : (s.modOnward f).ctl = s.ctl := rfl
@[simp] theorem State.modOnward_chamber (f : Onward → Onward) : (s.modOnward f).chamber = s.chamber := rfl
@[simp] theorem State.modOnward_drive (f : Onward → Onward) : (s.modOnward f).drive = s.drive := rfl
@[simp] theorem State.modOnward_lowerUnit (f : Onward → Onward) : (s.modOnward f).lowerUnit = s.lowerUnit := rfl
@[simp] theorem State.modOnward_headUnit (f : Onward → Onward) : (s.modOnward f).headUnit = s.headUnit := rfl
@[simp] theorem State.modOnward_onward (f : Onward → Onward) : (s.modOnward f).onward = f s.onward := rfl
@[simp] theorem State.modOnward_approach (f : Onward → Onward) : (s.modOnward f).approach = s.approach := rfl
@[simp] theorem State.modOnward_token (f : Onward → Onward) : (s.modOnward f).token = s.token := rfl
@[simp] theorem State.modOnward_store (f : Onward → Onward) : (s.modOnward f).store = s.store := rfl
@[simp] theorem State.modOnward_vessels (f : Onward → Onward) : (s.modOnward f).vessels = s.vessels := rfl
@[simp] theorem State.modOnward_tariff (f : Onward → Onward) : (s.modOnward f).tariff = s.tariff := rfl
@[simp] theorem State.modOnward_toll (f : Onward → Onward) : (s.modOnward f).toll = s.toll := rfl
@[simp] theorem State.modOnward_fault (f : Onward → Onward) : (s.modOnward f).fault = s.fault := rfl
@[simp] theorem State.modOnward_flasherOn (f : Onward → Onward) : (s.modOnward f).flasherOn = s.flasherOn := rfl
@[simp] theorem State.modOnward_flasherTimer (f : Onward → Onward) : (s.modOnward f).flasherTimer = s.flasherTimer :=
  rfl

/-! ### State.modApproach -/

@[simp] theorem State.modApproach_pending (f : Approach → Approach) : (s.modApproach f).pending = s.pending := rfl
@[simp] theorem State.modApproach_notices (f : Approach → Approach) : (s.modApproach f).notices = s.notices := rfl
@[simp] theorem State.modApproach_draws (f : Approach → Approach) : (s.modApproach f).draws = s.draws := rfl
@[simp] theorem State.modApproach_pins (f : Approach → Approach) : (s.modApproach f).pins = s.pins := rfl
@[simp] theorem State.modApproach_loader (f : Approach → Approach) : (s.modApproach f).loader = s.loader := rfl
@[simp] theorem State.modApproach_link (f : Approach → Approach) : (s.modApproach f).link = s.link := rfl
@[simp] theorem State.modApproach_presence (f : Approach → Approach) : (s.modApproach f).presence = s.presence := rfl
@[simp] theorem State.modApproach_ctl (f : Approach → Approach) : (s.modApproach f).ctl = s.ctl := rfl
@[simp] theorem State.modApproach_chamber (f : Approach → Approach) : (s.modApproach f).chamber = s.chamber := rfl
@[simp] theorem State.modApproach_drive (f : Approach → Approach) : (s.modApproach f).drive = s.drive := rfl
@[simp] theorem State.modApproach_lowerUnit (f : Approach → Approach) : (s.modApproach f).lowerUnit = s.lowerUnit := rfl
@[simp] theorem State.modApproach_headUnit (f : Approach → Approach) : (s.modApproach f).headUnit = s.headUnit := rfl
@[simp] theorem State.modApproach_onward (f : Approach → Approach) : (s.modApproach f).onward = s.onward := rfl
@[simp] theorem State.modApproach_approach (f : Approach → Approach) : (s.modApproach f).approach = f s.approach := rfl
@[simp] theorem State.modApproach_token (f : Approach → Approach) : (s.modApproach f).token = s.token := rfl
@[simp] theorem State.modApproach_store (f : Approach → Approach) : (s.modApproach f).store = s.store := rfl
@[simp] theorem State.modApproach_vessels (f : Approach → Approach) : (s.modApproach f).vessels = s.vessels := rfl
@[simp] theorem State.modApproach_tariff (f : Approach → Approach) : (s.modApproach f).tariff = s.tariff := rfl
@[simp] theorem State.modApproach_toll (f : Approach → Approach) : (s.modApproach f).toll = s.toll := rfl
@[simp] theorem State.modApproach_fault (f : Approach → Approach) : (s.modApproach f).fault = s.fault := rfl
@[simp] theorem State.modApproach_flasherOn (f : Approach → Approach) : (s.modApproach f).flasherOn = s.flasherOn := rfl
@[simp] theorem State.modApproach_flasherTimer (f : Approach → Approach) : (s.modApproach f).flasherTimer = s.flasherTimer :=
  rfl

/-! ### State.setHoldEntry -/

@[simp] theorem State.setHoldEntry_pending (p : Party) (e : HoldEntry) : (s.setHoldEntry p e).pending = s.pending := rfl
@[simp] theorem State.setHoldEntry_notices (p : Party) (e : HoldEntry) : (s.setHoldEntry p e).notices = s.notices := rfl
@[simp] theorem State.setHoldEntry_draws (p : Party) (e : HoldEntry) : (s.setHoldEntry p e).draws = s.draws := rfl
@[simp] theorem State.setHoldEntry_pins (p : Party) (e : HoldEntry) : (s.setHoldEntry p e).pins = s.pins := rfl
@[simp] theorem State.setHoldEntry_loader (p : Party) (e : HoldEntry) : (s.setHoldEntry p e).loader = s.loader := rfl
@[simp] theorem State.setHoldEntry_link (p : Party) (e : HoldEntry) : (s.setHoldEntry p e).link = s.link := rfl
@[simp] theorem State.setHoldEntry_presence (p : Party) (e : HoldEntry) : (s.setHoldEntry p e).presence = s.presence :=
  rfl
@[simp] theorem State.setHoldEntry_ctl (p : Party) (e : HoldEntry) : (s.setHoldEntry p e).ctl = s.ctl := rfl
@[simp] theorem State.setHoldEntry_chamber (p : Party) (e : HoldEntry) : (s.setHoldEntry p e).chamber = s.chamber := rfl
@[simp] theorem State.setHoldEntry_drive (p : Party) (e : HoldEntry) : (s.setHoldEntry p e).drive = s.drive := rfl
@[simp] theorem State.setHoldEntry_lowerUnit (p : Party) (e : HoldEntry) : (s.setHoldEntry p e).lowerUnit = s.lowerUnit :=
  rfl
@[simp] theorem State.setHoldEntry_headUnit (p : Party) (e : HoldEntry) : (s.setHoldEntry p e).headUnit = s.headUnit :=
  rfl
@[simp] theorem State.setHoldEntry_onward (p : Party) (e : HoldEntry) : (s.setHoldEntry p e).onward = s.onward := rfl
@[simp] theorem State.setHoldEntry_approach (p : Party) (e : HoldEntry) : (s.setHoldEntry p e).approach = { s.approach with holds := s.approach.holds.set (partyIdx p) e } :=
  rfl
@[simp] theorem State.setHoldEntry_token (p : Party) (e : HoldEntry) : (s.setHoldEntry p e).token = s.token := rfl
@[simp] theorem State.setHoldEntry_store (p : Party) (e : HoldEntry) : (s.setHoldEntry p e).store = s.store := rfl
@[simp] theorem State.setHoldEntry_vessels (p : Party) (e : HoldEntry) : (s.setHoldEntry p e).vessels = s.vessels := rfl
@[simp] theorem State.setHoldEntry_tariff (p : Party) (e : HoldEntry) : (s.setHoldEntry p e).tariff = s.tariff := rfl
@[simp] theorem State.setHoldEntry_toll (p : Party) (e : HoldEntry) : (s.setHoldEntry p e).toll = s.toll := rfl
@[simp] theorem State.setHoldEntry_fault (p : Party) (e : HoldEntry) : (s.setHoldEntry p e).fault = s.fault := rfl
@[simp] theorem State.setHoldEntry_flasherOn (p : Party) (e : HoldEntry) : (s.setHoldEntry p e).flasherOn = s.flasherOn :=
  rfl
@[simp] theorem State.setHoldEntry_flasherTimer (p : Party) (e : HoldEntry) : (s.setHoldEntry p e).flasherTimer = s.flasherTimer :=
  rfl

/-! ### State.modToken -/

@[simp] theorem State.modToken_pending (f : Token → Token) : (s.modToken f).pending = s.pending := rfl
@[simp] theorem State.modToken_notices (f : Token → Token) : (s.modToken f).notices = s.notices := rfl
@[simp] theorem State.modToken_draws (f : Token → Token) : (s.modToken f).draws = s.draws := rfl
@[simp] theorem State.modToken_pins (f : Token → Token) : (s.modToken f).pins = s.pins := rfl
@[simp] theorem State.modToken_loader (f : Token → Token) : (s.modToken f).loader = s.loader := rfl
@[simp] theorem State.modToken_link (f : Token → Token) : (s.modToken f).link = s.link := rfl
@[simp] theorem State.modToken_presence (f : Token → Token) : (s.modToken f).presence = s.presence := rfl
@[simp] theorem State.modToken_ctl (f : Token → Token) : (s.modToken f).ctl = s.ctl := rfl
@[simp] theorem State.modToken_chamber (f : Token → Token) : (s.modToken f).chamber = s.chamber := rfl
@[simp] theorem State.modToken_drive (f : Token → Token) : (s.modToken f).drive = s.drive := rfl
@[simp] theorem State.modToken_lowerUnit (f : Token → Token) : (s.modToken f).lowerUnit = s.lowerUnit := rfl
@[simp] theorem State.modToken_headUnit (f : Token → Token) : (s.modToken f).headUnit = s.headUnit := rfl
@[simp] theorem State.modToken_onward (f : Token → Token) : (s.modToken f).onward = s.onward := rfl
@[simp] theorem State.modToken_approach (f : Token → Token) : (s.modToken f).approach = s.approach := rfl
@[simp] theorem State.modToken_token (f : Token → Token) : (s.modToken f).token = f s.token := rfl
@[simp] theorem State.modToken_store (f : Token → Token) : (s.modToken f).store = s.store := rfl
@[simp] theorem State.modToken_vessels (f : Token → Token) : (s.modToken f).vessels = s.vessels := rfl
@[simp] theorem State.modToken_tariff (f : Token → Token) : (s.modToken f).tariff = s.tariff := rfl
@[simp] theorem State.modToken_toll (f : Token → Token) : (s.modToken f).toll = s.toll := rfl
@[simp] theorem State.modToken_fault (f : Token → Token) : (s.modToken f).fault = s.fault := rfl
@[simp] theorem State.modToken_flasherOn (f : Token → Token) : (s.modToken f).flasherOn = s.flasherOn := rfl
@[simp] theorem State.modToken_flasherTimer (f : Token → Token) : (s.modToken f).flasherTimer = s.flasherTimer := rfl

/-! ### State.modInbound -/

@[simp] theorem State.modInbound_pending (f : Inbound → Inbound) : (s.modInbound f).pending = s.pending := rfl
@[simp] theorem State.modInbound_notices (f : Inbound → Inbound) : (s.modInbound f).notices = s.notices := rfl
@[simp] theorem State.modInbound_draws (f : Inbound → Inbound) : (s.modInbound f).draws = s.draws := rfl
@[simp] theorem State.modInbound_pins (f : Inbound → Inbound) : (s.modInbound f).pins = s.pins := rfl
@[simp] theorem State.modInbound_loader (f : Inbound → Inbound) : (s.modInbound f).loader = s.loader := rfl
@[simp] theorem State.modInbound_link (f : Inbound → Inbound) : (s.modInbound f).link = s.link := rfl
@[simp] theorem State.modInbound_presence (f : Inbound → Inbound) : (s.modInbound f).presence = s.presence := rfl
@[simp] theorem State.modInbound_ctl (f : Inbound → Inbound) : (s.modInbound f).ctl = s.ctl := rfl
@[simp] theorem State.modInbound_chamber (f : Inbound → Inbound) : (s.modInbound f).chamber = s.chamber := rfl
@[simp] theorem State.modInbound_drive (f : Inbound → Inbound) : (s.modInbound f).drive = s.drive := rfl
@[simp] theorem State.modInbound_lowerUnit (f : Inbound → Inbound) : (s.modInbound f).lowerUnit = s.lowerUnit := rfl
@[simp] theorem State.modInbound_headUnit (f : Inbound → Inbound) : (s.modInbound f).headUnit = s.headUnit := rfl
@[simp] theorem State.modInbound_onward (f : Inbound → Inbound) : (s.modInbound f).onward = s.onward := rfl
@[simp] theorem State.modInbound_approach (f : Inbound → Inbound) : (s.modInbound f).approach = s.approach := rfl
@[simp] theorem State.modInbound_token (f : Inbound → Inbound) : (s.modInbound f).token = s.token := rfl
@[simp] theorem State.modInbound_store (f : Inbound → Inbound) : (s.modInbound f).store = { s.store with inbound := f s.store.inbound } :=
  rfl
@[simp] theorem State.modInbound_vessels (f : Inbound → Inbound) : (s.modInbound f).vessels = s.vessels := rfl
@[simp] theorem State.modInbound_tariff (f : Inbound → Inbound) : (s.modInbound f).tariff = s.tariff := rfl
@[simp] theorem State.modInbound_toll (f : Inbound → Inbound) : (s.modInbound f).toll = s.toll := rfl
@[simp] theorem State.modInbound_fault (f : Inbound → Inbound) : (s.modInbound f).fault = s.fault := rfl
@[simp] theorem State.modInbound_flasherOn (f : Inbound → Inbound) : (s.modInbound f).flasherOn = s.flasherOn := rfl
@[simp] theorem State.modInbound_flasherTimer (f : Inbound → Inbound) : (s.modInbound f).flasherTimer = s.flasherTimer :=
  rfl

/-! ### State.setStream -/

@[simp] theorem State.setStream_pending (x : Option Stream) : (s.setStream x).pending = s.pending := rfl
@[simp] theorem State.setStream_notices (x : Option Stream) : (s.setStream x).notices = s.notices := rfl
@[simp] theorem State.setStream_draws (x : Option Stream) : (s.setStream x).draws = s.draws := rfl
@[simp] theorem State.setStream_pins (x : Option Stream) : (s.setStream x).pins = s.pins := rfl
@[simp] theorem State.setStream_loader (x : Option Stream) : (s.setStream x).loader = s.loader := rfl
@[simp] theorem State.setStream_link (x : Option Stream) : (s.setStream x).link = s.link := rfl
@[simp] theorem State.setStream_presence (x : Option Stream) : (s.setStream x).presence = s.presence := rfl
@[simp] theorem State.setStream_ctl (x : Option Stream) : (s.setStream x).ctl = s.ctl := rfl
@[simp] theorem State.setStream_chamber (x : Option Stream) : (s.setStream x).chamber = s.chamber := rfl
@[simp] theorem State.setStream_drive (x : Option Stream) : (s.setStream x).drive = s.drive := rfl
@[simp] theorem State.setStream_lowerUnit (x : Option Stream) : (s.setStream x).lowerUnit = s.lowerUnit := rfl
@[simp] theorem State.setStream_headUnit (x : Option Stream) : (s.setStream x).headUnit = s.headUnit := rfl
@[simp] theorem State.setStream_onward (x : Option Stream) : (s.setStream x).onward = s.onward := rfl
@[simp] theorem State.setStream_approach (x : Option Stream) : (s.setStream x).approach = s.approach := rfl
@[simp] theorem State.setStream_token (x : Option Stream) : (s.setStream x).token = s.token := rfl
@[simp] theorem State.setStream_store (x : Option Stream) : (s.setStream x).store = { s.store with stream := x } := rfl
@[simp] theorem State.setStream_vessels (x : Option Stream) : (s.setStream x).vessels = s.vessels := rfl
@[simp] theorem State.setStream_tariff (x : Option Stream) : (s.setStream x).tariff = s.tariff := rfl
@[simp] theorem State.setStream_toll (x : Option Stream) : (s.setStream x).toll = s.toll := rfl
@[simp] theorem State.setStream_fault (x : Option Stream) : (s.setStream x).fault = s.fault := rfl
@[simp] theorem State.setStream_flasherOn (x : Option Stream) : (s.setStream x).flasherOn = s.flasherOn := rfl
@[simp] theorem State.setStream_flasherTimer (x : Option Stream) : (s.setStream x).flasherTimer = s.flasherTimer := rfl

/-! ### State.setVessels -/

@[simp] theorem State.setVessels_pending (t : VesselTable) : (s.setVessels t).pending = s.pending := rfl
@[simp] theorem State.setVessels_notices (t : VesselTable) : (s.setVessels t).notices = s.notices := rfl
@[simp] theorem State.setVessels_draws (t : VesselTable) : (s.setVessels t).draws = s.draws := rfl
@[simp] theorem State.setVessels_pins (t : VesselTable) : (s.setVessels t).pins = s.pins := rfl
@[simp] theorem State.setVessels_loader (t : VesselTable) : (s.setVessels t).loader = s.loader := rfl
@[simp] theorem State.setVessels_link (t : VesselTable) : (s.setVessels t).link = s.link := rfl
@[simp] theorem State.setVessels_presence (t : VesselTable) : (s.setVessels t).presence = s.presence := rfl
@[simp] theorem State.setVessels_ctl (t : VesselTable) : (s.setVessels t).ctl = s.ctl := rfl
@[simp] theorem State.setVessels_chamber (t : VesselTable) : (s.setVessels t).chamber = s.chamber := rfl
@[simp] theorem State.setVessels_drive (t : VesselTable) : (s.setVessels t).drive = s.drive := rfl
@[simp] theorem State.setVessels_lowerUnit (t : VesselTable) : (s.setVessels t).lowerUnit = s.lowerUnit := rfl
@[simp] theorem State.setVessels_headUnit (t : VesselTable) : (s.setVessels t).headUnit = s.headUnit := rfl
@[simp] theorem State.setVessels_onward (t : VesselTable) : (s.setVessels t).onward = s.onward := rfl
@[simp] theorem State.setVessels_approach (t : VesselTable) : (s.setVessels t).approach = s.approach := rfl
@[simp] theorem State.setVessels_token (t : VesselTable) : (s.setVessels t).token = s.token := rfl
@[simp] theorem State.setVessels_store (t : VesselTable) : (s.setVessels t).store = s.store := rfl
@[simp] theorem State.setVessels_vessels (t : VesselTable) : (s.setVessels t).vessels = t := rfl
@[simp] theorem State.setVessels_tariff (t : VesselTable) : (s.setVessels t).tariff = s.tariff := rfl
@[simp] theorem State.setVessels_toll (t : VesselTable) : (s.setVessels t).toll = s.toll := rfl
@[simp] theorem State.setVessels_fault (t : VesselTable) : (s.setVessels t).fault = s.fault := rfl
@[simp] theorem State.setVessels_flasherOn (t : VesselTable) : (s.setVessels t).flasherOn = s.flasherOn := rfl
@[simp] theorem State.setVessels_flasherTimer (t : VesselTable) : (s.setVessels t).flasherTimer = s.flasherTimer := rfl

/-! ### State.setReadStream -/

@[simp] theorem State.setReadStream_pending (r : Option ReadStream) : (s.setReadStream r).pending = s.pending := rfl
@[simp] theorem State.setReadStream_notices (r : Option ReadStream) : (s.setReadStream r).notices = s.notices := rfl
@[simp] theorem State.setReadStream_draws (r : Option ReadStream) : (s.setReadStream r).draws = s.draws := rfl
@[simp] theorem State.setReadStream_pins (r : Option ReadStream) : (s.setReadStream r).pins = s.pins := rfl
@[simp] theorem State.setReadStream_loader (r : Option ReadStream) : (s.setReadStream r).loader = s.loader := rfl
@[simp] theorem State.setReadStream_link (r : Option ReadStream) : (s.setReadStream r).link = s.link := rfl
@[simp] theorem State.setReadStream_presence (r : Option ReadStream) : (s.setReadStream r).presence = s.presence := rfl
@[simp] theorem State.setReadStream_ctl (r : Option ReadStream) : (s.setReadStream r).ctl = s.ctl := rfl
@[simp] theorem State.setReadStream_chamber (r : Option ReadStream) : (s.setReadStream r).chamber = s.chamber := rfl
@[simp] theorem State.setReadStream_drive (r : Option ReadStream) : (s.setReadStream r).drive = s.drive := rfl
@[simp] theorem State.setReadStream_lowerUnit (r : Option ReadStream) : (s.setReadStream r).lowerUnit = s.lowerUnit :=
  rfl
@[simp] theorem State.setReadStream_headUnit (r : Option ReadStream) : (s.setReadStream r).headUnit = s.headUnit := rfl
@[simp] theorem State.setReadStream_onward (r : Option ReadStream) : (s.setReadStream r).onward = s.onward := rfl
@[simp] theorem State.setReadStream_approach (r : Option ReadStream) : (s.setReadStream r).approach = s.approach := rfl
@[simp] theorem State.setReadStream_token (r : Option ReadStream) : (s.setReadStream r).token = s.token := rfl
@[simp] theorem State.setReadStream_store (r : Option ReadStream) : (s.setReadStream r).store = s.store := rfl
@[simp] theorem State.setReadStream_vessels (r : Option ReadStream) : (s.setReadStream r).vessels = s.vessels := rfl
@[simp] theorem State.setReadStream_tariff (r : Option ReadStream) : (s.setReadStream r).tariff = s.tariff := rfl
@[simp] theorem State.setReadStream_toll (r : Option ReadStream) : (s.setReadStream r).toll = { s.toll with stream := r } :=
  rfl
@[simp] theorem State.setReadStream_fault (r : Option ReadStream) : (s.setReadStream r).fault = s.fault := rfl
@[simp] theorem State.setReadStream_flasherOn (r : Option ReadStream) : (s.setReadStream r).flasherOn = s.flasherOn :=
  rfl
@[simp] theorem State.setReadStream_flasherTimer (r : Option ReadStream) : (s.setReadStream r).flasherTimer = s.flasherTimer :=
  rfl

/-! ### State.modFault -/

@[simp] theorem State.modFault_pending (f : FaultUnit → FaultUnit) : (s.modFault f).pending = s.pending := rfl
@[simp] theorem State.modFault_notices (f : FaultUnit → FaultUnit) : (s.modFault f).notices = s.notices := rfl
@[simp] theorem State.modFault_draws (f : FaultUnit → FaultUnit) : (s.modFault f).draws = s.draws := rfl
@[simp] theorem State.modFault_pins (f : FaultUnit → FaultUnit) : (s.modFault f).pins = s.pins := rfl
@[simp] theorem State.modFault_loader (f : FaultUnit → FaultUnit) : (s.modFault f).loader = s.loader := rfl
@[simp] theorem State.modFault_link (f : FaultUnit → FaultUnit) : (s.modFault f).link = s.link := rfl
@[simp] theorem State.modFault_presence (f : FaultUnit → FaultUnit) : (s.modFault f).presence = s.presence := rfl
@[simp] theorem State.modFault_ctl (f : FaultUnit → FaultUnit) : (s.modFault f).ctl = s.ctl := rfl
@[simp] theorem State.modFault_chamber (f : FaultUnit → FaultUnit) : (s.modFault f).chamber = s.chamber := rfl
@[simp] theorem State.modFault_drive (f : FaultUnit → FaultUnit) : (s.modFault f).drive = s.drive := rfl
@[simp] theorem State.modFault_lowerUnit (f : FaultUnit → FaultUnit) : (s.modFault f).lowerUnit = s.lowerUnit := rfl
@[simp] theorem State.modFault_headUnit (f : FaultUnit → FaultUnit) : (s.modFault f).headUnit = s.headUnit := rfl
@[simp] theorem State.modFault_onward (f : FaultUnit → FaultUnit) : (s.modFault f).onward = s.onward := rfl
@[simp] theorem State.modFault_approach (f : FaultUnit → FaultUnit) : (s.modFault f).approach = s.approach := rfl
@[simp] theorem State.modFault_token (f : FaultUnit → FaultUnit) : (s.modFault f).token = s.token := rfl
@[simp] theorem State.modFault_store (f : FaultUnit → FaultUnit) : (s.modFault f).store = s.store := rfl
@[simp] theorem State.modFault_vessels (f : FaultUnit → FaultUnit) : (s.modFault f).vessels = s.vessels := rfl
@[simp] theorem State.modFault_tariff (f : FaultUnit → FaultUnit) : (s.modFault f).tariff = s.tariff := rfl
@[simp] theorem State.modFault_toll (f : FaultUnit → FaultUnit) : (s.modFault f).toll = s.toll := rfl
@[simp] theorem State.modFault_fault (f : FaultUnit → FaultUnit) : (s.modFault f).fault = f s.fault := rfl
@[simp] theorem State.modFault_flasherOn (f : FaultUnit → FaultUnit) : (s.modFault f).flasherOn = s.flasherOn := rfl
@[simp] theorem State.modFault_flasherTimer (f : FaultUnit → FaultUnit) : (s.modFault f).flasherTimer = s.flasherTimer :=
  rfl

/-! ### State.takeStream -/

@[simp] theorem State.takeStream_pending : (s.takeStream).pending = s.pending := rfl
@[simp] theorem State.takeStream_notices : (s.takeStream).notices = s.notices := rfl
@[simp] theorem State.takeStream_draws : (s.takeStream).draws = s.draws := rfl
@[simp] theorem State.takeStream_pins : (s.takeStream).pins = s.pins := rfl
@[simp] theorem State.takeStream_loader : (s.takeStream).loader = s.loader := rfl
@[simp] theorem State.takeStream_link : (s.takeStream).link = { s.link with nextStream := s.link.nextStream + 1 } := rfl
@[simp] theorem State.takeStream_presence : (s.takeStream).presence = s.presence := rfl
@[simp] theorem State.takeStream_ctl : (s.takeStream).ctl = s.ctl := rfl
@[simp] theorem State.takeStream_chamber : (s.takeStream).chamber = s.chamber := rfl
@[simp] theorem State.takeStream_drive : (s.takeStream).drive = s.drive := rfl
@[simp] theorem State.takeStream_lowerUnit : (s.takeStream).lowerUnit = s.lowerUnit := rfl
@[simp] theorem State.takeStream_headUnit : (s.takeStream).headUnit = s.headUnit := rfl
@[simp] theorem State.takeStream_onward : (s.takeStream).onward = s.onward := rfl
@[simp] theorem State.takeStream_approach : (s.takeStream).approach = s.approach := rfl
@[simp] theorem State.takeStream_token : (s.takeStream).token = s.token := rfl
@[simp] theorem State.takeStream_store : (s.takeStream).store = s.store := rfl
@[simp] theorem State.takeStream_vessels : (s.takeStream).vessels = s.vessels := rfl
@[simp] theorem State.takeStream_tariff : (s.takeStream).tariff = s.tariff := rfl
@[simp] theorem State.takeStream_toll : (s.takeStream).toll = s.toll := rfl
@[simp] theorem State.takeStream_fault : (s.takeStream).fault = s.fault := rfl
@[simp] theorem State.takeStream_flasherOn : (s.takeStream).flasherOn = s.flasherOn := rfl
@[simp] theorem State.takeStream_flasherTimer : (s.takeStream).flasherTimer = s.flasherTimer := rfl

/-! ### State.takeHeld -/

@[simp] theorem State.takeHeld_pending (h : Held) : (s.takeHeld h).pending = s.pending := rfl
@[simp] theorem State.takeHeld_notices (h : Held) : (s.takeHeld h).notices = s.notices := rfl
@[simp] theorem State.takeHeld_draws (h : Held) : (s.takeHeld h).draws = s.draws := rfl
@[simp] theorem State.takeHeld_pins (h : Held) : (s.takeHeld h).pins = s.pins := rfl
@[simp] theorem State.takeHeld_loader (h : Held) : (s.takeHeld h).loader = s.loader := rfl
@[simp] theorem State.takeHeld_link (h : Held) : (s.takeHeld h).link = { s.link with backlog := s.link.backlog.erase h } :=
  rfl
@[simp] theorem State.takeHeld_presence (h : Held) : (s.takeHeld h).presence = s.presence := rfl
@[simp] theorem State.takeHeld_ctl (h : Held) : (s.takeHeld h).ctl = s.ctl := rfl
@[simp] theorem State.takeHeld_chamber (h : Held) : (s.takeHeld h).chamber = s.chamber := rfl
@[simp] theorem State.takeHeld_drive (h : Held) : (s.takeHeld h).drive = s.drive := rfl
@[simp] theorem State.takeHeld_lowerUnit (h : Held) : (s.takeHeld h).lowerUnit = s.lowerUnit := rfl
@[simp] theorem State.takeHeld_headUnit (h : Held) : (s.takeHeld h).headUnit = s.headUnit := rfl
@[simp] theorem State.takeHeld_onward (h : Held) : (s.takeHeld h).onward = s.onward := rfl
@[simp] theorem State.takeHeld_approach (h : Held) : (s.takeHeld h).approach = s.approach := rfl
@[simp] theorem State.takeHeld_token (h : Held) : (s.takeHeld h).token = s.token := rfl
@[simp] theorem State.takeHeld_store (h : Held) : (s.takeHeld h).store = s.store := rfl
@[simp] theorem State.takeHeld_vessels (h : Held) : (s.takeHeld h).vessels = s.vessels := rfl
@[simp] theorem State.takeHeld_tariff (h : Held) : (s.takeHeld h).tariff = s.tariff := rfl
@[simp] theorem State.takeHeld_toll (h : Held) : (s.takeHeld h).toll = s.toll := rfl
@[simp] theorem State.takeHeld_fault (h : Held) : (s.takeHeld h).fault = s.fault := rfl
@[simp] theorem State.takeHeld_flasherOn (h : Held) : (s.takeHeld h).flasherOn = s.flasherOn := rfl
@[simp] theorem State.takeHeld_flasherTimer (h : Held) : (s.takeHeld h).flasherTimer = s.flasherTimer := rfl

/-! ### State.keepBack -/

@[simp] theorem State.keepBack_pending (h : Held) : (s.keepBack h).pending = s.pending := rfl
@[simp] theorem State.keepBack_notices (h : Held) : (s.keepBack h).notices = s.notices := rfl
@[simp] theorem State.keepBack_draws (h : Held) : (s.keepBack h).draws = s.draws := rfl
@[simp] theorem State.keepBack_pins (h : Held) : (s.keepBack h).pins = s.pins := rfl
@[simp] theorem State.keepBack_loader (h : Held) : (s.keepBack h).loader = s.loader := rfl
@[simp] theorem State.keepBack_link (h : Held) : (s.keepBack h).link = { s.link with backlog := s.link.backlog ++ [h] } :=
  rfl
@[simp] theorem State.keepBack_presence (h : Held) : (s.keepBack h).presence = s.presence := rfl
@[simp] theorem State.keepBack_ctl (h : Held) : (s.keepBack h).ctl = s.ctl := rfl
@[simp] theorem State.keepBack_chamber (h : Held) : (s.keepBack h).chamber = s.chamber := rfl
@[simp] theorem State.keepBack_drive (h : Held) : (s.keepBack h).drive = s.drive := rfl
@[simp] theorem State.keepBack_lowerUnit (h : Held) : (s.keepBack h).lowerUnit = s.lowerUnit := rfl
@[simp] theorem State.keepBack_headUnit (h : Held) : (s.keepBack h).headUnit = s.headUnit := rfl
@[simp] theorem State.keepBack_onward (h : Held) : (s.keepBack h).onward = s.onward := rfl
@[simp] theorem State.keepBack_approach (h : Held) : (s.keepBack h).approach = s.approach := rfl
@[simp] theorem State.keepBack_token (h : Held) : (s.keepBack h).token = s.token := rfl
@[simp] theorem State.keepBack_store (h : Held) : (s.keepBack h).store = s.store := rfl
@[simp] theorem State.keepBack_vessels (h : Held) : (s.keepBack h).vessels = s.vessels := rfl
@[simp] theorem State.keepBack_tariff (h : Held) : (s.keepBack h).tariff = s.tariff := rfl
@[simp] theorem State.keepBack_toll (h : Held) : (s.keepBack h).toll = s.toll := rfl
@[simp] theorem State.keepBack_fault (h : Held) : (s.keepBack h).fault = s.fault := rfl
@[simp] theorem State.keepBack_flasherOn (h : Held) : (s.keepBack h).flasherOn = s.flasherOn := rfl
@[simp] theorem State.keepBack_flasherTimer (h : Held) : (s.keepBack h).flasherTimer = s.flasherTimer := rfl

/-! ### State.await -/

@[simp] theorem State.await_pending (r : Request) : (s.await r).pending = s.pending := rfl
@[simp] theorem State.await_notices (r : Request) : (s.await r).notices = s.notices := rfl
@[simp] theorem State.await_draws (r : Request) : (s.await r).draws = s.draws := rfl
@[simp] theorem State.await_pins (r : Request) : (s.await r).pins = s.pins := rfl
@[simp] theorem State.await_loader (r : Request) : (s.await r).loader = s.loader := rfl
@[simp] theorem State.await_link (r : Request) : (s.await r).link = { s.link with requests := s.link.requests ++ [r] } :=
  rfl
@[simp] theorem State.await_presence (r : Request) : (s.await r).presence = s.presence := rfl
@[simp] theorem State.await_ctl (r : Request) : (s.await r).ctl = s.ctl := rfl
@[simp] theorem State.await_chamber (r : Request) : (s.await r).chamber = s.chamber := rfl
@[simp] theorem State.await_drive (r : Request) : (s.await r).drive = s.drive := rfl
@[simp] theorem State.await_lowerUnit (r : Request) : (s.await r).lowerUnit = s.lowerUnit := rfl
@[simp] theorem State.await_headUnit (r : Request) : (s.await r).headUnit = s.headUnit := rfl
@[simp] theorem State.await_onward (r : Request) : (s.await r).onward = s.onward := rfl
@[simp] theorem State.await_approach (r : Request) : (s.await r).approach = s.approach := rfl
@[simp] theorem State.await_token (r : Request) : (s.await r).token = s.token := rfl
@[simp] theorem State.await_store (r : Request) : (s.await r).store = s.store := rfl
@[simp] theorem State.await_vessels (r : Request) : (s.await r).vessels = s.vessels := rfl
@[simp] theorem State.await_tariff (r : Request) : (s.await r).tariff = s.tariff := rfl
@[simp] theorem State.await_toll (r : Request) : (s.await r).toll = s.toll := rfl
@[simp] theorem State.await_fault (r : Request) : (s.await r).fault = s.fault := rfl
@[simp] theorem State.await_flasherOn (r : Request) : (s.await r).flasherOn = s.flasherOn := rfl
@[simp] theorem State.await_flasherTimer (r : Request) : (s.await r).flasherTimer = s.flasherTimer := rfl

/-! ### State.dropHeld -/

@[simp] theorem State.dropHeld_pending (p : Held → Bool) : (s.dropHeld p).pending = s.pending := rfl
@[simp] theorem State.dropHeld_notices (p : Held → Bool) : (s.dropHeld p).notices = s.notices := rfl
@[simp] theorem State.dropHeld_draws (p : Held → Bool) : (s.dropHeld p).draws = s.draws := rfl
@[simp] theorem State.dropHeld_pins (p : Held → Bool) : (s.dropHeld p).pins = s.pins := rfl
@[simp] theorem State.dropHeld_loader (p : Held → Bool) : (s.dropHeld p).loader = s.loader := rfl
@[simp] theorem State.dropHeld_link (p : Held → Bool) : (s.dropHeld p).link = { s.link with backlog := s.link.backlog.filter (fun h => !p h) } :=
  rfl
@[simp] theorem State.dropHeld_presence (p : Held → Bool) : (s.dropHeld p).presence = s.presence := rfl
@[simp] theorem State.dropHeld_ctl (p : Held → Bool) : (s.dropHeld p).ctl = s.ctl := rfl
@[simp] theorem State.dropHeld_chamber (p : Held → Bool) : (s.dropHeld p).chamber = s.chamber := rfl
@[simp] theorem State.dropHeld_drive (p : Held → Bool) : (s.dropHeld p).drive = s.drive := rfl
@[simp] theorem State.dropHeld_lowerUnit (p : Held → Bool) : (s.dropHeld p).lowerUnit = s.lowerUnit := rfl
@[simp] theorem State.dropHeld_headUnit (p : Held → Bool) : (s.dropHeld p).headUnit = s.headUnit := rfl
@[simp] theorem State.dropHeld_onward (p : Held → Bool) : (s.dropHeld p).onward = s.onward := rfl
@[simp] theorem State.dropHeld_approach (p : Held → Bool) : (s.dropHeld p).approach = s.approach := rfl
@[simp] theorem State.dropHeld_token (p : Held → Bool) : (s.dropHeld p).token = s.token := rfl
@[simp] theorem State.dropHeld_store (p : Held → Bool) : (s.dropHeld p).store = s.store := rfl
@[simp] theorem State.dropHeld_vessels (p : Held → Bool) : (s.dropHeld p).vessels = s.vessels := rfl
@[simp] theorem State.dropHeld_tariff (p : Held → Bool) : (s.dropHeld p).tariff = s.tariff := rfl
@[simp] theorem State.dropHeld_toll (p : Held → Bool) : (s.dropHeld p).toll = s.toll := rfl
@[simp] theorem State.dropHeld_fault (p : Held → Bool) : (s.dropHeld p).fault = s.fault := rfl
@[simp] theorem State.dropHeld_flasherOn (p : Held → Bool) : (s.dropHeld p).flasherOn = s.flasherOn := rfl
@[simp] theorem State.dropHeld_flasherTimer (p : Held → Bool) : (s.dropHeld p).flasherTimer = s.flasherTimer := rfl

/-! ### State.refuseOffer -/

@[simp] theorem State.refuseOffer_pending (x : Offer) : (s.refuseOffer x).pending = s.pending := rfl
@[simp] theorem State.refuseOffer_notices (x : Offer) : (s.refuseOffer x).notices = s.notices := rfl
@[simp] theorem State.refuseOffer_draws (x : Offer) : (s.refuseOffer x).draws = s.draws := rfl
@[simp] theorem State.refuseOffer_pins (x : Offer) : (s.refuseOffer x).pins = s.pins := rfl
@[simp] theorem State.refuseOffer_loader (x : Offer) : (s.refuseOffer x).loader = s.loader := rfl
@[simp] theorem State.refuseOffer_link (x : Offer) : (s.refuseOffer x).link = { s.link with waiting := s.link.waiting ++ [x] } :=
  rfl
@[simp] theorem State.refuseOffer_presence (x : Offer) : (s.refuseOffer x).presence = s.presence := rfl
@[simp] theorem State.refuseOffer_ctl (x : Offer) : (s.refuseOffer x).ctl = s.ctl := rfl
@[simp] theorem State.refuseOffer_chamber (x : Offer) : (s.refuseOffer x).chamber = s.chamber := rfl
@[simp] theorem State.refuseOffer_drive (x : Offer) : (s.refuseOffer x).drive = s.drive := rfl
@[simp] theorem State.refuseOffer_lowerUnit (x : Offer) : (s.refuseOffer x).lowerUnit = s.lowerUnit := rfl
@[simp] theorem State.refuseOffer_headUnit (x : Offer) : (s.refuseOffer x).headUnit = s.headUnit := rfl
@[simp] theorem State.refuseOffer_onward (x : Offer) : (s.refuseOffer x).onward = s.onward := rfl
@[simp] theorem State.refuseOffer_approach (x : Offer) : (s.refuseOffer x).approach = s.approach := rfl
@[simp] theorem State.refuseOffer_token (x : Offer) : (s.refuseOffer x).token = s.token := rfl
@[simp] theorem State.refuseOffer_store (x : Offer) : (s.refuseOffer x).store = s.store := rfl
@[simp] theorem State.refuseOffer_vessels (x : Offer) : (s.refuseOffer x).vessels = s.vessels := rfl
@[simp] theorem State.refuseOffer_tariff (x : Offer) : (s.refuseOffer x).tariff = s.tariff := rfl
@[simp] theorem State.refuseOffer_toll (x : Offer) : (s.refuseOffer x).toll = s.toll := rfl
@[simp] theorem State.refuseOffer_fault (x : Offer) : (s.refuseOffer x).fault = s.fault := rfl
@[simp] theorem State.refuseOffer_flasherOn (x : Offer) : (s.refuseOffer x).flasherOn = s.flasherOn := rfl
@[simp] theorem State.refuseOffer_flasherTimer (x : Offer) : (s.refuseOffer x).flasherTimer = s.flasherTimer := rfl

/-! ### State.modUnit -/

@[simp] theorem State.modUnit_pending (u : UnitId) (f : BoundaryUnit → BoundaryUnit) : (s.modUnit u f).pending = s.pending := by
  cases u <;> rfl
@[simp] theorem State.modUnit_notices (u : UnitId) (f : BoundaryUnit → BoundaryUnit) : (s.modUnit u f).notices = s.notices := by
  cases u <;> rfl
@[simp] theorem State.modUnit_draws (u : UnitId) (f : BoundaryUnit → BoundaryUnit) : (s.modUnit u f).draws = s.draws := by
  cases u <;> rfl
@[simp] theorem State.modUnit_pins (u : UnitId) (f : BoundaryUnit → BoundaryUnit) : (s.modUnit u f).pins = s.pins := by
  cases u <;> rfl
@[simp] theorem State.modUnit_loader (u : UnitId) (f : BoundaryUnit → BoundaryUnit) : (s.modUnit u f).loader = s.loader := by
  cases u <;> rfl
@[simp] theorem State.modUnit_link (u : UnitId) (f : BoundaryUnit → BoundaryUnit) : (s.modUnit u f).link = s.link := by
  cases u <;> rfl
@[simp] theorem State.modUnit_presence (u : UnitId) (f : BoundaryUnit → BoundaryUnit) : (s.modUnit u f).presence = s.presence := by
  cases u <;> rfl
@[simp] theorem State.modUnit_ctl (u : UnitId) (f : BoundaryUnit → BoundaryUnit) : (s.modUnit u f).ctl = s.ctl := by
  cases u <;> rfl
@[simp] theorem State.modUnit_chamber (u : UnitId) (f : BoundaryUnit → BoundaryUnit) : (s.modUnit u f).chamber = s.chamber := by
  cases u <;> rfl
@[simp] theorem State.modUnit_drive (u : UnitId) (f : BoundaryUnit → BoundaryUnit) : (s.modUnit u f).drive = s.drive := by
  cases u <;> rfl
@[simp] theorem State.modUnit_onward (u : UnitId) (f : BoundaryUnit → BoundaryUnit) : (s.modUnit u f).onward = s.onward := by
  cases u <;> rfl
@[simp] theorem State.modUnit_approach (u : UnitId) (f : BoundaryUnit → BoundaryUnit) : (s.modUnit u f).approach = s.approach := by
  cases u <;> rfl
@[simp] theorem State.modUnit_token (u : UnitId) (f : BoundaryUnit → BoundaryUnit) : (s.modUnit u f).token = s.token := by
  cases u <;> rfl
@[simp] theorem State.modUnit_store (u : UnitId) (f : BoundaryUnit → BoundaryUnit) : (s.modUnit u f).store = s.store := by
  cases u <;> rfl
@[simp] theorem State.modUnit_vessels (u : UnitId) (f : BoundaryUnit → BoundaryUnit) : (s.modUnit u f).vessels = s.vessels := by
  cases u <;> rfl
@[simp] theorem State.modUnit_tariff (u : UnitId) (f : BoundaryUnit → BoundaryUnit) : (s.modUnit u f).tariff = s.tariff := by
  cases u <;> rfl
@[simp] theorem State.modUnit_toll (u : UnitId) (f : BoundaryUnit → BoundaryUnit) : (s.modUnit u f).toll = s.toll := by
  cases u <;> rfl
@[simp] theorem State.modUnit_fault (u : UnitId) (f : BoundaryUnit → BoundaryUnit) : (s.modUnit u f).fault = s.fault := by
  cases u <;> rfl
@[simp] theorem State.modUnit_flasherOn (u : UnitId) (f : BoundaryUnit → BoundaryUnit) : (s.modUnit u f).flasherOn = s.flasherOn := by
  cases u <;> rfl
@[simp] theorem State.modUnit_flasherTimer (u : UnitId) (f : BoundaryUnit → BoundaryUnit) : (s.modUnit u f).flasherTimer = s.flasherTimer := by
  cases u <;> rfl

@[simp] theorem State.modUnit_unit (u : UnitId) (f : BoundaryUnit → BoundaryUnit) : (s.modUnit u f).unit u = f (s.unit u) := by
  cases u <;> rfl
@[simp] theorem State.modUnit_lowerUnit (f : BoundaryUnit → BoundaryUnit) : (s.modUnit .lower f).lowerUnit = f s.lowerUnit :=
  rfl
@[simp] theorem State.modUnit_headUnit (f : BoundaryUnit → BoundaryUnit) : (s.modUnit .head f).headUnit = f s.headUnit :=
  rfl
@[simp] theorem State.modUnit_lower_headUnit (f : BoundaryUnit → BoundaryUnit) : (s.modUnit .lower f).headUnit = s.headUnit :=
  rfl
@[simp] theorem State.modUnit_head_lowerUnit (f : BoundaryUnit → BoundaryUnit) : (s.modUnit .head f).lowerUnit = s.lowerUnit :=
  rfl

/-! ### State.setStore: a change of the page counts is also tested and made known (R165) -/

@[simp] theorem State.setStore_pending (t : Store) : (s.setStore t).pending = s.pending := by
  obtain ⟨a, low, timer, h⟩ := Sys2Proof.Machine.setStore_unsent t s
  have := congrArg State.pending h; exact this
@[simp] theorem State.setStore_draws (t : Store) : (s.setStore t).draws = s.draws := by
  obtain ⟨a, low, timer, h⟩ := Sys2Proof.Machine.setStore_unsent t s
  have := congrArg State.draws h; exact this
@[simp] theorem State.setStore_pins (t : Store) : (s.setStore t).pins = s.pins := by
  obtain ⟨a, low, timer, h⟩ := Sys2Proof.Machine.setStore_unsent t s
  have := congrArg State.pins h; exact this
@[simp] theorem State.setStore_loader (t : Store) : (s.setStore t).loader = s.loader := by
  obtain ⟨a, low, timer, h⟩ := Sys2Proof.Machine.setStore_unsent t s
  have := congrArg State.loader h; exact this
@[simp] theorem State.setStore_presence (t : Store) : (s.setStore t).presence = s.presence := by
  obtain ⟨a, low, timer, h⟩ := Sys2Proof.Machine.setStore_unsent t s
  have := congrArg State.presence h; exact this
@[simp] theorem State.setStore_ctl (t : Store) : (s.setStore t).ctl = s.ctl := by
  obtain ⟨a, low, timer, h⟩ := Sys2Proof.Machine.setStore_unsent t s
  have := congrArg State.ctl h; exact this
@[simp] theorem State.setStore_drive (t : Store) : (s.setStore t).drive = s.drive := by
  obtain ⟨a, low, timer, h⟩ := Sys2Proof.Machine.setStore_unsent t s
  have := congrArg State.drive h; exact this
@[simp] theorem State.setStore_lowerUnit (t : Store) : (s.setStore t).lowerUnit = s.lowerUnit := by
  obtain ⟨a, low, timer, h⟩ := Sys2Proof.Machine.setStore_unsent t s
  have := congrArg State.lowerUnit h; exact this
@[simp] theorem State.setStore_headUnit (t : Store) : (s.setStore t).headUnit = s.headUnit := by
  obtain ⟨a, low, timer, h⟩ := Sys2Proof.Machine.setStore_unsent t s
  have := congrArg State.headUnit h; exact this
@[simp] theorem State.setStore_vessels (t : Store) : (s.setStore t).vessels = s.vessels := by
  obtain ⟨a, low, timer, h⟩ := Sys2Proof.Machine.setStore_unsent t s
  have := congrArg State.vessels h; exact this
@[simp] theorem State.setStore_tariff (t : Store) : (s.setStore t).tariff = s.tariff := by
  obtain ⟨a, low, timer, h⟩ := Sys2Proof.Machine.setStore_unsent t s
  have := congrArg State.tariff h; exact this
@[simp] theorem State.setStore_fault (t : Store) : (s.setStore t).fault = s.fault := by
  obtain ⟨a, low, timer, h⟩ := Sys2Proof.Machine.setStore_unsent t s
  have := congrArg State.fault h; exact this
@[simp] theorem State.setStore_flasherOn (t : Store) : (s.setStore t).flasherOn = s.flasherOn := by
  obtain ⟨a, low, timer, h⟩ := Sys2Proof.Machine.setStore_unsent t s
  have := congrArg State.flasherOn h; exact this
@[simp] theorem State.setStore_flasherTimer (t : Store) : (s.setStore t).flasherTimer = s.flasherTimer := by
  obtain ⟨a, low, timer, h⟩ := Sys2Proof.Machine.setStore_unsent t s
  have := congrArg State.flasherTimer h; exact this

end Sys2Proof.Machine
end

