-- ==== Sys2Proof/Laws/TransitLeaves.lean ====
section
/-! SUPPORT. What the hooks of TRANSIT leave as it was: the two boundary units (R113). -/

namespace Sys2Proof.Machine
open Sys2Proof

/-- The two boundary units. -/
def State.bothUnits (s : State) : BoundaryUnit × BoundaryUnit := (s.lowerUnit, s.headUnit)

theorem bothUnits_unsent {s t : State} (h : s.unsent = t.unsent) : State.bothUnits s = State.bothUnits t := by
  have h1 : ∀ x : State, State.bothUnits x = State.bothUnits x.unsent := fun _ => rfl
  rw [h1, h, ← h1]

theorem setStore_bothUnits (st : Store) (s : State) : State.bothUnits (s.setStore st) = State.bothUnits s := by
  obtain ⟨a, b, c, h⟩ := setStore_unsent st s
  exact (bothUnits_unsent h).trans rfl

theorem fold_bothUnits {α} (f : State → α → State) (h : ∀ s a, State.bothUnits (f s a) = State.bothUnits s) (l : List α) : ∀ s, State.bothUnits (l.foldl f s) = State.bothUnits s := by
  induction l with
  | nil => intro s; rfl
  | cons a l ih => intro s; exact (ih _).trans (h s a)

theorem addLine_bothUnits (k : LineKind) (key : BatchKey) (p : Nat) (s : State) : State.bothUnits (s.addLine k key p) = State.bothUnits s := by
  unfold State.addLine
  split
  · rfl
  · dsimp only
    split
    · split
      · rfl
      · exact setStore_bothUnits _ _
    · split <;> exact setStore_bothUnits _ _

theorem addLines_bothUnits (k : LineKind) (key : BatchKey) (st : RecState) (s : State) : State.bothUnits (s.addLines k key st) = State.bothUnits s := by
  unfold State.addLines
  refine fold_bothUnits _ ?_ _ s
  intro s p
  split
  · split
    · exact addLine_bothUnits _ _ _ _
    · rfl
  · rfl

theorem setOccupancy_bothUnits (o : Occupancy) (key : BatchKey) (s : State) : State.bothUnits (s.setOccupancy o key) = State.bothUnits s := by
  unfold State.setOccupancy
  by_cases h : key ≠ s.chamber.key
  · simp only [if_pos h]; rfl
  · simp only [if_neg h]; rfl

theorem entryMembers_bothUnits (key : BatchKey) (n : Nat) (s : State) : State.bothUnits (s.entryMembers key n) = State.bothUnits s := by
  unfold State.entryMembers
  by_cases h : n = 0
  · simp only [if_pos h]; rfl
  · simp only [if_neg h]; rfl

theorem entryRecords_bothUnits (key : BatchKey) (n : Nat) (s : State) : State.bothUnits (s.entryRecords key n) = State.bothUnits s := by
  unfold State.entryRecords
  exact (show State.bothUnits (State.addLines _ _ _ _) = _ from addLines_bothUnits _ _ _ _).trans (setStore_bothUnits _ _)

theorem closeBatch_bothUnits (key : BatchKey) (s : State) : State.bothUnits (s.closeBatch key) = State.bothUnits s := by
  unfold State.closeBatch
  have h1 : ∀ x : State, State.bothUnits x.offerTollReady = State.bothUnits x := by
    intro x; unfold State.offerTollReady
    split
    · rfl
    · split
      · rfl
      · exact bothUnits_unsent (offer_unsent _ _)
  rw [h1]
  unfold State.sendExitNote State.send
  rw [bothUnits_unsent (offer_unsent _ _)]
  refine fold_bothUnits _ ?_ _ s
  intro s r; unfold State.closeRecord; dsimp only; split <;> rfl

/-- The hooks of a TRANSIT that completes leave both boundary units as they were. -/
theorem transitHooks_unit (c : Crossing) (n : Nat) (s : State) (u : UnitId) : (s.transitHooks c n).unit u = s.unit u := by
  have h : State.bothUnits (s.transitHooks c n) = State.bothUnits s := by
    unfold State.transitHooks
    split
    · have h2 : State.bothUnits ((s.entryRecords c.key n).entryMembers c.key n) = State.bothUnits s := (entryMembers_bothUnits _ _ _).trans (entryRecords_bothUnits _ _ _)
      by_cases h : n = 0
      · simp only [if_pos h]; exact (setOccupancy_bothUnits _ _ _).trans h2
      · simp only [if_neg h]; exact (setOccupancy_bothUnits _ _ _).trans h2
    · exact setOccupancy_bothUnits _ _ _
    · rfl
    · rw [setOccupancy_bothUnits, closeBatch_bothUnits]
  cases u
  · exact congrArg Prod.fst h
  · exact congrArg Prod.snd h

end Sys2Proof.Machine
end

