-- ==== Sys2Proof/Tests/Slice0.lean ====
section
/-! SUPPORT. Tests: well-formedness, a few effects on small states, and for each statement with hypotheses a state and operands
that meet them (`witness` in the name). -/

namespace Sys2Proof.Tests
set_option Elab.async false
open Sys2Proof Sys2Proof.Machine

/-! ### Small states -/

/-- A configuration record that passes: flight size 3, serial 000102, every field in its range. -/
def goodRecord : List Byte :=
  let body : List Byte := [1, 3] ++ bytes24 0x000102 ++ [6, 10] ++ bytes16 1500 ++ bytes16 100 ++ bytes16 60 ++ bytes16 30
    ++ bytes16 600 ++ bytes16 60 ++ [10] ++ bytes16 300 ++ [4, 0, 2] ++ bytes16 60 ++ [12, 1] ++ bytes16 250
    ++ bytes16 360 ++ bytes16 720 ++ bytes16 1080 ++ List.replicate 65 0 ++ bytes32 0x03074140
  body ++ bytes16 (crc16 body)

/-- A station of a flight of three with its configuration taken, before its mode is chosen. -/
def configured (strap : BitVec 4) (m : Mode) : State :=
  { State.reset with
    loader := { Loader.initial with strap := strap, sampled := true, settings := some (settingsOf goodRecord),
                                    serial := some 0x000102, placing := some ⟨strap, 3⟩ },
    ctl := { Control.initial with mode := m, pumpReady := true },
    presence := { Presence.initial with desk := .present },
    drive := { Drive.initial with elements := Vector.replicate 4 .closed } }

/-- The foot, the middle and the head station, in service, the desk PRESENT, every element CLOSED. -/
def foot : State := configured 0 .inService
def mid : State := configured 1 .inService
def head : State := configured 2 .inService

/-- A middle station with no configuration. -/
def bare : State := { mid with ctl := { mid.ctl with mode := .unconfigured }, loader := { mid.loader with settings := none } }

/-- The state START leaves, the straps read. -/
def strapped : State := { State.reset with loader := { Loader.initial with strap := 1, sampled := true } }

/-- A claim of the station above with tag 3. -/
def claim (pu : Purpose) : UpperClaim := { tag := 3, purpose := pu, key := 0x81, need := 2 }

/-- A pending-reply entry of tag 5. -/
def entry (b : Block) (k : Kind) (peer : Addr) (deadline : Timer) : ReplyEntry :=
  { tag := 5, block := b, kind := k, peer := peer, deadline := deadline, key := 0, body := [], upper := none }

/-- A state with one pending-reply entry. -/
def withEntry (e : ReplyEntry) (s : State) : State := { s with link := { s.link with entries := [e] } }

/-- A queue entry. -/
def queued (r : BitVec 32) (ready : Bool) : QueueEntry :=
  { registration := r, ready := ready, cls := .pleasure, group := 0, account := 0, lengthClass := 1, deferral := 0,
    order := 0, defaultGroup := false, resolution := if ready then none else some (sec 1) }

/-- A record on page 0. -/
def record (key : BatchKey) (st : RecState) (lines : List Line) : Record :=
  { key := key, position := 1, state := st, registration := 7, cls := .pleasure, group := 0, account := 0,
    lengthClass := 1, entryDay := 0, entryMinute := 0, timeUnknown := false, defaultGroup := false, truncated := false,
    assisted := false, carry := 0, lines := lines, pages := [0], logNumber := 1, total := 0 }

/-- A state whose store holds one record. -/
def withRecord (r : Record) (s : State) : State :=
  { s with store := { s.store with records := [r], free := (List.range 96).tail } }

/-- A state whose chamber holds a batch. -/
def occupied (key : BatchKey) (s : State) : State := { s with chamber := { s.chamber with occupancy := .occupied, key := key } }

/-- A crossing of two vessels. -/
def crossing : Crossing :=
  { kind := .inner, direction := .up, key := 0x01, vessels := 2, need := 2, requester := .lowerStation 4, mark := 0,
    requeued := false }

/-- A state whose lower unit has an active crossing in a step. -/
def crossingIn (st : Step) (s : State) : State :=
  { s with lowerUnit := { s.lowerUnit with
      below := .active crossing, step := some st, count := if st = .transit then 1 else 0,
      equalizeTimer := if st = .equalize then some (sec 1) else none,
      entryTimer := if st = .transit then some (sec 1) else none } }

/-- A panel motion that opens the lower gate. -/
def opening : Motion := { element := .lowerGate, target := .toOpen, phase := .running, allowance := sec 60 }

/-- A middle station whose panel opens the lower gate. -/
def driving : State :=
  { mid with drive := { mid.drive with
      elements := mid.drive.elements.set 0 .opening, slots := #v[none, some opening, none, none] } }

/-- A queued frame, its WIDEN due or not. -/
def txFrame (b : Block) (k : Kind) (due : Bool) : TxFrame :=
  { id := 0, block := b, kind := k, dst := 30, payload := [1], upper := if due then some 1 else none, widenAge := none,
    widenDue := due, tag := 0, cancels := false, again := false }

/-- A state with one queued frame, on the line or not. -/
def sending (f : TxFrame) (onLine lineWiden : Bool) (s : State) : State :=
  { s with link := { s.link with txq := [f], nextId := 1, headId := some 0, onLine := onLine, lineWiden := lineWiden } }

/-- The contents of a beacon at the ends of their ranges. -/
def beaconAtEnds : BeaconContents :=
  { mode := .held, stop := .stopSettling, interval := .rest, level := some 2000, holder := .orphaned, waiter := .upper,
    token := .offered, chamberKey := 0xFF, custodyKey := 0x01, high := 12, low := 12, epoch := 16383,
    cause := some .configInvalid, pendingCount := 13, freeMinusReserved := 96, serial := 0xFFFFFF }

/-! ### Well-formedness: each check refuses an ill-formed term -/

theorem test_wf_accepts : (Instr.rest 30 1 []).wf ∧ (Instr.call 7 8).wf ∧ (Instr.replyDeadlineExpiry 15).wf
    ∧ (Instr.frameNotTaken 15 30).wf ∧ (Instr.unknownKind 2 1 0x0F []).wf ∧ (Instr.frameDiscarded false []).wf
    ∧ (Instr.configRecordRead goodRecord).wf ∧ Instr.frameSent.wf := by decide +kernel
theorem test_wf_refuses_source : ¬ (Instr.echo 16 1 [1]).wf ∧ ¬ (Instr.echo 29 1 [1]).wf ∧ ¬ (Instr.beacon 31 31 []).wf := by
  decide +kernel
theorem test_wf_refuses_long_payload : ¬ (Instr.echo 2 1 (List.replicate 17 1)).wf := by decide +kernel
theorem test_wf_refuses_good_discard : ¬ (Instr.frameDiscarded true (frameBytes 1 2 0x04 [1])).wf := by decide +kernel
theorem test_wf_takes_bad_source_discard : (Instr.frameDiscarded true (frameBytes 1 16 0x04 [1])).wf := by decide +kernel
theorem test_wf_refuses_length_class : ¬ (Instr.call 7 0).wf ∧ ¬ (Instr.cancel 7 9).wf := by decide +kernel
theorem test_wf_refuses_tag : ¬ (Instr.replyDeadlineExpiry 0).wf ∧ ¬ (Instr.cancelledTagExpiry 16).wf := by decide +kernel
theorem test_wf_refuses_long_record : ¬ (Instr.configRecordRead (List.replicate 109 0)).wf := by decide +kernel
theorem test_wf_refuses_broadcast_not_taken : ¬ (Instr.frameNotTaken 2 31).wf := by decide +kernel
theorem test_wf_refuses_known_kind : ¬ (Instr.unknownKind 2 1 0x04 []).wf := by decide +kernel
theorem test_wf_refuses_readable_call : ¬ (Instr.callRecordBad (callRecordBytes 1 7 8 0)).wf := by decide +kernel

/-! ### Bytes -/

/-- The CRC of 12.2 over the nine characters 1 to 9 is 29B1, the check value of this generator and initial value. -/
theorem test_crc : crc16 [0x31, 0x32, 0x33, 0x34, 0x35, 0x36, 0x37, 0x38, 0x39] = 0x29B1 := by decide +kernel
/-- The header of an ECHO (kind 04) from station 2 to station 1: 00001 000 | 10 000100 | length. -/
theorem test_header : (frameBytes 1 2 0x04 [0x05]).take 4 = [0x08, 0x84, 0x01, 0x05] := by decide +kernel
theorem test_beacon_bytes : (renderBeacon beaconAtEnds).take 4 = [0xB2, 0x07, 0xD0, 0xE4] := by decide +kernel
theorem test_record_passes : checkRecord 1 goodRecord = .passed (settingsOf goodRecord) := by decide +kernel
theorem test_record_short : checkRecord 1 [] = .failed 1 0 none := by decide +kernel
theorem test_record_strap : checkRecord 3 goodRecord = .failed 4 2 (some 0x000102) := by decide +kernel
theorem test_no_words : decodeTableWord 8 1 = none := by decide +kernel

/-! ### Effects -/

theorem test_step_pops : (match step { strapped with loader := Loader.initial, pending := [.strapSample 2] } with
    | .next t => (t.loader.strap, t.loader.sampled, t.pending)
    | _ => (0, false, [])) = (2, true, []) := by decide +kernel
theorem test_idle_counts : (match step mid with | .next t => t.presence.deskSince | _ => 0) = 1 := by decide +kernel
theorem test_echo_answered : (match exec (.echo 2 1 [5, 6]) mid with
    | .next t => t.link.txq.map (fun f => (f.kind, f.dst, f.payload))
    | _ => []) = [(.echoBack, 2, [5, 6])] := by decide +kernel
theorem test_refused_wrong_role : (match exec (.rest 2 1 []) mid with
    | .next t => t.link.txq.map (fun f => (f.kind, f.dst, f.payload))
    | _ => []) = [(.refuse, 2, [2, 0x31, 0])] := by decide +kernel

/-- A repeat of an offer taken earlier is declined under a stop (R44, log entry 44). -/
theorem test_repeat_declined : (match exec (.tokenOffer 0 2 [15, 0, 7])
      { head with token := { head.token with state := .held, epoch := 7 }, ctl := { head.ctl with stop := .stopActive } } with
    | .next t => (t.link.txq.map (fun f => (f.kind, f.payload)), t.token.state)
    | _ => ([], .absent)) = ([(.tokenDecline, [15, 0, 7])], .held) := by decide +kernel
/-- An onward ask that waits with a tag is taken back with its entry when the next station is marked (R102). -/
theorem test_onward_taken_back :
    let o : Offer := { frame .lowerUnit .crossAsk 2 [5, 0x81, 2] with tag := 5 }
    let s := withEntry (entry .lowerUnit .crossAsk 2 (some (sec 1))) { mid with onward := { mid.onward with state := .asking 5 } }
    let t := State.act (.markSet 2) { s with link := { s.link with waiting := [o] } }
    t.link.waiting = [] ∧ t.link.entries = [] ∧ t.onward.state = .unasked ∧ t.onward.retryTimer = none := by decide +kernel

/-- An entry that was begun and is requeued is not withdrawn when the token is dropped; one never begun is (R119, R133). -/
theorem test_requeued_stays :
    let c : Crossing := { crossing with kind := .entry, requester := .approach }
    let at' := fun (x : CrossSlot) => { foot with lowerUnit := { foot.lowerUnit with below := x, step := some .claim },
                                                  approach := { foot.approach with batch := some ⟨0x01, []⟩ } }
    let after := ((at' (.active c)).requeue .lower).withdrawEntry
    after.lowerUnit.below = .waiting { c with requeued := true } ∧ after.approach.batch.isSome = true
      ∧ (at' (.waiting c)).withdrawEntry.lowerUnit.below = .empty := by decide +kernel
/-- A recovery's gate close is asked while the recovery is under way, and not after it (R187). -/
theorem test_close_wanted :
    let s := { mid with lowerUnit := { mid.lowerUnit with recovery := some .lowerGate },
                        drive := { mid.drive with elements := mid.drive.elements.set 0 .opened } }
    let r : Recovery := ⟨.motionTimeout, none, some .lowerGate, 0⟩
    (s.onSlotFree .lower).drive = s.drive
      ∧ ({ s with fault := { s.fault with recoveries := [r] } }.onSlotFree .lower).asksFor .lower .lowerGate .toClosed = true := by
  decide +kernel

/-- With its own crossing frozen a recovery's close is overtaken at the end of HELD; one of no place is asked later (R187). -/
theorem test_close_overtaken :
    let r := fun (p : Option Place) => ({ cause := .motionTimeout, place := p, element := some .lowerGate, peer := 0 } : Recovery)
    let c := crossingIn .transit mid
    let s := fun (p : Option Place) => ({ c with
      lowerUnit := { c.lowerUnit with frozenHeld := true, recovery := some .lowerGate },
      drive := { c.drive with elements := c.drive.elements.set 0 .opened },
      fault := { c.fault with recoveries := [r p] } } : State)
    let own : Place := { key := crossing.key, bound := .lower, step := some .transit }
    (s (some own)).unfreezeUnits.lowerUnit.recovery = none
      ∧ (s none).unfreezeUnits.lowerUnit.recovery = some .lowerGate
      ∧ (s (some { own with key := 0x02 })).unfreezeUnits.lowerUnit.recovery = some .lowerGate := by decide +kernel
/-- With the key at AUTO, CLEAR that restores LOCAL drives no opening that was kept on the stack (R42, R53). -/
theorem test_restored_closing :
    let m : Motion := { opening with phase := .stacked }
    let s := { mid with
      ctl := { mid.ctl with mode := .localMode, localState := .working, localUnit := .lower },
      chamber := { mid.chamber with lower := { mid.chamber.lower with state := .held, tag := 6, purpose := .localWork },
                                    holder := .self { claimant := .lower, purpose := .localWork, key := 0 } },
      drive := { mid.drive with elements := mid.drive.elements.set 0 .halted, slots := #v[none, some m, none, none],
                                stack := [.panel] } }
    s.leaveHeld.ctl.localState = .closing ∧ s.leaveHeld.slot .panel = some m
      ∧ ({ s with pins := { s.pins with key := .localPos } }.leaveHeld.slot .panel).map Motion.phase = some .running := by
  decide +kernel
/-- A feed that waits for a place when the level becomes UNKNOWN is taken back, and goes at once when it is VALID (R75). -/
theorem test_feed_taken_back :
    let c : UpperClaim := claim .gateUp
    let s := { mid with
      chamber := { mid.chamber with level := { mid.chamber.level with valid := true, value := 700 }, holder := .upper c,
                                    feedTimer := some 9 },
      link := { mid.link with waiting := [frame .chamber .levelFeed 2 [3, 2, 188]] } }
    let t := s.levelStale .chamber
    t.link.waiting = [] ∧ t.chamber.feedTimer = none
      ∧ (t.onReading .chamber 701 true).link.txq.map (fun f => (f.kind, f.payload)) = [(.levelFeed, [3, 2, 189])] := by
  decide +kernel
/-- The pending causes are taken before what the fault note of the first displaces is told "not sent" (R194). -/
theorem test_pending_at_once :
    let f := fun (k : Kind) => ({ txFrame .record k false with dst := 2 } : TxFrame)
    let s := { mid with
      fault := { mid.fault with pendingSet := [⟨.claimTimeout, .flight⟩, ⟨.tokenClash, .desk⟩] },
      link := { mid.link with txq := (List.range 8).map (fun i => { f .xferAsk with id := i + 1 }), nextId := 9 } }
    s.takePending.fault.record.map FaultRecord.cause = some .tokenClash ∧ s.takePending.fault.pendingSet = []
      ∧ s.takePending.notices.any (fun t => t matches .notSent _) = true := by
  decide +kernel

/-! ### Witnesses: the hypotheses of the statements can be met -/

theorem witness_IdleStep : mid.pending = [] ∧ mid.notices = [] ∧ mid.due = none
    ∧ ({ mid with ctl := { mid.ctl with wakeTimer := some 0 } }).due = some .wakeSettleExpiry
    ∧ ({ mid with ctl := { mid.ctl with wakeTimer := some 1 } }).due = none
    ∧ ({ mid with chamber := { mid.chamber with fed := some ⟨400, sec 3, true⟩ } }).due = some .fedLevelStale := by
  decide +kernel
theorem witness_SoundKept : mid.Sound ∧ ∃ t, step mid = .next t := by
  refine ⟨?_, ⟨mid.tick, ?_⟩⟩
  · unfold State.Sound
    refine ⟨?_, ?_, ?_, ⟨?_, ?_⟩, ⟨?_, ?_, ?_⟩, ⟨?_, ?_⟩, ?_, ?_, ?_, ?_, by decide +kernel, ?_, ⟨?_, ?_, ?_⟩⟩
    · refine ⟨by decide +kernel, by decide +kernel, by decide +kernel, by decide +kernel, by decide +kernel, fun i => ?_⟩
      have h : mid.link.widenSlots[i] = .empty := by revert i; decide +kernel
      rw [h]; trivial
    · unfold Approach.Fits; decide +kernel
    · unfold Token.Fits; decide +kernel
    · have h : mid.store.free ++ mid.store.records.flatMap Record.pages = List.range 96 := by decide +kernel
      rw [h]
    · unfold Store.PromisesFit; decide +kernel
    · intro i j h
      have e : mid.drive.slots[i] = none := by clear h; revert i; decide +kernel
      rw [e] at h; simp [slotPhase] at h
    · intro i m h
      have e : mid.drive.slots[i] = none := by clear h; revert i; decide +kernel
      rw [e] at h; cases h
    · intro e t h
      have n : mid.drive.elements[elementIdx e] ≠ drivenState t := by cases e <;> cases t <;> decide +kernel
      exact absurd h n
    · have h : mid.drive.stack = [] := rfl
      rw [h]; exact List.Pairwise.nil
    · intro a h
      have e : mid.drive.stack = [] := rfl
      rw [e] at h; cases h
    · exact trivial
    · exact Or.inl rfl
    · exact Or.inl rfl
    · unfold Control.StopFits; decide +kernel
    · unfold Chamber.LevelsFit; decide +kernel
    · intro i v h
      have e : mid.vessels.home[i] = none := by clear h; revert i; decide +kernel
      rw [e] at h; cases h
    · intro i v h
      have e : mid.vessels.overflow[i] = none := by clear h; revert i; decide +kernel
      rw [e] at h; cases h
    · intro i j v w h
      have e : mid.vessels.overflow[i] = none := by clear h; revert i; decide +kernel
      rw [e] at h; cases h
  · rfl
theorem witness_FrameRoundTrip : 63 < 64 ∧ (List.replicate 16 (0xFF : Byte)).length ≤ 16 := by decide
theorem witness_BeaconRoundTrip : parseBeacon? (renderBeacon beaconAtEnds) = some beaconAtEnds
    ∧ (∀ v, beaconAtEnds.level = some v → v ≤ 2000) ∧ beaconAtEnds.high ≤ 12 ∧ beaconAtEnds.low ≤ 12
    ∧ beaconAtEnds.chamberKey ≠ 0x80 ∧ beaconAtEnds.custodyKey ≠ 0x80 ∧ beaconAtEnds.pendingCount ≤ 13
    ∧ beaconAtEnds.freeMinusReserved ≤ 96 := by
  refine ⟨by decide +kernel, fun v h => ?_, by decide, by decide, by decide, by decide, by decide, by decide⟩
  cases h; decide

/-- For FaultUnitAfterReset, RestartAccepted, RestartTurnedAway. -/
theorem witness_Restart : mid.catches deskAddr = true ∧ (1 : Addr) = mid.ownAddr ∧ (1 : Addr) ≠ broadcastAddr
    ∧ mid.restartAllowed = true ∧ bare.ctl.mode = .unconfigured ∧ bare.catches deskAddr = true ∧ bare.ownAddr = 1
    ∧ mid.accepts .restart deskAddr broadcastAddr [] = true ∧ driving.accepts .restart deskAddr 1 [] = true
    ∧ driving.restartAllowed = false ∧ driving.room 1 = true := by decide +kernel
/-- For FaultUnitAfterReset, StrapsSampled, RecordPassed and RecordFailed. -/
theorem witness_Record : strapped.ctl.mode = .loading ∧ strapped.loader.sampled = true
    ∧ strapped.fault = FaultUnit.initial ∧ strapped.link = Link.initial ∧ strapped.notices = []
    ∧ strapped = { State.reset with pending := strapped.pending, draws := strapped.draws, pins := strapped.pins,
                                    loader := { Loader.initial with strap := strapped.loader.strap, sampled := true } }
    ∧ strapped.pins.stopButton = false
    ∧ (∀ i : Fin 4, ¬ (strapped.pins.switches[i].closed = true ∧ strapped.pins.switches[i].opened = true))
    ∧ checkRecord strapped.loader.strap goodRecord = .passed (settingsOf goodRecord)
    ∧ checkRecord strapped.loader.strap [] = .failed 1 0 none := by decide +kernel
/-- A station that loads after a RESTART, its placing kept under a strap and a flight size. -/
def restarted (strap : BitVec 4) (flight : Nat) : State :=
  { mid with
      ctl := { mid.ctl with mode := .loading },
      loader := { Loader.initial with strap := 1, sampled := true, fromRestart := true, placing := some ⟨strap, flight⟩ } }
/-- For RecordPassed: a RESTART with the kept state standing, and one with it set aside. -/
theorem witness_RecordAfterRestart : (restarted 1 3).ctl.mode = .loading ∧ (restarted 1 3).loader.sampled = true
    ∧ (restarted 1 3).loader.fromRestart = true ∧ (restarted 1 3).pins.stopButton = false
    ∧ checkRecord (restarted 1 3).loader.strap goodRecord = .passed (settingsOf goodRecord)
    ∧ (restarted 1 3).loader.placing = some ⟨1, (settingsOf goodRecord).flight⟩
    ∧ (restarted 2 3).loader.placing ≠ some ⟨1, (settingsOf goodRecord).flight⟩
    ∧ (restarted 1 4).loader.placing ≠ some ⟨1, (settingsOf goodRecord).flight⟩ := by decide +kernel
/-- The desk PRESENT, LOST and ABSENT; a frame for another, for this station and for all; a RESTART not accepted. -/
theorem witness_DeskHeard :
    let away := fun (p : PeerState) => ({ mid with presence := { mid.presence with desk := p } } : State)
    mid.catches deskAddr = true ∧ mid.isTaken 2 = false ∧ (away .lost).catches deskAddr = true
      ∧ (away .absent).catches deskAddr = true ∧ (away .lost).isTaken 1 = true ∧ (away .lost).isTaken broadcastAddr = true
      ∧ (Instr.clear deskAddr 1 [] ≠ .restart deskAddr 1 []) ∧ (2 : Addr) ≠ mid.ownAddr ∧ driving.catches deskAddr = true
      ∧ driving.ctl.mode ≠ .unconfigured ∧ driving.restartAllowed = false := by decide +kernel
/-- A frame of the desk that the station takes makes an ABSENT desk PRESENT (R36). -/
theorem test_desk_heard : (match exec (.echo 30 1 [5])
      { mid with presence := { mid.presence with desk := .absent, deskSince := 9 } } with
    | .next t => (t.presence.desk, t.presence.deskSince)
    | _ => (.absent, 1)) = (.present, 0) := by decide +kernel
theorem witness_UnknownKindRefused : mid.follows 2 = true ∧ mid.isTaken 1 = true ∧ mid.isTaken broadcastAddr = true
    ∧ (0x3C : BitVec 6) ≠ BitVec.ofNat 6 Kind.refuse.code ∧ mid.room 1 = true := by decide +kernel
theorem witness_WidenTaken : mid.accepts .widen 0 1 [0, 1] = true ∧ mid.accepts .widen deskAddr broadcastAddr [0, 1] = true := by
  decide +kernel
/-- A waiting frame of the Link Controller's own. -/
def crowded : State := { mid with link := { mid.link with waiting := [frame .link .refuse 2 [1, 2, 3]] } }
theorem witness_EchoAnswered : mid.accepts .echo 2 1 [1] = true ∧ mid.room 1 = true ∧ crowded.accepts .echo 2 1 [1] = true
    ∧ crowded.link.blockWaits .link = true ∧ bare.follows 2 = true ∧ bare.ctl.mode = .unconfigured ∧ bare.ownAddr = 1
    ∧ bare.room 1 = true := by decide +kernel
theorem witness_PlainRepliesTaken :
    let e := withEntry (entry .link .echo 2 none) mid
    let q := withEntry (entry .link .statusAsk 2 none) mid
    let p := [5, 0x4C, 0, 0xFF, 0xFF, 0xFF, 0xFF, 96, 96, 0xCC, 0, 0, 0, 0, 8]
    e.link.requests = [] ∧ e.accepts .echoBack 2 1 [5] = true ∧ (e.matchReply .echoBack 2 5).isSome = true
      ∧ e.matchReply .echoBack 2 4 = none ∧ q.accepts .statusReply 2 1 p = true
      ∧ (q.matchReply .statusReply 2 5).isSome = true := by decide +kernel
/-- A head station with a VESSEL_QUERY to the desk under tag 5. -/
def querying : State := withEntry (entry .approach .vesselQuery 30 (some 0)) head
theorem witness_RefuseEndsEntry : querying.accepts .refuse 30 2 [4, 0x36, 5] = true ∧ querying.link.requests = []
    ∧ querying.link.entries.find? (fun e => e.peer = 30 && e.tag = 5) = some (entry .approach .vesselQuery 30 (some 0))
    ∧ querying.approach.queue.all (fun q => q.ready) = true
    ∧ querying.link.entries.find? (fun e => e.peer = 30 && e.tag = 4) = none := by decide +kernel
theorem witness_DeadlineEndsEntry : querying.notices = [] ∧ querying.link.requests = []
    ∧ querying.link.entries.find? (fun e => e.tag = 5 && e.deadline.isSome)
      = some (entry .approach .vesselQuery 30 (some 0))
    ∧ querying.link.entries.find? (fun e => e.tag = 15 && e.deadline.isSome) = none := by decide +kernel
/-- The premise State.Sound is met by this same state: witness_SoundKept. -/
theorem witness_StatusAskAnswered : mid.accepts .statusAsk 30 1 [15] = true ∧ mid.room 1 = true ∧ mid.works = true
    ∧ mid.fault.pendingSet.length ≤ 13 ∧ bare.works = false ∧ mid.ctl.mode ≠ .held := by decide +kernel
theorem witness_DeskKindsRefused : mid.follows 0 = true ∧ mid.ctl.mode ≠ .unconfigured ∧ mid.isTaken 1 = true
    ∧ mid.isTaken broadcastAddr = true ∧ mid.room 1 = true := by decide +kernel
theorem witness_BeaconEntered : mid.accepts .beacon 2 broadcastAddr (renderBeacon beaconAtEnds) = true
    ∧ parseBeacon? (renderBeacon beaconAtEnds) = some beaconAtEnds ∧ (2 : Addr) ≠ deskAddr ∧ (2 : Addr) ≠ mid.ownAddr
    ∧ (2 : Addr).toNat < mid.n := by decide +kernel
theorem witness_AddressClash : mid.accepts .beacon mid.ownAddr broadcastAddr (renderBeacon beaconAtEnds) = true
    ∧ parseBeacon? (renderBeacon beaconAtEnds) = some beaconAtEnds ∧ mid.loader.serial = some 0x000102
    ∧ beaconAtEnds.serial ≠ 0x000102 ∧ mid.presence.clash = false ∧ mid.presence.interval ≠ .fast
    ∧ (let s := { mid with presence := { mid.presence with clash := true, interval := .fast } }
      s.accepts .beacon s.ownAddr broadcastAddr (renderBeacon beaconAtEnds) = true ∧ s.loader.serial = some 0x000102
        ∧ s.presence.clash = true)
    ∧ (let b := { beaconAtEnds with serial := 0x000102 }
      mid.accepts .beacon mid.ownAddr broadcastAddr (renderBeacon b) = true ∧ parseBeacon? (renderBeacon b) = some b) := by
  decide +kernel
theorem witness_PresenceTimeouts :
    let s := { mid with presence := { mid.presence with
      peers := mid.presence.peers.set 15 { Peer.initial with presence := .present }, calmTimer := some 0 } }
    let near := fun (i : Fin 16) => ({ mid with presence := { mid.presence with
      peers := mid.presence.peers.set i { Peer.initial with presence := .present, interval := some .rest } } } : State)
    s.presence.peers[(15 : Fin 16)].presence = .present ∧ s.presence.desk = .present
      ∧ s.presence.calmTimer.isSome = true
      ∧ (∀ i ∈ [(0 : Fin 16), 2, 15], (near i).notices = [] ∧ (near i).presence.peers[i].presence = .present
        ∧ (near i).presence.peers[i].interval = some .rest ∧ (near i).works = true)
      ∧ (near 0).k = 0 + 1 ∧ (near 2).k + 1 = 2 ∧ bare.works = false := by decide +kernel
/-- The loss of each neighbour raises PEER_LOST with its address, its interval code and its boundary (R35). -/
theorem test_peer_lost :
    let lost := fun (i : Fin 16) => (State.act (.peerLost i) { mid with presence := { mid.presence with
      peers := mid.presence.peers.set i { Peer.initial with presence := .lost, interval := some .rest } } }).notices
    lost 0 = [.raise .peerLost 0 1 .lower] ∧ lost 2 = [.raise .peerLost 2 1 .none] ∧ lost 15 = [] := by decide +kernel
theorem witness_NothingHeard : strapped.notices = [] ∧ strapped.catches 2 = false ∧ mid.notices = [] ∧ mid.follows 30 = true
    ∧ mid.isTaken 2 = false ∧ mid.catches 16 = false
    ∧ (sending (txFrame .link .echoBack false) true false mid).catches 2 = false
    ∧ (sending (txFrame .link .echoBack false) true false mid).notices = [] := by decide +kernel
/-- A station whose stop state settles, the latch set. -/
def settling (latch : Bool) (s : State) : State :=
  { s with ctl := { s.ctl with stop := .stopSettling, latch := latch, resumeTimer := some (sec 1) } }
theorem witness_StopTable : mid.accepts .flightStop 2 broadcastAddr [] = true ∧ bare.follows 2 = true
    ∧ bare.ctl.mode = .unconfigured ∧ bare.isTaken broadcastAddr = true
    ∧ (settling true mid).accepts .resume 30 broadcastAddr [] = true
    ∧ (settling true mid).ctl.resumeTimer.isSome = true ∧ (settling true mid).ctl.stop = .stopSettling
    ∧ mid.ctl.mode ≠ .loading ∧ mid.notices = [] ∧ mid.ctl.stop = .stopClear ∧ mid.drive.restful = true
    ∧ mid.room 1 = true ∧ mid.stopFrameOut = false := by decide +kernel
theorem witness_RestTaken : mid.accepts .rest 30 1 [] = true ∧ mid.room 1 = true ∧ mid.restAllowed = true
    ∧ mid.drive.restful = true ∧ mid.presence.clash = false ∧ mid.presence.interval = .normal
    ∧ driving.accepts .rest 30 1 [] = true ∧ driving.room 1 = true ∧ driving.restAllowed = false
    ∧ mid.accepts .rest 30 broadcastAddr [] = true := by decide +kernel
/-- A RESTING station. -/
def resting : State :=
  { mid with ctl := { mid.ctl with mode := .resting }, presence := { mid.presence with interval := .rest } }
/-- A WAKING station. -/
def waking : State := { mid with ctl := { mid.ctl with mode := .waking, wakeTimer := some 0, pumpReady := false } }
/-- The record of an ADDRESS_CLASH, and a station HELD for it. -/
def clashRecord : FaultRecord :=
  { cause := .addressClash, level := .desk, bound := .none, value1 := 0, value2 := 0, step := none, prior := .waking,
    valuesLost := false }
def held : State :=
  { mid with ctl := { mid.ctl with mode := .held, wakeTimer := some 0 }, fault := { mid.fault with record := some clashRecord } }
theorem witness_WakeTaken : resting.accepts .wake 30 1 [] = true ∧ resting.ctl.mode = .resting ∧ resting.room 1 = true
    ∧ resting.drive.restful = true ∧ resting.presence.clash = false ∧ resting.presence.interval = .rest
    ∧ mid.accepts .wake 30 1 [] = true ∧ mid.ctl.mode ≠ .resting
    ∧ waking.notices = [] ∧ waking.ctl.wakeTimer.isSome = true ∧ waking.drive.restful = true
    ∧ waking.ctl.mode = .waking ∧ waking.pins.key = .auto ∧ waking.shutToEntry = true ∧ waking.presence.clash = false
    ∧ waking.presence.interval = .normal ∧ held.ctl.mode = .held ∧ held.fault.record.isSome = true
    ∧ held.ctl.wakeTimer.isSome = true := by decide +kernel
/-- A middle station whose level is VALID. -/
def levelled : State := { mid with chamber := { mid.chamber with level := { mid.chamber.level with valid := true, value := 700 } } }
theorem witness_ClaimAnswered : levelled.accepts .claimAsk 2 1 [1, 1, 18, 0x81] = true ∧ levelled.room 1 = true
    ∧ levelled.ctl.mode ≠ .resting ∧ Purpose.ofCode? 1 = some .gateDown
    ∧ levelled.chamber.holder.kind = .free ∧ levelled.chamber.waiter.kind = .none
    ∧ levelled.store.canReserve 0x81 18 = true ∧ levelled.isMarked (levelled.k + 1) = false
    ∧ held.accepts .claimAsk 2 1 [1, 0, 0, 0x81] = true
    ∧ resting.accepts .claimAsk 2 1 [1, 0, 0, 0x81] = true ∧ resting.ctl.mode = .resting := by decide +kernel
/-- A station whose register the station above holds. -/
def claimed (pu : Purpose) : State := { mid with chamber := { mid.chamber with holder := .upper (claim pu) } }
theorem witness_ClaimDropped : (claimed .gateUp).accepts .claimDrop 2 1 [3, 0, 0] = true
    ∧ (claimed .gateUp).chamber.holder = .upper (claim .gateUp) ∧ (claim .gateUp).purpose ≠ .gateDown
    ∧ (claimed .gateUp).chamber.waiter = .none ∧ (claimed .gateUp).unitsQuiet = true
    ∧ (claimed .gateUp).drive.restful = true ∧ (claimed .gateUp).ctl.localState = .auto
    ∧ (claimed .gateUp).link.hasWaiting .chamber .levelFeed = false
    ∧ (let s := { claimed .gateUp with link := { mid.link with waiting := [frame .chamber .levelFeed 2 [3, 0, 0]] } }
      s.accepts .claimDrop 2 1 [3, 0, 0] = true ∧ s.link.backlog = [] ∧ s.link.requests = [] ∧ s.unitsQuiet = true
        ∧ s.chamber.waiter = .none ∧ s.drive.restful = true ∧ s.ctl.localState = .auto)
    ∧ (claimed .gateDown).accepts .claimDrop 2 1 [3, 1, 0x81] = true ∧ keyAt [3, 1, 0x81] 2 = (claim .gateDown).key
    ∧ (claimed .gateDown).accepts .claimDrop 2 1 [3, 0, 0] = true
    ∧ (let s := { mid with chamber := { mid.chamber with waiter := .upper (claim .gateUp) } }
      s.accepts .claimDrop 2 1 [3, 0, 0] = true ∧ s.chamber.holder.upperTag? ≠ some 3)
    ∧ mid.accepts .claimDrop 2 1 [255, 0, 0] = true ∧ mid.chamber.holder.upperTag? ≠ some 255 := by decide +kernel
/-- A middle station that holds the lower claim under tag 6, with a fed level. -/
def holding : State :=
  { mid with chamber := { mid.chamber with
      lower := { mid.chamber.lower with state := .held, tag := 6 }, fed := some ⟨400, sec 3, true⟩ } }
theorem witness_LevelFeedTaken : holding.accepts .levelFeed 0 1 [6, 7, 0xD0] = true ∧ holding.chamber.lower.state = .held
    ∧ holding.chamber.lower.tag = 6 ∧ holding.chamber.fed = some ⟨400, sec 3, true⟩ ∧ holding.unitsQuiet = true
    ∧ holding.notices = [] ∧ mid.accepts .levelFeed 0 1 [6, 7, 0xD0] = true ∧ mid.chamber.lower.state ≠ .held
    ∧ (let e := crossingIn .equalize holding
      e.accepts .levelFeed 0 1 [6, 7, 0xD0] = true ∧ e.chamber.lower.state = .held ∧ e.chamber.lower.tag = 6
        ∧ e.unitsQuiet = false ∧ e.notices = [] ∧ e.accepts .levelFeed 0 1 [6, 1, 0x90] = true
        ∧ be16 [6, 1, 0x90] 1 = 400) := by decide +kernel
/-- A station whose lower sluice is OPEN. -/
def sluiceOpen : State := { mid with drive := { mid.drive with elements := mid.drive.elements.set 1 .opened } }
theorem witness_AlarmCloseTaken : mid.accepts .alarmClose 0 1 [] = true ∧ mid.ctl.mode ≠ .resting
    ∧ mid.drive.restful = true ∧ mid.unitsQuiet = true ∧ mid.element .lowerSluice = .closed
    ∧ sluiceOpen.accepts .alarmClose 0 1 [] = true ∧ sluiceOpen.drive.restful = true
    ∧ sluiceOpen.element .lowerSluice ≠ .closed ∧ sluiceOpen.ctl.pumpReady = true ∧ sluiceOpen.ctl.mode = .inService
    ∧ (∀ set ∈ [[SafetyClass.lower], [.remote], [.lower, .head], [.head, .remote]],
      let s := { mid with drive := { mid.drive with safetySet := set } }
      s.accepts .alarmClose 0 1 [] = true ∧ s.ctl.mode ≠ .resting ∧ s.drive.safetySet = set) := by
  decide +kernel
/-- A demand for a sluice that is in the set already leaves its PENDING close as it is, also one that has become CLOSED
(R95, R96). -/
theorem test_demand_taken :
    let m : Motion := { element := .lowerSluice, target := .toClosed, phase := .pending, allowance := 0 }
    let s := { mid with ctl := { mid.ctl with pumpReady := false },
                        drive := { mid.drive with slots := #v[some m, none, none, none], safetySet := [.lower] } }
    (s.placeSafety .remote).drive = s.drive ∧ (s.placeSafety .lower).drive = s.drive
      ∧ (s.placeSafety .head).drive.slots = s.drive.slots := by decide +kernel
theorem witness_CrossAskAnswered : mid.accepts .crossAsk 0 1 [15, 1, 3, 18] = true ∧ mid.room 1 = true
    ∧ mid.ctl.mode ≠ .resting := by decide +kernel
/-- A station whose onward request is in a state, both its timers running. -/
def onwards (o : OnwardState) (s : State) : State :=
  { s with onward := { state := o, retryTimer := some 0, repeatTimer := some 0, repeatDue := false } }
theorem witness_CrossReplies :
    let a := onwards (.asking 5) (withEntry (entry .lowerUnit .crossAsk 2 none) mid)
    a.link.requests = [] ∧ a.accepts .crossTaken 2 1 [5] = true ∧ (a.matchReply .crossTaken 2 5).isSome = true
      ∧ a.matchReply .crossTaken 2 4 = none ∧ a.accepts .crossDeny 2 1 [5, 4] = true
      ∧ (a.matchReply .crossDeny 2 5).isSome = true ∧ a.notices = [] ∧ a.onward.retryTimer.isSome = true
      ∧ a.keepsBatch = true ∧ (onwards .taken mid).onward.repeatTimer.isSome = true
      ∧ (onwards .taken mid).onward.state = .taken ∧ (onwards .taken mid).upperHasBatch = false
      ∧ (onwards .taken mid).keepsBatch = true
      ∧ (let r := onwards .taken (withRecord (record 0x01 .resident []) (occupied 0x01 { mid with
          chamber := { mid.chamber with holder := .upper { claim .gateUp with key := 0x01 } } }))
        r.upperHasBatch = true ∧ r.works = true ∧ r.ctl.mode ≠ .held ∧ r.keepsBatch = false ∧ r.notices = []
          ∧ r.onward.repeatTimer.isSome = true ∧ r.onward.state = .taken) := by decide +kernel
/-- A station whose lower claim is in a state under a tag, with the entry of its ask. -/
def asking (st : LowerState) : State :=
  let s := withEntry (entry .chamber .claimAsk 0 none) mid
  { s with chamber := { s.chamber with lower := { s.chamber.lower with state := st, tag := 5, timer := some 0 } } }
theorem witness_ClaimReplies : (asking .asked).link.requests = [] ∧ (asking .asked).accepts .claimGive 0 1 [5, 7, 0xD0] = true
    ∧ (asking .asked).chamber.lower.tag = 5 ∧ (asking .asked).chamber.lower.state = .asked
    ∧ ((asking .asked).matchReply .claimGive 0 5).isSome = true
    ∧ (asking .asked).chamber.lower.purpose ≠ .localWork
    ∧ ¬ ((asking .asked).lowerUnit.claims = true ∧ (asking .asked).lowerUnit.free = true)
    ∧ (asking .held).accepts .claimGive 0 1 [5, 0, 0] = true ∧ mid.accepts .claimGive 0 1 [9, 0, 0] = true
    ∧ (asking .asked).accepts .claimWait 0 1 [5] = true ∧ (asking .asked).accepts .claimDeny 0 1 [5, 4] = true
    ∧ ((asking .asked).matchReply .claimDeny 0 5).isSome = true ∧ (asking .asked).matchReply .claimDeny 0 6 = none
    ∧ (asking .none).accepts .claimDeny 0 1 [5, 1] = true ∧ ((asking .none).matchReply .claimDeny 0 5).isSome = true := by
  decide +kernel
/-- A middle station with an UP batch of one RESIDENT record in its chamber. -/
def laden (st : RecState) : State := occupied 0x01 (withRecord (record 0x01 st []) mid)
theorem witness_TransferAsked :
    let c := { (laden .sending) with store := { (laden .sending).store with custody := 0x01 } }
    mid.accepts .xferAsk 2 1 [1, 1, 3] = true ∧ mid.store.batch 0x01 = [] ∧ mid.room 1 = true
      ∧ (laden .created).accepts .xferAsk 2 1 [1, 1, 1] = true ∧ (laden .created).store.batch 0x01 ≠ []
      ∧ ¬ (∀ r ∈ (laden .created).store.batch 0x01, r.state = .resident ∨ r.state = .sending)
      ∧ (laden .resident).accepts .xferAsk 2 1 [1, 1, 1] = true ∧ (laden .resident).store.batch 0x01 ≠ []
      ∧ (0x01 : BatchKey) = (laden .resident).chamber.key
      ∧ (∀ r ∈ (laden .resident).store.batch 0x01, r.state = .resident ∨ r.state = .sending)
      ∧ (if keyFromHead 0x01 then (2 : Addr).toNat + 1 = (laden .resident).k else (2 : Addr).toNat = (laden .resident).k + 1)
      ∧ (let again := { (laden .sending) with store := { (laden .sending).store with
            stream := some { number := 0, key := 0x01, dst := 2, attempt := 1, segments := [] } } }
        again.accepts .xferAsk 2 1 [1, 1, 1] = true ∧ again.store.batch 0x01 ≠ []
          ∧ again.store.stream.any (fun r => r.key = 0x01 && r.attempt = byteAt [1, 1, 1] 2) = true
          ∧ again.store.stream.any (fun r => r.key = 0x01 && r.attempt = byteAt [1, 1, 2] 2) = false)
      ∧ c.accepts .xferBad 2 1 [1] = true ∧ c.accepts .xferEnd 2 1 [1] = true ∧ (0x01 : BatchKey) = c.store.custody
      ∧ mid.accepts .xferEnd 2 1 [0] = true ∧ keyAt [0] 0 = 0 := by decide +kernel
/-- A middle station to which station 0 transfers batch 01, the segment with an index expected. -/
def receiving (index lines : Nat) (carry : Bool) (held : List Line) : State :=
  let s := if index = 0 then mid else withRecord (record 0x01 .receiving held) mid
  { s with store := { s.store with inbound := {
      state := if index = 0 then .asking else .streaming, key := 0x01, sender := 0, attempt := 1, position := 1,
      index := index, records := 1, lineCount := lines, carryFollows := carry } } }
/-- The segment's key and sender are those of the transfer, and it is the segment expected. -/
def expects (s : State) (src : Addr) (p : List Byte) : Bool :=
  let i := s.store.inbound
  s.accepts .recSeg src 1 p && s.link.requests.isEmpty && decide (keyAt p 0 = i.key) && decide (src = i.sender)
    && (decide (i.state = .asking) || decide (i.state = .streaming))
    && decide (byteAt p 1 / 16 % 4 = i.position) && decide (byteAt p 2 = i.index)
    && decide (byteAt p 1 / 64 = i.expectedType)
theorem witness_SegmentTaken : expects (receiving 0 0 false []) 0 [1, 0x10, 0, 0, 7, 0, 0x84] = true
    ∧ ((receiving 0 0 false []).store.alloc 0x01 true).isSome = true
    ∧ expects (receiving 1 0 false []) 0 [1, 0x50, 1, 0, 7, 0, 0, 5, 0x9F, 0, 20] = true
    ∧ ((receiving 1 0 false []).store.recordAt 0x01 1).isSome = true
    ∧ expects (receiving 2 1 true []) 0 [1, 0x90, 2, 0, 7] = true
    ∧ ((receiving 2 1 true []).store.recordAt 0x01 1).isSome = true
    ∧ expects (receiving 2 20 false []) 0 [1, 0xD0, 2, 0x61, 0, 9] = true
    ∧ (let l : Line := { kind := .chamber, chamber := 1, band := 3, amount := widened 0 9 }
      ((receiving 2 20 false []).store.recordAt 0x01 1).map (fun r => r.lineFits l) = some true
        ∧ ((receiving 2 20 false []).store.recordAt 0x01 1).map
          (fun r => ((receiving 2 20 false []).store.receiveLine l r).isSome) = some true)
    ∧ mid.accepts .recSeg 0 1 [1, 0x90, 2, 0, 7] = true ∧ keyAt [1, 0x90, 2, 0, 7] 0 ≠ mid.store.inbound.key
    ∧ (receiving 2 20 false []).accepts .recSeg 0 1 [1, 0xD0, 3, 0x61, 0, 9] = true
    ∧ (receiving 2 20 false []).store.inbound.attempt < 3
    ∧ byteAt [1, 0x50, 1, 0, 7, 0, 0, 5, 0x9F, 0, 0] 9 / 16 % 2 = 0 ∧ byteAt [1, 0x50, 1, 0, 7, 0, 0, 5, 0x9F, 0, 0] 10 = 0
    ∧ expects (receiving 1 0 false []) 0 [1, 0x50, 1, 0, 7, 0, 0, 5, 0x9F, 0, 0] = true
    ∧ expects (receiving 2 0 true []) 0 [1, 0x90, 2, 0, 7] = true ∧ (receiving 2 0 true []).store.inbound.lineCount = 0
    ∧ expects (receiving 2 1 false []) 0 [1, 0xD0, 2, 0x61, 0, 9] = true
    ∧ ¬ ([] : List Line).length + 1 < (receiving 2 1 false []).store.inbound.lineCount
    ∧ (receiving 2 1 false []).store.inbound.position = (receiving 2 1 false []).store.inbound.records
    ∧ (let full := { (receiving 0 0 false []) with store := { (receiving 0 0 false []).store with free := [] } }
      expects full 0 [1, 0x10, 0, 0, 7, 0, 0x84] = true ∧ full.store.alloc 0x01 true = none)
    ∧ (let l : Line := { kind := .chamber, chamber := 1, band := 3, amount := 9 }
      expects (receiving 2 20 false [l]) 0 [1, 0xD0, 2, 0x61, 0, 9] = true
        ∧ ((receiving 2 20 false [l]).store.recordAt 0x01 1).map (fun r => r.lineFits l) = some false) := by decide +kernel
/-- The head station with the hold of station 1 running and renewed so often. -/
def heldOff (renewals : Nat) : State :=
  { head with approach := { head.approach with holds := head.approach.holds.set 1 ⟨some 0, renewals⟩ } }
theorem witness_HoldTaken : (heldOff 15).accepts .hold 1 31 [255] = true
    ∧ (heldOff 15).approach.holds[partyIdx (partyOf 1)].renewals < 16
    ∧ (heldOff 16).accepts .hold 1 31 [1] = true ∧ (heldOff 16).approach.holds[partyIdx (partyOf 1)].renewals = 16
    ∧ (heldOff 16).shutToEntry = true ∧ (heldOff 16).notices = []
    ∧ (heldOff 16).approach.holds[partyIdx (.station 1)].left.isSome = true := by decide +kernel
theorem witness_FlightListKept :
    let s := { head with token := { head.token with inFlight := [⟨0x81, 2⟩], sweepTimer := some 0, recovery := .running 0 } }
    s.shutToEntry = true ∧ s.accepts .exitNote 0 2 [0x81] = true ∧ keyFromHead (keyAt [0x81] 0) = !s.isFoot
      ∧ s.notices = [] ∧ s.token.sweepTimer.isSome = true ∧ s.token.recovery = .running 0 ∧ s.noBatchReported = true
      ∧ (occupied 0x81 s).noBatchReported = false ∧ (occupied 0x81 s).shutToEntry = true := by decide +kernel
theorem witness_TokenOffered : head.accepts .tokenOffer 0 2 [15, 0x3F, 0xFF] = true ∧ head.room 1 = true
    ∧ head.shutToEntry = true
    ∧ (let keeps := fun (stop : StopState) => { head with token := { head.token with state := .held, epoch := 16383 },
                                                          ctl := { head.ctl with stop := stop } }
       (keeps .stopClear).accepts .tokenOffer 0 2 [15, 0x3F, 0xFF] = true ∧ (keeps .stopClear).shutToEntry = true
         ∧ (keeps .stopActive).accepts .tokenOffer 0 2 [15, 0x3F, 0xFF] = true ∧ (keeps .stopActive).shutToEntry = true
         ∧ (keeps .stopActive).room 1 = true ∧ BitVec.ofNat 14 (be16 [15, 0x3F, 0xFF] 1) = 16383) := by decide +kernel
theorem witness_TokenReplies :
    let t := withEntry (entry .approach .tokenOffer 0 none) head
    let s := { t with token := { t.token with state := .offered, offer := some 7 } }
    s.shutToEntry = true ∧ s.link.requests = [] ∧ s.accepts .tokenTake 0 2 [5, 0, 7] = true
      ∧ (s.matchReply .tokenTake 0 5).isSome = true ∧ s.matchReply .tokenTake 0 6 = none
      ∧ s.accepts .tokenDecline 0 2 [5, 0, 7] = true ∧ (s.matchReply .tokenDecline 0 5).isSome = true := by decide +kernel
theorem witness_VesselFrames :
    let q := occupied 0x81 { querying with approach := { querying.approach with queue := [queued 7 false] } }
    let p : List Byte := [5, 0, 7, 0, 0, 0, 0, 0, 6]
    let v := vesselOf p 1 ((q.widenSlot deskAddr).upper true) false q.clockNow
    head.accepts .vesselSet 30 2 [0, 7, 0, 0, 0, 0, 0, 8] = true ∧ head.room 1 = true
      ∧ head.accepts .vesselSet 30 31 [0, 7, 0, 0, 0, 0, 0, 1] = true ∧ head.accepts .vesselDel 30 2 [0, 7] = true
      ∧ head.accepts .vesselInfo 30 2 p = true ∧ head.matchReply .vesselInfo 30 5 = none
      ∧ q.accepts .vesselInfo 30 2 p = true ∧ (q.matchReply .vesselInfo 30 5).isSome = true ∧ q.link.requests = []
      ∧ q.chamber.occupancy ≠ .empty ∧ v.barred = false ∧ v.lengthClass ≤ q.cfg.capacity := by decide +kernel
theorem witness_ClockSet : mid.accepts .time 30 31 [0xFF, 0xFF, 0x05, 0x9F] = true
    ∧ (let s := { mid with tariff := { mid.tariff with known := true, minute := 1439, minuteTimer := some 0 } }
      s.notices = [] ∧ s.tariff.known = true ∧ s.tariff.minuteTimer.isSome = true) := by decide +kernel
theorem witness_RatesSet : mid.follows 30 = true ∧ mid.isTaken 1 = true ∧ mid.isTaken 31 = true
    ∧ mid.ctl.mode ≠ .unconfigured ∧ mid.room 1 = true ∧ ([0xF8, 1, 2] : List Byte).length = 3 ∧ byteAt [7] 0 < 8
    ∧ byteAt [8] 0 = 8 ∧ 8 < byteAt [9] 0 ∧ ([] : List Byte).length ≠ 1 ∧ bare.follows 30 = true ∧ bare.isTaken 1 = true
    ∧ bare.ctl.mode = .unconfigured ∧ bare.room 1 = true ∧ VClass.pleasure ≠ .exempt := by decide +kernel
/-- A station whose clock stands at a minute. -/
def atMinute (m : Nat) : State := { mid with tariff := { mid.tariff with known := true, minute := m } }
theorem witness_BandOfMinute : mid.tariff.known = false ∧ (atMinute 359).tariff.known = true
    ∧ mid.cfg.band1 < mid.cfg.band2 ∧ mid.cfg.band2 < mid.cfg.band3 ∧ (atMinute 359).bandNow = 0
    ∧ (atMinute 360).bandNow = 1 ∧ (atMinute 719).bandNow = 1 ∧ (atMinute 720).bandNow = 2 ∧ (atMinute 1079).bandNow = 2
    ∧ (atMinute 1080).bandNow = 3 ∧ (laden .resident).store.recordAt 0x01 1 = some (record 0x01 .resident [])
    ∧ (record 0x01 .resident []).hasChamber 1 = false ∧ (record 0x01 .resident []).assists < 4
    ∧ ((laden .resident).store.alloc 0x01 false).isSome = true
    ∧ (let l : Line := { kind := .assist, chamber := 1, band := 0, amount := 0 }
      ({ mid with store := { mid.store with records := [{ record 0x01 .receiving [l] with position := 3 }] } }).store.recordAt
        0x01 3 = some { record 0x01 .receiving [l] with position := 3 }
        ∧ (record 0x01 .receiving [l]).lines.length % 4 ≠ 0 ∧ (record 0x01 .receiving [l]).assists < 4) := by decide +kernel
theorem witness_TollFrames :
    let s := withRecord (record 0x81 .closed []) head
    head.room 1 = true ∧ head.accepts .tollRead 30 2 [1] = true ∧ head.store.log = []
      ∧ s.room 1 = true ∧ s.accepts .tollRead 30 2 [15] = true ∧ s.store.log = [record 0x81 .closed []]
      ∧ s.accepts .tollRemove 30 2 [0, 1] = true ∧ (record 0x81 .closed []).logNumber = be16 [0, 1] 0
      ∧ s.accepts .tollRemove 30 31 [0, 2] = true ∧ s.accepts .tollRemove 30 2 [0, 2] = true ∧ s.toll.stream = none
      ∧ s.store.log.head?.all (fun r => r.logNumber ≠ be16 [0, 2] 0) = true := by decide +kernel
theorem witness_FaultNotes :
    let p : List Byte := [14, 0x80, 0, 0, 0, 0, 0, 0, 0, 0]
    mid.accepts .faultNote 2 31 p = true ∧ (2 : Addr) ≠ deskAddr ∧ (2 : Addr) ≠ mid.ownAddr ∧ byteAt p 1 / 64 = 2
      ∧ mid.accepts .faultNote 30 31 p = true ∧ mid.accepts .faultClear 2 31 [1] = true
      ∧ (peerIdx 2).val = mid.k + 1 ∧ mid.link.unsentAsk .crossAsk = false ∧ (peerIdx 0).val ≠ mid.k + 1
      ∧ mid.accepts .faultNote 0 31 p = true ∧ mid.presence.peers[peerIdx 2].faulted = false ∧ mid.accepts .faultClear 30 31 [1] = true := by decide +kernel
/-- A middle station that delegates a cause, with a level bit. -/
def delegating (c : Cause) (localToo : Bool) (s : State) : State :=
  { s with loader := { s.loader with settings := s.loader.settings.map (fun x => { x with
      delegation := BitVec.ofNat 32 ((if localToo then 3 else 1) * 4 ^ (c.code - 1)) }) } }
/-- For FaultRaised: a raise at each level, a raise again at a place, one beside the record of another cause. -/
theorem witness_FaultRaised :
    let level := fun (s : State) (c : Cause) (p : Option Place) => s.raiseLevel c p
    let f := delegating .peerLost false mid
    let r : FaultRecord := { clashRecord with cause := .peerLost, level := .flight, bound := .lower }
    let at' : Place := { key := 0x01, bound := .lower, step := some .claim }
    let g := { (crossingIn .claim f) with fault := { f.fault with record := some r, marks := [⟨.peerLost, at'⟩] } }
    (mid.fault.pendingSet = [] ∧ f.fault.record = none ∧ f.fault.pendingSet = [])
      ∧ (let x : PendingCause := ⟨.tokenClash, .desk⟩
        let w := delegating .peerLost true { mid with fault := { mid.fault with pendingSet := [x] } }
        w.fault.record = none ∧ w.fault.highest = some x ∧ level w .peerLost none = .localLevel)
      ∧ level mid .positionConflict none = .desk ∧ level f .peerLost none = .flight
      ∧ level (delegating .peerLost true mid) .peerLost none = .localLevel ∧ level mid .addressClash none = .desk
      ∧ mid.fault.record = none ∧ g.placeOf .peerLost .lower = some at' ∧ g.escalates .peerLost (some at') = true
      ∧ level g .peerLost (some at') = .desk ∧ g.fault.record = some r ∧ r.cause ≠ .tokenClash
      ∧ g.escalates .peerLost (g.placeOf .peerLost .none) = false ∧ mid.ctl.mode ≠ .resting
      ∧ mid.presence.clash = false ∧ mid.presence.interval = .normal ∧ mid.room 1 = true
      ∧ elementOfCode? (BitVec.ofNat 32 (elementCode .lowerGate)).toNat = some .lowerGate
      ∧ g.room 1 = true ∧ g.ctl.mode ≠ .resting ∧ g.presence.clash = false ∧ g.presence.interval = .normal
      ∧ r.cause = .peerLost ∧ r.level = .flight ∧ mid.room 2 = true ∧ f.room 1 = true
      ∧ (State.act (.raise .peerLost 0 0 .lower) f).underWay .peerLost = true
      ∧ level (delegating .linkDegraded false mid) .linkDegraded none = .flight
      ∧ (State.act (.raise .linkDegraded 1 0 .none) (delegating .linkDegraded false mid)).underWay .linkDegraded = false := by
  decide +kernel
theorem witness_ClearTaken : mid.accepts .clear 30 31 [] = true ∧ mid.accepts .clear 30 1 [] = true ∧ mid.ctl.mode ≠ .held
    ∧ mid.room 1 = true ∧ held.accepts .clear 30 1 [] = true ∧ held.ctl.mode = .held
    ∧ held.fault.record.map (fun r => (r.cause, r.prior)) = some (.addressClash, .waking) ∧ held.fault.pendingSet = []
    ∧ held.drive.restful = true ∧ held.unitsQuiet = true ∧ held.chamber.waiter = .none ∧ held.keepsBatch = true
    ∧ held.shutToEntry = true ∧ held.pins.key = .auto ∧ held.presence.clash = false ∧ held.presence.interval = .normal
    ∧ ({ held.fault with record := none } : FaultUnit).highest.all (fun x : PendingCause => x.level ≠ .desk) = true
    ∧ ({ held.fault with record := none, pendingSet := [⟨.tokenClash, .desk⟩] } : FaultUnit).highest
      = some ⟨.tokenClash, .desk⟩ := by decide +kernel
theorem witness_LineEvents :
    let f := txFrame .link .echoBack false
    let g := txFrame .vessel .vesselQuery true
    let a := sending f false false mid
    let b := sending f true false mid
    let c := sending g true true mid
    a.notices = [] ∧ a.ctl.mode ≠ .loading ∧ a.link.onLine = false ∧ a.link.backoff = none ∧ a.link.head? = some f
      ∧ mid.link.head? = none ∧ mid.link.lineFrame? = none ∧ b.link.lineFrame? = some f ∧ b.link.lineWiden = false
      ∧ b.link.waiting = [] ∧ b.link.backlog = [] ∧ b.link.attempts + 1 ≠ 12 ∧ ¬ (f.widenDue = true ∧ b.link.lineWiden = false)
      ∧ c.link.lineFrame? = some g ∧ c.link.lineWiden = true
      ∧ (let d := sending g true false mid
        d.link.lineFrame? = some g ∧ g.widenDue = true ∧ d.link.lineWiden = false ∧ d.link.attempts + 1 ≠ 12)
      ∧ (let e := { b with link := { b.link with attempts := 11 } }
        e.link.lineFrame? = some f ∧ e.link.attempts + 1 = 12) := by decide +kernel
theorem witness_LinkTimers :
    let g := { txFrame .vessel .vesselQuery false with widenAge := some (ms 50) }
    let s := { sending g false false mid with
      presence := { mid.presence with beaconTimer := some 0 }, flasherTimer := some 0 }
    s.notices = [] ∧ s.link.txq.find? (fun f => f.locked && !f.widenDue) = some g ∧ s.presence.beaconTimer.isSome = true
      ∧ s.mayOffer = false ∧ s.room 1 = true ∧ s.flasherTimer.isSome = true := by decide +kernel
/-- A middle station in local working of its lower boundary, the lower claim and its own chamber held. -/
def local' : State :=
  { holding with
      pins := { mid.pins with key := .localPos },
      ctl := { mid.ctl with mode := .localMode, localState := .working, localUnit := .lower },
      chamber := { holding.chamber with
        lower := { holding.chamber.lower with purpose := .localWork },
        holder := .self { claimant := .lower, purpose := .localWork, key := 0 } } }
/-- For LinkTimers: a state on each side of every condition of the approach signal and the lamps. -/
theorem witness_Lamps : strapped.ctl.mode = .loading ∧ bare.ctl.mode = .unconfigured ∧ bare.k ≠ 0
    ∧ ({ foot with ctl := { foot.ctl with mode := .unconfigured } }).k = 0 ∧ mid.isEnd = false
    ∧ ({ foot with ctl := { foot.ctl with mode := .resting } }).isEnd = true
    ∧ (let c : Crossing := { crossing with kind := .entry }
      let s := { foot with
        approach := { foot.approach with batch := some { key := 0x01, members := [] } },
        lowerUnit := { (crossingIn .transit foot).lowerUnit with below := .active c } }
      let go := { s with drive := { s.drive with elements := s.drive.elements.set 0 .opened },
                         token := { s.token with state := .held } }
      s.entryCrossing.isSome = true ∧ s.entryStep = some .transit ∧ s.approachUnit = .lower
        ∧ go.element (gateOf go.approachUnit) = .opened ∧ go.ctl.mode = .inService ∧ go.ctl.stop = .stopClear
        ∧ (go.signalRed, go.signalGreen) = (false, true)
        ∧ (let w := { s with lowerUnit := { s.lowerUnit with step := some .claim } }
          w.entryStep = some .claim ∧ (w.signalRed, w.signalGreen) = (true, true)))
    ∧ foot.token.state = .absent ∧ foot.approach.batch = none
    ∧ (foot.signalRed, foot.signalGreen) = (foot.flasherOn, false)
    ∧ local'.ctl.localState = .working ∧ mid.ctl.localState = .auto := by decide +kernel
theorem witness_PanelInputs : foot.notices = [] ∧ foot.pins.key = .auto ∧ foot.ctl.mode = .inService
    ∧ foot.ctl.localState = .auto ∧ foot.hasLower = false ∧ foot.isHead = false ∧ foot.chamber.holder = .free
    ∧ foot.chamber.waiter = .none ∧ foot.unitsQuiet = true ∧ foot.drive.restful = true ∧ foot.presence.clash = false
    ∧ foot.presence.interval = .normal ∧ local'.notices = [] ∧ local'.ctl.mode = .localMode
    ∧ elementUnit .lowerGate = local'.ctl.localUnit ∧ local'.ctl.localState = .working ∧ local'.ctl.stop = .stopClear
    ∧ local'.ctl.pumpReady = true ∧ local'.drive.restful = true ∧ local'.element .lowerGate ≠ restState .toOpen
    ∧ local'.element .lowerGate ≠ .failed ∧ local'.claimsHeld .lower = true
    ∧ elementUnit .headGate ≠ local'.ctl.localUnit := by decide +kernel
theorem witness_LevelReadings : levelled.works = true ∧ levelled.readsLine .chamber = true ∧ head.readsLine .outer = true
    ∧ (2000 : BitVec 16).toNat ≤ 2000 ∧ 2000 < (2001 : BitVec 16).toNat ∧ levelled.notices = []
    ∧ levelled.chamber.level.valid = true ∧ levelled.chamber.level.value = (700 : BitVec 16).toNat
    ∧ (1501 : BitVec 16).toNat ≤ 2000 ∧ levelled.cfg.overflow < (1501 : BitVec 16).toNat
    ∧ (99 : BitVec 16).toNat < levelled.cfg.floor ∧ levelled.chamber.alarm = .normal ∧ mid.chamber.level.valid = false
    ∧ levelled.isHead = false ∧ head.works = true ∧ head.readsLine .chamber = true ∧ head.isHead = true
    ∧ (let s := { levelled with chamber := { levelled.chamber with alarm := .high } }
      s.works = true ∧ ¬ s.cfg.overflow < 700 ∧ ¬ 700 < s.cfg.floor ∧ s.chamber.alarm = .high)
    ∧ levelled.alarmOf 700 = levelled.chamber.alarm ∧ mid.readsLine .outer = false ∧ (levelled.levelOf .chamber).valid = true
    ∧ (let s := { mid with chamber := { mid.chamber with
        level := { mid.chamber.level with valid := true, value := 700, lossTimer := some 0 }, lastFed := 700 } }
      (s.levelOf .chamber).lossTimer.isSome = true ∧ s.chamber.lastFed = (700 : BitVec 16).toNat
        ∧ s.chamber.level.value = 700 ∧ s.alarmOf 700 = s.chamber.alarm) := by decide +kernel
theorem witness_SwitchesJudged : mid.notices = [] ∧ mid.switchesOf .lowerGate = ⟨false, false⟩
    ∧ mid.drives .headGate = false ∧ driving.notices = [] ∧ driving.works = true
    ∧ driving.drives opening.element = true ∧ driving.switchesOf opening.element ≠ ⟨false, true⟩
    ∧ opening.phase = .running ∧ opening.target = .toOpen ∧ driving.drive.slots = #v[none, some opening, none, none]
    ∧ driving.drive.stack = [] ∧ driving.drive.safetySet = [] ∧ driving.runningSource = some .panel
    ∧ driving.slot .panel = some opening ∧ mid.runningSource = none
    ∧ driving.drivenBy .lowerGate = some (.panel, opening) ∧ driving.switchesOf .lowerGate ≠ ⟨true, true⟩
    ∧ driving.switchesOf .lowerGate ≠ ⟨true, false⟩ := by decide +kernel
/-- A middle station whose safety close set closes the lower sluice. -/
def safetyClosing : State :=
  let m : Motion := { element := .lowerSluice, target := .toClosed, phase := .running, allowance := sec 60 }
  { mid with drive := { mid.drive with
      elements := mid.drive.elements.set 1 .closing, slots := #v[some m, none, none, none],
      safetySet := [.remote] } }
/-- A middle station with the panel's opening of the lower gate kept on the stack, and its gate in a state. -/
def stacked (e : ElementState) : State :=
  { mid with drive := { mid.drive with
      elements := mid.drive.elements.set 0 e, slots := #v[none, some { opening with phase := .stacked }, none, none],
      stack := [.panel] } }
/-- For SwitchesJudged: a motion of SAFETY, and elements that are not driven. -/
theorem witness_SwitchesOfSafetyAndRest : safetyClosing.works = true ∧ safetyClosing.drives .lowerSluice = true
    ∧ (safetyClosing.drivenBy .lowerSluice).map Prod.fst = some .safety
    ∧ (safetyClosing.drivenBy .lowerSluice).map (fun x => (x.2.element, x.2.target)) = some (.lowerSluice, .toClosed)
    ∧ safetyClosing.switchesOf .lowerSluice ≠ ⟨true, false⟩
    ∧ (stacked .failed).drivenBy .lowerGate = none ∧ (stacked .failed).works = true
    ∧ (let shown := fun (e : ElementState) (c o : Bool) => ({ (stacked e) with pins := { (stacked e).pins with
          switches := (stacked e).pins.switches.set (elementIdx .lowerGate) ⟨c, o⟩ } } : State)
      (shown .failed false true).restedMotion .lowerGate = some (.panel, { opening with phase := .stacked })
        ∧ (shown .failed true false).restedMotion .lowerGate = none
        ∧ (shown .closed true true).restedMotion .lowerGate = none)
    ∧ mid.drivenBy .lowerGate = none ∧ mid.element .lowerGate ≠ .failed := by decide +kernel
theorem witness_CrossingWatched :
    let a := crossingIn .transit { mid with lowerUnit := { mid.lowerUnit with count := 0 } }
    let z := { a with lowerUnit := { a.lowerUnit with count := 0 } }
    let e := crossingIn .equalize mid
    a.notices = [] ∧ a.works = true ∧ .lower ∈ a.units ∧ (a.unit .lower).active? = some crossing
      ∧ (a.unit .lower).step = some .transit ∧ (a.unit .lower).mismatch = false
      ∧ (z.unit .lower).count + 1 < crossing.vessels ∧ (z.unit .lower).active? = some crossing
      ∧ 0 < (a.unit .lower).count ∧ (a.unit .lower).count - 1 ≠ crossing.vessels ∧ Direction.down ≠ crossing.direction
      ∧ (mid.unit .lower).active? = none ∧ .head ∉ mid.units ∧ (e.unit .lower).step = some .equalize
      ∧ (e.unit .lower).equalizeTimer.isSome = true ∧ e.crossTimersRun .lower = true ∧ e.notices = []
      ∧ (a.unit .lower).acts .transit = true ∧ (a.unit .lower).entryTimer.isSome = true
      ∧ a.crossTimersRun .lower = true ∧ (mid.unit .lower).step ≠ some .equalize
      ∧ (a.unit .lower).count + 1 = crossing.vessels ∧ (a.unit .lower).frozen = false ∧ (a.unit .lower).hold = .none
      ∧ (a.unit .lower).reclaim = false
      ∧ (let z3 := { a with lowerUnit := { a.lowerUnit with count := 2 } }
        z3.notices = [] ∧ (z3.unit .lower).step = some .transit ∧ crossing.vessels < (z3.unit .lower).count + 1)
      ∧ (z.unit .lower).count = 0 ∧ (z.unit .lower).step = some .transit ∧ mid.works = true ∧ bare.works = false := by
  decide +kernel
/-- A head station with a batch in its chamber and so many vessels queued. -/
def calling (n : Nat) (desk : PeerState) : State :=
  let s := occupied 0x81 head
  { s with approach := { s.approach with queue := (List.range n).map (fun i => queued (BitVec.ofNat 32 i) false) },
           presence := { s.presence with desk := desk } }
theorem witness_CallsTaken : (calling 11 .absent).notices = [] ∧ (calling 11 .absent).readsCall 8 = true
    ∧ (calling 11 .absent).readsCall 0 = false ∧ mid.readsCall 1 = false ∧ (calling 11 .absent).ctl.mode = .inService
    ∧ (calling 11 .absent).chamber.occupancy ≠ .empty ∧ 12 ≤ (calling 12 .absent).approach.queue.length
    ∧ (calling 12 .absent).readsCall 1 = true ∧ (calling 11 .absent).approach.queue.length < 12
    ∧ (calling 11 .absent).approach.queue.any (fun e => e.registration = 10) = true
    ∧ (calling 11 .absent).approach.queue.any (fun e => e.registration = 11) = false
    ∧ (calling 11 .absent).approach.batch = none ∧ (calling 11 .absent).lookupVessel 11 = none
    ∧ (6 : Byte).toNat ≤ (calling 11 .absent).cfg.capacity ∧ (calling 11 .absent).cfg.capacity < (7 : Byte).toNat
    ∧ (calling 11 .absent).presence.desk = .absent
    ∧ ((calling 11 .absent).unresolved? 10).map (fun e => e.resolution.isSome) = some true
    ∧ (let v : Vessel := { registration := 11, cls := .service, group := 7, account := 0, lengthClass := 8, barred := false,
                           static := true, lastSeen := none }
      ({ calling 11 .present with vessels := { VesselTable.initial with
        home := VesselTable.initial.home.set (homeSlot 11) (some v) } }).lookupVessel 11 = some v)
    ∧ ({ calling 1 .absent with ctl := { head.ctl with mode := .unconfigured } }).readsCall 1 = true := by decide +kernel
theorem witness_ClaimTimers :
    let c : SelfClaim := { claimant := .lower, purpose := .gateUp, key := 1 }
    let s := { mid with chamber := { mid.chamber with waiter := .self c, selfTimer := some 0 } }
    let f := { claimed .gateUp with chamber := { (claimed .gateUp).chamber with
      feedTimer := some 0, level := { Level.initial with valid := true } } }
    let u := { mid with lowerUnit := { mid.lowerUnit with retryTimer := some 0 } }
    s.notices = [] ∧ s.chamber.waiter = .self c ∧ s.chamber.selfTimer.isSome = true
      ∧ (asking .asked).chamber.lower.timer.isSome = true ∧ (asking .asked).chamber.lower.state = .asked
      ∧ (asking .asked).notices = [] ∧ mid.link.requests = [] ∧ f.notices = [] ∧ f.chamber.feedTimer.isSome = true
      ∧ f.feedTag = some 3 ∧ f.link.hasQueued .chamber .levelFeed = false ∧ f.room 1 = true
      ∧ ({ f with chamber := { f.chamber with holder := .free } }).feedTag = none
      ∧ (u.unit .lower).retryTimer.isSome = true ∧ (u.unit .lower).claims = false ∧ u.notices = [] := by decide +kernel
theorem witness_StoreTimers :
    let p := fun (st : InboundState) (attempt : Nat) => ({ mid with
      presence := { mid.presence with peers := mid.presence.peers.set 0 { Peer.initial with presence := .present } },
      store := { mid.store with
        gapTimer := some 0, attemptWait := some 0, low := true, lowTimer := some 0,
        inbound := { Inbound.initial with state := st, key := 0x01, sender := 0, attempt := attempt } } } : State)
    (p .streaming 2).notices = [] ∧ (p .streaming 2).store.gapTimer.isSome = true
      ∧ (p .streaming 2).store.inbound.attempt < 3 ∧ ¬ (p .streaming 3).store.inbound.attempt < 3
      ∧ (p .paused 2).store.attemptWait.isSome = true ∧ (p .paused 2).works = true
      ∧ (p .paused 2).isPresent 0 = true ∧ (p .paused 2).isMarked 0 = false
      ∧ (p .streaming 2).store.inbound.state ≠ .paused ∧ (p .paused 2).store.low = true
      ∧ (p .paused 2).store.lowTimer.isSome = true ∧ mid.store.low = false := by decide +kernel

end Sys2Proof.Tests
end

section
/-! The flight link: what every step keeps, the frame on the line, and the kinds that the Link Controller deals with itself. -/

namespace Sys2Proof.FlightLink
open Sys2Proof Sys2Proof.Machine

/-! ### What every step keeps -/

/-- A step keeps soundness on each of its ways: the command at the front, what is left to act on, an expiry, a bit time. -/
theorem step_sound {s t : State} (h : s.Sound) (hs : step s = .next t) : t.Sound := by
  unfold step at hs
  split at hs
  · exact exec_sound _ (sound_pending h) t hs
  · unfold State.idle at hs
    split at hs
    · cases hs; exact finish_sound h
    · split at hs
      · exact exec_sound _ h t hs
      · cases hs; exact tick_sound h

/-- Settles O5, from what every command and every bit time keeps. -/
theorem soundKept : Obligations.SoundKept := fun _ _ h hs => step_sound h hs

/-- Settles O4: reset is what START leaves. -/
theorem soundAtReset : Obligations.SoundAtReset := startState_sound State.reset

/-! ### The frame on the line (R1, R2) -/

theorem frameBytes_length (dst src : Addr) (kind : Nat) (p : List Byte) :
    (frameBytes dst src kind p).length = p.length + 5 := by
  simp [frameBytes, headerBytes, bytes16]

/-- The first two bytes hold destination, source and kind (R1, 12.2). -/
theorem frameBytes_header (dst src : Addr) (kind : Nat) (p : List Byte) (hk : kind < 64) :
    byteAt (frameBytes dst src kind p) 0 = dst.toNat * 8 + src.toNat / 4
      ∧ byteAt (frameBytes dst src kind p) 1 = src.toNat % 4 * 64 + kind := by
  have hd := dst.isLt
  have hs := src.isLt
  constructor
  · show (byte _).toNat = _
    rw [byte_toNat]; omega
  · show (byte _).toNat = _
    rw [byte_toNat]; omega

/-- The third byte is the payload's length. -/
theorem frameBytes_lengthByte (dst src : Addr) (kind : Nat) (p : List Byte) (hp : p.length ≤ 16) :
    byteAt (frameBytes dst src kind p) 2 = p.length := by
  show (byte _).toNat = _
  rw [byte_toNat]; omega

/-- Two bytes behind a text are read back from its end. -/
theorem be16_behind (body : List Byte) (n : Nat) (h : n < 65536) : be16 (body ++ bytes16 n) body.length = n := by
  have h0 : byteAt (body ++ bytes16 n) body.length = n / 256 % 256 := by
    simp [byteAt, bytes16, byte_toNat]
  have h1 : byteAt (body ++ bytes16 n) (body.length + 1) = n % 256 := by
    simp [byteAt, bytes16, byte_toNat]
  unfold be16
  rw [h0, h1]
  exact be16_bytes n h

/-- The check that ends a frame agrees with what stands before it. -/
theorem frameBytes_check (dst src : Addr) (kind : Nat) (p : List Byte) :
    let b := frameBytes dst src kind p
    crc16 (b.take (b.length - 2)) = be16 b (b.length - 2) := by
  intro b
  let body := headerBytes dst src kind p.length ++ p
  have hb : b = body ++ bytes16 (crc16 body) := rfl
  have hl : b.length - 2 = body.length := by rw [hb, List.length_append]; rfl
  rw [hl, hb, List.take_left, be16_behind _ _ (crc16_lt body)]

/-- A frame as the line carries it passes the acceptance test of R2. -/
theorem frameAccepted_frameBytes (dst src : Addr) (kind : Nat) (p : List Byte) (hp : p.length ≤ 16) :
    frameAccepted true (frameBytes dst src kind p) = true := by
  have hc := frameBytes_check dst src kind p
  unfold frameAccepted
  rw [frameBytes_lengthByte _ _ _ _ hp, decide_eq_true hc, frameBytes_length]
  simp [hp]

/-- Settles O6: from the two header bytes written out and the lemma that every frame built is accepted. -/
theorem frameRoundTrip : Obligations.FrameRoundTrip := by
  intro dst src kind p hk hp b
  obtain ⟨h0, h1⟩ := frameBytes_header dst src kind p hk
  have hs := src.isLt
  have hd := dst.isLt
  refine ⟨frameAccepted_frameBytes dst src kind p hp, ?_, ?_, ?_, frameBytes_lengthByte dst src kind p hp, ?_⟩
  · rw [h0]; unfold field; omega
  · rw [h0, h1]; unfold field; omega
  · rw [h1]; unfold field; omega
  · show (p ++ bytes16 _).take p.length = p
    exact List.take_left

/-! ### Answers by the Link Controller (R5, R8, R15, R20) -/

/-- A frame of unknown kind that is heard and taken is refused UNKNOWN_KIND (R5). -/
theorem receiveUnknown_taken {s : State} {src dst : Addr} (h : s.follows src = true) (ht : s.isTaken dst = true)
    (kind : BitVec 6) : s.receiveUnknown src dst kind
      = (s.noted src).refuse src (decide (dst = broadcastAddr)) kind 0 .unknownKind := by
  obtain ⟨hh, hv⟩ := follows_hears h
  unfold State.receiveUnknown
  rw [hh, hv, follows_reportSource h]
  dsimp only
  rw [noted_taken, ht]
  rfl

/-- Settles O15: the refusal is queued where there is room, and by broadcast there is none. -/
theorem unknownKindRefused : Obligations.UnknownKindRefused := by
  intro s src dst kind p hf ht hk
  have hrec := receiveUnknown_taken hf ht kind
  refine ⟨fun hb hr => ?_, fun hb => ?_⟩
  · rw [decide_eq_false hb, refuse_room _ _ _ _ hk (noted_room hr)] at hrec
    exact ran_quiet hrec (queued_calm (noted_calm hf)) (queued_pend (noted_pending src s))
  · rw [decide_eq_true hb, refuse_bc] at hrec
    exact ran_quiet hrec (noted_calm hf) (noted_pending src s)

/-- Settles O16: the owner overwrites the slot that the frame's own handing over has advanced. -/
theorem widenTaken : Obligations.WidenTaken := by
  intro s src dst p h
  refine ran_owner h ?_ (noted_notices src s |>.trans (accepts_calm h)) (noted_pending src s)
  unfold State.onWiden State.setWidenSlot State.after State.rxOf
  simp only [Vector.set_set]

/-- A block with a waiting offer of its own keeps an own frame from being sent at all (R8, R20). -/
theorem sendOwn_waits {s : State} (k : Kind) (dst : Addr) (p : List Byte) (h : s.link.blockWaits .link = true) :
    s.sendOwn k dst p = s := by
  unfold State.sendOwn; rw [h]; rfl

/-- An ECHO addressed to the station is answered to its source (R20). -/
theorem onEcho_addressed {s : State} {rx : Rx} (h : rx.broadcast = false) :
    s.onEcho rx = s.sendOwn .echoBack rx.src rx.payload := by
  unfold State.onEcho; rw [h]; rfl

/-- An ECHO addressed to an UNCONFIGURED station reaches its owner, whatever its tag (R9). -/
theorem receive_echo_unconfigured {s : State} {src dst : Addr} {p : List Byte} (h : s.follows src = true)
    (hm : s.ctl.mode = .unconfigured) (hd : dst = s.ownAddr) (hb : dst ≠ broadcastAddr) (hp : 1 ≤ p.length) :
    s.receive .echo src dst p State.onEcho = (s.noted src).sendOwn .echoBack src p := by
  obtain ⟨hh, hv⟩ := follows_hears h
  have ht : s.isTaken dst = true := by unfold State.isTaken; simp [hd]
  unfold State.receive
  rw [hh, hv, follows_reportSource h]
  dsimp only
  rw [noted_taken, ht, noted_ctl, if_pos hm]
  have hown : State.takeUnconfigured .echo src dst p State.onEcho (s.noted src)
      = State.onEcho { src := src, broadcast := decide (dst = broadcastAddr), payload := p, upper := 0 } (s.noted src) := by
    unfold State.takeUnconfigured
    rw [if_neg hb]
    simp [hp, Kind.takenUnconfigured]
  exact hown.trans (onEcho_addressed (decide_eq_false hb))

/-- Settles O17: by the owner of ECHO where the station has its configuration, by the UNCONFIGURED path where not. -/
theorem echoAnswered : Obligations.EchoAnswered := by
  refine ⟨fun s src dst p h hb => ?_, fun s src dst p hf hm hd hb hp hr => ?_⟩
  · have howner : State.onEcho (s.rxOf .echo src dst p) (s.after .echo src)
        = (s.after .echo src).sendOwn .echoBack src p := onEcho_addressed (decide_eq_false hb)
    refine ⟨fun hr => ?_, fun hw => ?_⟩
    · rw [sendOwn_room _ _ _ (after_room .echo src hr)] at howner
      exact ran_owner h howner (queued_calm (after_calm h)) (queued_pend (after_pending _ _ _))
    · rw [sendOwn_waits (s := s.after .echo src) _ _ _ hw] at howner
      exact ran_owner h howner (after_calm h) (after_pending _ _ _)
  · have hrec := receive_echo_unconfigured hf hm hd hb hp
    rw [sendOwn_room _ _ _ (noted_room hr)] at hrec
    exact ran_quiet hrec (queued_calm (noted_calm hf)) (queued_pend (noted_pending src s))

/-- Settles O18: both kinds share one rule, `ran_without`. -/
theorem plainRepliesTaken : Obligations.PlainRepliesTaken :=
  fun _ _ _ _ hr => ⟨fun h => ran_without h hr, fun h => ran_without h hr⟩

/-- A kind that the desk alone receives is refused WRONG_ROLE before any widen slot is used (R5, R6). -/
theorem receive_deskOnly {s : State} {k : Kind} {src dst : Addr} (hk : k.deskOnly = true) (h : s.follows src = true)
    (hm : s.ctl.mode ≠ .unconfigured) (ht : s.isTaken dst = true) (p : List Byte) (owner : Rx → State → State) :
    s.receive k src dst p owner = (s.noted src).refuse src (decide (dst = broadcastAddr)) (BitVec.ofNat 6 k.code)
      (refusedTag k p) .wrongRole := by
  obtain ⟨hh, hv⟩ := follows_hears h
  have hrole : (s.noted src).roleTest k src = false := by unfold State.roleTest; rw [hk]; rfl
  unfold State.receive
  rw [hh, hv, follows_reportSource h]
  dsimp only
  rw [noted_taken, ht, noted_ctl, if_neg hm]
  unfold State.takeFrame
  dsimp only
  rw [hrole]
  rfl

/-- What the command of such a kind answers: the REFUSE, or nothing to a broadcast. -/
theorem ran_deskOnly {s : State} {k : Kind} {src dst : Addr} (hk : k.deskOnly = true) (h : s.follows src = true)
    (hm : s.ctl.mode ≠ .unconfigured) (ht : s.isTaken dst = true) (hr : s.room 1 = true) (p : List Byte)
    (hc : BitVec.ofNat 6 k.code ≠ BitVec.ofNat 6 Kind.refuse.code) {n : Nat} (hn : (BitVec.ofNat 6 k.code).toNat = n) :
    ran (State.receive k src dst p noOwner) s = .next (if dst = broadcastAddr then s.noted src
      else (s.noted src).queued .link .refuse src [byte 2, byte n, byte (refusedTag k p)]) := by
  have hrec := receive_deskOnly hk h hm ht p noOwner
  by_cases hb : dst = broadcastAddr
  · rw [decide_eq_true hb, refuse_bc] at hrec
    rw [if_pos hb]
    exact ran_quiet hrec (noted_calm h) (noted_pending src s)
  · rw [decide_eq_false hb, refuse_room _ _ _ _ hc (noted_room hr), hn] at hrec
    rw [if_neg hb]
    exact ran_quiet hrec (queued_calm (noted_calm h)) (queued_pend (noted_pending src s))

/-- Settles O22: one rule, `ran_deskOnly`, for the four kinds. -/
theorem deskKindsRefused : Obligations.DeskKindsRefused := by
  intro s src dst p h hm ht hr
  exact ⟨ran_deskOnly (k := .vesselQuery) rfl h hm ht hr p (by decide) rfl,
    ran_deskOnly (k := .tollReady) rfl h hm ht hr p (by decide) rfl,
    ran_deskOnly (k := .tollEnd) rfl h hm ht hr p (by decide) rfl,
    ran_deskOnly (k := .logFull) rfl h hm ht hr p (by decide) rfl⟩

end Sys2Proof.FlightLink
end

section
/-! The frame rows as one table: the kind, its command and its owner. What hearing a frame does to the desk's entry (R3, R36),
and what a station that hears nothing keeps. -/

namespace Sys2Proof.FlightLink
open Sys2Proof Sys2Proof.Machine

/-! ### The frame rows -/

/-- The command of an accepted frame of a kind, by source, destination and payload. -/
def frameCommand : Kind → Addr → Addr → List Byte → Instr
  | .beacon => .beacon | .widen => .widen | .refuse => .refuse | .echo => .echo | .echoBack => .echoBack
  | .statusAsk => .statusAsk | .statusReply => .statusReply | .claimAsk => .claimAsk | .claimGive => .claimGive
  | .claimWait => .claimWait | .claimDeny => .claimDeny | .claimDrop => .claimDrop | .levelFeed => .levelFeed
  | .alarmClose => .alarmClose | .crossAsk => .crossAsk | .crossTaken => .crossTaken | .crossDeny => .crossDeny
  | .xferAsk => .xferAsk | .recSeg => .recSeg | .xferEnd => .xferEnd | .xferBad => .xferBad | .hold => .hold
  | .exitNote => .exitNote | .tokenOffer => .tokenOffer | .tokenTake => .tokenTake | .tokenDecline => .tokenDecline
  | .flightStop => .flightStop | .resume => .resume | .faultNote => .faultNote | .faultClear => .faultClear
  | .clear => .clear | .time => .time | .rest => .rest | .wake => .wake | .restart => .restart
  | .vesselSet => .vesselSet | .vesselDel => .vesselDel | .vesselQuery => .vesselQuery | .vesselInfo => .vesselInfo
  | .rateSet => .rateSet | .rateCommit => .rateCommit | .tollReady => .tollReady | .tollEnd => .tollEnd
  | .tollRead => .tollRead | .tollRemove => .tollRemove | .logFull => .logFull

/-- The owner a frame of a kind is handed to. -/
def frameOwner : Kind → Rx → State → State
  | .beacon => State.onBeacon | .widen => State.onWiden | .refuse => State.onRefuse | .echo => State.onEcho
  | .echoBack => State.onPlainReply .echoBack | .statusAsk => State.onStatusAsk
  | .statusReply => State.onPlainReply .statusReply | .claimAsk => State.onClaimAsk | .claimGive => State.onClaimGive
  | .claimWait => State.onClaimWait | .claimDeny => State.onClaimDeny | .claimDrop => State.onClaimDrop
  | .levelFeed => State.onLevelFeed | .alarmClose => State.onAlarmClose | .crossAsk => State.onCrossAsk
  | .crossTaken => State.onCrossTaken | .crossDeny => State.onCrossDeny | .xferAsk => State.onXferAsk
  | .recSeg => State.onRecSeg | .xferEnd => State.onXferEnd | .xferBad => State.onXferBad | .hold => State.onHold
  | .exitNote => State.onExitNote | .tokenOffer => State.onTokenOffer | .tokenTake => State.onTokenTake
  | .tokenDecline => State.onTokenDecline | .flightStop => State.onFlightStop | .resume => State.onResume
  | .faultNote => State.onFaultNote | .faultClear => State.onFaultClear | .clear => State.onClear | .time => State.onTime
  | .rest => State.onRest | .wake => State.onWake | .restart => State.onRestart | .vesselSet => State.onVesselSet
  | .vesselDel => State.onVesselDel | .vesselQuery => noOwner | .vesselInfo => State.onVesselInfo
  | .rateSet => State.onRateSet | .rateCommit => State.onRateCommit | .tollReady => noOwner | .tollEnd => noOwner
  | .tollRead => State.onTollRead | .tollRemove => State.onTollRemove | .logFull => noOwner

/-- Every frame row is the reception of its kind by its owner. -/
theorem exec_frameCommand (k : Kind) (src dst : Addr) (p : List Byte) (s : State) :
    exec (frameCommand k src dst p) s = ran (State.receive k src dst p (frameOwner k)) s := by cases k <;> rfl

theorem mem_frameCommands {c : Addr → Addr → List Byte → Instr} (h : c ∈ frameCommands) : ∃ k, c = frameCommand k := by
  have hmap : frameCommands = [Kind.widen, .refuse, .echo, .echoBack, .beacon, .statusAsk, .statusReply, .flightStop,
      .resume, .rest, .wake, .restart, .claimAsk, .claimGive, .claimWait, .claimDeny, .claimDrop, .levelFeed, .alarmClose,
      .crossAsk, .crossTaken, .crossDeny, .xferAsk, .recSeg, .xferEnd, .xferBad, .hold, .exitNote, .tokenOffer, .tokenTake,
      .tokenDecline, .vesselSet, .vesselDel, .vesselInfo, .vesselQuery, .time, .rateSet, .rateCommit, .tollRead,
      .tollRemove, .tollReady, .tollEnd, .logFull, .faultNote, .faultClear, .clear].map frameCommand := rfl
  rw [hmap] at h
  obtain ⟨k, -, hk⟩ := List.mem_map.mp h
  exact ⟨k, hk.symm⟩

/-! ### Nothing heard -/

/-- A frame of unknown kind that is not heard, or not for this station. -/
theorem unknown_nothing {s : State} (hn : s.notices = []) (src dst : Addr) (kind : BitVec 6) :
    (s.catches src = false → ran (State.receiveUnknown src dst kind) s = .next s)
      ∧ (s.follows src = true → s.isTaken dst = false →
        ran (State.receiveUnknown src dst kind) s = .next (s.noted src)) := by
  refine ⟨fun h => ran_quiet ?_ hn rfl, fun h ht => ran_quiet ?_ (noted_calm h) (noted_pending src s)⟩
  · unfold State.receiveUnknown; rw [not_heard h]; rfl
  · obtain ⟨hh, hv⟩ := follows_hears h
    unfold State.receiveUnknown
    rw [hh, hv, follows_reportSource h]
    dsimp only
    rw [noted_taken, ht]; rfl

/-- A frame known to be bound for another address: unheard, or only its source is noted. -/
theorem overhear_nothing {s : State} (hn : s.notices = []) (src dst : Addr) :
    (s.catches src = false → ran (State.overhear src dst) s = .next s)
      ∧ (s.follows src = true → s.isTaken dst = false → ran (State.overhear src dst) s = .next (s.noted src)) := by
  refine ⟨fun h => ran_quiet ?_ hn rfl, fun h ht => ran_quiet ?_ (noted_calm h) (noted_pending src s)⟩
  · have hd := not_heard h
    unfold State.overhear
    rw [if_neg]
    rintro hc
    simp only [Bool.and_eq_true] at hc
    rw [hc.1.1, hc.1.2] at hd
    exact absurd hd (by decide)
  · obtain ⟨hh, hv⟩ := follows_hears h
    unfold State.overhear
    rw [hh, hv, ht, follows_reportSource h]
    rfl

/-- Settles O27: a frame not heard stops at the first test of `receive`, one not taken at the next, with its source noted. -/
theorem nothingHeard : Obligations.NothingHeard := by
  intro s hn
  refine ⟨fun _ _ => ran_quiet rfl hn rfl, fun _ => ran_quiet rfl hn rfl, fun c hc src dst p => ?_,
    fun src dst kind _ => unknown_nothing hn src dst kind, fun src dst => overhear_nothing hn src dst⟩
  obtain ⟨k, rfl⟩ := mem_frameCommands hc
  rw [exec_frameCommand]
  exact frame_nothing hn k _ src dst p

/-! ### The desk's entry -/

/-- The desk's entry of the peer table: its presence and the time since it was heard (R36). -/
def deskEntry (s : State) : PeerState × Span := (s.presence.desk, s.presence.deskSince)

theorem deskEntry_of_still {s t : State} (h : t.still = s.still) : deskEntry t = deskEntry s := by
  have hd : t.presence.desk = s.presence.desk := congrArg StillView.desk h
  have hs : t.presence.deskSince = s.presence.deskSince := congrArg StillView.deskSince h
  unfold deskEntry; rw [hd, hs]

theorem deskEntry_of_keeps {s t : State} (h : Keeps s t) : deskEntry t = deskEntry s := deskEntry_of_still h.1

theorem finish_deskEntry (s t : State) : deskEntry (finish s t) = deskEntry t := by
  have h := finish_still s t
  have hd : (finish s t).presence.desk = t.presence.desk := congrArg StillView.desk h
  have hs : (finish s t).presence.deskSince = t.presence.deskSince := congrArg StillView.deskSince h
  unfold deskEntry; rw [hd, hs]

/-- A frame of the desk makes its entry PRESENT and its time 0; of the tables no notice changes, nothing else (R36). -/
theorem reportSource_desk_still (s : State) :
    (s.reportSource deskAddr).still = { s.still with desk := .present, deskSince := 0 } := by
  unfold State.reportSource State.doIf
  rw [if_pos rfl]
  split <;> rfl

theorem reportSource_deskEntry (s : State) : deskEntry (s.reportSource deskAddr) = (.present, 0) := by
  have h := reportSource_desk_still s
  have hd : (s.reportSource deskAddr).presence.desk = .present := congrArg StillView.desk h
  have hs : (s.reportSource deskAddr).presence.deskSince = 0 := congrArg StillView.deskSince h
  unfold deskEntry; rw [hd, hs]

theorem setFaulted_deskEntry (i : Fin 16) (v : Bool) (s : State) : deskEntry (s.setFaulted i v) = deskEntry s := by
  unfold State.setFaulted
  dsimp only
  split <;> rfl

theorem setStop_deskEntry (x : StopState) (s : State) : deskEntry (s.setStop x) = deskEntry s := by
  unfold State.setStop
  split <;> rfl

theorem stopTaken_deskEntry (s : State) : deskEntry s.stopTaken = deskEntry s := by
  unfold State.stopTaken
  split
  · exact setStop_deskEntry _ s
  · rfl
  · rfl

theorem onResume_deskEntry (rx : Rx) (s : State) : deskEntry (s.onResume rx) = deskEntry s := by
  unfold State.onResume State.resumeTaken
  split
  · split
    · rfl
    · exact setStop_deskEntry _ _
    · split <;> rfl
  · rfl

theorem clashTest_deskEntry (b : BeaconContents) (s : State) : deskEntry (s.clashTest b) = deskEntry s := by
  unfold State.clashTest State.clashingBeacon
  split
  · split
    · rfl
    · dsimp only
      split
      · rfl
      · exact (deskEntry_of_keeps (refreshInterval_keeps (Keeps.refl _))).trans rfl
  · rfl

theorem enterBeacon_deskEntry (i : Fin 16) (b : BeaconContents) (s : State) : deskEntry (s.enterBeacon i b) = deskEntry s := by
  have h := enterBeacon_still i b s
  have hd : (s.enterBeacon i b).presence.desk = s.presence.desk := congrArg StillView.desk h
  have hs : (s.enterBeacon i b).presence.deskSince = s.presence.deskSince := congrArg StillView.deskSince h
  unfold deskEntry; rw [hd, hs]

theorem onBeacon_deskEntry (rx : Rx) (s : State) : deskEntry (s.onBeacon rx) = deskEntry s := by
  unfold State.onBeacon
  split
  · rfl
  · split
    · rfl
    · split
      · exact clashTest_deskEntry _ s
      · split
        · rfl
        · exact enterBeacon_deskEntry _ _ s

theorem onFaultNote_deskEntry (rx : Rx) (s : State) : deskEntry (s.onFaultNote rx) = deskEntry s := by
  unfold State.onFaultNote
  split
  · exact setFaulted_deskEntry _ _ s
  · rfl

theorem onFaultClear_deskEntry (rx : Rx) (s : State) : deskEntry (s.onFaultClear rx) = deskEntry s := by
  unfold State.onFaultClear
  split
  · exact setFaulted_deskEntry _ _ s
  · rfl

theorem acceptXfer_deskEntry (key : BatchKey) (attempt : Nat) (dst : Addr) (s : State) :
    deskEntry (s.acceptXfer key attempt dst) = deskEntry s := by
  have rest : ∀ u : State, deskEntry (if u.store.stream.any (fun r => r.key = key && r.attempt = attempt) then u
      else (u.abandonStream.takeStream.setStream (some
        { number := u.abandonStream.link.nextStream, key := key, dst := dst, attempt := attempt,
          segments := u.abandonStream.store.streamSegments key })).streamNext) = deskEntry u := by
    intro u
    split
    · rfl
    · exact deskEntry_of_keeps (streamNext_keeps (setStream_keeps _ (takeStream_keeps (abandonStream_keeps (Keeps.refl u)))))
  refine (rest _).trans ?_
  split
  · exact (deskEntry_of_keeps (setOccupancy_keeps _ _ (Keeps.refl _))).trans rfl
  · rfl

theorem onXferAsk_deskEntry (rx : Rx) (s : State) : deskEntry (s.onXferAsk rx) = deskEntry s := by
  unfold State.onXferAsk
  dsimp only
  split
  · exact deskEntry_of_keeps (refuseRx_keeps _ _ _ (Keeps.refl s))
  · split
    · exact deskEntry_of_keeps (refuseRx_keeps _ _ _ (Keeps.refl s))
    · exact acceptXfer_deskEntry _ _ _ s

theorem onXferEnd_deskEntry (rx : Rx) (s : State) : deskEntry (s.onXferEnd rx) = deskEntry s := by
  have hfreed : deskEntry (s.abandonStream.freeBatch (keyAt rx.payload 0) .sending) = deskEntry s :=
    deskEntry_of_keeps (freeBatch_keeps _ _ (abandonStream_keeps (Keeps.refl s)))
  unfold State.onXferEnd
  dsimp only
  split
  · split
    · exact (deskEntry_of_keeps (setOccupancy_keeps _ _ (Keeps.refl _))).trans hfreed
    · exact hfreed
  · rfl

theorem onVesselSet_deskEntry (rx : Rx) (s : State) : deskEntry (s.onVesselSet rx) = deskEntry s := by
  unfold State.onVesselSet
  dsimp only
  split
  · rfl
  · split
    · rfl
    · exact deskEntry_of_keeps (refuseRx_keeps _ _ _ (Keeps.refl s))

theorem onVesselDel_deskEntry (rx : Rx) (s : State) : deskEntry (s.onVesselDel rx) = deskEntry s := by
  unfold State.onVesselDel
  split <;> rfl

theorem learnVessel_deskEntry (v : Vessel) (s : State) : deskEntry (s.learnVessel v) = deskEntry s := by
  unfold State.learnVessel
  split
  · split <;> rfl
  · split <;> rfl

theorem onVesselInfo_deskEntry (rx : Rx) (s : State) : deskEntry (s.onVesselInfo rx) = deskEntry s := by
  unfold State.onVesselInfo
  split
  · rfl
  · exact (deskEntry_of_keeps (endEntry_keeps _ (resolveWith_keeps _ (Keeps.refl _)))).trans (learnVessel_deskEntry _ s)

theorem agePass_deskEntry (s : State) : deskEntry s.agePass = deskEntry s := by
  unfold State.agePass
  split <;> rfl

theorem onTime_deskEntry (rx : Rx) (s : State) : deskEntry (s.onTime rx) = deskEntry s := by
  unfold State.onTime
  dsimp only
  rw [agePass_deskEntry]
  split <;> rfl

theorem onEcho_keeps (rx : Rx) (s : State) : Keeps s (s.onEcho rx) := by
  unfold State.onEcho
  split
  · exact Keeps.refl s
  · exact sendOwn_keeps _ _ _ (Keeps.refl s)

theorem onRefuse_keeps (rx : Rx) (s : State) : Keeps s (s.onRefuse rx) := by
  unfold State.onRefuse
  split
  · exact endEntry_keeps _ (Keeps.refl s)
  · exact Keeps.refl s

theorem onPlainReply_keeps (k : Kind) (rx : Rx) (s : State) : Keeps s (s.onPlainReply k rx) := by
  unfold State.onPlainReply
  split
  · exact endEntry_keeps _ (Keeps.refl s)
  · exact Keeps.refl s

/-- No owner but that of RESTART touches the desk's entry. -/
theorem frameOwner_deskEntry (k : Kind) (hk : k ≠ .restart) (rx : Rx) (s : State) :
    deskEntry (frameOwner k rx s) = deskEntry s := by
  have keeps : ∀ {t : State}, Keeps s t → deskEntry t = deskEntry s := deskEntry_of_keeps
  cases k with
  | restart => exact absurd rfl hk
  | beacon => exact onBeacon_deskEntry rx s
  | widen => rfl
  | refuse => exact keeps (onRefuse_keeps rx s)
  | echo => exact keeps (onEcho_keeps rx s)
  | echoBack => exact keeps (onPlainReply_keeps _ rx s)
  | statusAsk => exact keeps (onStatusAsk_keeps rx (Keeps.refl s))
  | statusReply => exact keeps (onPlainReply_keeps _ rx s)
  | claimAsk => exact keeps (onClaimAsk_keeps rx (Keeps.refl s))
  | claimGive => exact keeps (onClaimGive_keeps rx (Keeps.refl s))
  | claimWait => exact keeps (onClaimWait_keeps rx (Keeps.refl s))
  | claimDeny => exact keeps (onClaimDeny_keeps rx (Keeps.refl s))
  | claimDrop => exact keeps (onClaimDrop_keeps rx (Keeps.refl s))
  | levelFeed => exact keeps (onLevelFeed_keeps rx (Keeps.refl s))
  | alarmClose => exact keeps (onAlarmClose_keeps rx (Keeps.refl s))
  | crossAsk => exact keeps (onCrossAsk_keeps rx (Keeps.refl s))
  | crossTaken => exact keeps (onCrossTaken_keeps rx (Keeps.refl s))
  | crossDeny => exact keeps (onCrossDeny_keeps rx (Keeps.refl s))
  | xferAsk => exact onXferAsk_deskEntry rx s
  | recSeg => exact keeps (onRecSeg_keeps rx (Keeps.refl s))
  | xferEnd => exact onXferEnd_deskEntry rx s
  | xferBad => exact keeps (onXferBad_keeps rx (Keeps.refl s))
  | hold => exact keeps (onHold_keeps rx (Keeps.refl s))
  | exitNote => exact keeps (onExitNote_keeps rx (Keeps.refl s))
  | tokenOffer => exact keeps (onTokenOffer_keeps rx (Keeps.refl s))
  | tokenTake => exact keeps (onTokenTake_keeps rx (Keeps.refl s))
  | tokenDecline => exact keeps (onTokenDecline_keeps rx (Keeps.refl s))
  | flightStop => exact stopTaken_deskEntry s
  | resume => exact onResume_deskEntry rx s
  | faultNote => exact onFaultNote_deskEntry rx s
  | faultClear => exact onFaultClear_deskEntry rx s
  | clear => exact keeps (onClear_keeps rx (Keeps.refl s))
  | time => exact onTime_deskEntry rx s
  | rest => exact keeps (onRest_keeps rx (Keeps.refl s))
  | wake => exact keeps (onWake_keeps rx (Keeps.refl s))
  | vesselSet => exact onVesselSet_deskEntry rx s
  | vesselDel => exact onVesselDel_deskEntry rx s
  | vesselQuery => rfl
  | vesselInfo => exact onVesselInfo_deskEntry rx s
  | rateSet => rfl
  | rateCommit => rfl
  | tollReady => rfl
  | tollEnd => rfl
  | tollRead => exact keeps (onTollRead_keeps rx (Keeps.refl s))
  | tollRemove => exact keeps (onTollRemove_keeps rx (Keeps.refl s))
  | logFull => rfl

theorem catches_heard {s : State} {src : Addr} (h : s.catches src = true) : (!s.hears || !validSource src) = false := by
  have hboth : (s.hears && validSource src) = true := h
  rw [Bool.and_eq_true] at hboth
  rw [hboth.1, hboth.2]; rfl

/-- What an owner is handed when a frame of the desk arrives: the frame as addressed, and the station with only the desk's
entry, what is made known of it, and the desk's widen slot changed. -/
structure DeskArrival (s : State) (dst : Addr) (rx : Rx) (t : State) : Prop where
  taken : s.isTaken dst = true
  broadcast : rx.broadcast = decide (dst = broadcastAddr)
  rest : ∃ ns pr w, t = { s with notices := ns, presence := pr, link := { s.link with widenSlots := w } }

/-- A heard frame of the desk leaves its entry PRESENT with time 0, where the owner it may reach leaves the entry alone. -/
theorem receive_deskEntry {s : State} {dst : Addr} {k : Kind} {p : List Byte} {owner : Rx → State → State}
    (h : s.catches deskAddr = true)
    (ho : ∀ rx t, DeskArrival s dst rx t → deskEntry (owner rx t) = deskEntry t) :
    deskEntry (s.receive k deskAddr dst p owner) = (.present, 0) := by
  have hheard := catches_heard h
  obtain ⟨ns, pr, hrep⟩ := reportSource_desk s
  have htaken : (s.reportSource deskAddr).isTaken dst = s.isTaken dst := by rw [hrep]; rfl
  have hrefuse : ∀ (t : State) (bc : Bool) (kind : BitVec 6) (tag : Nat) (r : Reason),
      deskEntry (t.refuse deskAddr bc kind tag r) = deskEntry t :=
    fun t _ _ _ _ => deskEntry_of_keeps (refuse_keeps _ _ _ _ _ (Keeps.refl t))
  have hown : ∀ (w : Vector WidenSlot 17) (rx : Rx) (t : State),
      t = { s.reportSource deskAddr with link := { (s.reportSource deskAddr).link with widenSlots := w } } →
      s.isTaken dst = true → rx.broadcast = decide (dst = broadcastAddr) →
      deskEntry (owner rx t) = deskEntry (s.reportSource deskAddr) := by
    intro w rx t ht hd hb
    refine (ho rx t ⟨hd, hb, ns, pr, w, by rw [ht, hrep]⟩).trans ?_
    rw [ht]; rfl
  rw [← reportSource_deskEntry s]
  unfold State.receive
  rw [hheard]
  dsimp only
  rw [htaken]
  cases hd : s.isTaken dst with
  | false => rfl
  | true =>
    simp only [Bool.not_true, Bool.false_eq_true, if_false]
    split
    · unfold State.takeUnconfigured
      dsimp only
      split
      · split
        · exact hown (s.reportSource deskAddr).link.widenSlots _ _ rfl hd rfl
        · rfl
      · split
        · split
          · exact hown (s.reportSource deskAddr).link.widenSlots _ _ rfl hd rfl
          · rfl
        · exact hrefuse _ _ _ _ _
    · unfold State.takeFrame
      dsimp only
      split
      · exact hrefuse _ _ _ _ _
      · split
        · exact hrefuse _ _ _ _ _
        · split
          · rfl
          · exact hown _ _ _ rfl hd rfl

/-- A RESTART that is not accepted leaves the desk's entry alone: it came to all, or its conditions do not hold (R29). -/
theorem onRestart_deskEntry {s t : State} {dst : Addr} {rx : Rx} (ha : DeskArrival s dst rx t)
    (hr : ¬ (dst = s.ownAddr ∧ dst ≠ broadcastAddr ∧ (s.ctl.mode = .unconfigured ∨ s.restartAllowed = true))) :
    deskEntry (t.onRestart rx) = deskEntry t := by
  obtain ⟨hd, hb, ns, pr, w, rfl⟩ := ha
  unfold State.onRestart
  split
  · rfl
  · rename_i hto
    split
    · rename_i hallowed
      have hbc : dst ≠ broadcastAddr := fun hc => hto (Or.inl (by rw [hb, decide_eq_true hc]))
      have hown : dst = s.ownAddr := by
        unfold State.isTaken at hd
        simp only [Bool.or_eq_true, decide_eq_true_eq] at hd
        exact hd.resolve_right hbc
      exact absurd ⟨hown, hbc, hallowed⟩ hr
    · exact deskEntry_of_keeps (refuseRx_keeps _ _ _ (Keeps.refl _))

/-- A frame of unknown kind from the desk. -/
theorem receiveUnknown_deskEntry {s : State} (h : s.catches deskAddr = true) (dst : Addr) (kind : BitVec 6) :
    deskEntry (s.receiveUnknown deskAddr dst kind) = (.present, 0) := by
  have hheard := catches_heard h
  rw [← reportSource_deskEntry s]
  unfold State.receiveUnknown
  rw [hheard]
  dsimp only
  simp only [Bool.false_eq_true, if_false]
  split
  · rfl
  · exact deskEntry_of_keeps (refuse_keeps _ _ _ _ _ (Keeps.refl _))

/-- A command whose effect has made the desk's entry PRESENT answers a state with that entry. -/
theorem ran_deskEntry {f : State → State} {s : State} (h : deskEntry (f s) = (.present, 0)) :
    ∃ t, ran f s = .next t ∧ t.presence.desk = .present ∧ t.presence.deskSince = 0 := by
  have hf : deskEntry (finish s (f s)) = (.present, 0) := (finish_deskEntry s (f s)).trans h
  exact ⟨_, rfl, congrArg Prod.fst hf, congrArg Prod.snd hf⟩

/-- A frame of the desk bound for another address: the tables no notice changes keep all but the desk's entry. -/
theorem overhear_desk_still {s : State} {dst : Addr} (h : s.catches deskAddr = true) (ht : s.isTaken dst = false) :
    ∃ t, ran (State.overhear deskAddr dst) s = .next t
      ∧ t.still = { s.still with desk := .present, deskSince := 0 } := by
  have hheard : (s.hears && validSource deskAddr) = true := h
  have hrep : s.overhear deskAddr dst = s.reportSource deskAddr := by
    unfold State.overhear; rw [hheard, ht]; rfl
  refine ⟨_, rfl, ?_⟩
  rw [finish_still, hrep, reportSource_desk_still]
  rfl

/-- Settles O14: by the kind of the frame: `receive` hands every heard frame of the desk on with the desk's timer restarted. -/
theorem deskHeard : Obligations.DeskHeard := by
  intro s dst h heard restarts
  refine ⟨fun c hc p hr => ?_, fun kind _ => ran_deskEntry (receiveUnknown_deskEntry h dst kind),
    fun ht => overhear_desk_still h ht⟩
  obtain ⟨k, rfl⟩ := mem_frameCommands hc
  show ∃ t, exec (frameCommand k deskAddr dst p) s = .next t ∧ _
  rw [exec_frameCommand]
  refine ran_deskEntry (receive_deskEntry h (fun rx t ha => ?_))
  by_cases hk : k = .restart
  · subst hk
    exact onRestart_deskEntry ha (hr rfl)
  · exact frameOwner_deskEntry k hk rx t

/-! ### START -/

/-- Settles O26: the effect of START is the state right after reset, with nothing to act on; its fields are read off. -/
theorem startLeaves : Obligations.StartLeaves := by
  intro s
  refine ⟨ran_quiet rfl rfl rfl, rfl, rfl, rfl, rfl, rfl, rfl, rfl, fun i => ?_, rfl, rfl, rfl, rfl, rfl, rfl, rfl, rfl,
    by decide, rfl, rfl, rfl, rfl, rfl, rfl, rfl, rfl⟩
  show (Vector.replicate 17 WidenSlot.empty)[i] = .empty
  simp

end Sys2Proof.FlightLink
end

section
/-! The line's events, the timers of the link, the ends of requests by REFUSE and by their deadline, and the lamps. -/

namespace Sys2Proof.FlightLink
open Sys2Proof Sys2Proof.Machine

/-! ### A request ends refused or unanswered (R18, R19) -/

/-- A block told of the end of a VESSEL_QUERY whose vessel is no longer UNRESOLVED does nothing (R125). -/
theorem act_requestRefused_query {s : State} {e : ReplyEntry} (r : Reason) (hk : e.kind = .vesselQuery)
    (ha : s.approach.queue.all (fun q => q.ready) = true) (hr : s.link.requests = []) :
    State.act (.requestRefused e r) s = s := by
  show (s.onRequestRefused e r).serveAll = s
  unfold State.onRequestRefused
  rw [hk]
  dsimp only
  rw [queryEnded_none _ ha, serveAll_eq hr]

theorem act_noReply_query {s : State} {e : ReplyEntry} (hk : e.kind = .vesselQuery)
    (ha : s.approach.queue.all (fun q => q.ready) = true) (hr : s.link.requests = []) :
    State.act (.noReply e) s = s := by
  show (s.onNoReply e).serveAll = s
  unfold State.onNoReply
  rw [hk]
  dsimp only
  rw [queryEnded_none _ ha, serveAll_eq hr]

/-- A REFUSE that matches: the entry goes, and the block is told. -/
theorem onRefuse_hit {s : State} {rx : Rx} {e : ReplyEntry} (hn : s.notices = []) (hr : s.link.requests = [])
    (h : s.link.entries.find? (fun e => e.peer = rx.src && e.tag = byteAt rx.payload 2) = some e) :
    s.onRefuse rx = { s.without e.tag with notices := [.requestRefused e (refusedReason rx.payload)] } := by
  have hn' : (s.without e.tag).notices = [] := hn
  unfold State.onRefuse
  rw [h]
  dsimp only
  rw [endEntry_eq _ hr, emit_eq, hn', List.nil_append]

theorem onRefuse_miss {s : State} {rx : Rx}
    (h : s.link.entries.find? (fun e => e.peer = rx.src && e.tag = byteAt rx.payload 2) = none) : s.onRefuse rx = s := by
  unfold State.onRefuse; rw [h]

/-- Settles O19: by the entry that the refusal matches; the notice of a refused query changes nothing more. -/
theorem refuseEndsEntry : Obligations.RefuseEndsEntry := by
  intro s src dst p h hr hit
  have hcalm := after_calm h
  have howner : ∀ e, hit = some e → s.receive .refuse src dst p State.onRefuse
      = { (s.after .refuse src).without e.tag with notices := [.requestRefused e (refusedReason p)] } :=
    fun e he => (receive_accepted h _).trans (onRefuse_hit (s := s.after .refuse src) hcalm hr he)
  refine ⟨fun e he => ?_, fun e he hk ha => ?_, fun hnone => ?_⟩
  · exact congrArg (fun t => Host.Outcome.next (finish s t)) (howner e he)
  · have ha' : ((s.after .refuse src).without e.tag).approach.queue.all (fun q => q.ready) = true := by
      show (s.after .refuse src).approach.queue.all _ = true
      rw [after_approach]; exact ha
    refine ran_inert (howner e he) hcalm (by simp) (fun t ht => ?_) (after_pending .refuse src s)
    rw [List.mem_singleton.mp ht]
    exact act_requestRefused_query _ hk ha' hr
  · exact ran_owner h (onRefuse_miss hnone) hcalm (after_pending _ _ _)

/-- Settles O20: by the entry of the tag that runs to a deadline, as for a refusal. -/
theorem deadlineEndsEntry : Obligations.DeadlineEndsEntry := by
  intro s tag hn hit
  have hout : ∀ e, hit = some e → s.deadlineOut tag = { s.without tag with notices := [.noReply e] } := by
    intro e he
    have hn' : (s.dropEntry tag).notices = [] := hn
    unfold State.deadlineOut
    rw [show s.link.entries.find? (fun e => e.tag = tag && e.deadline.isSome) = some e from he]
    dsimp only
    rw [emit_eq, hn', List.nil_append]
    rfl
  refine ⟨fun e he => ?_, fun e he hk ha hr => ?_, fun hnone => ran_quiet ?_ hn rfl⟩
  · exact congrArg (fun t => Host.Outcome.next (finish s t)) (hout e he)
  · refine ran_inert (hout e he) hn (by simp) (fun t ht => ?_) rfl
    rw [List.mem_singleton.mp ht]
    exact act_noReply_query hk ha hr
  · unfold State.deadlineOut
    rw [show s.link.entries.find? (fun e => e.tag = tag && e.deadline.isSome) = none from hnone]

/-! ### The frame on the line (R12 to R14, R17) -/

/-- The frame in the head position goes on the line. -/
theorem startHead_some {s : State} {f : TxFrame} (hm : s.ctl.mode ≠ .loading) (hl : s.link.onLine = false)
    (hb : s.link.backoff = none) (hf : s.link.head? = some f) : s.startHead
      = { s with link := { s.link with onLine := true, lineWiden := f.widenNext, headId := some f.id } } := by
  unfold State.startHead
  rw [if_neg (by simp [hm, hl, hb]), hf]

theorem startHead_none {s : State} (h : s.ctl.mode = .loading ∨ s.link.onLine = true ∨ s.link.backoff.isSome = true
    ∨ s.link.head? = none) : s.startHead = s := by
  unfold State.startHead
  split
  · rfl
  · rename_i hno
    have hhead : s.link.head? = none := by tauto
    rw [hhead]

/-- The link with no frame on the line, the attempts counted from 0 again. -/
def offLine (l : Link) : Link := { l with onLine := false, lineWiden := false, attempts := 0 }

/-- The last bit of a WIDEN starts its 50 ms and leaves its frame at the head (R17). -/
theorem lineSent_widen {s : State} {f : TxFrame} (hf : s.link.lineFrame? = some f) (hw : s.link.lineWiden = true) :
    s.lineSent = { s with link := Link.refreshHead ((offLine s.link).mapFrame f.id
      (fun g => { g with widenAge := some 0, widenDue := false })) } := by
  unfold State.lineSent
  rw [hf]
  dsimp only
  rw [if_pos hw]
  rfl

/-- The last bit of a frame takes it from the queue; then what waits is placed. -/
theorem lineSent_frame {s : State} {f : TxFrame} (hf : s.link.lineFrame? = some f) (hw : s.link.lineWiden = false) :
    s.lineSent = State.fillQueue (State.onSent f { s with link := Link.refreshHead ((offLine s.link).remove f.id) }) := by
  have hoff : ({ s.link with onLine := false, attempts := 0 } : Link) = offLine s.link := by
    unfold offLine; rw [← hw]
  unfold State.lineSent
  rw [hf]
  dsimp only
  rw [if_neg (by simp [hw]), hoff]

/-- With nothing waiting for a place, what the sent frame starts is the deadline of a request's entry (log entry 10). -/
theorem fillQueue_onSent {s : State} (f : TxFrame) (l : Link) (h1 : l.waiting = []) (h2 : l.backlog = []) :
    State.fillQueue (State.onSent f { s with link := l.refreshHead }) = { s with link := Link.refreshHead { l with
      entries := if f.kind.isRequest then
          l.entries.map (fun e => if e.tag = f.tag then { e with deadline := some (ms 500) } else e)
        else l.entries } } := by
  unfold State.onSent State.doIf
  cases f.kind.isRequest with
  | false =>
    simp only [Bool.false_eq_true, if_false]
    exact fillQueue_none ((refreshHead_waiting l).trans h1) ((refreshHead_backlog l).trans h2)
  | true =>
    simp only [if_true]
    rw [refreshHead_entries_comm l (l.entries.map _),
      fillQueue_none ((refreshHead_waiting l).trans h1) ((refreshHead_backlog l).trans h2)]
    unfold State.startDeadline
    dsimp only
    rw [refreshHead_entries]

theorem backoffWait_lt (draw attempts : Nat) : backoffWait draw attempts < 2 ^ min attempts 7 :=
  Nat.mod_lt _ (Nat.two_pow_pos _)

/-- A collision other than the 12th adds an attempt and draws a wait (R13). -/
theorem lineCollision_wait {s : State} {f : TxFrame} (hf : s.link.lineFrame? = some f) (ha : s.link.attempts + 1 ≠ 12)
    (hd : ¬ (f.widenDue = true ∧ s.link.lineWiden = false)) : s.lineCollision = { s with
      draws := s.draws + 1,
      link := Link.refreshHead { s.link with
        onLine := false, lineWiden := false, attempts := s.link.attempts + 1,
        backoff := some (backoffSlots (backoffWait s.draws (s.link.attempts + 1))) } } := by
  unfold State.lineCollision
  rw [hf]
  dsimp only
  rw [if_neg ha, if_neg (by simpa using hd)]

/-- A WIDEN that fell due while its frame was on the line takes the head position at the collision (log entry 15). -/
theorem lineCollision_widenDue {s : State} {f : TxFrame} (hf : s.link.lineFrame? = some f) (ha : s.link.attempts + 1 ≠ 12)
    (hd : f.widenDue = true) (hw : s.link.lineWiden = false) : s.lineCollision
      = { s with link := { s.link with onLine := false, lineWiden := false, attempts := 0, backoff := none } } := by
  unfold State.lineCollision
  rw [hf]
  dsimp only
  rw [if_neg ha, if_pos ⟨hd, by simp [hw]⟩]

/-- The 12th collision drops the head frame (R14). -/
theorem lineCollision_last {s : State} {f : TxFrame} (hf : s.link.lineFrame? = some f) (ha : s.link.attempts + 1 = 12) :
    s.lineCollision = s.dropHead f := by
  unfold State.lineCollision
  rw [hf]
  dsimp only
  rw [if_pos ha]

/-- Without a frame on the line nothing is sent and nothing collides. -/
theorem line_empty {s : State} (h : s.link.lineFrame? = none) :
    s.lineBytes = [] ∧ s.lineSent = s ∧ s.lineCollision = s := by
  unfold State.lineBytes State.lineSent State.lineCollision
  rw [h]
  exact ⟨rfl, rfl, rfl⟩

theorem lineBytes_some {s : State} {f : TxFrame} (h : s.link.lineFrame? = some f) : s.lineBytes
    = if s.link.lineWiden then frameBytes f.dst s.ownAddr Kind.widen.code (bytes16 (f.upper.getD 0).toNat)
      else frameBytes f.dst s.ownAddr f.kind.code f.payload := by
  unfold State.lineBytes; rw [h]

/-- Settles O51: by whether a frame stands on the line, then by its kind and how often it was tried. -/
theorem lineEvents : Obligations.LineEvents := by
  intro s hn
  refine ⟨fun f hm hl hb hf => ran_quiet (startHead_some hm hl hb hf) hn rfl,
    fun h => ran_quiet (startHead_none h) hn rfl, fun h => ?_, fun f hf => ?_⟩
  · obtain ⟨hbytes, hsent, hcoll⟩ := line_empty h
    exact ⟨hbytes, ran_quiet hsent hn rfl, ran_quiet hcoll hn rfl⟩
  · intro off
    refine ⟨lineBytes_some hf, fun hw => ran_quiet (lineSent_widen hf hw) hn rfl, fun hw h1 h2 => ?_, fun hw => ?_,
      fun ha hd => ?_, fun ha hd hw => ran_quiet (lineCollision_widenDue hf ha hd hw) hn rfl, fun ha => ?_⟩
    · exact ran_quiet ((lineSent_frame hf hw).trans (fillQueue_onSent f (off.remove f.id) h1 h2)) hn rfl
    · exact congrArg (fun t => Host.Outcome.next (finish s t)) (lineSent_frame hf hw)
    · exact ⟨_, backoffWait_lt s.draws (s.link.attempts + 1), ran_quiet (lineCollision_wait hf ha hd) hn rfl⟩
    · exact congrArg (fun t => Host.Outcome.next (finish s t)) (lineCollision_last hf ha)

/-! ### Timers, signals and lamps (R12, R16, R17, R32, R134, R198) -/

/-- The WIDEN of the frame that waits for it is due again (R17). -/
theorem resendWiden_some {s : State} {f : TxFrame} (h : s.link.txq.find? (fun f => f.locked && !f.widenDue) = some f) :
    s.resendWiden = { s with link := { s.link with
      txq := s.link.txq.map (fun g => if g.id = f.id then { g with widenDue := true } else g),
      attempts := if s.link.onLine then s.link.attempts else 0,
      backoff := if s.link.onLine then s.link.backoff else none } } := by
  unfold State.resendWiden Link.mapFrame
  rw [h]
  dsimp only
  cases s.link.onLine <;> rfl

/-- With no token to offer, the beacon timer's end starts it again and offers a beacon (R32). -/
theorem beaconExpiry_noOffer {s : State} (ht : s.presence.beaconTimer.isSome = true) (hm : s.mayOffer = false) :
    s.beaconExpiry = State.offerBeacon { s with presence := { s.presence with beaconTimer := some s.presence.interval.span } } := by
  have hoffer : s.offerTest = s := by unfold State.offerTest; rw [hm]; rfl
  unfold State.beaconExpiry
  rw [if_pos ht, hoffer]
  rfl

/-- The lamps of each aspect (R198). -/
theorem lamps_of_aspect {s : State} : (s.approachSignal = none → s.signalRed = false ∧ s.signalGreen = false)
    ∧ (s.approachSignal = some .dark → s.signalRed = false ∧ s.signalGreen = false)
    ∧ (s.approachSignal = some .redFlash → s.signalRed = s.flasherOn ∧ s.signalGreen = false)
    ∧ (s.approachSignal = some .green → s.signalRed = false ∧ s.signalGreen = true)
    ∧ (s.approachSignal = some .redGreen → s.signalRed = true ∧ s.signalGreen = true)
    ∧ (s.approachSignal = some .red → s.signalRed = true ∧ s.signalGreen = false) := by
  unfold State.signalRed State.signalGreen
  refine ⟨?_, ?_, ?_, ?_, ?_, ?_⟩ <;> (intro h; rw [h]; exact ⟨rfl, rfl⟩)

/-- Whether the entry may be made: the unit's hold is NONE and its crossing not frozen (R100). -/
theorem free_iff (b : BoundaryUnit) : b.free = true ↔ b.hold = .none ∧ b.frozen = false := by
  unfold BoundaryUnit.free
  simp [and_comm]

theorem isFoot_iff (s : State) : s.isFoot = true ↔ s.k = 0 := by
  unfold State.isFoot; simp

/-- The aspects that the rule R134 names by the entry crossing's step. -/
theorem beforeTransit_iff (x : Option Step) : x ∈ [none, some .reserve, some .claim, some .equalize, some .openGate]
    ↔ (x = none ∨ x = some .reserve ∨ x = some .claim ∨ x = some .equalize ∨ x = some .openGate) := by simp

/-- The table of R134: the first aspect whose conditions hold. -/
theorem approachSignal_eq (s : State) : s.approachSignal =
    if s.ctl.mode = .loading ∨ (s.ctl.mode = .unconfigured ∧ s.k ≠ 0) then some .dark
    else if s.ctl.mode = .unconfigured then some .redFlash
    else if s.isEnd = false then none
    else if s.ctl.mode = .resting then some .redFlash
    else if s.entryCrossing.isSome = true ∧ s.entryStep = some .transit ∧ (s.unit s.approachUnit).hold = .none
        ∧ (s.unit s.approachUnit).frozen = false ∧ s.element (gateOf s.approachUnit) = .opened
        ∧ s.ctl.mode = .inService ∧ s.ctl.stop = .stopClear ∧ s.token.state = .held then some .green
    else if s.approach.batch.isSome = true ∧ s.entryCrossing.isSome = true
        ∧ s.entryStep ∈ [none, some .reserve, some .claim, some .equalize, some .openGate] then some .redGreen
    else if s.token.state = .absent ∧ s.approach.batch = none then some .redFlash
    else some .red := by
  unfold State.approachSignal
  simp only [isFoot_iff, free_iff, beforeTransit_iff, and_assoc, Bool.not_eq_true', Option.isNone_iff_eq_none, ne_eq]

/-- The panel lamps (3.4, R50, R52, R54, R198). -/
theorem panel_lamps (s : State) :
    (s.ctl.localState = .pending → s.localLamp = s.flasherOn)
      ∧ (s.ctl.localState = .working ∨ s.ctl.localState = .closing → s.localLamp = true)
      ∧ (s.ctl.localState = .auto ∨ s.ctl.localState = .refused → s.localLamp = false)
      ∧ (s.closeLamp = true ↔ s.ctl.localState = .closing) ∧ (s.refusedLamp = true ↔ s.ctl.localState = .refused) := by
  unfold State.localLamp State.closeLamp State.refusedLamp
  refine ⟨fun h => by rw [h], fun h => ?_, fun h => ?_, decide_eq_true_iff, decide_eq_true_iff⟩
  · rcases h with h | h <;> rw [h]
  · rcases h with h | h <;> rw [h]

/-- Settles O52: the timers one by one, then the lamps by the aspect. -/
theorem linkTimers : Obligations.LinkTimers := by
  refine ⟨fun s hn => ⟨ran_quiet rfl hn rfl, fun _ => ran_quiet rfl hn rfl, fun _ => ran_quiet rfl hn rfl,
    fun f hf => ran_quiet (resendWiden_some hf) hn rfl, fun ht hm hr => ?_, fun ht => ran_quiet ?_ hn rfl⟩, fun s => ?_⟩
  · obtain ⟨l, hl⟩ := offerBeacon_shape
      (x := { s with presence := { s.presence with beaconTimer := some s.presence.interval.span } }) hr
    exact ran_quiet (beaconExpiry_noOffer ht hm) (by rw [hl]; exact hn) (by rw [hl])
  · unfold State.toggleFlasher; rw [if_pos ht]
  · intro b shows entry
    refine ⟨?_, panel_lamps s⟩
    obtain ⟨off, dark, flash, green, both, red⟩ := lamps_of_aspect (s := s)
    have h := approachSignal_eq s
    split_ifs at h ⊢
    exacts [dark h, flash h, ⟨h, off h⟩, flash h, green h, both h, flash h, red h]

end Sys2Proof.FlightLink
end

section
/-! Replies that move a request of this station: the onward crossing, the token, the vessel table. -/

namespace Sys2Proof.FlightLink
open Sys2Proof Sys2Proof.Machine

/-! ### Replies of an accepted frame -/

/-- The handing over of a frame leaves the pending-reply table, so a reply matches after it as before. -/
theorem matchReply_after (k k' : Kind) (src src' : Addr) (tag : Nat) (s : State) :
    (s.after k src).matchReply k' src' tag = s.matchReply k' src' tag := rfl

/-- A frame is handed over only while the station takes part in the flight's work (R4, R9). -/
theorem accepts_works {s : State} {k : Kind} {src dst : Addr} {p : List Byte} (h : s.accepts k src dst p = true) :
    s.works = true := by
  have hf := accepts_follows h
  unfold State.follows State.catches at hf
  unfold State.accepts at h
  simp only [Bool.and_eq_true, decide_eq_true_eq] at hf h
  unfold State.works
  simp only [Bool.and_eq_true, decide_eq_true_eq]
  exact ⟨hf.1.2.1.1, h.1.1.1.1.2⟩

/-- The kinds of R6 for end stations alone are handed over at an end station alone. -/
theorem accepts_isEnd {s : State} {k : Kind} {src dst : Addr} {p : List Byte} (h : s.accepts k src dst p = true)
    (hk : k.endOnly = true) : s.isEnd = true := by
  have hr := accepts_role h
  unfold State.roleTest at hr
  simp only [Bool.and_eq_true] at hr
  simpa [hk] using hr.1.2

theorem after_works (k : Kind) (src : Addr) (s : State) : (s.after k src).works = s.works := by
  unfold State.works; rw [after_ctl]

theorem after_isEnd (k : Kind) (src : Addr) (s : State) : (s.after k src).isEnd = s.isEnd := by
  unfold State.isEnd State.isFoot State.isHead; rw [after_k, after_n]

/-! ### The onward request (R102) -/

/-- The onward request is left alone where the station does not work, is HELD, or keeps its batch. -/
theorem onwardTest_idle {s : State} (h : s.works = false ∨ s.ctl.mode = .held ∨ s.keepsBatch = true) :
    s.onwardTest = s := by
  rcases h with h | h | h
  · unfold State.onwardTest; rw [h]; rfl
  · unfold State.onwardTest
    rw [if_pos]
    simp [h]
  · exact onwardTest_keeps_batch h

/-- A repeat that finds the register with the batch's key starts its 30 s again. -/
theorem onwardTest_held_above {s : State} (hw : s.works = true) (hm : s.ctl.mode ≠ .held) (hk : s.keepsBatch = false)
    (ht : s.onward.state = .taken) (hd : s.onward.repeatDue = true) (hu : s.upperHasBatch = true) :
    s.onwardTest = { s with onward := { s.onward with repeatTimer := some (sec 30), repeatDue := false } } := by
  have hready : s.readyOn = true := by
    unfold State.keepsBatch at hk; simpa using hk
  unfold State.onwardTest
  rw [if_neg (by simp [hw, hm, hready]), ht]
  simp only [hd, hu, Bool.not_true, Bool.false_eq_true, if_false, if_true]
  rfl

/-- A matching CROSS_TAKEN ends its entry and makes the request asked under its tag TAKEN. -/
theorem onCrossTaken_eq {s : State} (rx : Rx) (hr : s.link.requests = []) : s.onCrossTaken rx
    = match s.matchReply .crossTaken rx.src (byteAt rx.payload 0) with
      | none => s
      | some e => { s.without e.tag with onward := if s.onward.state = .asking e.tag then
          { s.onward with state := .taken, repeatTimer := some (sec 30), repeatDue := false } else s.onward } := by
  unfold State.onCrossTaken State.onwardAsked
  cases s.matchReply .crossTaken rx.src (byteAt rx.payload 0) with
  | none => rfl
  | some e =>
    dsimp only
    by_cases ha : s.onward.state = .asking e.tag
    · rw [if_pos (decide_eq_true ha), if_pos ha]
      exact endEntry_eq (s := s.modOnward _) _ hr
    · rw [if_neg (by simp [ha]), if_neg ha]
      exact endEntry_eq _ hr

/-- A matching CROSS_DENY ends its entry and has the request asked under its tag made anew in 2 s. -/
theorem onCrossDeny_eq {s : State} (rx : Rx) (hr : s.link.requests = []) : s.onCrossDeny rx
    = match s.matchReply .crossDeny rx.src (byteAt rx.payload 0) with
      | none => s
      | some e => { s.without e.tag with onward := if s.onward.state = .asking e.tag then
          { s.onward with state := .unasked, retryTimer := some (sec 2) } else s.onward } := by
  unfold State.onCrossDeny State.onwardFailed State.onwardAsked
  cases s.matchReply .crossDeny rx.src (byteAt rx.payload 0) with
  | none => rfl
  | some e =>
    dsimp only
    by_cases ha : s.onward.state = .asking e.tag
    · rw [if_pos (decide_eq_true ha), if_pos ha]
      exact endEntry_eq (s := s.modOnward _) _ hr
    · rw [if_neg (by simp [ha]), if_neg ha]
      exact endEntry_eq _ hr

/-- Settles O36: the two replies by their owners, the two timers by what the onward test then finds. -/
theorem crossReplies : Obligations.CrossReplies := by
  intro s
  refine ⟨fun src dst p hr h => ?_, fun src dst p hr h => ?_, fun hn ht => ⟨?_, fun hk => ?_⟩, fun hn ht hst => ?_⟩
  · refine ran_owner h ((onCrossTaken_eq (s := s.after .crossTaken src) _ hr).trans ?_) ?_ ?_
    · rw [after_onward]; rfl
    · split <;> exact after_calm h
    · split <;> exact after_pending .crossTaken src s
  · refine ran_owner h ((onCrossDeny_eq (s := s.after .crossDeny src) _ hr).trans ?_) ?_ ?_
    · rw [after_onward]; rfl
    · split <;> exact after_calm h
    · split <;> exact after_pending .crossDeny src s
  · have hretry : s.onwardRetry = State.onwardTest { s with onward := { s.onward with retryTimer := none } } := by
      unfold State.onwardRetry; rw [if_pos ht]; rfl
    exact congrArg (fun t => Host.Outcome.next (finish s t)) hretry
  · refine ran_quiet ?_ hn rfl
    unfold State.onwardRetry
    rw [if_pos ht]
    exact onwardTest_idle (Or.inr (Or.inr hk))
  · intro due
    have hrepeat : s.onwardRepeat = due.onwardTest := by
      unfold State.onwardRepeat; rw [if_pos ⟨ht, hst⟩]; rfl
    refine ⟨congrArg (fun t => Host.Outcome.next (finish s t)) hrepeat, fun hu hw hm hk => ?_, fun hidle => ?_⟩
    · exact ran_quiet (hrepeat.trans (onwardTest_held_above (s := due) hw hm hk hst rfl hu)) hn rfl
    · exact ran_quiet (hrepeat.trans (onwardTest_idle (s := due) hidle)) hn rfl

/-! ### The token (R148, R149) -/

/-- The token has gone over: ABSENT, and the recovery timer runs exactly while the other end is unheld. -/
theorem tokenGone_eq {s : State} (ha : s.tokenActs = true) : s.tokenGone = { s with token := { s.token with
    state := .absent, turns := 0, offer := none,
    recovery := if s.otherUnheld then
        (if s.token.recovery = .stopped then .running (sec s.cfg.recoveryDelay) else s.token.recovery)
      else .stopped } } := by
  let t : State := s.modToken (fun t => { t with state := .absent, turns := 0, offer := none })
  have hacts : t.tokenActs = true := ha
  have hother : t.otherUnheld = s.otherUnheld := rfl
  have habs : t.token.state = .absent := rfl
  show t.recoveryGovern = _
  unfold State.recoveryGovern
  rw [hacts, hother, habs]
  cases ho : s.otherUnheld with
  | false => rfl
  | true =>
    simp only [Bool.not_true, Bool.false_eq_true, and_self, if_true, if_false]
    cases hrec : s.token.recovery with
    | stopped =>
      rw [show t.token.recovery = .stopped from hrec]
      rfl
    | running n =>
      rw [show t.token.recovery = .running n from hrec]
      simp only [reduceCtorEq, if_false]
      rw [← hrec]; rfl
    | ranOut =>
      rw [show t.token.recovery = .ranOut from hrec]
      simp only [reduceCtorEq, if_false]
      rw [← hrec]; rfl

/-- The token stays, and the admission test is made. -/
theorem tokenKept_eq {s : State} (hn : s.notices = []) : s.tokenKept
    = { ({ s with token := { s.token with state := .held, offer := none } } : State) with notices := [.admissionTest] } := by
  unfold State.tokenKept State.modToken
  rw [emit_eq]
  dsimp only
  rw [hn, List.nil_append]

theorem after_otherUnheld (k : Kind) (src : Addr) (s : State) : (s.after k src).otherUnheld = s.otherUnheld := by
  unfold State.after State.noted; split <;> rfl

theorem onTokenTake_none {s : State} {rx : Rx} (h : s.matchReply .tokenTake rx.src (byteAt rx.payload 0) = none) :
    s.onTokenTake rx = s := by
  unfold State.onTokenTake; rw [h]

/-- A matching TOKEN_TAKE ends its entry; the OFFERED token goes over with the epoch offered, and stays with another. -/
theorem onTokenTake_some {s : State} {rx : Rx} {e : ReplyEntry} (hr : s.link.requests = [])
    (he : s.matchReply .tokenTake rx.src (byteAt rx.payload 0) = some e) : s.onTokenTake rx
    = if s.token.state ≠ .offered then s.without e.tag
      else if s.token.offer = some (BitVec.ofNat 14 (be16 rx.payload 1)) then (s.without e.tag).tokenGone
      else (s.without e.tag).tokenKept := by
  unfold State.onTokenTake
  rw [he]
  dsimp only
  rw [endEntry_eq _ hr, ite_not]
  rfl

theorem onTokenDecline_none {s : State} {rx : Rx} (h : s.matchReply .tokenDecline rx.src (byteAt rx.payload 0) = none) :
    s.onTokenDecline rx = s := by
  unfold State.onTokenDecline; rw [h]

/-- A matching TOKEN_DECLINE ends its entry, and the OFFERED token stays. -/
theorem onTokenDecline_some {s : State} {rx : Rx} {e : ReplyEntry} (hr : s.link.requests = [])
    (he : s.matchReply .tokenDecline rx.src (byteAt rx.payload 0) = some e) : s.onTokenDecline rx
    = if s.token.state = .offered then (s.without e.tag).tokenKept else s.without e.tag := by
  unfold State.onTokenDecline
  rw [he]
  dsimp only
  rw [endEntry_eq _ hr]
  rfl

/-- The end of an entry alone, the token as it was. -/
theorem without_token (k : Kind) (src : Addr) (tag : Nat) (s : State) :
    (s.after k src).without tag = { (s.after k src).without tag with token := s.token } := by
  rw [← after_token k src s]; rfl

/-- The token handed over after an accepted frame. -/
theorem tokenGone_after {k : Kind} {src dst : Addr} {p : List Byte} {s : State} (h : s.accepts k src dst p = true)
    (hk : k.endOnly = true) (tag : Nat) : ((s.after k src).without tag).tokenGone
      = { (s.after k src).without tag with token := { s.token with
          state := .absent, turns := 0, offer := none,
          recovery := if s.otherUnheld then
              (if s.token.recovery = .stopped then .running (sec s.cfg.recoveryDelay) else s.token.recovery)
            else .stopped } } := by
  have hacts : ((s.after k src).without tag).tokenActs = true := by
    show ((s.after k src).works && (s.after k src).isEnd) = true
    rw [after_works, after_isEnd, accepts_works h, accepts_isEnd h hk]; rfl
  rw [tokenGone_eq hacts]
  show ({ (s.after k src).without tag with token := { (s.after k src).token with
          state := .absent, turns := 0, offer := none,
          recovery := if (s.after k src).otherUnheld then
              (if (s.after k src).token.recovery = .stopped then .running (sec (s.after k src).cfg.recoveryDelay)
                else (s.after k src).token.recovery)
            else .stopped } } : State) = _
  rw [after_token, after_otherUnheld, after_cfg]

/-- The token kept after an accepted frame at a station shut to entry: the admission test it prompts does nothing. -/
theorem ran_tokenKept {f : State → State} {s : State} {k : Kind} {src dst : Addr} {p : List Byte} {tag : Nat}
    (h : s.accepts k src dst p = true) (hshut : s.shutToEntry = true)
    (hf : f s = ((s.after k src).without tag).tokenKept) : ran f s
      = .next { (s.after k src).without tag with token := { s.token with state := .held, offer := none } } := by
  have hcalm : ((s.after k src).without tag).notices = [] := after_calm h
  have hshut' : (s.after k src).shutToEntry = true := (after_shut k src s).trans hshut
  rw [← after_token k src s]
  refine ran_inert (hf.trans (tokenKept_eq hcalm)) hcalm (by simp) (fun t ht => ?_) (after_pending k src s)
  rw [List.mem_singleton.mp ht]
  exact admissionTest_shut hshut'

/-- Settles O43: each reply by the entry it matches. -/
theorem tokenReplies : Obligations.TokenReplies := by
  intro s src dst p hshut hr
  refine ⟨fun h => ?_, fun h => ?_⟩
  · have hacc := receive_accepted h State.onTokenTake
    cases he : s.matchReply .tokenTake src (byteAt p 0) with
    | none => exact ran_owner h (onTokenTake_none he) (after_calm h) (after_pending _ _ _)
    | some e =>
      rw [onTokenTake_some (s := s.after .tokenTake src) hr he, after_token] at hacc
      dsimp only
      by_cases hst : s.token.state = .offered
      · rw [if_neg (not_not_intro hst)] at hacc ⊢
        by_cases hep : s.token.offer = some (BitVec.ofNat 14 (be16 p 1))
        · rw [if_pos hep]
          rw [if_pos (by exact hep), tokenGone_after h rfl] at hacc
          exact ran_quiet hacc (after_calm h) (after_pending .tokenTake src s)
        · rw [if_neg hep]
          rw [if_neg (by exact hep)] at hacc
          exact ran_tokenKept h hshut hacc
      · rw [if_pos hst] at hacc ⊢
        exact ran_quiet (hacc.trans (without_token _ _ _ _)) (after_calm h) (after_pending .tokenTake src s)
  · have hacc := receive_accepted h State.onTokenDecline
    cases he : s.matchReply .tokenDecline src (byteAt p 0) with
    | none => exact ran_owner h (onTokenDecline_none he) (after_calm h) (after_pending _ _ _)
    | some e =>
      rw [onTokenDecline_some (s := s.after .tokenDecline src) hr he, after_token] at hacc
      dsimp only
      by_cases hst : s.token.state = .offered
      · rw [if_pos hst] at hacc ⊢
        exact ran_tokenKept h hshut hacc
      · rw [if_neg hst] at hacc ⊢
        exact ran_quiet (hacc.trans (without_token _ _ _ _)) (after_calm h) (after_pending .tokenDecline src s)

end Sys2Proof.FlightLink
end

section
/-! The vessel table's frames. -/

namespace Sys2Proof.FlightLink
open Sys2Proof Sys2Proof.Machine

/-! ### The vessel table (R126, R167, R170, R171) -/

/-- A VESSEL_SET goes where the registration stands, else where R167 places it, else it is refused. -/
theorem onVesselSet_eq {s : State} {rx : Rx} {v : Vessel} (hv : vesselOf rx.payload 0 rx.upper true s.clockNow = v) :
    (∀ x, (s.vessels.find v.registration).or (s.vessels.placeFor v.registration s.clockNow s.cfg.agePeriod) = some x →
        s.onVesselSet rx = s.setVessels (s.vessels.put x (some v)))
      ∧ ((s.vessels.find v.registration).or (s.vessels.placeFor v.registration s.clockNow s.cfg.agePeriod) = none →
        s.onVesselSet rx = s.refuseRx .vesselSet rx .noSpace) := by
  unfold State.onVesselSet
  rw [hv]
  dsimp only
  cases s.vessels.find v.registration with
  | some y =>
    refine ⟨fun x hx => ?_, fun hx => by simp at hx⟩
    rw [Option.some_or, Option.some.injEq] at hx
    rw [hx]
  | none =>
    rw [Option.none_or]
    refine ⟨fun x hx => ?_, fun hx => ?_⟩ <;> rw [hx]

/-- A VESSEL_DEL empties the slot of its registration. -/
theorem onVesselDel_eq {s : State} {rx : Rx} {r : BitVec 32} (hr : widened rx.upper (be16 rx.payload 0) = r) :
    (∀ x, s.vessels.find r = some x → s.onVesselDel rx = s.setVessels (s.vessels.put x none))
      ∧ (s.vessels.find r = none → s.onVesselDel rx = s) := by
  unfold State.onVesselDel
  rw [hr]
  refine ⟨fun x hx => ?_, fun hx => ?_⟩ <;> rw [hx]

/-- The table after a vessel has been learned: a STATIC entry stands, an entry is overwritten, else R167 places it. -/
def learnedTable (v : Vessel) (s : State) : VesselTable :=
  match s.vessels.find v.registration with
  | some x => if (s.vessels.at x).any Vessel.static then s.vessels else s.vessels.put x (some v)
  | none => match s.vessels.placeFor v.registration s.clockNow s.cfg.agePeriod with
    | some x => s.vessels.put x (some v)
    | none => s.vessels

theorem learnVessel_eq (v : Vessel) (s : State) : s.learnVessel v = { s with vessels := learnedTable v s } := by
  unfold State.learnVessel learnedTable
  cases s.vessels.find v.registration with
  | some x =>
    dsimp only
    split <;> rfl
  | none =>
    dsimp only
    cases s.vessels.placeFor v.registration s.clockNow s.cfg.agePeriod <;> rfl

theorem learnedTable_after (v : Vessel) (k : Kind) (src : Addr) (s : State) :
    learnedTable v (s.after k src) = learnedTable v s := by
  unfold learnedTable; rw [after_vessels, after_clockNow, after_cfg]

/-- An entry of the approach queue after the desk's answer for a vessel (R126). -/
def answeredEntry (v : Vessel) (q : QueueEntry) : QueueEntry :=
  if q.registration = v.registration ∧ q.ready = false then
    { q with ready := true, cls := v.cls, group := v.group, account := v.account, lengthClass := v.lengthClass,
             resolution := none }
  else q

/-- An answer that neither bars the vessel nor outgrows the chamber makes its UNRESOLVED entry READY, and prompts at most the
admission test. -/
theorem resolveWith_ready {s : State} {v : Vessel} (hb : v.barred = false) (hc : v.lengthClass ≤ s.cfg.capacity) :
    ∃ ts : List Notice, ts.length ≤ 1 ∧ (∀ t ∈ ts, t = .admissionTest) ∧ s.resolveWith v
      = { s with approach := { s.approach with queue := s.approach.queue.map (answeredEntry v) },
                 notices := s.notices ++ ts } := by
  unfold State.resolveWith
  cases hu : s.unresolved? v.registration with
  | none =>
    refine ⟨[], by simp, by simp, ?_⟩
    have hsame : s.approach.queue.map (answeredEntry v) = s.approach.queue := by
      refine (List.map_congr_left (fun q hq => ?_)).trans (List.map_id _)
      unfold State.unresolved? at hu
      have hno := List.find?_eq_none.mp hu q hq
      exact if_neg (fun ⟨hreg, hready⟩ => hno (by simp [hreg, hready]))
    rw [hsame, List.append_nil]
  | some q =>
    refine ⟨[.admissionTest], by simp, by simp, ?_⟩
    dsimp only
    rw [hb, if_neg (by decide), if_neg (by omega)]
    have hmap : ∀ f : QueueEntry → QueueEntry,
        s.modUnresolved v.registration f = { s with approach := { s.approach with queue := s.approach.queue.map (fun e =>
          if e.registration = v.registration && !e.ready then f e else e) } } := fun _ => rfl
    rw [hmap, emit_eq]
    have hq : (fun e : QueueEntry => if e.registration = v.registration && !e.ready then
        { e with ready := true, cls := v.cls, group := v.group, account := v.account, lengthClass := v.lengthClass,
                 resolution := none } else e) = answeredEntry v := by
      funext e
      unfold answeredEntry
      simp
    rw [hq]

/-- A matching VESSEL_INFO is learned, resolves its vessel, and ends its entry. -/
theorem onVesselInfo_some {s : State} {rx : Rx} {e : ReplyEntry} {v : Vessel}
    (hv : vesselOf rx.payload 1 rx.upper false s.clockNow = v)
    (he : s.matchReply .vesselInfo rx.src (byteAt rx.payload 0) = some e) :
    s.onVesselInfo rx = (State.resolveWith v { s with vessels := learnedTable v s }).endEntry e.tag := by
  unfold State.onVesselInfo
  rw [he, hv]
  dsimp only
  rw [learnVessel_eq]

theorem onVesselInfo_none {s : State} {rx : Rx} (he : s.matchReply .vesselInfo rx.src (byteAt rx.payload 0) = none) :
    s.onVesselInfo rx = s := by
  unfold State.onVesselInfo; rw [he]

/-- What follows the learning of an accepted VESSEL_INFO changes no table that no notice changes. -/
theorem vesselInfo_still {s : State} {dst : Addr} {p : List Byte} {e : ReplyEntry} {v : Vessel}
    (hv : vesselOf p 1 ((s.widenSlot deskAddr).upper true) false s.clockNow = v)
    (h : s.accepts .vesselInfo deskAddr dst p = true)
    (he : s.matchReply .vesselInfo deskAddr (byteAt p 0) = some e) :
    ∃ t, exec (.vesselInfo deskAddr dst p) s = .next t
      ∧ t.still = { (s.after .vesselInfo deskAddr).still with vessels := learnedTable v s } := by
  refine ran_owner_still h ?_ (after_pending .vesselInfo deskAddr s)
  rw [onVesselInfo_some (s := s.after .vesselInfo deskAddr) (v := v) (by rw [after_clockNow]; exact hv) he,
    (endEntry_keeps _ (resolveWith_keeps _ (Keeps.refl _))).1, learnedTable_after]
  rfl

/-- Where the chamber is not EMPTY, an answer that makes its vessel READY changes nothing else. -/
theorem vesselInfo_ready {s : State} {dst : Addr} {p : List Byte} {e : ReplyEntry} {v : Vessel}
    (hv : vesselOf p 1 ((s.widenSlot deskAddr).upper true) false s.clockNow = v)
    (h : s.accepts .vesselInfo deskAddr dst p = true)
    (he : s.matchReply .vesselInfo deskAddr (byteAt p 0) = some e) (hr : s.link.requests = [])
    (ho : s.chamber.occupancy ≠ .empty) (hb : v.barred = false) (hc : v.lengthClass ≤ s.cfg.capacity) :
    exec (.vesselInfo deskAddr dst p) s = .next { (s.after .vesselInfo deskAddr).without e.tag with
      vessels := learnedTable v s,
      approach := { s.approach with queue := s.approach.queue.map (answeredEntry v) } } := by
  have hacc := receive_accepted h State.onVesselInfo
  rw [onVesselInfo_some (s := s.after .vesselInfo deskAddr) (v := v) (by rw [after_clockNow]; exact hv) he,
    learnedTable_after] at hacc
  obtain ⟨ts, hlen, hts, hready⟩ := resolveWith_ready (v := v)
    (s := { s.after .vesselInfo deskAddr with vessels := learnedTable v s }) hb
    (by show v.lengthClass ≤ (s.after .vesselInfo deskAddr).cfg.capacity; rw [after_cfg]; exact hc)
  have hcalm : (s.after .vesselInfo deskAddr).notices = [] := after_calm h
  have happ : (s.after .vesselInfo deskAddr).approach = s.approach := after_approach _ _ _
  have hocc : (s.after .vesselInfo deskAddr).chamber.occupancy ≠ .empty := by rw [after_chamber]; exact ho
  rw [hready, endEntry_eq _ (by exact hr)] at hacc
  dsimp only at hacc
  rw [hcalm, happ, List.nil_append] at hacc
  refine ran_inert hacc hcalm (Nat.le_trans hlen (by decide)) (fun t ht => ?_) (after_pending .vesselInfo deskAddr s)
  rw [hts t ht]
  exact admissionTest_occupied hocc

/-- Settles O44: the three frames, each by the equations of its owner. -/
theorem vesselFrames : Obligations.VesselFrames := by
  intro s dst p
  refine ⟨fun h hr => ?_, fun h => ?_, fun h => ?_⟩
  · intro a v
    obtain ⟨hput, hfull⟩ := onVesselSet_eq (s := s.after .vesselSet deskAddr) (rx := s.rxOf .vesselSet deskAddr dst p)
      (v := v) (by rw [after_clockNow]; rfl)
    rw [after_vessels, after_clockNow, after_cfg] at hput hfull
    cases hx : (s.vessels.find v.registration).or (s.vessels.placeFor v.registration s.clockNow s.cfg.agePeriod) with
    | some x => exact ran_owner h (hput x hx) (after_calm h) (after_pending .vesselSet deskAddr s)
    | none =>
      have hown := hfull hx
      dsimp only
      by_cases hb : dst = broadcastAddr
      · rw [if_pos hb]
        refine ran_owner h (hown.trans ?_) (after_calm h) (after_pending _ _ _)
        unfold State.refuseRx
        rw [show (s.rxOf .vesselSet deskAddr dst p).broadcast = true from decide_eq_true hb, refuse_bc]
      · rw [if_neg hb]
        exact ran_refused h hb hown (by decide) hr rfl
  · obtain ⟨hput, hmiss⟩ := onVesselDel_eq (s := s.after .vesselDel deskAddr) (rx := s.rxOf .vesselDel deskAddr dst p)
      (r := widened ((s.widenSlot deskAddr).upper true) (be16 p 0)) rfl
    rw [after_vessels] at hput hmiss
    cases hx : s.vessels.find (widened ((s.widenSlot deskAddr).upper true) (be16 p 0)) with
    | some x => exact ran_owner h (hput x hx) (after_calm h) (after_pending .vesselDel deskAddr s)
    | none => exact ran_owner h (hmiss hx) (after_calm h) (after_pending _ _ _)
  · intro a v learned
    refine ⟨fun he => ran_owner h (onVesselInfo_none he) (after_calm h) (after_pending _ _ _), fun e he =>
      ⟨vesselInfo_still rfl h he, fun hr ho hb hc => vesselInfo_ready rfl h he hr ho hb hc⟩⟩

end Sys2Proof.FlightLink
end

section
/-! The replies to the ask for the lower chamber (R71, R73, R76). -/

namespace Sys2Proof.FlightLink
open Sys2Proof Sys2Proof.Machine

/-! ### The end of the entry a reply matched -/

/-- The station after a reply that matched this entry, or none (R19). -/
def replied (o : Option ReplyEntry) (s : State) : State :=
  match o with
  | some e => s.without e.tag
  | none => s

theorem replied_notices (o : Option ReplyEntry) (s : State) : (replied o s).notices = s.notices := by cases o <;> rfl

theorem replied_pending (o : Option ReplyEntry) (s : State) : (replied o s).pending = s.pending := by cases o <;> rfl

theorem replied_lowerUnit (o : Option ReplyEntry) (s : State) : (replied o s).lowerUnit = s.lowerUnit := by cases o <;> rfl

theorem replied_ctl (o : Option ReplyEntry) (s : State) : (replied o s).ctl = s.ctl := by cases o <;> rfl

theorem replied_chamber_notices (o : Option ReplyEntry) (c : Chamber) (ns : List Notice) (s : State) :
    replied o { s with chamber := c, notices := ns } = { replied o s with chamber := c, notices := ns } := by cases o <;> rfl

/-- The end of the entry a reply matched, the requests that wait served with what it frees (R18, R19). -/
def closing (o : Option ReplyEntry) (s : State) : State :=
  match o with
  | some e => s.endEntry e.tag
  | none => s

/-- With no request waiting, ending a matched entry takes it from the table alone. -/
theorem closing_eq (o : Option ReplyEntry) {s : State} (h : s.link.requests = []) : closing o s = replied o s := by
  cases o with
  | none => rfl
  | some e => exact endEntry_eq _ h

/-! ### CLAIM_GIVE -/

/-- A CLAIM_GIVE is for the ask of its tag: it is WAITING, or ASKED with its entry still there (R71). -/
def givesAsk (s : State) (src : Addr) (tag : Nat) : Prop :=
  s.chamber.lower.tag = tag ∧ (s.chamber.lower.state = .waiting
    ∨ (s.chamber.lower.state = .asked ∧ (s.matchReply .claimGive src tag).isSome = true))

theorem givesAsk_iff (s : State) (src : Addr) (tag : Nat) :
    (((s.matchReply .claimGive src tag).isSome && s.asksLower tag)
      || (decide (s.chamber.lower.state = .waiting) && decide (s.chamber.lower.tag = tag))) = true ↔ givesAsk s src tag := by
  unfold State.asksLower givesAsk
  simp only [Bool.or_eq_true, Bool.and_eq_true, decide_eq_true_eq]
  tauto

/-- The lower claim HELD, with the level that a CLAIM_GIVE carries as the fed level (R71, R76). -/
def grantedChamber (c : Chamber) (level : Nat) : Chamber :=
  { c with lower := { c.lower with state := .held, timer := none, heldFor := 0 },
           fed := some { value := level, age := 0, fresh := true } }

/-- A give for the ask: the claim is HELD, and the lower unit learns of it. -/
theorem onClaimGive_ask {s : State} {rx : Rx} (hn : s.notices = []) (hr : s.link.requests = [])
    (h : givesAsk s rx.src (byteAt rx.payload 0)) : s.onClaimGive rx
    = { replied (s.matchReply .claimGive rx.src (byteAt rx.payload 0)) s with
        chamber := grantedChamber s.chamber (be16 rx.payload 1),
        notices := [.lowerClaim s.chamber.lower.purpose .held] } := by
  have hheld : s.lowerHeld (be16 rx.payload 1) = { s with
      chamber := grantedChamber s.chamber (be16 rx.payload 1),
      notices := [.lowerClaim s.chamber.lower.purpose .held] } := by
    unfold State.lowerHeld State.tellLower State.modChamber
    rw [emit_eq]
    dsimp only
    rw [hn]
    rfl
  unfold State.onClaimGive
  dsimp only
  rw [if_pos ((givesAsk_iff _ _ _).mpr h), hheld, ← replied_chamber_notices]
  exact closing_eq _ hr

/-- A give under the tag of the HELD claim only ends an entry. -/
theorem onClaimGive_held {s : State} {rx : Rx} (hr : s.link.requests = []) (hst : s.chamber.lower.state = .held)
    (ht : s.chamber.lower.tag = byteAt rx.payload 0) :
    s.onClaimGive rx = replied (s.matchReply .claimGive rx.src (byteAt rx.payload 0)) s := by
  have hno : ¬ givesAsk s rx.src (byteAt rx.payload 0) := by
    rintro ⟨-, hw | ⟨ha, -⟩⟩
    · rw [hst] at hw; cases hw
    · rw [hst] at ha; cases ha
  unfold State.onClaimGive
  dsimp only
  rw [if_neg (fun hc => hno ((givesAsk_iff _ _ _).mp hc)), if_pos ⟨hst, ht⟩]
  exact closing_eq _ hr

/-- A give under any other tag is answered with a CLAIM_DROP of that tag (R73). -/
theorem onClaimGive_other {s : State} {rx : Rx} (hno : ¬ givesAsk s rx.src (byteAt rx.payload 0))
    (hh : ¬ (s.chamber.lower.state = .held ∧ s.chamber.lower.tag = byteAt rx.payload 0)) : s.onClaimGive rx
    = closing (s.matchReply .claimGive rx.src (byteAt rx.payload 0))
        (s.send .chamber .claimDrop rx.src [byte (byteAt rx.payload 0), 0, 0]) := by
  unfold State.onClaimGive
  dsimp only
  rw [if_neg (fun hc => hno ((givesAsk_iff _ _ _).mp hc)), if_neg hh]
  rfl

/-- A unit that is not at its claims does nothing with a claim that is HELD. -/
theorem act_lowerClaim_held {s : State} {p : Purpose} (hp : p ≠ .localWork)
    (h : ¬ (s.lowerUnit.claims = true ∧ s.lowerUnit.free = true)) : State.act (.lowerClaim p .held) s = s := by
  show s.onLowerNotice p .held = s
  unfold State.onLowerNotice
  rw [if_neg hp]
  exact claims_quiet_lower h

/-! ### CLAIM_WAIT and CLAIM_DENY -/

/-- Neither a unit nor local working does anything with a claim that waits. -/
theorem act_lowerClaim_waiting (p : Purpose) (s : State) : State.act (.lowerClaim p .waiting) s = s := by
  show s.onLowerNotice p .waiting = s
  unfold State.onLowerNotice
  split
  · unfold State.localLower
    split <;> rfl
  · rfl

theorem asksLower_iff (s : State) (tag : Nat) :
    s.asksLower tag = true ↔ s.chamber.lower.state = .asked ∧ s.chamber.lower.tag = tag := by
  unfold State.asksLower; simp

theorem onClaimWait_none {s : State} {rx : Rx} (he : s.matchReply .claimWait rx.src (byteAt rx.payload 0) = none) :
    s.onClaimWait rx = s := by
  unfold State.onClaimWait; dsimp only; rw [he]

/-- A matching CLAIM_WAIT ends its entry, and makes the ask of its tag WAITING. -/
theorem onClaimWait_some {s : State} {rx : Rx} {e : ReplyEntry} (hn : s.notices = []) (hr : s.link.requests = [])
    (he : s.matchReply .claimWait rx.src (byteAt rx.payload 0) = some e) :
    ∃ ts : List Notice, ts.length ≤ 1 ∧ (∀ t ∈ ts, ∃ q, t = .lowerClaim q .waiting) ∧ s.onClaimWait rx
      = { s.without e.tag with
          chamber := { s.chamber with
            lower := if s.chamber.lower.state = .asked ∧ s.chamber.lower.tag = byteAt rx.payload 0
              then { s.chamber.lower with state := .waiting } else s.chamber.lower },
          notices := ts } := by
  unfold State.onClaimWait
  dsimp only
  rw [he]
  dsimp only
  by_cases ha : s.chamber.lower.state = .asked ∧ s.chamber.lower.tag = byteAt rx.payload 0
  · refine ⟨[.lowerClaim s.chamber.lower.purpose .waiting], by simp, by simp, ?_⟩
    rw [if_pos ((asksLower_iff _ _).mpr ha), if_pos ha]
    refine (endEntry_eq _ (by exact hr)).trans ?_
    unfold State.tellLower State.setLower State.modChamber State.without
    rw [emit_eq]
    dsimp only
    rw [hn]
    rfl
  · refine ⟨[], by simp, by simp, ?_⟩
    rw [if_neg (fun hc => ha ((asksLower_iff _ _).mp hc)), if_neg ha, endEntry_eq _ hr, ← hn]
    rfl

theorem onClaimDeny_none {s : State} {rx : Rx} (he : s.matchReply .claimDeny rx.src (byteAt rx.payload 0) = none) :
    s.onClaimDeny rx = s := by
  unfold State.onClaimDeny; dsimp only; rw [he]

/-- A matching CLAIM_DENY for the ask ends both the claim and the entry. -/
theorem onClaimDeny_ask {s : State} {rx : Rx} {e : ReplyEntry} (hr : s.link.requests = [])
    (he : s.matchReply .claimDeny rx.src (byteAt rx.payload 0) = some e) (hst : s.chamber.lower.state = .asked)
    (ht : s.chamber.lower.tag = byteAt rx.payload 0) : s.onClaimDeny rx = State.without e.tag
      (State.emit (.lowerClaim s.chamber.lower.purpose (.denied (deniedReason rx.payload))) s.endLower) := by
  unfold State.onClaimDeny
  dsimp only
  rw [he]
  dsimp only
  rw [if_pos ((asksLower_iff _ _).mpr ⟨hst, ht⟩)]
  exact endEntry_eq _ ((congrArg Link.requests (endLower_link s)).trans hr)

/-- A matching CLAIM_DENY for no ask ends its entry alone. -/
theorem onClaimDeny_other {s : State} {rx : Rx} {e : ReplyEntry} (hr : s.link.requests = [])
    (he : s.matchReply .claimDeny rx.src (byteAt rx.payload 0) = some e)
    (hno : ¬ (s.chamber.lower.state = .asked ∧ s.chamber.lower.tag = byteAt rx.payload 0)) :
    s.onClaimDeny rx = s.without e.tag := by
  unfold State.onClaimDeny
  dsimp only
  rw [he]
  dsimp only
  rw [if_neg (fun hc => hno ((asksLower_iff _ _).mp hc)), endEntry_eq _ hr]

theorem givesAsk_after (k : Kind) (src src' : Addr) (tag : Nat) (s : State) :
    givesAsk (s.after k src) src' tag ↔ givesAsk s src' tag := by
  unfold givesAsk; rw [after_chamber]; exact Iff.rfl

/-- What an accepted CLAIM_GIVE for the ask of its tag comes to before the lower unit learns of it. -/
theorem receive_claimGive_ask {s : State} {src dst : Addr} {p : List Byte} (h : s.accepts .claimGive src dst p = true)
    (hr : s.link.requests = []) (hm : givesAsk s src (byteAt p 0)) : s.receive .claimGive src dst p State.onClaimGive
    = { replied (s.matchReply .claimGive src (byteAt p 0)) (s.after .claimGive src) with
        chamber := grantedChamber s.chamber (be16 p 1), notices := [.lowerClaim s.chamber.lower.purpose .held] } := by
  have hown := onClaimGive_ask (s := s.after .claimGive src) (rx := s.rxOf .claimGive src dst p) (after_calm h) hr
    ((givesAsk_after _ _ _ _ _).mpr hm)
  rw [after_chamber] at hown
  exact (receive_accepted h _).trans hown

/-- Settles O37: each reply by the state of the claim it answers. -/
theorem claimReplies : Obligations.ClaimReplies := by
  intro s src dst p hr tag l closed
  have hclosed : ∀ (k : Kind) (a : State), closed k a = replied (s.matchReply k src tag) a := by
    intro k a
    show (match s.matchReply k src tag with | some e => a.without e.tag | none => a) = _
    cases s.matchReply k src tag <;> rfl
  refine ⟨fun h => ?_, fun h => ?_, fun h => ?_⟩
  · intro a given mine
    have hcalm : a.notices = [] := after_calm h
    have hpend : a.pending = s.pending := after_pending _ _ _
    have hchamber : a.chamber = s.chamber := after_chamber _ _ _
    have hgiven : given = { replied (s.matchReply .claimGive src tag) a with
        chamber := grantedChamber s.chamber (be16 p 1) } := by
      show ({ closed .claimGive a with chamber := _ } : State) = _
      rw [hclosed]; rfl
    have hgc : given.notices = [] := by rw [hgiven]; exact (replied_notices _ _).trans hcalm
    refine ⟨fun hm => ?_, fun hm hp hq => ?_, fun hst ht => ?_, fun hm hh => ?_⟩
    · rw [hgiven]
      exact congrArg (fun t => Host.Outcome.next (finish s t)) (receive_claimGive_ask h hr hm)
    · refine ran_inert (b := given) (ts := [.lowerClaim l.purpose .held]) ?_ hgc (by simp) (fun t ht => ?_) ?_
      · rw [hgiven]; exact receive_claimGive_ask h hr hm
      · rw [List.mem_singleton.mp ht]
        refine act_lowerClaim_held hp ?_
        rw [hgiven]
        show ¬ ((replied _ a).lowerUnit.claims = true ∧ (replied _ a).lowerUnit.free = true)
        rw [replied_lowerUnit, after_lowerUnit]
        exact hq
      · rw [hgiven]; exact (replied_pending _ _).trans hpend
    · rw [hclosed]
      refine ran_owner h (onClaimGive_held (s := a) hr (by rw [hchamber]; exact hst) (by rw [hchamber]; exact ht)) ?_ ?_
      · exact (replied_notices _ _).trans hcalm
      · exact (replied_pending _ _).trans hpend
    · have hacc := (receive_accepted h State.onClaimGive).trans
        (onClaimGive_other (s := a) (rx := s.rxOf .claimGive src dst p)
          (fun hc => hm ((givesAsk_after _ _ _ _ _).mp hc)) (by rw [hchamber]; exact hh))
      refine ⟨congrArg (fun t => Host.Outcome.next (finish s t)) hacc, fun hroom => ?_⟩
      have hroom' : a.room 1 = true := after_room .claimGive src hroom
      rw [send_room _ _ _ _ hroom'] at hacc
      rw [hclosed]
      refine ran_quiet (hacc.trans (closing_eq _ ((place_requests _ a).trans hr))) ?_ ?_
      · exact (replied_notices _ _).trans (queued_calm hcalm)
      · exact (replied_pending _ _).trans (queued_pend hpend)
  · cases he : s.matchReply .claimWait src tag with
    | none => exact ran_owner h (onClaimWait_none he) (after_calm h) (after_pending _ _ _)
    | some e =>
      obtain ⟨ts, hlen, hts, hown⟩ := onClaimWait_some (s := s.after .claimWait src) (rx := s.rxOf .claimWait src dst p)
        (after_calm h) hr he
      rw [after_chamber] at hown
      have hcalm : ((s.after .claimWait src).without e.tag).notices = [] := after_calm h
      refine ran_inert ((receive_accepted h State.onClaimWait).trans hown) hcalm (Nat.le_trans hlen (by decide))
        (fun t ht => ?_) (after_pending .claimWait src s)
      obtain ⟨q, rfl⟩ := hts t ht
      exact act_lowerClaim_waiting q _
  · intro a
    have hchamber : a.chamber = s.chamber := after_chamber _ _ _
    refine ⟨fun he => ran_owner h (onClaimDeny_none he) (after_calm h) (after_pending _ _ _), fun e he hst ht => ?_,
      fun e he hno => ?_⟩
    · have hown := onClaimDeny_ask (s := a) (rx := s.rxOf .claimDeny src dst p) hr he (by rw [hchamber]; exact hst)
        (by rw [hchamber]; exact ht)
      rw [hchamber] at hown
      exact congrArg (fun t => Host.Outcome.next (finish s t)) ((receive_accepted h _).trans hown)
    · exact ran_owner h (onClaimDeny_other (s := a) hr he (by rw [hchamber]; exact hno)) (after_calm h)
        (after_pending .claimDeny src s)

end Sys2Proof.FlightLink
end

section
/-! The segments of a batch's records as they arrive (R154, R162 to R164). -/

namespace Sys2Proof.FlightLink
open Sys2Proof Sys2Proof.Machine

/-! ### Reading a segment -/

theorem byteAt_type (p : List Byte) (i : Nat) : field (byteAt p i) 6 2 = byteAt p i / 64 := field_6_2 _ (byteAt_lt p i)

/-- The line that a LINE segment carries, its bits read out (12.2). -/
theorem lineOf_eq (rx : Rx) : lineOf rx
    = { kind := if byteAt rx.payload 3 / 128 = 1 then .assist else .chamber, chamber := byteAt rx.payload 3 % 16,
        band := byteAt rx.payload 3 / 32 % 4, amount := widened rx.upper (be16 rx.payload 4) } := by
  unfold lineOf
  rw [field_7_1 _ (byteAt_lt _ _), field_0_4, field_5_2]

/-- The segment is the one expected next: position, index and type (R162). -/
def isExpected (i : Inbound) (p : List Byte) : Prop :=
  byteAt p 1 / 16 % 4 = i.position ∧ byteAt p 2 = i.index ∧ byteAt p 1 / 64 = i.expectedType

/-- What a segment is dealt with by: its type, where it is the one expected, and the record under way. -/
theorem takeSegment_eq {b : State} {st : Store} (hst : b.store = st) (rx : Rx) :
    (¬ isExpected st.inbound rx.payload → b.takeSegment rx = b.attemptFailed true)
      ∧ (isExpected st.inbound rx.payload → byteAt rx.payload 1 / 64 = 0 → b.takeSegment rx = b.takeHeaderA rx)
      ∧ (∀ r, isExpected st.inbound rx.payload → st.recordAt st.inbound.key st.inbound.position = some r →
        (byteAt rx.payload 1 / 64 = 1 → b.takeSegment rx = b.takeHeaderB rx r)
          ∧ (byteAt rx.payload 1 / 64 = 2 → b.takeSegment rx = b.takeCarry rx r)
          ∧ (byteAt rx.payload 1 / 64 = 3 → b.takeSegment rx = b.takeLine rx r)) := by
  subst hst
  unfold State.takeSegment isExpected
  dsimp only
  rw [byteAt_type, field_4_2]
  refine ⟨fun h => if_neg h, fun h ht => ?_, fun r h hr => ⟨fun ht => ?_, fun ht => ?_, fun ht => ?_⟩⟩
  · rw [if_pos h, if_pos ht]
  · rw [if_pos h, if_neg (by omega), hr]
    dsimp only
    rw [if_pos ht]
  · rw [if_pos h, if_neg (by omega), hr]
    dsimp only
    rw [if_neg (by omega), if_pos ht]
  · rw [if_pos h, if_neg (by omega), hr]
    dsimp only
    rw [if_neg (by omega), if_neg (by omega)]

/-! ### Storing a segment -/

/-- The station with a segment stored: the transfer STREAMING as given, the gap timer at 500 ms (R162). -/
def storedSegment (x : Inbound) (y : State) : State :=
  { y with store := { y.store with gapTimer := some (ms 500), inbound := { x with state := .streaming } } }

theorem segmentStored_eq {y : State} {i : Inbound} (h : y.store.inbound = i) : y.segmentStored = storedSegment i y := by
  subst h; rfl

/-- The RECEIVING record that a HEADER_A makes on its page (R162). -/
def headerRecord (i : Inbound) (rx : Rx) (page : Nat) : Record :=
  { key := i.key, position := i.position, state := .receiving, registration := widened rx.upper (be16 rx.payload 3),
    cls := VClass.ofCode (byteAt rx.payload 5 / 64), group := byteAt rx.payload 5 / 8 % 8, account := 0,
    lengthClass := byteAt rx.payload 6 / 16, entryDay := 0, entryMinute := 0, timeUnknown := false,
    defaultGroup := false, truncated := false, assisted := false, carry := 0, lines := [], pages := [page],
    logNumber := 0, total := 0 }

theorem takeHeaderA_some {b : State} {st : Store} (hst : b.store = st) {rx : Rx} {page : Nat} {free : List Nat}
    (ha : st.alloc st.inbound.key true = some (page, free)) : b.takeHeaderA rx = storedSegment
      { st.inbound with
        index := 1, records := if st.inbound.position = 1 then byteAt rx.payload 6 / 4 % 4 else st.inbound.records }
      (b.setStore { st with free := free, records := st.records ++ [headerRecord st.inbound rx page] }) := by
  subst hst
  unfold State.takeHeaderA
  dsimp only
  rw [ha]
  dsimp only
  rw [byteAt_type, field_3_3, field_4_4 _ (byteAt_lt _ _), field_2_2]
  exact segmentStored_modInbound (setStore_inbound _ b)

theorem takeHeaderA_none {b : State} {st : Store} (hst : b.store = st) {rx : Rx}
    (ha : st.alloc st.inbound.key true = none) : b.takeHeaderA rx = b.attemptFailed true := by
  subst hst
  unfold State.takeHeaderA
  dsimp only
  rw [ha]

/-- The header that a HEADER_B fills (R162). -/
def fillHeader (rx : Rx) (x : Record) : Record :=
  { x with account := widened rx.upper (be16 rx.payload 3), entryDay := BitVec.ofNat 16 (be16 rx.payload 5),
           entryMinute := be16 rx.payload 7, timeUnknown := byteAt rx.payload 9 % 2 = 1,
           defaultGroup := byteAt rx.payload 9 / 2 % 2 = 1, truncated := byteAt rx.payload 9 / 4 % 2 = 1,
           assisted := byteAt rx.payload 9 / 8 % 2 = 1 }

theorem takeHeaderB_eq {b : State} {st : Store} (hst : b.store = st) (rx : Rx) (r : Record) {left : Bool}
    (hleft : (decide (byteAt rx.payload 9 / 16 % 2 = 1) || decide (0 < byteAt rx.payload 10)) = left) : b.takeHeaderB rx r
    = State.expectAfter left
      (storedSegment { st.inbound with
          lineCount := byteAt rx.payload 10, carryFollows := byteAt rx.payload 9 / 16 % 2 = 1 }
        { b with store := st.update r (fillHeader rx) }) := by
  subst hst hleft
  unfold State.takeHeaderB
  simp only [field_0_1, field_1_1, field_2_1, field_3_1, field_4_1]
  rfl

theorem takeCarry_eq {b : State} {st : Store} (hst : b.store = st) (rx : Rx) (r : Record) : b.takeCarry rx r
    = State.expectAfter (decide (0 < st.inbound.lineCount)) (storedSegment st.inbound
        { b with store := st.update r (fun x => { x with carry := widened rx.upper (be16 rx.payload 3) }) }) := by
  subst hst; rfl

/-- A line received leaves the inbound transfer as it was. -/
theorem receiveLine_inbound {st st' : Store} {l : Line} {r : Record} (h : st.receiveLine l r = some st') :
    st'.inbound = st.inbound := by
  unfold Store.receiveLine at h
  split at h
  · obtain ⟨x, -, rfl⟩ := Option.map_eq_some_iff.mp h
    rfl
  · cases h; rfl

theorem takeLine_stored {b : State} {st st' : Store} (hst : b.store = st) {rx : Rx} {r : Record}
    (hf : r.lineFits (lineOf rx) = true) (hl : st.receiveLine (lineOf rx) r = some st') : b.takeLine rx r
    = State.expectAfter (decide (r.lines.length + 1 < st.inbound.lineCount)) (storedSegment st.inbound (b.setStore st')) := by
  subst hst
  unfold State.takeLine
  dsimp only
  rw [if_pos hf, hl]
  dsimp only
  rw [segmentStored_eq ((setStore_inbound st' b).trans (receiveLine_inbound hl))]

theorem takeLine_failed {b : State} {st : Store} (hst : b.store = st) {rx : Rx} {r : Record}
    (h : r.lineFits (lineOf rx) = false ∨ st.receiveLine (lineOf rx) r = none) : b.takeLine rx r = b.attemptFailed true := by
  subst hst
  unfold State.takeLine
  dsimp only
  split
  · rename_i hf
    have hnone := h.resolve_left (by rw [hf]; decide)
    rw [hnone]
  · rfl

/-- What follows the last segment of a record: the next position, or the completion of the transfer (R162, R163). -/
def recordEnded (i : Inbound) (y : State) : State :=
  let mod := fun (x : Inbound) (z : State) => { z with store := { z.store with inbound := x } }
  if i.position < i.records then mod { y.store.inbound with position := i.position + 1, index := 0 } y
  else
    let y1 := y.addLines .chamber i.key .receiving
    let y2 := y1.setStore (y1.store.returnReservation i.key)
    let y3 := { y2 with store := { y2.store.move i.key .receiving .resident with gapTimer := none } }
    let y4 := (y3.payOwed i.key).send .record .xferEnd i.sender [i.key]
    (State.nextHandIn (mod Inbound.initial y4)).emits [.transferDone i.key, .onwardTest]

theorem expectAfter_false (y : State) : State.expectAfter false y = y.recordWhole := if_neg (by decide)

theorem recordWhole_eq (y : State) : y.recordWhole = recordEnded y.store.inbound y := by
  unfold State.recordWhole State.transferComplete recordEnded State.modInbound
  rfl

/-- The end of a record reads the batch, its sender and the two positions of the transfer alone. -/
theorem recordEnded_congr {i x : Inbound} (hkey : x.key = i.key) (hsender : x.sender = i.sender)
    (hpos : x.position = i.position) (hrec : x.records = i.records) (y : State) : recordEnded x y = recordEnded i y := by
  unfold recordEnded
  rw [hkey, hsender, hpos, hrec]

theorem expectAfter_ended {i x : Inbound} (hkey : x.key = i.key) (hsender : x.sender = i.sender)
    (hpos : x.position = i.position) (hrec : x.records = i.records) (y : State) :
    State.expectAfter false (storedSegment x y) = recordEnded i (storedSegment x y) := by
  have hin : recordEnded (storedSegment x y).store.inbound (storedSegment x y) = recordEnded i (storedSegment x y) :=
    recordEnded_congr (x := (storedSegment x y).store.inbound) hkey hsender hpos hrec _
  exact (expectAfter_false _).trans ((recordWhole_eq _).trans hin)

theorem expectAfter_more (x : Inbound) (y : State) :
    State.expectAfter true (storedSegment x y) = storedSegment { x with index := x.index + 1 } y := rfl

/-! ### A failed attempt (R164) -/

/-- The station after a failed attempt, up to the state of the transfer: its records freed, XFER_BAD sent. -/
def answeredBad (i : Inbound) (b : State) : State :=
  let gone := b.freeBatch i.key .receiving
  State.send .record .xferBad i.sender [i.key] { gone with store := { gone.store with gapTimer := none } }

/-- Freeing the records and sending the answer touch neither the inbound transfer, nor the wait of 1 s, nor the address. -/
theorem answeredBad_keeps (i : Inbound) (b : State) : (answeredBad i b).store.inbound = b.store.inbound
    ∧ (answeredBad i b).store.attemptWait = b.store.attemptWait ∧ (answeredBad i b).k = b.k := by
  obtain ⟨low, timer, hfree⟩ := setStore_store (b.store.freeWhere i.key (fun r => r.state = .receiving)) b
  have hgone : (b.freeBatch i.key .receiving).store
      = { b.store.freeWhere i.key (fun r => r.state = .receiving) with low := low, lowTimer := timer } := hfree
  have hstore : (answeredBad i b).store = { (b.freeBatch i.key .receiving).store with gapTimer := none } :=
    offer_store _ _
  have hloader : (answeredBad i b).loader = b.loader :=
    (keeps_loader (send_keeps _ _ _ _ (Keeps.refl _))).trans (keeps_loader (freeBatch_keeps i.key .receiving (Keeps.refl b)))
  rw [hstore, hgone]
  refine ⟨rfl, rfl, ?_⟩
  unfold State.k
  rw [hloader]

/-- A failed attempt waits 1 s for the next one, and the third leaves the transfer FAILED and raises TRANSFER_FAIL. -/
def endedAttempt (i : Inbound) (wait : Timer) (b : State) : State :=
  { b with store := { b.store with
      attemptWait := (if i.attempt < 3 then some (sec 1) else wait),
      inbound := { i with state := (if i.attempt < 3 then .paused else .failed) } } }

theorem attemptFailed_eq {b : State} {st : Store} (hst : b.store = st) : b.attemptFailed true
    = if st.inbound.attempt < 3 then endedAttempt st.inbound st.attemptWait (answeredBad st.inbound b)
      else State.emit (.raise .transferFail (BitVec.ofNat 32 st.inbound.key.toNat) (BitVec.ofNat 32 st.inbound.sender.toNat)
          (if st.inbound.sender.toNat + 1 = b.k then .lower else .none))
        (endedAttempt st.inbound st.attemptWait (answeredBad st.inbound b)) := by
  subst hst
  obtain ⟨hin, hwait, hk⟩ := answeredBad_keeps b.store.inbound b
  have hfailed : b.attemptFailed true = if b.store.inbound.attempt < 3 then
        State.modInbound (fun x => { x with state := .paused })
          { answeredBad b.store.inbound b with
            store := { (answeredBad b.store.inbound b).store with attemptWait := some (sec 1) } }
      else State.emit (.raise .transferFail (BitVec.ofNat 32 b.store.inbound.key.toNat)
            (BitVec.ofNat 32 b.store.inbound.sender.toNat)
            (if b.store.inbound.sender.toNat + 1 = (answeredBad b.store.inbound b).k then .lower else .none))
          (State.modInbound (fun x => { x with state := .failed }) (answeredBad b.store.inbound b)) := rfl
  rw [hfailed, hk]
  generalize answeredBad b.store.inbound b = bad at hin hwait
  unfold endedAttempt State.modInbound
  split
  · dsimp only
    rw [hin]
  · dsimp only
    rw [hin, ← hwait]

/-! ### The owner of REC_SEG -/

/-- The XFER_ASK entry that a segment answers (R19). -/
def askAnswered (s : State) (src : Addr) (key : BatchKey) : Option ReplyEntry :=
  s.link.entries.find? (fun e => e.kind = .xferAsk && e.peer = src && e.key = key)

/-- The segment is of the batch under way, from its sender, while an attempt runs (R162). -/
def ofAttempt (i : Inbound) (key : BatchKey) (src : Addr) : Prop :=
  key = i.key ∧ src = i.sender ∧ (i.state = .asking ∨ i.state = .streaming)

/-- A segment ends the entry it answers, and is taken where it is of the attempt under way. -/
theorem onRecSeg_eq {s : State} (rx : Rx) (hr : s.link.requests = []) :
    (ofAttempt s.store.inbound (keyAt rx.payload 0) rx.src →
        s.onRecSeg rx = (replied (askAnswered s rx.src (keyAt rx.payload 0)) s).takeSegment rx)
      ∧ (¬ ofAttempt s.store.inbound (keyAt rx.payload 0) rx.src →
        s.onRecSeg rx = replied (askAnswered s rx.src (keyAt rx.payload 0)) s) := by
  have hrep := closing_eq (askAnswered s rx.src (keyAt rx.payload 0)) hr
  unfold State.onRecSeg ofAttempt
  dsimp only
  refine ⟨fun h => ?_, fun h => ?_⟩
  · rw [if_pos h]
    exact congrArg (State.takeSegment rx) hrep
  · rw [if_neg h]
    exact hrep

theorem replied_store (o : Option ReplyEntry) (s : State) : (replied o s).store = s.store := by cases o <;> rfl

theorem replied_k (o : Option ReplyEntry) (s : State) : (replied o s).k = s.k := by cases o <;> rfl

/-- Settles O39, by the type of the segment: each type's own rule gives the record stored, and a segment that fails its
checks the failed attempt. -/
theorem segmentTaken : Obligations.SegmentTaken := by
  intro s src dst p h hr i a b mine type expected upper l stored more whole
  have hb : b = replied (askAnswered s src (keyAt p 0)) a := by
    show (match askAnswered s src (keyAt p 0) with | some e => a.without e.tag | none => a) = _
    cases askAnswered s src (keyAt p 0) <;> rfl
  have hst : b.store = s.store := by rw [hb, replied_store]; exact after_store _ _ _
  have hk : b.k = s.k := by rw [hb, replied_k]; exact after_k _ _ _
  have hcalm : b.notices = [] := by rw [hb, replied_notices]; exact after_calm h
  have hpend : b.pending = s.pending := by rw [hb, replied_pending]; exact after_pending _ _ _
  have hown : s.receive .recSeg src dst p State.onRecSeg = State.onRecSeg (s.rxOf .recSeg src dst p) a := receive_accepted h _
  obtain ⟨htake, hleave⟩ := onRecSeg_eq (s := a) (s.rxOf .recSeg src dst p) hr
  rw [after_store] at htake hleave
  have htaken : mine → s.receive .recSeg src dst p State.onRecSeg = b.takeSegment (s.rxOf .recSeg src dst p) := by
    intro hm
    rw [hb]
    exact hown.trans (htake hm)
  have hline : l = lineOf (s.rxOf .recSeg src dst p) := (lineOf_eq (s.rxOf .recSeg src dst p)).symm
  have hwhole : ∀ y, whole y = recordEnded i y := fun _ => rfl
  have hstored : ∀ x y, stored x y = storedSegment x y := fun _ _ => rfl
  have hafter : ∀ x y, x.key = i.key → x.sender = i.sender → x.position = i.position → x.records = i.records →
      State.expectAfter false (storedSegment x y) = whole (stored x y) := by
    intro x y hkey hsender hpos hrec
    rw [hwhole, hstored]
    exact expectAfter_ended hkey hsender hpos hrec y
  clear_value whole
  obtain ⟨hbad, hA, hrest⟩ := takeSegment_eq hst (s.rxOf .recSeg src dst p)
  refine ⟨fun hm => ?_, fun page free hm hx ht ha => ?_, fun r hm hx ht hrec => ?_, fun r hm hx ht hrec => ?_,
    fun r st hm hx ht hrec hf hl => ?_, fun hm hfail => ?_⟩
  · exact ran_quiet (hown.trans ((hleave hm).trans hb.symm)) hcalm hpend
  · exact congrArg (fun t => Host.Outcome.next (finish s t)) ((htaken hm).trans ((hA hx ht).trans (takeHeaderA_some hst ha)))
  · have hB : ∀ left, (decide (byteAt p 9 / 16 % 2 = 1) || decide (0 < byteAt p 10)) = left → _ := fun _ hleft =>
      (htaken hm).trans (((hrest r hx hrec).1 ht).trans (takeHeaderB_eq hst _ r hleft))
    refine ⟨fun hmore => ?_, fun hc hn => ?_⟩
    · exact ran_quiet ((hB true (by simpa using hmore)).trans (expectAfter_more _ _)) hcalm hpend
    · exact congrArg (fun t => Host.Outcome.next (finish s t))
        ((hB false (by simp [hc, hn])).trans (hafter _ _ rfl rfl rfl rfl))
  · have hC := (htaken hm).trans (((hrest r hx hrec).2.1 ht).trans (takeCarry_eq hst _ r))
    refine ⟨fun hmore => ?_, fun hn => ?_⟩
    · rw [decide_eq_true hmore, expectAfter_more] at hC
      exact ran_quiet hC hcalm hpend
    · rw [decide_eq_false (Nat.not_lt.mpr (Nat.le_of_eq hn)), hafter _ _ rfl rfl rfl rfl] at hC
      exact congrArg (fun t => Host.Outcome.next (finish s t)) hC
  · rw [hline] at hf hl
    have hL := (htaken hm).trans (((hrest r hx hrec).2.2 ht).trans (takeLine_stored hst hf hl))
    refine congrArg (fun t => Host.Outcome.next (finish s t)) (hL.trans ?_)
    by_cases hmore : r.lines.length + 1 < i.lineCount
    · rw [if_pos hmore, decide_eq_true hmore, expectAfter_more]; rfl
    · rw [if_neg hmore, decide_eq_false hmore, hafter _ _ rfl rfl rfl rfl]
  · intro gone bad ended
    have hended := attemptFailed_eq hst
    rw [hk] at hended
    have hF : b.takeSegment (s.rxOf .recSeg src dst p) = b.attemptFailed true := by
      by_cases hx : expected
      · rcases hfail with hno | ⟨ht, ha⟩ | ⟨ht, r, hrec, hlost⟩
        · exact absurd hx hno
        · exact (hA hx ht).trans (takeHeaderA_none hst ha)
        · exact ((hrest r hx hrec).2.2 ht).trans (takeLine_failed hst (by rw [← hline]; exact hlost))
      · exact hbad hx
    exact congrArg (fun t => Host.Outcome.next (finish s t)) ((htaken hm).trans (hF.trans hended))

end Sys2Proof.FlightLink
end

section
/-! Start-up: RESTART accepted and turned away, and the strap sample (R23, R29, R30, R196). -/

namespace Sys2Proof.StartUp
open Sys2Proof Sys2Proof.Machine

/-! ### RESTART (R29, R30) -/

/-- The stop state that RESTART keeps: stopped where it was, or where a settling one was to stop again (R30). -/
theorem keptStop_eq (c : Control) : c.keptStop
    = if c.stop = .stopActive ∨ (c.stop = .stopSettling ∧ c.latch = true) then .stopActive else .stopClear := by
  unfold Control.keptStop
  cases c.stop <;> cases c.latch <;> rfl

/-- The inbound transfer that RESTART keeps: a PAUSED one, and a FAILED one to be tried anew (R166). -/
theorem inboundKept_eq (i : Inbound) : i.kept = if i.state = .paused then i
    else if i.state = .failed then { i with state := .paused, attempt := 0 } else Inbound.initial := by
  unfold Inbound.kept
  cases i.state <;> rfl

/-- Settles O9: the accepted frame's effect is `State.restartState`, its stop state and inbound transfer by their cases. -/
theorem restartAccepted : Obligations.RestartAccepted := by
  intro s dst h hd hb ha
  have heffect := receive_restart h hd hb ha
  refine (ran_quiet heffect rfl rfl).trans (congrArg Host.Outcome.next ?_)
  unfold State.restartState
  rw [keptStop_eq]
  unfold Store.kept
  rw [inboundKept_eq]
  rfl

/-- A RESTART by broadcast is discarded (R29). -/
theorem onRestart_broadcast {s : State} {rx : Rx} (h : rx.broadcast = true) : s.onRestart rx = s := by
  unfold State.onRestart; rw [if_pos (Or.inl h)]

/-- The desk's RESTART for which a condition of R29 fails is refused. -/
theorem onRestart_refused {s : State} {rx : Rx} (hb : rx.broadcast = false) (hsrc : rx.src = deskAddr)
    (hm : s.ctl.mode ≠ .unconfigured) (ha : s.restartAllowed = false) : s.onRestart rx = s.refuseRx .restart rx .busy := by
  unfold State.onRestart
  rw [if_neg (by simp [hb, hsrc]), if_neg (by simp [hm, ha])]

theorem accepts_configured {s : State} {k : Kind} {src dst : Addr} {p : List Byte} (h : s.accepts k src dst p = true) :
    s.ctl.mode ≠ .unconfigured := by
  unfold State.accepts at h
  simp only [Bool.and_eq_true, decide_eq_true_eq] at h
  exact h.1.1.1.1.2

theorem after_restartAllowed (k : Kind) (src : Addr) (s : State) :
    (s.after k src).restartAllowed = s.restartAllowed := by
  unfold State.after State.noted; split <;> rfl

/-- Settles O10: the broadcast is discarded by the owner, the addressed frame refused. -/
theorem restartTurnedAway : Obligations.RestartTurnedAway := by
  refine ⟨fun s h => ?_, fun s dst h hb ha hr => ?_⟩
  · exact ran_owner h (onRestart_broadcast rfl) (after_calm h) (after_pending _ _ _)
  · have hm : (s.after .restart deskAddr).ctl.mode ≠ .unconfigured := by rw [after_ctl]; exact accepts_configured h
    have hno : (s.after .restart deskAddr).restartAllowed = false := by rw [after_restartAllowed]; exact ha
    exact ran_refused h hb (onRestart_refused (decide_eq_false hb) rfl hm hno) (by decide) hr rfl

/-! ### The strap sample (R23, R196) -/

/-- Settles O11: both branches of the sample make nothing known. -/
theorem strapsSampled : Obligations.StrapsSampled := by
  intro x s hn
  have hsample : s.sampleStraps x = if s.ctl.mode = .loading ∧ s.loader.sampled = false
      then { s with loader := { s.loader with strap := x, sampled := true } } else s := by
    unfold State.sampleStraps
    simp only [Bool.not_eq_true]
  refine ran_quiet hsample ?_ ?_
  · split <;> exact hn
  · split <;> rfl

end Sys2Proof.StartUp
end

section
/-! Start-up: LOADING ends in UNCONFIGURED when the configuration record fails (R27). -/

namespace Sys2Proof.StartUp
open Sys2Proof Sys2Proof.Machine

/-! ### The state in which LOADING ends -/

/-- UNCONFIGURED, no configured value, the serial where the record showed one, the flasher at its on half (R27, R198). -/
def unconfigured (serial : Option (BitVec 24)) (s : State) : State :=
  { s with loader := { s.loader with settings := none, serial := serial },
           ctl := { s.ctl with mode := .unconfigured }, flasherOn := true, flasherTimer := some (ms 500) }

/-- CONFIG_INVALID as LOADING raises it: the values are the reason and the field (R27). -/
def configRaise (reason fieldPos : Nat) : Notice :=
  .raise .configInvalid (BitVec.ofNat 32 reason) (BitVec.ofNat 32 fieldPos) .none

theorem loadingFailed_eq (s : State) (reason pos : Nat) (serial : Option (BitVec 24)) : s.loadingFailed reason pos serial
    = ((unconfigured serial s).emit (configRaise reason pos)).beaconAtOnce.pressedAtEnd := rfl

theorem recordRead_failed {s : State} {bytes : List Byte} {reason pos : Nat} {serial : Option (BitVec 24)}
    (hm : s.ctl.mode = .loading) (hs : s.loader.sampled = true)
    (hc : checkRecord s.loader.strap bytes = .failed reason pos serial) :
    s.recordRead bytes = s.loadingFailed reason pos serial := by
  unfold State.recordRead
  rw [if_pos ⟨hm, hs⟩, hc]

/-! ### The beacon and the button at the end of LOADING -/

/-- The state once a beacon was offered at once: the link that holds it, and the beacon timer at the interval in use (R32). -/
def beaconSent (l : Link) (s : State) : State :=
  { s with link := l, presence := { s.presence with beaconTimer := some s.presence.interval.span } }

/-- A beacon offered over the link of START takes one place, and the beacon alone is queued (R32). -/
theorem beaconAtOnce_initial {s : State} (h : s.link = Link.initial) : ∃ l : Link,
    s.beaconAtOnce = beaconSent l s ∧ State.room (beaconSent l s) 7 = true ∧ l.txq.map TxFrame.kind = [.beacon] := by
  obtain ⟨l, hoffer, hroom, -, -, hkind⟩ := offerBeacon_only
    (s := { s with presence := { s.presence with beaconTimer := some s.presence.interval.span } }) (n := 7) (room_initial h)
  exact ⟨l, hoffer, hroom, hkind (by rw [h]; rfl)⟩

/-- With room in the queue and beacons alone there, no FLIGHT_STOP stands or waits. -/
theorem stopFrameOut_beacons {s : State} {n : Nat} (hr : s.room n = true) (hk : s.link.txq.map TxFrame.kind = [.beacon]) :
    s.stopFrameOut = false := by
  obtain ⟨hw, hb, -⟩ := room_parts hr
  have hq : s.link.txq.any (fun f => f.block = .control && f.kind = .flightStop) = false := by
    rw [List.any_eq_false]
    intro f hf
    have : f.kind ∈ s.link.txq.map TxFrame.kind := List.mem_map_of_mem hf
    rw [hk, List.mem_singleton] at this
    simp [this]
  unfold State.stopFrameOut Link.hasWaiting Link.unplaced
  rw [hq, hw, hb]
  rfl

/-- The button at the end of LOADING, with room for its frame: the stop state, the latch and the link may change, and a
change of the stop state is made known (R43, R45). -/
theorem pressedAtEnd_shape {s : State} {n : Nat} (hr : s.room (1 + n) = true) (hq : s.stopFrameOut = false) :
    ∃ (l : Link) (x : StopState) (b : Bool) (ns : List Notice),
      s.pressedAtEnd = { s with link := l, ctl := { s.ctl with stop := x, latch := b }, notices := s.notices ++ ns }
        ∧ State.room { s with link := l } n = true ∧ (∀ t ∈ ns, ∃ a b, t = .stopChanged a b) ∧ ns.length ≤ 1 := by
  unfold State.pressedAtEnd
  split
  · exact stopPress_shape hr hq
  · refine ⟨s.link, s.ctl.stop, s.ctl.latch, [], ?_, room_le hr (by omega), by simp, by simp⟩
    rw [List.append_nil]

/-- What LOADING leaves to be acted on when the record fails: the raise first, a change of the stop state behind it. -/
theorem loadingFailed_shape {s : State} (reason pos : Nat) (serial : Option (BitVec 24)) (hl : s.link = Link.initial)
    (hn : s.notices = []) : ∃ (l : Link) (pr : Presence) (x : StopState) (b : Bool) (ns : List Notice),
      s.loadingFailed reason pos serial = { unconfigured serial s with
        link := l, presence := pr, ctl := { (unconfigured serial s).ctl with stop := x, latch := b },
        notices := configRaise reason pos :: ns }
      ∧ State.room { s with link := l } 1 = true ∧ (∀ t ∈ ns, ∃ a b, t = .stopChanged a b) ∧ ns.length ≤ 1 := by
  obtain ⟨l, hbeacon, hroom, hkind⟩ := beaconAtOnce_initial (s := (unconfigured serial s).emit (configRaise reason pos)) hl
  obtain ⟨l', x, b, ns, hpress, hroom', hstop, hlen⟩ := pressedAtEnd_shape
    (s := beaconSent l ((unconfigured serial s).emit (configRaise reason pos))) (n := 1) (room_le hroom (by decide))
    (stopFrameOut_beacons hroom hkind)
  refine ⟨l', { s.presence with beaconTimer := some s.presence.interval.span }, x, b, ns, ?_, hroom', hstop, hlen⟩
  have hnotes : s.notices ++ [configRaise reason pos] ++ ns = configRaise reason pos :: ns := by rw [hn]; rfl
  rw [loadingFailed_eq, hbeacon, hpress, ← hnotes]
  rfl

/-- Settles O13: the raise is acted on by `act_config`; the change of the stop state leads to nothing in UNCONFIGURED. -/
theorem recordFailed : Obligations.RecordFailed := by
  intro s bytes reason pos serial hm hs hfault hlink hn hc
  obtain ⟨l, pr, x, b, ns, hshape, hroom, hstop, hlen⟩ := loadingFailed_shape reason pos serial hlink hn
  let y : State := { unconfigured serial s with
    link := l, presence := pr, ctl := { (unconfigured serial s).ctl with stop := x, latch := b }, notices := [] }
  obtain ⟨l', r, hact, hcause, hlevel, hbound, hv1, hv2, hlost⟩ := act_config (s := y) reason pos hfault rfl hroom
  let t : State := { y with link := l', fault := { y.fault with record := some r } }
  have hidle : ∀ u ∈ ns, State.act u t = t := by
    intro u hu
    obtain ⟨a, c, rfl⟩ := hstop u hu
    exact onStopChanged_idle rfl a c
  have hsettle : State.settle 4096 { y with notices := configRaise reason pos :: ns } = t :=
    (settle_pair 4095 hact rfl).trans (settle_inert (b := t) rfl ns 4095 (by omega) hidle)
  have hrun : exec (.configRecordRead bytes) s = .next t :=
    ran_settle ((recordRead_failed hm hs hc).trans hshape) hsettle rfl rfl
  exact ⟨t, r, hrun, rfl, rfl, rfl, hcause, hlevel, hbound, hv1, hv2, hlost⟩

end Sys2Proof.StartUp
end

section
/-! Start-up: LOADING ends in WAKING when the configuration record passes (R26, R31). -/

namespace Sys2Proof.StartUp
open Sys2Proof Sys2Proof.Machine

theorem recordRead_passed {s : State} {bytes : List Byte} {c : Settings} (hm : s.ctl.mode = .loading)
    (hs : s.loader.sampled = true) (hc : checkRecord s.loader.strap bytes = .passed c) :
    s.recordRead bytes = s.loadingPassed c := by
  unfold State.recordRead
  rw [if_pos ⟨hm, hs⟩, hc]

/-! ### The state that LOADING wakes -/

/-- The kept state with the new configured values, its pump started (R26, R31). -/
def wakingKept (c : Settings) (s : State) : State := (s.handOut c).enterWaking.startTimers.startFlasher

/-- A state loaded with the record's rates and the token of R142, its pump started. -/
def wakingFresh (c : Settings) (s : State) : State := (s.handOut c).loadFresh.enterWaking.startTimers.startFlasher

/-- With the placing kept, LOADING goes on from the kept state (R31). -/
theorem loadingPassed_kept {s : State} {c : Settings} (h : s.keptStands c = true) :
    ∃ atEnd, s.loadingPassed c = State.loadingTail atEnd (wakingKept c s) := by
  have hpassed := loadingPassed_eq c s
  simp only [h, not_true_eq_false, and_false, if_false, if_true] at hpassed
  exact ⟨_, hpassed⟩

/-- With another placing, LOADING goes on from what START leaves, Mode Control apart (R31, log entry 37). -/
theorem loadingPassed_setAside {s : State} {c : Settings} (hr : s.loader.fromRestart = true) (h : s.keptStands c = false) :
    s.loadingPassed c = State.loadingTail false (wakingFresh c s.setAside) := by
  refine (loadingPassed_eq c s).trans ?_
  simp only [h, hr, Bool.false_eq_true, not_false_eq_true, and_self, if_false, if_true, Bool.false_and]
  rfl

/-- After START, LOADING goes on from the state it stands in (R26). -/
theorem loadingPassed_fresh {s : State} {c : Settings} (hr : s.loader.fromRestart = false) :
    s.loadingPassed c = State.loadingTail false (wakingFresh c s) := by
  have h : s.keptStands c = false := by unfold State.keptStands; rw [hr]; rfl
  refine (loadingPassed_eq c s).trans ?_
  simp only [h, hr, Bool.false_eq_true, false_and, if_false, Bool.false_and]
  rfl

/-- The token after START at the two ends, and where none is kept (R142). -/
theorem loadFresh_token {s : State} (h : s.token = Token.initial) :
    s.loadFresh.token.state = (if s.isFoot then .held else .absent) ∧ s.loadFresh.token.epoch = (if s.isFoot then 1 else 0)
      ∧ s.loadFresh.token.turns = 0 ∧ s.loadFresh.token.inFlight = [] := by
  unfold State.loadFresh State.freshToken State.isEnd
  rw [h]
  cases s.isFoot <;> cases s.isHead <;> exact ⟨rfl, rfl, rfl, rfl⟩

/-! ### After START -/

/-- The state START leaves, with the straps read (R22, R23). -/
def sampledState (waiting : List Instr) (draws : Nat) (pins : Pins) (strap : BitVec 4) : State :=
  { State.reset with pending := waiting, draws := draws, pins := pins,
                     loader := { Loader.initial with strap := strap, sampled := true } }

/-- With no element found with both switches active, the elements are found and nothing is raised (R80). -/
theorem findElements_clean {s : State}
    (h : ∀ i : Fin 4, ¬ (s.pins.switches[i].closed = true ∧ s.pins.switches[i].opened = true)) :
    ∃ els, s.findElements = { s with drive := { Drive.initial with elements := els } } := by
  have hfound : ∀ e, (if s.drives e then foundState (s.switchesOf e) else .unheld) ≠ .failed := by
    intro e
    have he := h (elementIdx e)
    unfold State.switchesOf foundState
    split
    · revert he
      cases s.pins.switches[elementIdx e].closed <;> cases s.pins.switches[elementIdx e].opened <;> simp
    · decide
  have hnone : allElements.filter
      (fun e => decide ((if s.drives e then foundState (s.switchesOf e) else .unheld) = .failed)) = [] :=
    List.filter_eq_nil_iff.mpr (fun e _ => by simpa using hfound e)
  unfold State.findElements
  dsimp only
  rw [hnone, List.map_nil, emits_eq, List.append_nil]
  exact ⟨_, rfl⟩

/-- The recovery timer of the token is all that its government changes (R149). -/
theorem recoveryGovern_shape (s : State) : ∃ r, s.recoveryGovern = { s with token := { s.token with recovery := r } } := by
  unfold State.recoveryGovern State.modToken
  split
  · exact ⟨_, rfl⟩
  · split
    · split <;> exact ⟨_, rfl⟩
    · exact ⟨_, rfl⟩

theorem lowStoreTest_ample {s : State} (ha : 18 ≤ s.store.available) (hl : s.store.low = false) : s.lowStoreTest = s := by
  unfold State.lowStoreTest
  split
  · rfl
  · rw [if_neg (by omega), if_neg (by simp [hl])]

theorem transferTest_none {s : State} (h : s.store.inbound.state = .none) : s.transferTest = s := by
  unfold State.transferTest
  simp [h]

/-- After START the page store is ample (R152, R165). -/
theorem initial_available : 18 ≤ Store.initial.available := by decide

/-- What the passed record leaves after START, with the elements as found, the link that holds the beacon, and the token's
recovery timer (R26). -/
def wokenAtStart (c : Settings) (els : Vector ElementState 4) (l : Link) (r : RecoveryTimer) (s : State) : State :=
  { wakingFresh c s with
    drive := { Drive.initial with elements := els }, link := l,
    presence := { Presence.initial with beaconTimer := some (sec 2) },
    token := { (wakingFresh c s).token with recovery := r }, notices := [] }

/-- LOADING after START: the elements are found, one beacon is queued, and the onward test is left to be made. -/
theorem loadingPassed_start {s : State} {waiting : List Instr} {draws : Nat} {pins : Pins} {strap : BitVec 4} (c : Settings)
    (hs : s = sampledState waiting draws pins strap) (hb : pins.stopButton = false)
    (hsw : ∀ i : Fin 4, ¬ (pins.switches[i].closed = true ∧ pins.switches[i].opened = true)) :
    ∃ (els : Vector ElementState 4) (l : Link) (r : RecoveryTimer), (wakingFresh c s).findElements.drive.elements = els
      ∧ l.txq.map TxFrame.kind = [.beacon] ∧ s.loadingPassed c = (wokenAtStart c els l r s).emit .onwardTest := by
  subst hs
  let y := wakingFresh c (sampledState waiting draws pins strap)
  obtain ⟨els, hfind⟩ := findElements_clean (s := y) hsw
  obtain ⟨l, hbeacon, -, hkind⟩ := beaconAtOnce_initial (s := { y with drive := { Drive.initial with elements := els } }) rfl
  let z : State := beaconSent l { y with drive := { Drive.initial with elements := els } }
  obtain ⟨r, hgovern⟩ := recoveryGovern_shape z
  let g : State := { z with token := { z.token with recovery := r } }
  have hstore : g.lowStoreTest = g := lowStoreTest_ample (s := g) initial_available rfl
  have htransfer : g.transferTest = g := transferTest_none rfl
  refine ⟨els, l, r, by rw [hfind], hkind, ?_⟩
  calc (sampledState waiting draws pins strap).loadingPassed c
      = State.loadingTail false y := loadingPassed_fresh rfl
    _ = z.pressedAtEnd.recoveryGovern.lowStoreTest.transferTest.emit .onwardTest := by
        show (y.findElements.beaconAtOnce.pressedAtEnd).recoveryGovern.lowStoreTest.transferTest.emit .onwardTest = _
        rw [hfind, hbeacon]
    _ = g.emit .onwardTest := by rw [pressedAtEnd_released z hb, hgovern, hstore, htransfer]

/-- The record's command after START: the chamber being empty, nothing follows from the onward test. -/
theorem exec_record_start {s : State} {waiting : List Instr} {draws : Nat} {pins : Pins} {strap : BitVec 4}
    {bytes : List Byte} {c : Settings} (hs : s = sampledState waiting draws pins strap) (hb : pins.stopButton = false)
    (hsw : ∀ i : Fin 4, ¬ (pins.switches[i].closed = true ∧ pins.switches[i].opened = true))
    (hc : checkRecord s.loader.strap bytes = .passed c) :
    ∃ (els : Vector ElementState 4) (l : Link) (r : RecoveryTimer), (wakingFresh c s).findElements.drive.elements = els
      ∧ l.txq.map TxFrame.kind = [.beacon]
      ∧ exec (.configRecordRead bytes) s = .next (wokenAtStart c els l r s) := by
  obtain ⟨els, l, r, hels, hkind, hpassed⟩ := loadingPassed_start c hs hb hsw
  have hread : s.recordRead bytes = s.loadingPassed c :=
    recordRead_passed (congrArg (fun z : State => z.ctl.mode) hs) (congrArg (fun z : State => z.loader.sampled) hs) hc
  have hbatch : (wokenAtStart c els l r s).keepsBatch = true := by
    have hocc : (wokenAtStart c els l r s).chamber.occupancy = .empty :=
      congrArg (fun z : State => z.chamber.occupancy) hs
    unfold State.keepsBatch State.readyOn
    rw [hocc]; rfl
  refine ⟨els, l, r, hels, hkind,
    ran_inert (ts := [.onwardTest]) (hread.trans hpassed) rfl (by simp) (fun u hu => ?_) rfl⟩
  rw [List.mem_singleton.mp hu]
  exact onwardTest_keeps_batch hbatch

/-! ### After RESTART -/

theorem queue_of_registrations {s : State} (h : State.queuedRegistrations s = []) : s.approach.queue = [] := by
  unfold State.queuedRegistrations at h
  exact List.map_eq_nil_iff.mp h

/-- What the end of LOADING leaves of the state it goes on from, read field by field. -/
theorem loadingTail_field {α : Type} (p : State → α) (hp : ∀ z : State, p z = p (State.keptView z)) (atEnd : Bool)
    (y : State) : p (State.loadingTail atEnd y) = p y.findElements := by
  rw [hp, (loadingTail_keptView atEnd y).1, ← hp]

/-- The mode, the pump, the wake source, the stop state with the button up, the loader and the elements once LOADING has
ended (R26, R31, R80). -/
theorem loadingTail_wakes (atEnd : Bool) (y : State) :
    let x := State.loadingTail atEnd y
    x.ctl.mode = y.ctl.mode ∧ x.ctl.wakeTimer = y.ctl.wakeTimer ∧ x.ctl.pumpReady = y.ctl.pumpReady
      ∧ x.ctl.wakeSource = y.ctl.wakeSource ∧ (y.pins.stopButton = false → x.ctl.stop = y.ctl.stop)
      ∧ x.loader = y.loader ∧ (∀ e, x.drives e = true → x.element e = foundState (y.switchesOf e)) := by
  intro x
  have field : ∀ {α : Type} (p : State → α), (∀ z : State, p z = p (State.keptView z)) → p x = p y.findElements :=
    fun p hp => loadingTail_field p hp atEnd y
  refine ⟨field (·.ctl.mode) fun _ => rfl, field (·.ctl.wakeTimer) fun _ => rfl, field (·.ctl.pumpReady) fun _ => rfl,
    field (·.ctl.wakeSource) fun _ => rfl, fun hb => ?_, field (·.loader) fun _ => rfl, fun e he => ?_⟩
  · exact congrArg Control.stop ((loadingTail_keptView atEnd y).2.2.2 hb)
  · have hdrives : x.drives e = y.findElements.drives e := field (·.drives e) fun _ => rfl
    have helement : x.element e = y.findElements.element e := field (·.element e) fun _ => rfl
    exact helement.trans (findElements_element y e (hdrives ▸ he))

/-- The tables that the end of LOADING leaves as the state it goes on from holds them (R31). -/
theorem loadingTail_tables (atEnd : Bool) (y : State) :
    let x := State.loadingTail atEnd y
    x.chamber.occupancy = y.chamber.occupancy ∧ x.chamber.key = y.chamber.key ∧ x.approach.counter = y.approach.counter
      ∧ x.token.state = y.token.state ∧ x.token.epoch = y.token.epoch ∧ x.token.turns = y.token.turns
      ∧ x.token.inFlight = y.token.inFlight ∧ x.store.free = y.store.free ∧ x.store.records = y.store.records
      ∧ x.store.reservations = y.store.reservations ∧ x.store.owed = y.store.owed ∧ x.vessels = y.vessels
      ∧ x.tariff.staged = y.tariff.staged ∧ x.tariff.active = y.tariff.active ∧ x.tariff.day = y.tariff.day
      ∧ x.tariff.minute = y.tariff.minute ∧ x.tariff.known = y.tariff.known
      ∧ x.tariff.minuteTimer = y.tariff.minuteTimer ∧ x.toll.next = y.toll.next := by
  intro x
  have field : ∀ {α : Type} (p : State → α), (∀ z : State, p z = p (State.keptView z)) → p x = p y.findElements :=
    fun p hp => loadingTail_field p hp atEnd y
  exact ⟨field (·.chamber.occupancy) fun _ => rfl, field (·.chamber.key) fun _ => rfl,
    field (·.approach.counter) fun _ => rfl, field (·.token.state) fun _ => rfl, field (·.token.epoch) fun _ => rfl,
    field (·.token.turns) fun _ => rfl, field (·.token.inFlight) fun _ => rfl, field (·.store.free) fun _ => rfl,
    field (·.store.records) fun _ => rfl, field (·.store.reservations) fun _ => rfl, field (·.store.owed) fun _ => rfl,
    field (·.vessels) fun _ => rfl, field (·.tariff.staged) fun _ => rfl, field (·.tariff.active) fun _ => rfl,
    field (·.tariff.day) fun _ => rfl, field (·.tariff.minute) fun _ => rfl, field (·.tariff.known) fun _ => rfl,
    field (·.tariff.minuteTimer) fun _ => rfl, field (·.toll.next) fun _ => rfl⟩

/-- Settles O12: after START by `loadingPassed_start`, the onward test finding no batch; after RESTART by whether the kept
state stands, each table by `loadingTail_tables`. -/
theorem recordPassed : Obligations.RecordPassed := by
  refine ⟨fun s bytes c hs hb hsw hc => ?_, fun s bytes c hm hsampled hr hc => ?_⟩
  · obtain ⟨els, l, r, hels, hkind, hrun⟩ := exec_record_start hs hb hsw hc
    have hctl : s.ctl = Control.initial := congrArg State.ctl hs
    obtain ⟨hstate, hepoch, -, -⟩ := loadFresh_token (s := s.handOut c) (congrArg State.token hs)
    refine ⟨_, hrun, ?_, rfl, fun e he => ?_, rfl, rfl, rfl, rfl, rfl, hstate, hepoch, rfl, hkind, rfl, rfl⟩
    · show ({ s.ctl with mode := .waking, wakeTimer := some (sec c.wakeSettle), pumpReady := false } : Control) = _
      rw [hctl]; rfl
    · have hfound : els[elementIdx e] = (wakingFresh c s).findElements.element e := by rw [← hels]; rfl
      exact hfound.trans (findElements_element (wakingFresh c s) e he)
  · refine ⟨s.loadingPassed c, congrArg (fun t => Host.Outcome.next (finish s t)) (recordRead_passed hm hsampled hc), ?_⟩
    by_cases hp : s.loader.placing = some ⟨s.loader.strap, c.flight⟩
    · have hstands : s.keptStands c = true := by unfold State.keptStands; simp [hr, hp]
      obtain ⟨atEnd, hpassed⟩ := loadingPassed_kept hstands
      rw [hpassed]
      obtain ⟨hmode, hwake, hpump, hsource, hstop, hloader, helements⟩ := loadingTail_wakes atEnd (wakingKept c s)
      refine ⟨hmode, hwake, hpump, hsource, hstop, hloader, helements, fun _ => ?_, fun hne => absurd hp hne⟩
      obtain ⟨hocc, hkey, hcounter, hstate, hepoch, hturns, hflight, hfree, hrecords, hreservations, howed, hvessels, hstaged,
        hactive, hday, hminute, hknown, htimer, hnext⟩ := loadingTail_tables atEnd (wakingKept c s)
      exact ⟨hocc, hkey, (loadingTail_keptView atEnd (wakingKept c s)).2.1, hcounter, hstate, hepoch, hturns, hflight, hfree,
        hrecords, hreservations, howed, hvessels, hstaged, hactive, hday, hminute, hknown, htimer, hnext⟩
    · have hstands : s.keptStands c = false := by unfold State.keptStands; simp [hp]
      rw [loadingPassed_setAside hr hstands]
      obtain ⟨hmode, hwake, hpump, hsource, hstop, hloader, helements⟩ := loadingTail_wakes false (wakingFresh c s.setAside)
      refine ⟨hmode, hwake, hpump, hsource, hstop, hloader, helements, fun hkept => absurd hkept hp, fun _ => ?_⟩
      obtain ⟨hocc, hkey, hcounter, hstate, hepoch, hturns, hflight, hfree, hrecords, hreservations, howed, hvessels, hstaged,
        hactive, -, -, hknown, htimer, hnext⟩ := loadingTail_tables false (wakingFresh c s.setAside)
      obtain ⟨hstate', hepoch', hturns', hflight'⟩ := loadFresh_token (s := s.setAside.handOut c) rfl
      have hfoot : (State.loadingTail false (wakingFresh c s.setAside)).isFoot = (s.setAside.handOut c).isFoot :=
        loadingTail_field (·.isFoot) (fun _ => rfl) false _
      have hqueue : (State.loadingTail false (wakingFresh c s.setAside)).approach.queue = [] :=
        queue_of_registrations ((loadingTail_keptView false (wakingFresh c s.setAside)).2.2.1 rfl)
      rw [hfoot]
      exact ⟨hocc, hkey, hqueue, hcounter, hstate.trans hstate', hepoch.trans hepoch', hturns.trans hturns',
        hflight.trans hflight', hfree, hrecords, hreservations, howed, hvessels, hstaged, hactive, hknown, htimer, hnext⟩

end Sys2Proof.StartUp
end

section
/-! Mode: REST, WAKE and the wake settle timer (R40, R41, R46 to R49). -/

namespace Sys2Proof.StartUp
open Sys2Proof Sys2Proof.Machine

/-! ### A change of mode -/

/-- Mode Control on entry into RESTING stops the pump, and otherwise changes the mode alone (R40, R41). -/
def modeTo (m : Mode) (c : Control) : Control :=
  { c with mode := m, wakeTimer := if m = .resting then none else c.wakeTimer,
           pumpReady := if m = .resting then false else c.pumpReady }

/-- A change of mode that changes the interval offers a beacon and makes the change known (R32, R40). -/
theorem setMode_interval {s : State} {m : Mode} (hm : m ≠ s.ctl.mode)
    (hi : State.intervalDue { s with ctl := modeTo m s.ctl } ≠ s.presence.interval) : s.setMode m
      = State.emit (.modeChanged s.ctl.mode m) (State.offerBeacon { s with
          ctl := modeTo m s.ctl,
          presence := { s.presence with
            interval := State.intervalDue { s with ctl := modeTo m s.ctl },
            beaconTimer := some (State.intervalDue { s with ctl := modeTo m s.ctl }).span } }) := by
  unfold State.setMode
  rw [if_neg hm]
  simp only [decide_eq_true_eq]
  show State.emit _ (State.refreshInterval { s with ctl := modeTo m s.ctl }) = _
  unfold State.refreshInterval
  rw [if_neg hi]
  rfl

/-- A change of mode that leaves the interval. -/
theorem setMode_sameInterval {s : State} {m : Mode} (hm : m ≠ s.ctl.mode)
    (hi : State.intervalDue { s with ctl := modeTo m s.ctl } = s.presence.interval) :
    s.setMode m = State.emit (.modeChanged s.ctl.mode m) { s with ctl := modeTo m s.ctl } := by
  unfold State.setMode
  rw [if_neg hm]
  simp only [decide_eq_true_eq]
  show State.emit _ (State.refreshInterval { s with ctl := modeTo m s.ctl }) = _
  unfold State.refreshInterval
  rw [if_pos hi]

theorem localTest_mode {s : State} (h : s.ctl.mode ≠ .inService) : s.localTest = s := by
  unfold State.localTest; rw [if_neg]; exact fun hc => h hc.1

/-- A command that changes the mode of a station at rest answers that change: no motion follows, LOCAL is not begun and no
batch is let in (R50, R127). -/
theorem ran_modeChanged {f : State → State} {s b : State} {old new : Mode} (hf : f s = b.emit (.modeChanged old new))
    (hw : b.works = true) (hnew : new ≠ .held) (hold : old ≠ .held ∧ old ≠ .localMode) (hr : b.drive.restful = true)
    (hl : b.localTest = b) (ha : b.admissionTest = b) (hn : b.notices = []) (hp : b.pending = s.pending) :
    ran f s = .next b := by
  have hact := act_modeChanged_plain hw hnew hold.1 (fun hc => hold.2 hc.1) hr hl hn
  have hf' : f s = { b with notices := [.modeChanged old new] } := by rw [hf, emit_eq, hn]; rfl
  refine ran_inert_more (us := [.admissionTest]) hf' hn (by simp) hact (fun u hu => ?_) hp
  rw [List.append_nil] at hu
  rw [List.mem_singleton.mp hu]
  exact ha

/-- The same where the change of mode offers a beacon, and leads to a mode in which the station does not let batches in. -/
theorem ran_modeChanged_beacon {f : State → State} {s x : State} {old new : Mode}
    (hf : f s = x.offerBeacon.emit (.modeChanged old new)) (hroom : x.room 1 = true) (hw : x.works = true)
    (hmode : x.ctl.mode ≠ .inService) (hnew : new ≠ .held) (hold : old ≠ .held ∧ old ≠ .localMode)
    (hr : x.drive.restful = true) (hn : x.notices = []) (hp : x.pending = s.pending) : ran f s = .next x.offerBeacon := by
  obtain ⟨l, hoffer⟩ := offerBeacon_shape hroom
  rw [hoffer] at hf ⊢
  exact ran_modeChanged hf hw hnew hold hr (localTest_mode hmode) (admissionTest_mode hmode) hn hp

/-! ### REST (R46, R47) -/

theorem restAllowed_mode {s : State} (h : s.restAllowed = true) : s.ctl.mode = .inService := by
  unfold State.restAllowed at h
  simp only [Bool.and_eq_true, decide_eq_true_eq] at h
  exact h.1.1.1.1.1.1.1.1

theorem after_restAllowed (k : Kind) (src : Addr) (s : State) : (s.after k src).restAllowed = s.restAllowed := by
  unfold State.after State.noted; split <;> rfl

theorem onRest_broadcast {s : State} {rx : Rx} (h : rx.broadcast = true) : s.onRest rx = s := by
  unfold State.onRest; rw [if_pos h]

theorem onRest_allowed {s : State} {rx : Rx} (hb : rx.broadcast = false) (h : s.restAllowed = true) :
    s.onRest rx = s.setMode .resting := by
  unfold State.onRest
  rw [if_neg (by simp [hb]), if_pos h]

theorem onRest_refused {s : State} {rx : Rx} (hb : rx.broadcast = false) (h : s.restAllowed = false) :
    s.onRest rx = s.refuseRx .rest rx .busy := by
  unfold State.onRest
  rw [if_neg (by simp [hb]), if_neg (by simp [h])]

/-- Without an address clash a RESTING station's interval is REST (R32). -/
theorem intervalDue_resting {s : State} {c : Control} (hm : c.mode = .resting) (hc : s.presence.clash = false) :
    State.intervalDue { s with ctl := c } = .rest := by
  unfold State.intervalDue; simp [hm, hc]

/-- Without an address clash the interval of any other mode is NORMAL (R32). -/
theorem intervalDue_normal {s : State} {c : Control} (hm : c.mode ≠ .resting) (hc : s.presence.clash = false) :
    State.intervalDue { s with ctl := c } = .normal := by
  unfold State.intervalDue; simp [hm, hc]

/-- Settles O29: by the owner's three cases; of the change to RESTING nothing further follows. -/
theorem restTaken : Obligations.RestTaken := by
  intro s dst h hroom a
  have hctl : a.ctl = s.ctl := after_ctl _ _ _
  refine ⟨fun hb hr hd hclash hi => ?_, fun hb hr => ?_, fun hb => ?_⟩
  · have hmode := restAllowed_mode hr
    have hdue : State.intervalDue { a with ctl := modeTo .resting a.ctl } = .rest :=
      intervalDue_resting rfl ((after_clash .rest deskAddr s).trans hclash)
    have hnormal : a.presence.interval = .normal := (after_interval _ _ _).trans hi
    have hset := setMode_interval (s := a) (m := .resting) (by rw [hctl, hmode]; decide) (by rw [hdue, hnormal]; decide)
    rw [hdue, hctl, hmode] at hset
    have howner : s.receive .rest deskAddr dst [] State.onRest = a.setMode .resting :=
      (receive_accepted h _).trans (onRest_allowed (decide_eq_false hb) ((after_restAllowed _ _ _).trans hr))
    exact ran_modeChanged_beacon (howner.trans hset) hroom rfl (by simp) (by decide) (by decide)
      (after_restful (k := .rest) (src := deskAddr) hd) (after_calm h) (after_pending .rest deskAddr s)
  · exact ran_refused h hb (onRest_refused (decide_eq_false hb) ((after_restAllowed _ _ _).trans hr)) (by decide) hroom rfl
  · exact ran_owner h (onRest_broadcast (decide_eq_true hb)) (after_calm h) (after_pending _ _ _)

/-! ### WAKE and the wake settle timer (R41, R48, R49) -/

/-- Mode Control as a wake leaves it before the mode changes: the pump starts and its settle timer runs (R48). -/
def pumpStarted (wakeSettle : Nat) (src : WakeSource) (c : Control) : Control :=
  { c with wakeTimer := some (sec wakeSettle), pumpReady := false, wakeSource := src }

theorem wake_resting {s : State} (src : WakeSource) (h : s.ctl.mode = .resting) :
    s.wake src = State.setMode .waking { s with ctl := pumpStarted s.cfg.wakeSettle src s.ctl } := by
  unfold State.wake
  rw [if_pos h]
  rfl

theorem onWake_broadcast {s : State} {rx : Rx} (h : rx.broadcast = true) : s.onWake rx = s := by
  unfold State.onWake; rw [if_pos h]

theorem onWake_addressed {s : State} {rx : Rx} (h : rx.broadcast = false) : s.onWake rx = s.wake .desk := by
  unfold State.onWake; rw [if_neg (by simp [h])]

/-- The state once the wake settle timer has run out: the pump is ready (R41). -/
def pumpSettled (s : State) : State := { s with ctl := { s.ctl with wakeTimer := none, pumpReady := true } }

theorem wakeSettleExpiry_waking {s : State} (ht : s.ctl.wakeTimer.isSome = true) (hm : s.ctl.mode = .waking) :
    s.wakeSettleExpiry = (pumpSettled s).setMode .inService := by
  unfold State.wakeSettleExpiry pumpSettled
  rw [if_pos ht]
  dsimp only
  rw [hm]

theorem wakeSettleExpiry_held {s : State} {r : FaultRecord} (ht : s.ctl.wakeTimer.isSome = true) (hm : s.ctl.mode = .held)
    (hrec : s.fault.record = some r) (hn : s.notices = []) : s.wakeSettleExpiry = { pumpSettled s with
      fault := { s.fault with record := some (if r.prior = .waking then { r with prior := .inService } else r) },
      notices := [.grantDecision] } := by
  unfold State.wakeSettleExpiry pumpSettled
  rw [if_pos ht]
  dsimp only
  rw [hm, hrec, emit_eq]
  dsimp only
  rw [hn]
  rfl

/-- A WAKE sent to all, or to a station that does not rest, changes nothing (R49). -/
theorem onWake_nothing {s : State} {rx : Rx} (h : rx.broadcast = true ∨ s.ctl.mode ≠ .resting) : s.onWake rx = s := by
  cases hb : rx.broadcast with
  | true => exact onWake_broadcast hb
  | false => exact (onWake_addressed hb).trans (wake_other _ (h.resolve_left (by simp [hb])))

/-- Settles O30: the wake by the change of mode it makes, the timer by the mode it runs out in. -/
theorem wakeTaken : Obligations.WakeTaken := by
  refine ⟨fun s dst h => ?_, fun s hn ht hd => ⟨fun hmode hkey hshut hclash hi => ?_, fun r hmode hrec => ?_⟩⟩
  · intro a
    refine ⟨fun hb hmode hroom hd hclash hi => ?_, fun hno => ?_⟩
    · have hctl : a.ctl = s.ctl := after_ctl _ _ _
      let w : State := { a with ctl := pumpStarted a.cfg.wakeSettle .desk a.ctl }
      have hwmode : w.ctl.mode = .resting := (congrArg Control.mode hctl).trans hmode
      have hdue : State.intervalDue { w with ctl := modeTo .waking w.ctl } = .normal :=
        intervalDue_normal (by simp [modeTo]) ((after_clash .wake deskAddr s).trans hclash)
      have hrest : w.presence.interval = .rest := (after_interval .wake deskAddr s).trans hi
      have hset := setMode_interval (s := w) (m := .waking) (by rw [hwmode]; decide) (by rw [hdue, hrest]; decide)
      have hwctl : modeTo .waking w.ctl = { s.ctl with
          mode := .waking, wakeTimer := some (sec s.cfg.wakeSettle), pumpReady := false, wakeSource := .desk } := by
        show modeTo .waking (pumpStarted a.cfg.wakeSettle .desk a.ctl) = _
        rw [hctl, after_cfg]
        rfl
      rw [hdue, hwctl, hwmode] at hset
      have howner : s.receive .wake deskAddr dst [] State.onWake = w.setMode .waking :=
        (receive_accepted h _).trans ((onWake_addressed (decide_eq_false hb)).trans
          (wake_resting .desk ((congrArg Control.mode hctl).trans hmode)))
      exact ran_modeChanged_beacon (howner.trans hset) hroom rfl (by simp) (by decide) (by decide)
        (after_restful (k := .wake) (src := deskAddr) hd) (after_calm h) (after_pending .wake deskAddr s)
    · have hnothing : (s.rxOf .wake deskAddr dst []).broadcast = true ∨ a.ctl.mode ≠ .resting :=
        hno.imp decide_eq_true (fun hm => by rw [show a.ctl = s.ctl from after_ctl _ _ _]; exact hm)
      exact ran_owner h (onWake_nothing hnothing) (after_calm h) (after_pending _ _ _)
  · have hdue : State.intervalDue { pumpSettled s with ctl := modeTo .inService (pumpSettled s).ctl }
        = (pumpSettled s).presence.interval :=
      (intervalDue_normal (s := pumpSettled s) (by simp [modeTo]) hclash).trans hi.symm
    have hset := setMode_sameInterval (s := pumpSettled s) (m := .inService)
      (by show Mode.inService ≠ s.ctl.mode; rw [hmode]; decide) hdue
    rw [show (pumpSettled s).ctl.mode = .waking from hmode] at hset
    exact ran_modeChanged ((wakeSettleExpiry_waking ht hmode).trans hset) rfl (by decide) (by decide) hd (localTest_auto hkey)
      (admissionTest_shut hshut) hn rfl
  · refine ran_inert (wakeSettleExpiry_held ht hmode hrec hn) hn (by simp) (fun u hu => ?_) rfl
    rw [List.mem_singleton.mp hu]
    exact decideGrant_restful hd

end Sys2Proof.StartUp
end

section
/-! Presence: beacons taken, the address clash, silence and the calm timer (R32, R34 to R37). -/

namespace Sys2Proof.StartUp
open Sys2Proof Sys2Proof.Machine

/-! ### A beacon of another station (R34, R35, R191) -/

/-- A readable beacon of another station of the flight is entered (R34). -/
theorem onBeacon_other {s : State} {rx : Rx} {b : BeaconContents} (hp : parseBeacon? rx.payload = some b)
    (hd : rx.src ≠ deskAddr) (ho : rx.src ≠ s.ownAddr) (hn : rx.src.toNat < s.n) :
    s.onBeacon rx = s.enterBeacon (peerIdx rx.src.toNat) b := by
  unfold State.onBeacon
  rw [hp]
  dsimp only
  rw [if_neg hd, if_neg ho, if_neg (fun hc => absurd hn (Nat.not_lt.mpr hc.2))]

/-- Settles O23: the accepted beacon reaches `enterBeacon`, whose still view is known. -/
theorem beaconEntered : Obligations.BeaconEntered := by
  intro s src p b h hp hd ho hn
  have howner : State.onBeacon (s.rxOf .beacon src broadcastAddr p) (s.after .beacon src)
      = (s.after .beacon src).enterBeacon (peerIdx src.toNat) b :=
    onBeacon_other hp hd (by rw [after_ownAddr]; exact ho) (by rw [after_n]; exact hn)
  refine ran_owner_still h ((congrArg State.still howner).trans ?_) (after_pending .beacon src s)
  rw [enterBeacon_still, after_peers]

/-! ### A beacon of the station's own address (R37) -/

/-- A beacon of the station's own address with its own serial changes nothing. -/
theorem onBeacon_ownSerial {s : State} {rx : Rx} {b : BeaconContents} {own : BitVec 24} (hp : parseBeacon? rx.payload = some b)
    (hd : rx.src ≠ deskAddr) (ho : rx.src = s.ownAddr) (hs : s.loader.serial = some own) (hb : b.serial = own) :
    s.onBeacon rx = s := by
  unfold State.onBeacon State.clashTest
  rw [hp, hs]
  dsimp only
  rw [if_neg hd, if_pos ho, if_pos hb]

/-- A beacon of the station's own address with another serial is a clash. -/
theorem onBeacon_clash {s : State} {rx : Rx} {b : BeaconContents} {own : BitVec 24} (hp : parseBeacon? rx.payload = some b)
    (hd : rx.src ≠ deskAddr) (ho : rx.src = s.ownAddr) (hs : s.loader.serial = some own) (hb : b.serial ≠ own) :
    s.onBeacon rx = s.clashingBeacon b own := by
  unfold State.onBeacon State.clashTest
  rw [hp, hs]
  dsimp only
  rw [if_neg hd, if_pos ho, if_neg hb]

/-- The state with the clash state ACTIVE and the calm timer at 3 s. -/
def clashing (s : State) : State := { s with presence := { s.presence with clash := true, calmTimer := some (sec 3) } }

theorem clashingBeacon_again {s : State} (b : BeaconContents) (own : BitVec 24) (h : s.presence.clash = true) :
    s.clashingBeacon b own = clashing s := by
  unfold State.clashingBeacon
  rw [if_pos h]
  rfl

theorem clashingBeacon_first {s : State} (b : BeaconContents) (own : BitVec 24) (h : s.presence.clash = false) :
    s.clashingBeacon b own = State.refreshInterval
      ((clashing s).emit (.raise .addressClash (b.serial.setWidth 32) (own.setWidth 32) .none)) := by
  unfold State.clashingBeacon
  rw [if_neg (by simp [h])]
  rfl

theorem clashingBeacon_still (s : State) (b : BeaconContents) (own : BitVec 24) :
    (s.clashingBeacon b own).still = { s.still with clash := true, calmTimer := some (sec 3) } := by
  cases h : s.presence.clash with
  | true => rw [clashingBeacon_again b own h]; rfl
  | false =>
    rw [clashingBeacon_first b own h]
    exact (refreshInterval_keeps (emit_keeps _ (Keeps.refl (clashing s)))).1

/-- While the clash state is ACTIVE the interval is FAST: a beacon is offered at once where it was not (R32). -/
theorem refreshInterval_clash {s : State} (h : s.presence.clash = true) : s.refreshInterval
    = if s.presence.interval = .fast then s else State.offerBeacon { s with
        presence := { s.presence with interval := .fast, beaconTimer := some Interval.fast.span } } := by
  have hdue : s.intervalDue = .fast := by unfold State.intervalDue; rw [if_pos h]
  unfold State.refreshInterval
  rw [hdue]
  by_cases hf : s.presence.interval = .fast
  · rw [if_pos hf, if_pos hf.symm]
  · rw [if_neg hf, if_neg (Ne.symm hf)]
    rfl

theorem offerBeacon_interval (s : State) : s.offerBeacon.presence.interval = s.presence.interval :=
  unsent_field (fun z : State => z.presence.interval) (offerBeacon_unsent s) (fun _ => rfl)

/-- A station's own address is not the desk's. -/
theorem ownAddr_ne_desk (s : State) : s.ownAddr ≠ deskAddr := by
  intro h
  have hk : s.k < 16 := s.loader.strap.isLt
  have := congrArg BitVec.toNat h
  unfold State.ownAddr stationAddr at this
  simp at this
  omega

/-- Settles O24: by the serial and the clash state before. -/
theorem addressClash : Obligations.AddressClash := by
  intro s dst p b own h hp hs a clashed
  let rx := s.rxOf .beacon s.ownAddr dst p
  have hcalm : a.notices = [] := after_calm h
  have hpend : a.pending = s.pending := after_pending _ _ _
  have hd : rx.src ≠ deskAddr := ownAddr_ne_desk s
  have ho : rx.src = a.ownAddr := (after_ownAddr _ _ _).symm
  have hserial : a.loader.serial = some own := by rw [show a.loader = s.loader from after_loader _ _ _]; exact hs
  have hclash : a.presence.clash = s.presence.clash := after_clash _ _ _
  have hown : b.serial = own → a.onBeacon rx = a := onBeacon_ownSerial hp hd ho hserial
  have hother : b.serial ≠ own → a.onBeacon rx = a.clashingBeacon b own := onBeacon_clash hp hd ho hserial
  refine ⟨?_, fun hb hno => ?_, fun hb hyes => ?_, fun hb => ran_owner h (hown hb) hcalm hpend⟩
  · refine ran_owner_still h ?_ ?_
    · split
      · next hb => exact congrArg State.still (hown hb)
      · next hb => rw [hother hb, clashingBeacon_still]
    · split <;> exact hpend
  · intro raised x
    have hinterval : raised.presence.interval = s.presence.interval := after_interval _ _ _
    have hraised : (clashing a).emit (.raise .addressClash (b.serial.setWidth 32) (own.setWidth 32) .none) = raised := by
      rw [emit_eq, show (clashing a).notices = [] from hcalm]; rfl
    have heffect : a.onBeacon rx = x := by
      rw [hother hb, clashingBeacon_first b own (hclash.trans hno), hraised, refreshInterval_clash rfl, hinterval]
    refine ⟨(ran_accepted h _).trans (congrArg (fun t => Host.Outcome.next (finish s t)) heffect), ?_⟩
    show (if s.presence.interval = .fast then raised else State.offerBeacon _).presence.interval = .fast
    split
    · next hfast => exact hinterval.trans hfast
    · exact offerBeacon_interval _
  · have hagain := clashingBeacon_again b own (hclash.trans hyes)
    exact ran_owner h ((hother hb).trans hagain) hcalm hpend

/-! ### Silence and the calm timer (R35 to R37) -/

/-- The state in which a station's entry has become LOST (R35). -/
def peerLost (i : Fin 16) (s : State) : State :=
  { s with presence := { s.presence with peers := s.presence.peers.set i { s.presence.peers[i] with presence := .lost } } }

theorem peerSilence_present {s : State} {i : Fin 16} (h : s.presence.peers[i].presence = .present) :
    s.peerSilence i = (peerLost i s).emit (.peerLost i) := by
  unfold State.peerSilence; rw [if_pos h]; rfl

theorem deskSilence_present {s : State} (h : s.presence.desk = .present) :
    s.deskSilence = State.emit .deskLost { s with presence := { s.presence with desk := .lost } } := by
  unfold State.deskSilence; rw [if_pos h]; rfl

theorem clashCalm_running {s : State} (h : s.presence.calmTimer.isSome = true) :
    s.clashCalm = State.refreshInterval { s with presence := { s.presence with clash := false, calmTimer := none } } := by
  unfold State.clashCalm; rw [if_pos h]; rfl

/-- A command whose effect has a known still view leaves it so, the commands that wait being as they were. -/
theorem ran_still {f : State → State} {s : State} {v : StillView} (h : (f s).still = v) (hp : v.pending = s.pending) :
    ∃ t, ran f s = .next t ∧ t.still = v := by
  refine ⟨_, rfl, ?_⟩
  rw [finish_still, h, ← hp]

/-- The code that the loss of a LOST entry raises is that of the interval it announced (R35). -/
theorem peerLost_interval (i : Fin 16) (s : State) :
    ((peerLost i s).peer i.val).interval = s.presence.peers[i].interval := by
  have hi : i.val % 16 = i.val := Nat.mod_eq_of_lt i.isLt
  unfold State.peer peerLost
  rw [if_pos i.isLt]
  simp [peerIdx, hi]

/-- The other end of the flight is read off the loader alone. -/
theorem otherEnd_of_loader {s t : State} (h : t.loader = s.loader) : t.otherEnd = s.otherEnd := by
  unfold State.otherEnd State.isFoot State.n State.cfg State.k
  rw [h]

/-- The token's recovery timer is governed anew where the other end is lost (R149). -/
def governedFor (i : Fin 16) (other : Nat) (s : State) : State := if i.val = other then s.recoveryGovern else s

/-- The blocks' acting on a loss, by the place of the lost station (R35, R69, R77, R117, R149). -/
theorem onPeerLost_eq {y : State} {i : Fin 16} {v : Interval} (hv : (y.peer i.val).interval = some v) : y.onPeerLost i =
    if y.works = false then y
    else if i.val = y.k + 1 then State.emit (.raise .peerLost (BitVec.ofNat 32 i.val) (BitVec.ofNat 32 v.code) .none)
      (governedFor i y.otherEnd y.upperLost.withholdOnward)
    else if i.val + 1 = y.k then State.emit (.raise .peerLost (BitVec.ofNat 32 i.val) (BitVec.ofNat 32 v.code) .lower)
      (governedFor i y.otherEnd y.lowerPeerLost)
    else governedFor i y.otherEnd y := by
  have hupper : y.upperLost.withholdOnward.otherEnd = y.otherEnd :=
    otherEnd_of_loader (keeps_loader (withholdOnward_keeps (upperLost_keeps (Keeps.refl y))))
  have hlower : y.lowerPeerLost.otherEnd = y.otherEnd :=
    otherEnd_of_loader (keeps_loader (lowerPeerLost_keeps (Keeps.refl y)))
  unfold State.onPeerLost
  rw [hv]
  cases y.works with
  | false => rfl
  | true =>
    simp only [Bool.not_true, Bool.false_eq_true, Bool.true_eq_false, if_false, State.doIf, decide_eq_true_eq,
      Bool.or_eq_true, Option.getD_some]
    by_cases hu : i.val = y.k + 1
    · have hl : ¬ i.val + 1 = y.k := by omega
      simp only [if_pos hu, if_neg hl, if_pos (Or.inl hu), hupper]
      rfl
    · by_cases hl : i.val + 1 = y.k
      · simp only [if_neg hu, if_pos hl, if_pos (Or.inr hl), hlower]
        rfl
      · simp only [if_neg hu, if_neg hl, if_neg (not_or.mpr ⟨hu, hl⟩)]
        rfl

/-- Settles O25: by the entry that falls silent; what the blocks do of a loss is `onPeerLost_eq`. -/
theorem presenceTimeouts : Obligations.PresenceTimeouts := by
  intro s
  refine ⟨fun i hi => ?_, fun i v hn hi hv => ?_, fun hd => ?_, fun hc => ?_⟩
  · exact ran_still (congrArg State.still (peerSilence_present hi)) rfl
  · intro y governed raised
    have hy : (y.peer i.val).interval = some v := (peerLost_interval i s).trans hv
    refine ⟨congrArg (fun t => Host.Outcome.next (finish s t)) ?_, onPeerLost_eq hy⟩
    rw [peerSilence_present hi, emit_eq, show (peerLost i s).notices = [] from hn]
    rfl
  · exact ran_still (congrArg State.still (deskSilence_present hd)) rfl
  · refine ran_still ((congrArg State.still (clashCalm_running hc)).trans ?_) rfl
    exact (refreshInterval_keeps (Keeps.refl _)).1

end Sys2Proof.StartUp
end

section
/-! What a BEACON and a STATUS_REPLY hold, and how they read back (R33, R38, 12.2). -/

namespace Sys2Proof.StartUp
open Sys2Proof Sys2Proof.Machine

/-! ### Codes and fields (12.2) -/

theorem ofCode_mode (m : Mode) : Mode.ofCode? m.code = some m := by cases m <;> rfl
theorem ofCode_stop (x : StopState) : StopState.ofCode? x.code = some x := by cases x <;> rfl
theorem ofCode_interval (v : Interval) : Interval.ofCode? v.code = some v := by cases v <;> rfl
theorem ofCode_holder (x : HolderKind) : HolderKind.ofCode x.code = x := by cases x <;> rfl
theorem ofCode_waiter (x : WaiterKind) : WaiterKind.ofCode? x.code = some x := by cases x <;> rfl
theorem ofCode_token (t : TokenState) : TokenState.ofCode? t.code = some t := by cases t <;> rfl
theorem ofCode_cause (c : Option Cause) : Cause.ofCode? (causeCode c) = c := by
  rcases c with _ | c
  · rfl
  · cases c <;> rfl

theorem mode_code_le (m : Mode) : m.code ≤ 6 := by cases m <;> decide
theorem stop_code_le (x : StopState) : x.code ≤ 2 := by cases x <;> decide
theorem interval_code_le (v : Interval) : v.code ≤ 2 := by cases v <;> decide
theorem holder_code_le (x : HolderKind) : x.code ≤ 3 := by cases x <;> decide
theorem waiter_code_le (x : WaiterKind) : x.code ≤ 2 := by cases x <;> decide
theorem token_code_le (t : TokenState) : t.code ≤ 2 := by cases t <;> decide
theorem occupancy_code_le (o : Occupancy) : o.code ≤ 3 := by cases o <;> decide
theorem level_code_le (l : FaultLevel) : l.code ≤ 3 := by cases l <;> decide
theorem wakeSource_code_le (w : WakeSource) : w.code ≤ 8 := by cases w <;> decide
theorem causeCode_le (c : Option Cause) : causeCode c ≤ 14 := by
  rcases c with _ | c
  · decide
  · cases c <;> decide

theorem byte_of_lt {n : Nat} (h : n < 256) : (byte n).toNat = n := by rw [byte_toNat]; omega

/-- Two bytes, most significant first, give back their number. -/
theorem two_bytes {n : Nat} (h : n < 65536) : (byte (n / 256)).toNat * 256 + (byte n).toNat = n := by
  rw [byte_toNat, byte_toNat]; omega

/-- Three bytes give back their number. -/
theorem three_bytes {n : Nat} (h : n < 16777216) :
    ((byte (n / 65536)).toNat * 256 + (byte (n / 256)).toNat) * 256 + (byte n).toNat = n := by
  rw [byte_toNat, byte_toNat, byte_toNat]; omega

/-! ### The layout of a BEACON -/

/-- The ranges of a BEACON's fields (12.2). -/
structure BeaconInRange (b : BeaconContents) : Prop where
  level : ∀ v, b.level = some v → v ≤ 2000
  high : b.high ≤ 12
  low : b.low ≤ 12
  chamberKey : b.chamberKey ≠ 0x80
  custodyKey : b.custodyKey ≠ 0x80
  pendingCount : b.pendingCount ≤ 13
  freeMinusReserved : b.freeMinusReserved ≤ 96

theorem level_word_lt {x : Option Nat} (h : ∀ v, x = some v → v ≤ 2000) : x.getD 0xFFFF < 65536 := by
  rcases x with _ | v
  · decide
  · have := h v rfl
    simp only [Option.getD_some]; omega

/-- The bytes of a BEACON, each as the number it was packed from. -/
theorem renderBeacon_bytes {b : BeaconContents} (h : BeaconInRange b) :
    byteAt (renderBeacon b) 0 = b.mode.code * 32 + b.stop.code * 8 + b.interval.code * 2
      ∧ be16 (renderBeacon b) 1 = b.level.getD 0xFFFF
      ∧ byteAt (renderBeacon b) 3 = b.holder.code * 64 + b.waiter.code * 16 + b.token.code * 4
      ∧ byteAt (renderBeacon b) 6 = b.high * 16 + b.low ∧ be16 (renderBeacon b) 7 = b.epoch.toNat
      ∧ byteAt (renderBeacon b) 9 = causeCode b.cause * 16 + b.pendingCount
      ∧ byteAt (renderBeacon b) 10 = b.freeMinusReserved ∧ be24 (renderBeacon b) 11 = b.serial.toNat := by
  have hm := mode_code_le b.mode
  have hs := stop_code_le b.stop
  have hi := interval_code_le b.interval
  have hh := holder_code_le b.holder
  have hw := waiter_code_le b.waiter
  have ht := token_code_le b.token
  have hc := causeCode_le b.cause
  have he : b.epoch.toNat < 16384 := b.epoch.isLt
  have hhigh := h.high
  have hlow := h.low
  have hpending := h.pendingCount
  have hfree := h.freeMinusReserved
  exact ⟨byte_of_lt (by omega), two_bytes (level_word_lt h.level), byte_of_lt (by omega), byte_of_lt (by omega),
    two_bytes (by omega), byte_of_lt (by omega), byte_of_lt (by omega), three_bytes b.serial.isLt⟩

/-- The fields of the packed bytes read back. -/
theorem renderBeacon_fields {b : BeaconContents} (h : BeaconInRange b) :
    field (byteAt (renderBeacon b) 0) 5 3 = b.mode.code ∧ field (byteAt (renderBeacon b) 0) 3 2 = b.stop.code
      ∧ field (byteAt (renderBeacon b) 0) 1 2 = b.interval.code ∧ field (byteAt (renderBeacon b) 3) 6 2 = b.holder.code
      ∧ field (byteAt (renderBeacon b) 3) 4 2 = b.waiter.code ∧ field (byteAt (renderBeacon b) 3) 2 2 = b.token.code
      ∧ field (byteAt (renderBeacon b) 6) 4 4 = b.high ∧ field (byteAt (renderBeacon b) 6) 0 4 = b.low
      ∧ field (byteAt (renderBeacon b) 9) 4 4 = causeCode b.cause
      ∧ field (byteAt (renderBeacon b) 9) 0 4 = b.pendingCount := by
  obtain ⟨h0, -, h3, h6, -, h9, -, -⟩ := renderBeacon_bytes h
  have hm := mode_code_le b.mode
  have hs := stop_code_le b.stop
  have hi := interval_code_le b.interval
  have hh := holder_code_le b.holder
  have hw := waiter_code_le b.waiter
  have ht := token_code_le b.token
  have hc := causeCode_le b.cause
  have hhigh := h.high
  have hlow := h.low
  have hpending := h.pendingCount
  rw [h0, h3, h6, h9]
  unfold field
  refine ⟨?_, ?_, ?_, ?_, ?_, ?_, ?_, ?_, ?_, ?_⟩ <;> omega

theorem readKey_of_ne {k : BatchKey} (h : k ≠ 0x80) : readKey k = k := by unfold readKey; rw [if_neg h]

/-- A level word read back: unknown is FFFF, which lies outside the range of a level (12.2). -/
theorem levelAt_word {p : List Byte} {i : Nat} {x : Option Nat} (hw : be16 p i = x.getD 0xFFFF)
    (h : ∀ v, x = some v → v ≤ 2000) : levelAt? p i = x ∧ (be16 p i ≤ 2000 ∨ be16 p i = 0xFFFF) := by
  unfold levelAt?
  rw [hw]
  rcases x with _ | v
  · exact ⟨rfl, Or.inr rfl⟩
  · have hv := h v rfl
    simp only [Option.getD_some]
    exact ⟨if_pos hv, Or.inl hv⟩

/-- Settles O7: the reading of each field of the layout, from `renderBeacon_bytes` and `renderBeacon_fields`. -/
theorem beaconRoundTrip : Obligations.BeaconRoundTrip := by
  intro b hl hh hlow hck hcu hp hf
  have h : BeaconInRange b := ⟨hl, hh, hlow, hck, hcu, hp, hf⟩
  obtain ⟨-, hlevel, -, -, hepoch, -, hfree, hserial⟩ := renderBeacon_bytes h
  obtain ⟨hm, hs, hi, hho, hw, ht, hhi, hlo, hc, hpe⟩ := renderBeacon_fields h
  obtain ⟨hlev, hrange⟩ := levelAt_word hlevel hl
  have hkey : keyAt (renderBeacon b) 4 = b.chamberKey := readKey_of_ne hck
  have hcustody : keyAt (renderBeacon b) 5 = b.custodyKey := readKey_of_ne hcu
  have he : b.epoch.toNat < 16384 := b.epoch.isLt
  unfold parseBeacon?
  rw [if_neg (show ¬ (renderBeacon b).length ≠ 14 from fun hne => hne rfl), hm, hs, hi, hw, ht, ofCode_mode, ofCode_stop,
    ofCode_interval, ofCode_waiter, ofCode_token]
  dsimp only
  rw [hhi, hlo, hc, hpe, hho, hlev, hkey, hcustody, hepoch, hfree, hserial,
    if_pos ⟨hrange, hh, hlow, he, causeCode_le _, hp, hf⟩, ofCode_holder, ofCode_cause]
  simp

end Sys2Proof.StartUp
end

section
/-! STATUS_ASK, and the layout of a STATUS_REPLY (R33, R38, 12.2). -/

namespace Sys2Proof.StartUp
open Sys2Proof Sys2Proof.Machine

/-! ### The answer to a STATUS_ASK (R38) -/

/-- With room in the queue no ask waits for its place, and the reply is placed with the status of the moment. -/
theorem onStatusAsk_room {s : State} (rx : Rx) (h : s.room 1 = true) : s.onStatusAsk rx
    = s.queued .presence .statusReply rx.src (s.statusReplyNow (byteAt rx.payload 0)) := by
  obtain ⟨hw, hb, -⟩ := room_parts h
  have hnone : s.link.asksWaiting = 0 := by
    unfold Link.asksWaiting Link.unplaced
    rw [hw, hb]; rfl
  unfold State.onStatusAsk
  dsimp only
  rw [hnone, if_neg (by decide)]
  exact (offer_room (o := { frame .presence .statusReply rx.src [] with body := .statusReply (byteAt rx.payload 0) }) h).trans rfl

/-! ### The status of the moment -/

/-- The level as a report shows it: its value while VALID, else unknown (R57). -/
theorem report_eq (x : Level) : x.report = if x.valid then some x.value else none := rfl

theorem beaconNow_works {s : State} (h : s.works = true) : s.beaconNow = {
    mode := s.ctl.mode, stop := s.ctl.stop, interval := s.presence.interval, level := s.chamber.level.report,
    holder := s.chamber.holder.kind, waiter := s.chamber.waiter.kind,
    token := if s.isEnd then s.token.state else .absent, epoch := if s.isEnd then s.token.epoch else 0,
    chamberKey := s.chamber.key, custodyKey := s.store.custody, high := s.highCount,
    low := s.lowCount, cause := s.activeCause,
    pendingCount := s.fault.pendingSet.length, freeMinusReserved := s.store.available,
    serial := s.loader.serial.getD 0 } := by
  unfold State.beaconNow; rw [if_pos h]

theorem beaconNow_idle {s : State} (h : s.works = false) : s.beaconNow = {
    mode := s.ctl.mode, stop := s.ctl.stop, interval := s.presence.interval, level := none, holder := .free,
    waiter := .none, token := .absent, epoch := 0, chamberKey := 0, custodyKey := 0, high := 0, low := 0,
    cause := some .configInvalid, pendingCount := s.fault.pendingSet.length, freeMinusReserved := 0,
    serial := s.loader.serial.getD 0 } := by
  unfold State.beaconNow; rw [if_neg (by simp [h])]

/-- The two queue counts of a report make up the queue (R124). -/
theorem highCount_add_lowCount (s : State) : s.highCount + s.lowCount = s.approach.queue.length :=
  (List.length_eq_length_filter_add (fun e : QueueEntry => e.high)).symm

/-- A valid level of a sound station lies in the range of its field. -/
theorem report_le {x : Level} (h : x.value ≤ 2000) : ∀ v, x.report = some v → v ≤ 2000 := by
  intro v hv
  rw [report_eq] at hv
  split at hv
  · cases hv; exact h
  · cases hv

/-- The free pages are at most 96, and no more is reserved than is free (R152, R153). -/
theorem pages_le {st : Store} (h : st.PagesWhole) : st.freePages ≤ 96 ∧ st.reserved ≤ 96 := by
  obtain ⟨hperm, -, -, hreserved⟩ := h
  have hlen := hperm.length_eq
  rw [List.length_append, List.length_range] at hlen
  have hfree : st.freePages ≤ 96 := by unfold Store.freePages; omega
  exact ⟨hfree, hreserved.trans hfree⟩

theorem levelCode_eq (s : State) : s.levelCode = (s.fault.record.map (fun x => x.level.code)).getD 0 := by
  unfold State.levelCode; cases s.fault.record <;> rfl

theorem activeCauseCode_eq (s : State) : causeCode s.activeCause = (s.fault.record.map (fun x => x.cause.code)).getD 0 := by
  unfold State.activeCause; cases s.fault.record <;> rfl

theorem priorNow_held {s : State} {x : FaultRecord} (hm : s.ctl.mode = .held) (hr : s.fault.record = some x) :
    s.priorNow = x.prior := by
  unfold State.priorNow; rw [hm, hr]

theorem priorNow_other {s : State} (hm : s.ctl.mode ≠ .held) : s.priorNow = s.ctl.mode := by
  unfold State.priorNow
  split
  · next h _ => exact absurd h hm
  · rfl

/-! ### The layout of a STATUS_REPLY -/

/-- What a sound station that works has to lay out fits the fields of a STATUS_REPLY (12.2). -/
structure StatusFits (s : State) : Prop where
  level : ∀ v, s.chamber.level.report = some v → v ≤ 2000
  outer : ∀ v, (if s.isEnd then s.chamber.outer.report else none) = some v → v ≤ 2000
  free : s.store.freePages ≤ 96
  reserved : s.store.reserved ≤ 96
  counts : s.highCount + s.lowCount ≤ 12
  pendingCount : s.fault.pendingSet.length ≤ 13

theorem statusFits_of_sound {s : State} (h : s.Sound) (hp : s.fault.pendingSet.length ≤ 13) : StatusFits s := by
  obtain ⟨-, happroach, -, hpages, -, -, -, -, -, -, -, hlevels, -⟩ := h
  refine ⟨report_le hlevels.1, fun v hv => ?_, (pages_le hpages).1, (pages_le hpages).2, ?_, hp⟩
  · split at hv
    · exact report_le hlevels.2 v hv
    · cases hv
  · rw [highCount_add_lowCount]; exact happroach.1

/-- The payload of a STATUS_REPLY of a station that works (R38). -/
theorem statusReplyNow_works {s : State} (h : s.works = true) (tag : Nat) : s.statusReplyNow tag =
    [byte tag, byte (s.ctl.mode.code * 32 + s.priorNow.code * 4 + s.ctl.stop.code),
      byte (bit s.ctl.latch * 128 + s.chamber.occupancy.code * 32 + s.chamber.holder.kind.code * 8
        + s.chamber.waiter.kind.code * 2)]
      ++ levelBytes s.chamber.level.report ++ levelBytes (if s.isEnd then s.chamber.outer.report else none)
      ++ [byte s.store.freePages, byte s.store.reserved, byte (s.highCount * 16 + s.lowCount)]
      ++ bytes16 ((if s.isEnd then s.token.state else .absent).code * 16384
        + (if s.isEnd then s.token.epoch else 0).toNat)
      ++ [byte (causeCode s.activeCause * 16 + s.fault.pendingSet.length), byte (s.levelCode * 64),
        byte s.ctl.wakeSource.code] := by
  unfold State.statusReplyNow
  rw [beaconNow_works h, h]
  rfl

theorem bit_le (b : Bool) : bit b ≤ 1 := by cases b <;> decide

theorem levelCode_le (s : State) : s.levelCode ≤ 3 := by
  unfold State.levelCode
  split
  · exact level_code_le _
  · decide

/-- The bytes of a STATUS_REPLY, each as the number it was packed from. -/
theorem statusReply_bytes {s : State} (h : StatusFits s) (hw : s.works = true) {tag : Nat} (ht : tag < 256) :
    let r := s.statusReplyNow tag
    byteAt r 0 = tag ∧ byteAt r 1 = s.ctl.mode.code * 32 + s.priorNow.code * 4 + s.ctl.stop.code
      ∧ byteAt r 2 = bit s.ctl.latch * 128 + s.chamber.occupancy.code * 32 + s.chamber.holder.kind.code * 8
        + s.chamber.waiter.kind.code * 2
      ∧ be16 r 3 = s.chamber.level.report.getD 0xFFFF
      ∧ be16 r 5 = (if s.isEnd then s.chamber.outer.report else none).getD 0xFFFF
      ∧ byteAt r 7 = s.store.freePages ∧ byteAt r 8 = s.store.reserved
      ∧ byteAt r 9 = s.highCount * 16 + s.lowCount
      ∧ be16 r 10 = (if s.isEnd then s.token.state else .absent).code * 16384 + (if s.isEnd then s.token.epoch else 0).toNat
      ∧ byteAt r 12 = causeCode s.activeCause * 16 + s.fault.pendingSet.length ∧ byteAt r 13 = s.levelCode * 64
      ∧ byteAt r 14 = s.ctl.wakeSource.code := by
  intro r
  have hr : r = _ := statusReplyNow_works hw tag
  have hmode := mode_code_le s.ctl.mode
  have hprior := mode_code_le s.priorNow
  have hstop := stop_code_le s.ctl.stop
  have hlatch := bit_le s.ctl.latch
  have hocc := occupancy_code_le s.chamber.occupancy
  have hholder := holder_code_le s.chamber.holder.kind
  have hwaiter := waiter_code_le s.chamber.waiter.kind
  have htoken := token_code_le (if s.isEnd then s.token.state else .absent)
  have hepoch : (if s.isEnd then s.token.epoch else 0).toNat < 16384 := BitVec.isLt _
  have hcause := causeCode_le s.activeCause
  have hfl := levelCode_le s
  have hsource := wakeSource_code_le s.ctl.wakeSource
  obtain ⟨hlevel, houter, hfree, hreserved, hcounts, hpending⟩ := h
  rw [hr]
  exact ⟨byte_of_lt ht, byte_of_lt (by omega), byte_of_lt (by omega), two_bytes (level_word_lt hlevel),
    two_bytes (level_word_lt houter), byte_of_lt (by omega), byte_of_lt (by omega), byte_of_lt (by omega),
    two_bytes (by omega), byte_of_lt (by omega), byte_of_lt (by omega), byte_of_lt (by omega)⟩

/-- The packed fields of bytes 1 and 2 read back. -/
theorem statusReply_fields {s : State} (h : StatusFits s) (hw : s.works = true) {tag : Nat} (ht : tag < 256) :
    let r := s.statusReplyNow tag
    field (byteAt r 1) 5 3 = s.ctl.mode.code ∧ field (byteAt r 1) 2 3 = s.priorNow.code
      ∧ field (byteAt r 1) 0 2 = s.ctl.stop.code ∧ field (byteAt r 2) 7 1 = bit s.ctl.latch
      ∧ field (byteAt r 2) 5 2 = s.chamber.occupancy.code ∧ field (byteAt r 2) 3 2 = s.chamber.holder.kind.code
      ∧ field (byteAt r 2) 1 2 = s.chamber.waiter.kind.code := by
  intro r
  obtain ⟨-, h1, h2, -⟩ := statusReply_bytes h hw ht
  have hmode := mode_code_le s.ctl.mode
  have hprior := mode_code_le s.priorNow
  have hstop := stop_code_le s.ctl.stop
  have hlatch := bit_le s.ctl.latch
  have hocc := occupancy_code_le s.chamber.occupancy
  have hholder := holder_code_le s.chamber.holder.kind
  have hwaiter := waiter_code_le s.chamber.waiter.kind
  rw [h1, h2]
  unfold field
  refine ⟨?_, ?_, ?_, ?_, ?_, ?_, ?_⟩ <;> omega

/-- Settles O21: the ask by its owner, the reports by the definitions of what they show, the reply by `statusReply_bytes`. -/
theorem statusAskAnswered : Obligations.StatusAskAnswered := by
  refine ⟨fun s src dst p h hr => ?_, fun s => ?_⟩
  · exact ran_owner h (onStatusAsk_room _ (after_room .statusAsk src hr)) (queued_calm (after_calm h))
      (queued_pend (after_pending _ _ _))
  · intro high shown
    refine ⟨fun hw => beaconNow_works hw, highCount_add_lowCount s, fun hw => beaconNow_idle hw, fun tag hw hs ht hp => ?_⟩
    intro r word
    have hfits := statusFits_of_sound hs hp
    obtain ⟨htag, -, -, hlevel, houter, hfree, hreserved, hcounts, htoken, hcause, hfaultLevel, hsource⟩ :=
      statusReply_bytes hfits hw ht
    obtain ⟨hmode, hprior, hstop, hlatch, hocc, hholder, hwaiter⟩ := statusReply_fields hfits hw ht
    rw [activeCauseCode_eq] at hcause
    rw [levelCode_eq] at hfaultLevel
    refine ⟨by rw [show r = _ from statusReplyNow_works hw tag]; rfl, htag, hmode,
      fun hm => hprior.trans (congrArg Mode.code (priorNow_other hm)),
      fun x hm hx => hprior.trans (congrArg Mode.code (priorNow_held hm hx)), hstop, hlatch, hocc, hholder, hwaiter, hlevel,
      houter, hfree, hreserved, hcounts, htoken.trans ?_, hcause, hfaultLevel, hsource⟩
    cases s.isEnd <;> simp

end Sys2Proof.StartUp
end

section
/-! The stop state: FLIGHT_STOP, RESUME, the resume settle timer and the stop button (R43 to R45). -/

namespace Sys2Proof.StationModes
open Sys2Proof Sys2Proof.Machine Sys2Proof.FlightLink Sys2Proof.StartUp

/-- An UNCONFIGURED station hands a FLIGHT_STOP without payload to its owner, sent to all or to itself (R9, R28). -/
theorem receive_flightStop_unconfigured {s : State} {src dst : Addr} (h : s.follows src = true)
    (hm : s.ctl.mode = .unconfigured) (ht : s.isTaken dst = true) :
    s.receive .flightStop src dst [] State.onFlightStop = (s.noted src).stopTaken := by
  obtain ⟨hhears, hvalid⟩ := follows_hears h
  unfold State.receive
  rw [hhears, hvalid, follows_reportSource h]
  dsimp only
  rw [noted_taken, ht, noted_ctl, if_neg (by simp), if_neg (by simp), if_pos hm]
  unfold State.takeUnconfigured
  split <;> rfl

/-- A RESUME of the desk by the table of R43, in the tables no notice changes. -/
theorem resumeTaken_still (s : State) : s.resumeTaken.still = { s.still with
      stop := if s.ctl.stop = .stopActive then .stopSettling else s.ctl.stop,
      latch := s.ctl.latch && decide (s.ctl.stop ≠ .stopSettling),
      resumeTimer := if s.ctl.stop = .stopActive ∨ (s.ctl.stop = .stopSettling ∧ s.ctl.latch = true) then some (sec 2)
        else s.ctl.resumeTimer } := by
  unfold State.resumeTaken State.setStop
  cases hs : s.ctl.stop with
  | stopClear => simp [State.still, hs]
  | stopActive => simp [State.still]
  | stopSettling => cases hl : s.ctl.latch <;> simp [State.still, hs, hl]

/-- The end of the resume settle timer by the table of R43, in the tables no notice changes. -/
theorem resumeSettleExpiry_still {s : State} (ht : s.ctl.resumeTimer.isSome = true) (hs : s.ctl.stop = .stopSettling) :
    s.resumeSettleExpiry.still = { s.still with
      stop := if s.ctl.latch then .stopActive else .stopClear, latch := false, resumeTimer := none } := by
  unfold State.resumeSettleExpiry State.setStop
  rw [if_pos ⟨ht, hs⟩]
  cases s.ctl.latch <;> simp [State.still, hs]

/-- A RESUME is accepted from the desk alone (R6, R43). -/
theorem accepts_resume_desk {s : State} {src dst : Addr} {p : List Byte} (h : s.accepts .resume src dst p = true) :
    src = deskAddr := by
  have hr := accepts_role h
  unfold State.roleTest at hr
  simp only [Bool.and_eq_true] at hr
  exact of_decide_eq_true hr.2

theorem onStopButton_press {s : State} (h : s.ctl.mode ≠ .loading) :
    s.onStopButton true = State.stopPress { s with pins := { s.pins with stopButton := true } } := by
  unfold State.onStopButton
  exact if_pos ⟨rfl, h⟩

/-- The notices that stand are no part of what the placing of a frame reads. -/
theorem queued_withNotices (b : Block) (k : Kind) (dst : Addr) (p : List Byte) (s : State) (ns : List Notice)
    (hk : k.plain = true) : State.queued b k dst p { s with notices := ns }
      = { s.queued b k dst p with notices := ns } := by
  rw [queued_eq _ _ _ _ _ hk, queued_eq _ _ _ _ _ hk]

/-- The stop state STOP_ACTIVE taken (R43). -/
def stopActive (s : State) : State := { s with ctl := { s.ctl with stop := .stopActive } }

theorem stopTaken_clear {s : State} (hs : s.ctl.stop = .stopClear) (hn : s.notices = []) :
    s.stopTaken = { stopActive s with notices := [.stopChanged .stopClear .stopActive] } := by
  unfold State.stopTaken State.setStop stopActive
  rw [hs, if_neg (by decide), emit_eq]
  dsimp only
  rw [hn, List.nil_append]

/-- A press under STOP_CLEAR with room in the queue: STOP_ACTIVE is made known and FLIGHT_STOP offered to all (R43, R45). -/
theorem stopPress_clear {s : State} (hs : s.ctl.stop = .stopClear) (hr : s.room 1 = true) (hq : s.stopFrameOut = false)
    (hn : s.notices = []) : s.stopPress
      = { (stopActive s).queued .control .flightStop broadcastAddr [] with
          notices := [.stopChanged .stopClear .stopActive] } := by
  unfold State.stopPress
  rw [stopTaken_clear hs hn]
  exact (if_neg (by rw [Bool.not_eq_true]; exact hq)).trans
    ((send_room (s := { stopActive s with notices := [.stopChanged .stopClear .stopActive] }) _ _ _ _ hr).trans
      (queued_withNotices _ _ _ _ _ _ rfl))

/-- On entry into STOP_ACTIVE a station with no motion held makes a grant decision alone (R93). -/
theorem onStopChanged_active {s : State} (hw : s.works = true) (hd : s.drive.restful = true) (hn : s.notices = []) :
    s.onStopChanged .stopClear .stopActive = { s with notices := [.grantDecision] } := by
  unfold State.onStopChanged
  rw [hw, freezeMotion_restful hd, emit_eq, hn]
  rfl

/-- Of an entry into STOP_ACTIVE nothing follows where no motion is held. -/
theorem ran_stopChanged {f : State → State} {s b : State} (hf : f s = { b with notices := [.stopChanged .stopClear .stopActive] })
    (hd : b.drive.restful = true) (hn : b.notices = []) (hp : b.pending = s.pending) : ran f s = .next b := by
  cases hw : b.works with
  | false =>
    refine ran_inert hf hn (by simp) (fun t ht => ?_) hp
    rw [List.mem_singleton.mp ht]
    exact onStopChanged_idle hw .stopClear .stopActive
  | true =>
    refine ran_inert_more hf hn (by simp) (onStopChanged_active hw hd hn) (fun t ht => ?_) hp
    rw [List.append_nil, List.mem_singleton] at ht
    rw [ht]
    exact decideGrant_restful hd

/-- Settles O28: each row of the table of R43 in the tables no notice changes; a press under STOP_CLEAR by what its change of
the stop state leads to. -/
theorem stopTable : Obligations.StopTable := by
  intro s stopped
  refine ⟨fun src dst p h => ?_, fun src dst h hm ht => ?_, fun src dst p h => ?_, fun ht hs => ?_, fun hm => ?_,
    fun hn hm hs hd hr hq => ?_, fun hn => ?_⟩
  · exact ran_owner_still h (stopTaken_still _) (after_pending .flightStop src s)
  · refine ran_still ?_ (noted_pending src s)
    rw [receive_flightStop_unconfigured h hm ht]
    exact stopTaken_still _
  · have howner : State.onResume (s.rxOf .resume src dst p) (s.after .resume src) = (s.after .resume src).resumeTaken := by
      unfold State.onResume
      exact if_pos (accepts_resume_desk h)
    refine ran_owner_still h ((congrArg State.still howner).trans ?_) (after_pending .resume src s)
    rw [resumeTaken_still, after_ctl]
  · exact ran_still (resumeSettleExpiry_still ht hs) rfl
  · refine ran_still ?_ rfl
    rw [onStopButton_press hm, stopPress_still]
    exact stopTaken_still _
  · refine ran_stopChanged ((onStopButton_press hm).trans (stopPress_clear hs hr hq hn)) ?_ ?_ ?_
    · rw [queued_eq _ _ _ _ _ (by decide)]; exact hd
    · exact queued_calm hn
    · exact queued_pend rfl
  · refine ran_quiet ?_ hn rfl
    unfold State.onStopButton
    exact if_neg (by simp)

end Sys2Proof.StationModes
end

section
/-! ALARM_CLOSE and the safety close set (R95, R96, R98). -/

namespace Sys2Proof.StationModes
open Sys2Proof Sys2Proof.Machine Sys2Proof.FlightLink Sys2Proof.StartUp

/-! ### A demand placed in the safety close set -/

/-- A demand taken into a present entry of the set changes nothing (R95). -/
theorem placeSafety_present {s : State} {c : SafetyClass} (h : placeClass c s.drive.safetySet = s.drive.safetySet) :
    s.placeSafety c = s := by
  unfold State.placeSafety
  exact if_pos h

theorem placeSafety_new {s : State} {c : SafetyClass} (h : placeClass c s.drive.safetySet ≠ s.drive.safetySet) :
    s.placeSafety c
      = State.refreshSafety { s with drive := { s.drive with safetySet := placeClass c s.drive.safetySet } } := by
  unfold State.placeSafety
  exact if_neg h

theorem placeClass_nil (c : SafetyClass) : placeClass c [] = [c] := by cases c <;> rfl

/-- The drive with one demand placed in an empty set. -/
def demanded (c : SafetyClass) (s : State) : State := { s with drive := { s.drive with safetySet := [c] } }

theorem placeSafety_restful {s : State} (c : SafetyClass) (h : s.drive.restful = true) :
    s.placeSafety c = (demanded c s).refreshSafety := by
  have hset := restful_safety h
  rw [placeSafety_new (by rw [hset, placeClass_nil]; simp), hset, placeClass_nil]
  rfl

/-- The SAFETY slot stays empty where the set is. -/
theorem pointSafety_none {s : State} (n : Nat) (hs : s.slot .safety = none) (hd : s.drive.safetySet = []) :
    State.pointSafety (n + 1) s = s := by
  have hidle : s.safetyIdle = true := by unfold State.safetyIdle; rw [hs]
  unfold State.pointSafety
  rw [if_pos hidle, hd]
  exact setSlot_same hs

/-- With no source holding a motion, the close of a CLOSED sluice is complete as it is demanded (R85, R96). -/
theorem pointSafety_closed {s : State} (c : SafetyClass) (n : Nat) (hs : ∀ src, s.slot src = none)
    (hd : s.drive.safetySet = []) (hc : s.element (classElement c) = .closed) :
    State.pointSafety (n + 2) (demanded c s) = s.emit .alarmWaitTest := by
  have hslots : ∀ src, (demanded c s).slot src = none := hs
  have hidle : (demanded c s).safetyIdle = true := by unfold State.safetyIdle; rw [hslots]
  have hat : (demanded c s).safetyAt (classElement c) = false := by unfold State.safetyAt; rw [hslots]
  have hleft : (demanded c s).leaveSet (classElement c) = s := by
    unfold State.leaveSet demanded
    simp only [List.filter_cons, ne_eq, not_true, decide_false, Bool.false_eq_true, if_false, List.filter_nil]
    rw [← hd]
  unfold State.pointSafety
  rw [if_pos hidle]
  show (if (demanded c s).safetyAt (classElement c) = true then _ else _) = _
  rw [if_neg (by simp [hat]), if_pos (by exact hc), setSlot_same (hslots _)]
  unfold State.safetyDone
  rw [hleft, cancelOthers_none _ hs]
  exact pointSafety_none n (hs _) hd

/-- A demand for a CLOSED sluice with the Drive Arbiter at rest: complete at once, the tests that wait on it follow. -/
theorem placeSafety_closed {s : State} {c : SafetyClass} (h : s.drive.restful = true) (hn : s.notices = [])
    (hc : s.element (classElement c) = .closed) :
    s.placeSafety c = { s with notices := [.alarmWaitTest, .grantDecision] } := by
  rw [placeSafety_restful c h]
  unfold State.refreshSafety
  rw [pointSafety_closed c 2 (restful_slot h) (restful_safety h) hc, emit_eq, emit_eq, hn]
  rfl

/-- The close of a sluice as it stands in the SAFETY slot before it is granted (R85, R96). -/
def askedClose (c : SafetyClass) (s : State) : State :=
  (demanded c s).setSlot .safety (some ⟨classElement c, .toClosed, .pending, 0⟩)

/-- A demand for a sluice that is not CLOSED with the Drive Arbiter at rest waits in the SAFETY slot for its grant. -/
theorem placeSafety_open {s : State} {c : SafetyClass} (h : s.drive.restful = true)
    (hc : s.element (classElement c) ≠ .closed) : s.placeSafety c = (askedClose c s).emit .grantDecision := by
  have hslot : (demanded c s).slot .safety = none := restful_slot h .safety
  have hidle : (demanded c s).safetyIdle = true := by unfold State.safetyIdle; rw [hslot]
  have hat : (demanded c s).safetyAt (classElement c) = false := by unfold State.safetyAt; rw [hslot]
  rw [placeSafety_restful c h]
  unfold State.refreshSafety State.pointSafety
  rw [if_pos hidle]
  show (if (demanded c s).safetyAt (classElement c) = true then _ else _ : State).emit _ = _
  rw [if_neg (by simp [hat]), if_neg (by exact hc)]
  rfl

/-! ### The granting of a single motion -/

/-- What a source's slot holds after one slot is set. -/
theorem slot_setSlot (s : State) (src x : Source) (m : Option Motion) :
    (s.setSlot src m).slot x = if x = src then m else s.slot x := by
  unfold State.slot State.setSlot
  cases src <;> cases x <;> simp [sourceIdx]

/-- A slot set alone, the Drive Arbiter being at rest before. -/
theorem slot_single {s : State} (h : ∀ src, s.slot src = none) (src x : Source) (m : Motion) :
    (s.setSlot src (some m)).slot x = if x = src then some m else none := by
  rw [slot_setSlot, h]

/-- A closing motion is never barred (R88). -/
theorem motionBar_toClosed {s : State} {m : Motion} (h : m.target = .toClosed) : s.motionBar m = none := by
  unfold State.motionBar
  exact if_pos h

/-- SAFETY is permitted in IN_SERVICE, LOCAL and HELD while the pump is ready (R42). -/
theorem permits_safety {s : State} {t : Target} (hp : s.ctl.pumpReady = true)
    (hm : s.ctl.mode = .inService ∨ s.ctl.mode = .localMode ∨ s.ctl.mode = .held) : s.permits .safety t = true := by
  unfold State.permits
  rw [hp]
  rcases hm with hm | hm | hm <;> rw [hm] <;> rfl

/-- What an element of the drive reads is not changed by the slots. -/
theorem setSlot_element (s : State) (src : Source) (m : Option Motion) (e : Element) :
    (s.setSlot src m).element e = s.element e := rfl

/-- The drive as the close of a class is granted: SAFETY drives the sluice with the allowance given (R84, R89). -/
def sluiceClosing (c : SafetyClass) (limit : Span) (d : Drive) : Drive :=
  { d with
    elements := d.elements.set (elementIdx (classElement c)) .closing,
    slots := d.slots.set 0 (some { element := classElement c, target := .toClosed, phase := .running,
                                   allowance := limit }),
    safetySet := [c] }

/-- The grant of the close that a demand has put in the SAFETY slot (R84, R89). -/
theorem decideGrant_askedClose {s : State} {c : SafetyClass} (h : s.drive.restful = true) (hp : s.ctl.pumpReady = true)
    (hm : s.ctl.mode = .inService ∨ s.ctl.mode = .localMode ∨ s.ctl.mode = .held) :
    (askedClose c s).decideGrant = { s with drive := sluiceClosing c (s.travelLimit (classElement c)) s.drive } := by
  have hgrant := decideGrant_one (s := askedClose c s) (src := .safety)
    (fun x => slot_single (s := demanded c s) (restful_slot (s := s) h) .safety x _) rfl
    (restful_stack (s := s) h)
    (permits_safety hp hm) (motionBar_toClosed rfl)
  rw [hgrant]
  unfold State.grant askedClose State.setSlot State.setElement demanded sluiceClosing
  simp only [sourceIdx, Vector.set_set]
  rfl

/-! ### ALARM_CLOSE (R98) -/

theorem onAlarmClose_awake {s : State} (rx : Rx) (h : s.ctl.mode ≠ .resting) :
    s.onAlarmClose rx = s.placeSafety .remote := by
  unfold State.onAlarmClose
  rw [wake_other _ h]

/-- Settles O34: the owner places the demand; what follows by whether the sluice is CLOSED, and by what the set holds. -/
theorem alarmCloseTaken : Obligations.AlarmCloseTaken := by
  intro s src dst p h hm a
  have hdrive : a.drive = s.drive := after_drive _ _ _
  have hcalm : a.notices = [] := after_calm h
  have hpending : a.pending = s.pending := after_pending _ _ _
  have howner : s.receive .alarmClose src dst p State.onAlarmClose = a.placeSafety .remote :=
    (receive_accepted h _).trans (onAlarmClose_awake _ (by rw [after_ctl]; exact hm))
  refine ⟨congrArg (fun t => Host.Outcome.next (finish s t)) howner, fun hd hq hc => ?_, fun hd hc hp hmode => ?_,
    fun hset => ?_⟩
  · have hrest : a.drive.restful = true := after_restful hd
    have hquiet : a.unitsQuiet = true := (after_units _ _ _).trans hq
    have hclosed : a.element (classElement .remote) = .closed := by unfold State.element; rw [hdrive]; exact hc
    refine ran_inert (howner.trans (placeSafety_closed hrest hcalm hclosed)) hcalm (by simp) (fun t ht => ?_) hpending
    rcases List.mem_pair.mp ht with rfl | rfl
    · exact alarmWaitTest_quiet hquiet
    · exact decideGrant_restful hrest
  · have hrest : a.drive.restful = true := after_restful hd
    have hopen : a.element (classElement .remote) ≠ .closed := by unfold State.element; rw [hdrive]; exact hc
    have hctl : a.ctl = s.ctl := after_ctl _ _ _
    have hgrant := decideGrant_askedClose (s := a) (c := .remote) hrest (by rw [hctl]; exact hp) (by rw [hctl]; exact hmode)
    have hlimit : a.travelLimit (classElement .remote) = sec s.cfg.sluiceLimit := by
      unfold State.travelLimit; rw [after_cfg]; rfl
    rw [hlimit, hdrive] at hgrant
    refine ran_one (b := askedClose .remote a) (t := .grantDecision) ?_ ?_ hcalm hpending
    · rw [howner, placeSafety_open hrest hopen, emit_eq, show (askedClose .remote a).notices = [] from hcalm]
      rfl
    · rw [show ({ askedClose .remote a with notices := [] } : State) = askedClose .remote a by rw [← hcalm]; rfl]
      exact hgrant
  · refine ran_quiet (howner.trans (placeSafety_present ?_)) hcalm hpending
    rw [hdrive]
    rcases hset with hset | hset | hset | hset <;> rw [hset] <;> decide

end Sys2Proof.StationModes
end

section
/-! CROSS_ASK (R101, R103). -/

namespace Sys2Proof.StationModes
open Sys2Proof Sys2Proof.Machine Sys2Proof.FlightLink Sys2Proof.StartUp

/-- The tests of R103 with room in the queue, each answer placed. -/
theorem dealCrossAsk_room {s : State} (tag : Nat) (c : Crossing) (h : s.room 1 = true) :
    s.dealCrossAsk tag c =
      let answer := fun (k : Kind) (p : List Byte) => s.queued .lowerUnit k s.lowerAddr p
      if s.isMarked (s.k - 1) then answer .crossDeny [byte tag, byte 4]
      else if s.ctl.mode = .held then answer .crossDeny [byte tag, byte 3]
      else if c.key = s.chamber.key ∨ s.lowerUnit.below.crossing?.any (fun x => x.key = c.key) then
        answer .crossTaken [byte tag]
      else if s.lowerUnit.below = .empty then (answer .crossTaken [byte tag]).placeCrossing .lower true c
      else answer .crossDeny [byte tag, byte 1] := by
  unfold State.dealCrossAsk
  simp only [send_room _ _ _ _ h, CrossSlot.isEmpty_iff]
  rfl

/-- A crossing placed BELOW in the lower unit waits with the unit's latest mark, and the unit may begin it (R101). -/
theorem placeCrossing_below (c : Crossing) (s : State) : s.placeCrossing .lower true c
    = State.emit (.beginCrossing .lower) { s with lowerUnit := { s.lowerUnit with
        below := .waiting { c with mark := s.lowerUnit.nextMark }, nextMark := s.lowerUnit.nextMark + 1 } } := by
  unfold State.placeCrossing State.modUnit
  rfl

/-- A unit with an ACTIVE slot begins no crossing (R101). -/
theorem beginCrossing_busy {s : State} {u : UnitId} (h : (s.unit u).idle = false) : s.beginCrossing u = s := by
  unfold State.beginCrossing
  exact if_pos (by simp [h])

/-- An ACTIVE slot of a unit whose BELOW slot is EMPTY is its ABOVE slot, so that a crossing that waits BELOW leaves it so. -/
theorem idle_of_waiting_below {b : BoundaryUnit} (h : b.below = .empty) (c : Crossing) (n : Nat) :
    BoundaryUnit.idle { b with below := .waiting c, nextMark := n } = b.idle := by
  unfold BoundaryUnit.idle BoundaryUnit.active?
  rw [h]
  rfl

/-- Settles O35: the tests of R103 in their order; of a crossing placed behind an ACTIVE one nothing follows. -/
theorem crossAskAnswered : Obligations.CrossAskAnswered := by
  intro s src dst p h hr hm a tag key c b deny taken placed
  have hcalm : a.notices = [] := after_calm h
  have hpending : a.pending = s.pending := after_pending _ _ _
  have hunit : a.lowerUnit = s.lowerUnit := after_lowerUnit _ _ _
  have howner : s.receive .crossAsk src dst p State.onCrossAsk = a.dealCrossAsk tag { c with mark := 0 } := by
    refine (receive_accepted h _).trans ?_
    unfold State.onCrossAsk
    rw [wake_other _ (by rw [after_ctl]; exact hm)]
    rfl
  rw [dealCrossAsk_room _ _ (after_room .crossAsk src hr), after_marked, after_k, after_ctl, after_chamber, hunit,
    src_lower h rfl] at howner
  have answers : ∀ (k : Kind) (q : List Byte), k.plain = true →
      s.receive .crossAsk src dst p State.onCrossAsk = a.queued .lowerUnit k src q →
      exec (.crossAsk src dst p) s = .next (a.queued .lowerUnit k src q) :=
    fun k q hk he => ran_quiet he (queued_calm hcalm hk) (queued_pend hpending hk)
  dsimp only at howner
  split
  · next hmark => exact answers _ _ rfl (howner.trans (if_pos hmark))
  next hmark =>
  rw [if_neg hmark] at howner
  split
  · next hheld => exact answers _ _ rfl (howner.trans (if_pos hheld))
  next hheld =>
  rw [if_neg hheld] at howner
  split
  · next hkey => exact answers _ _ rfl (howner.trans (if_pos hkey))
  next hkey =>
  rw [if_neg hkey] at howner
  split
  · next hempty =>
    rw [if_pos hempty, placeCrossing_below, emit_eq] at howner
    have hlower : taken.lowerUnit = b := by
      show (State.queued _ _ _ _ a).lowerUnit = _
      rw [queued_eq _ _ _ _ _ rfl]; exact hunit
    have hnotices : taken.notices = [] := queued_calm hcalm
    have hplaced : s.receive .crossAsk src dst p State.onCrossAsk = { placed with notices := [.beginCrossing .lower] } := by
      rw [howner]
      show ({ taken with
        lowerUnit := { taken.lowerUnit with below := _, nextMark := _ }, notices := taken.notices ++ _ } : State) = _
      rw [hlower, hnotices]
      rfl
    split
    · exact congrArg (fun t => Host.Outcome.next (finish s t)) hplaced
    · next hidle =>
      refine ran_inert hplaced hnotices (by simp) (fun t ht => ?_) (queued_pend hpending)
      rw [List.mem_singleton.mp ht]
      refine beginCrossing_busy (u := .lower) ?_
      exact (idle_of_waiting_below hempty _ _).trans (Bool.eq_false_iff.mpr hidle)
  · next hempty => exact answers _ _ rfl (howner.trans (if_neg hempty))

end Sys2Proof.StationModes
end

section
/-! CLAIM_ASK (R48, R62, R65, R66, R75). -/

namespace Sys2Proof.StationModes
open Sys2Proof Sys2Proof.Machine Sys2Proof.FlightLink Sys2Proof.StartUp

/-- What R66 asks for a grant beyond the tests that come before it in R65. -/
theorem grantConditions_iff {s : State} {c : UpperClaim} (hk : s.isMarked (s.k + 1) = false) (hm : s.ctl.mode ≠ .held) :
    s.grantConditions c = true ↔ s.chamber.level.valid = true
      ∧ (c.purpose = .gateDown → s.chamber.occupancy = .empty ∧ s.store.canReserve c.key c.need = true) := by
  unfold State.grantConditions
  simp only [Bool.and_eq_true, Bool.or_eq_true, decide_eq_true_eq, hk, Bool.not_false, and_true]
  constructor
  · rintro ⟨⟨hl, -⟩, hp⟩
    exact ⟨hl, fun hd => hp.resolve_left (fun hne => hne hd)⟩
  · rintro ⟨hl, hp⟩
    exact ⟨⟨hl, hm⟩, (Decidable.em (c.purpose = .gateDown)).symm.imp id hp⟩

/-- The station as it denies a CLAIM_ASK (R65). -/
def claimDenied (c : UpperClaim) (reason : Nat) (s : State) : State :=
  s.queued .chamber .claimDeny s.upperAddr [byte c.tag, byte reason]

/-- The station as it makes a CLAIM_ASK wait (R65). -/
def claimAwaited (c : UpperClaim) (s : State) : State :=
  State.queued .chamber .claimWait s.upperAddr [byte c.tag] { s with chamber := { s.chamber with waiter := .upper c } }

/-- The station as it grants a claim of another purpose than GATE_DOWN (R66, R75). -/
def claimGranted (c : UpperClaim) (s : State) : State :=
  { s.queued .chamber .claimGive s.upperAddr (byte c.tag :: bytes16 s.chamber.level.value) with
    chamber := { s.chamber with holder := .upper c, lastFed := s.chamber.level.value, feedTimer := some (sec 1) } }

/-- The tests of R65 with room in the queue: a denial, a wait and a grant of another purpose than GATE_DOWN are placed. -/
theorem dealClaimAsk_room {s : State} (c : UpperClaim) (hr : s.room 1 = true) (ht : c.tag < 256) :
    s.dealClaimAsk c =
      if s.isMarked (s.k + 1) then claimDenied c 4 s
      else if s.chamber.holder.kind = .upper ∨ s.chamber.holder.kind = .orphaned ∨ s.chamber.waiter.kind = .upper then
        claimDenied c 1 s
      else if s.ctl.mode = .held then claimDenied c 3 s
      else if c.purpose = .gateDown ∧ 96 - s.store.closedPages < c.need then claimDenied c 2 s
      else if c.purpose = .gateUp ∧ ¬ (s.chamber.occupancy = .occupied ∧ s.chamber.key = c.key) then claimDenied c 1 s
      else if s.chamber.holder.kind = .free ∧ s.chamber.waiter.kind = .none ∧ s.chamber.level.valid = true
          ∧ (c.purpose = .gateDown → s.chamber.occupancy = .empty ∧ s.store.canReserve c.key c.need = true) then
        if c.purpose = .gateDown then s.grantUpper c else claimGranted c s
      else if s.chamber.waiter.kind = .none then claimAwaited c s
      else claimDenied c 1 s := by
  have hdeny : ∀ r, s.denyClaim c.tag r = claimDenied c r.code s := fun r => send_room _ _ _ _ hr
  have hwait : (s.setWaiter (.upper c)).send .chamber .claimWait s.upperAddr [byte c.tag] = claimAwaited c s :=
    send_room (s := s.setWaiter (.upper c)) _ _ _ _ hr
  unfold State.dealClaimAsk
  simp only [hdeny, hwait, Waiter.isUpper_iff]
  by_cases hmark : s.isMarked (s.k + 1) = true
  · rw [if_pos hmark, if_pos hmark]; rfl
  rw [if_neg hmark, if_neg hmark]
  by_cases hheld : s.ctl.mode = .held
  · rw [if_pos hheld, if_pos hheld]; rfl
  rw [if_neg hheld, if_neg hheld]
  have hcond : (s.chamber.holder.kind = .free ∧ s.chamber.waiter.kind = .none ∧ s.grantConditions c = true)
      ↔ s.chamber.holder.kind = .free ∧ s.chamber.waiter.kind = .none ∧ s.chamber.level.valid = true
        ∧ (c.purpose = .gateDown → s.chamber.occupancy = .empty ∧ s.store.canReserve c.key c.need = true) :=
    and_congr_right' (and_congr_right' (grantConditions_iff (Bool.eq_false_iff.mpr hmark) hheld))
  by_cases hgrant : s.chamber.holder.kind = .free ∧ s.chamber.waiter.kind = .none ∧ s.grantConditions c = true
  · rw [if_pos hgrant, if_pos (hcond.mp hgrant)]
    by_cases hdown : c.purpose = .gateDown
    · rw [if_pos hdown]; rfl
    · rw [if_neg hdown, grantUpper_up c s hdown hgrant.1 ht hr]; rfl
  · rw [if_neg hgrant, if_neg (fun h => hgrant (hcond.mpr h))]; rfl

/-- The owner of CLAIM_ASK wakes a RESTING station before it makes the tests (R48, R65). -/
theorem onClaimAsk_eq {s : State} {rx : Rx} {pu : Purpose} (hp : Purpose.ofCode? (byteAt rx.payload 1) = some pu) :
    s.onClaimAsk rx = (s.wake .claim).dealClaimAsk
      { tag := byteAt rx.payload 0, purpose := pu, key := keyAt rx.payload 3, need := byteAt rx.payload 2 } := by
  unfold State.onClaimAsk
  dsimp only
  rw [hp]
  rfl

/-- Settles O31: the tests of R65 in their order; a RESTING station wakes before it makes them. -/
theorem claimAnswered : Obligations.ClaimAnswered := by
  intro s src dst p pu h hpu a tag need key c deny level first held
  have hcalm : a.notices = [] := after_calm h
  have hpending : a.pending = s.pending := after_pending _ _ _
  have hctl : a.ctl = s.ctl := after_ctl _ _ _
  have hchamber : a.chamber = s.chamber := after_chamber _ _ _
  have hstore : a.store = s.store := after_store _ _ _
  have haddr : a.upperAddr = src := src_upper h rfl
  have howner : s.receive .claimAsk src dst p State.onClaimAsk = (a.wake .claim).dealClaimAsk c :=
    (receive_accepted h _).trans (onClaimAsk_eq hpu)
  refine ⟨fun hm hr => ?_, fun hm => ?_⟩
  · rw [wake_other _ (by rw [hctl]; exact hm), dealClaimAsk_room c (after_room .claimAsk src hr) (byteAt_lt p 0),
      after_marked, after_k, hctl, hchamber, hstore] at howner
    have denies : ∀ r, s.receive .claimAsk src dst p State.onClaimAsk = claimDenied c r a →
        exec (.claimAsk src dst p) s = deny r := fun r he => by
      unfold claimDenied at he
      rw [haddr] at he
      exact ran_quiet he (queued_calm hcalm) (queued_pend hpending)
    split
    · next hmark => exact denies 4 (howner.trans (if_pos hmark))
    next hmark =>
    rw [if_neg hmark] at howner
    split
    · next hclaim => exact denies 1 (howner.trans (if_pos hclaim))
    next hclaim =>
    rw [if_neg hclaim] at howner
    split
    · next hheld => exact denies 3 (howner.trans (if_pos hheld))
    next hheld =>
    rw [if_neg hheld] at howner
    split
    · next hspace => exact denies 2 (howner.trans (if_pos hspace))
    next hspace =>
    rw [if_neg hspace] at howner
    split
    · next hbatch => exact denies 1 (howner.trans (if_pos hbatch))
    next hbatch =>
    rw [if_neg hbatch] at howner
    split
    · next hgrant =>
      rw [if_pos hgrant] at howner
      split
      · next hdown =>
        rw [if_pos hdown, grantUpper_down c a hdown (by rw [hstore]; exact (hgrant.2.2.2 hdown).2), haddr, hchamber,
          show a.store.reserve c.key c.need = s.store.reserve c.key c.need by rw [hstore]] at howner
        exact congrArg (fun t => Host.Outcome.next (finish s t)) howner
      · next hdown =>
        rw [if_neg hdown] at howner
        unfold claimGranted at howner
        rw [haddr, hchamber] at howner
        refine ran_quiet howner ?_ ?_ <;> rw [queued_fed (Or.inl rfl)]
        · exact (feedSent_notices _ _).trans hcalm
        · exact (feedSent_pending _ _).trans hpending
    next hgrant =>
    rw [if_neg hgrant] at howner
    split
    · next hnone =>
      rw [if_pos hnone] at howner
      unfold claimAwaited at howner
      rw [haddr, hchamber] at howner
      exact ran_quiet howner (queued_calm hcalm) (queued_pend hpending)
    · next hnone => exact denies 1 (howner.trans (if_neg hnone))
  · rw [wake_resting _ (by rw [hctl]; exact hm), after_cfg, hctl] at howner
    exact congrArg (fun t => Host.Outcome.next (finish s t)) howner

end Sys2Proof.StationModes
end

section
/-! TOKEN_OFFER (R44, R141, R147). -/

namespace Sys2Proof.StationModes
open Sys2Proof Sys2Proof.Machine Sys2Proof.FlightLink Sys2Proof.StartUp

theorem epochOlder_iff (a b : BitVec 14) : epochOlder a b = true ↔ a ≠ b ∧ epochNewer a b = false := by
  unfold epochOlder
  rw [Bool.and_eq_true, decide_eq_true_eq, Bool.not_eq_true']

/-- The tests of R147 with room in the queue, each answer placed with the tag and the epoch of the offer. -/
theorem onTokenOffer_room {s : State} (rx : Rx) (h : s.room 1 = true) : s.onTokenOffer rx =
    let e := BitVec.ofNat 14 (be16 rx.payload 1)
    let reply := fun k => s.queued .approach k rx.src (byte (byteAt rx.payload 0) :: bytes16 (be16 rx.payload 1))
    if rx.src = s.ownAddr then reply .tokenDecline
    else if s.token.state = .held ∧ s.token.epoch = e ∧ s.ctl.stop = .stopClear then reply .tokenTake
    else if s.token.state = .held ∨ s.token.state = .offered then reply .tokenDecline
    else if e ≠ s.token.epoch ∧ epochNewer e s.token.epoch = false then reply .tokenDecline
    else if s.ctl.mode = .inService ∧ s.ctl.stop = .stopClear then (reply .tokenTake).takeToken e
    else reply .tokenDecline := by
  unfold State.onTokenOffer
  simp only [send_room _ _ _ _ h, epochOlder_iff]

/-- The token taken with an epoch, and what is made known of it (R147). -/
theorem takeToken_eq {s : State} (e : BitVec 14) (hn : s.notices = []) : s.takeToken e
    = { ({ s with token := { s.token with
          state := .held, epoch := e, turns := 0, inFlight := [], offer := none, recovery := .stopped } } : State) with
        notices := [.admissionTest] } := by
  unfold State.takeToken State.modToken
  rw [emit_eq]
  dsimp only
  rw [hn, List.nil_append]

/-- Settles O42: the tests of R147 in their order; where the token is taken the admission test finds no batch to let in. -/
theorem tokenOffered : Obligations.TokenOffered := by
  intro s src dst p h hr hshut a e reply
  have hcalm : a.notices = [] := after_calm h
  have hpending : a.pending = s.pending := after_pending _ _ _
  have hcalm' : ∀ k : Kind, k.plain = true → (reply k).notices = [] := fun k hk => queued_calm hcalm hk
  have hpending' : ∀ k : Kind, k.plain = true → (reply k).pending = s.pending := fun k hk => queued_pend hpending hk
  have howner := (receive_accepted h State.onTokenOffer).trans
    (onTokenOffer_room (s := a) (s.rxOf .tokenOffer src dst p) (after_room .tokenOffer src hr))
  rw [show a.ownAddr = s.ownAddr from after_ownAddr _ _ _, show a.token = s.token from after_token _ _ _,
    show a.ctl = s.ctl from after_ctl _ _ _] at howner
  have answers : ∀ k : Kind, k.plain = true → s.receive .tokenOffer src dst p State.onTokenOffer = reply k →
      exec (.tokenOffer src dst p) s = .next (reply k) := fun k hk he => ran_quiet he (hcalm' k hk) (hpending' k hk)
  split
  · next hown => exact answers _ rfl (howner.trans (if_pos hown))
  next hown =>
  replace howner := howner.trans (if_neg hown)
  split
  · next hrepeat => exact answers _ rfl (howner.trans (if_pos hrepeat))
  next hrepeat =>
  replace howner := howner.trans (if_neg hrepeat)
  split
  · next hheld => exact answers _ rfl (howner.trans (if_pos hheld))
  next hheld =>
  replace howner := howner.trans (if_neg hheld)
  split
  · next hage => exact answers _ rfl (howner.trans (if_pos hage))
  next hage =>
  replace howner := howner.trans (if_neg hage)
  split
  · next htake =>
    have htoken : (reply .tokenTake).token = s.token := by
      show (State.queued _ _ _ _ a).token = _
      rw [queued_eq _ .tokenTake _ _ _ rfl]
      exact after_token .tokenOffer src s
    have hshut' : (reply .tokenTake).shutToEntry = true := by
      show (State.queued _ _ _ _ a).shutToEntry = _
      rw [queued_eq _ .tokenTake _ _ _ rfl]
      exact (after_shut .tokenOffer src s).trans hshut
    have htaken := takeToken_eq (s := reply .tokenTake) e (hcalm' .tokenTake rfl)
    rw [htoken] at htaken
    refine ran_inert ((howner.trans (if_pos htake)).trans htaken) (hcalm' .tokenTake rfl) (by simp) (fun t ht => ?_) (hpending' .tokenTake rfl)
    rw [List.mem_singleton.mp ht]
    exact admissionTest_shut hshut'
  · next htake => exact answers _ rfl (howner.trans (if_neg htake))

end Sys2Proof.StationModes
end

section
/-! CLEAR (R53, R101, R114, R116, R127, R193, R194). -/

namespace Sys2Proof.StationModes
open Sys2Proof Sys2Proof.Machine Sys2Proof.FlightLink Sys2Proof.StartUp

/-! ### The owner of CLEAR (R193) -/

theorem onClear_broadcast {s : State} {rx : Rx} (h : rx.broadcast = true) : s.onClear rx = s := by
  unfold State.onClear
  exact if_pos h

theorem onClear_notHeld {s : State} {rx : Rx} (hb : rx.broadcast = false) (h : s.ctl.mode ≠ .held) :
    s.onClear rx = s.refuseRx .clear rx .notHeld := by
  unfold State.onClear
  rw [if_neg (by simp [hb])]
  split
  · next hm _ => exact absurd hm h
  · rfl

/-- The acts for a recorded cause, as the statement writes them (R193 step 1). -/
theorem clearActs_eq (c : Cause) (s : State) : s.clearActs c =
    if c = .claimOrphaned then s.clearOrphan else if c = .transferFail then s.newSeries else s := by
  cases c <;> rfl

/-- What a CLEAR goes on to with the record cleared (R193, R194). -/
def clearGoesOn (prior : Mode) (b : State) : State :=
  match b.fault.highest with
  | some x =>
    if x.level = .desk then (b.recordPending x prior).emit .alarmWaitTest
    else (b.setMode prior).emits [.takePending, .alarmWaitTest, .admissionTest]
  | none => (b.setMode prior).emits [.takePending, .alarmWaitTest, .admissionTest]

/-- The highest pending cause is one at DESK: it is recorded with the same prior mode. -/
theorem clearGoesOn_desk {b : State} {x : PendingCause} {prior : Mode} (hx : b.fault.highest = some x)
    (hd : x.level = .desk) : clearGoesOn prior b = (b.recordPending x prior).emit .alarmWaitTest := by
  unfold clearGoesOn
  rw [hx]
  exact if_pos hd

/-- Else the prior mode is restored, and the pending causes are taken. -/
theorem clearGoesOn_restores {b : State} {prior : Mode} (h : b.fault.highest.all (fun x => x.level ≠ .desk) = true) :
    clearGoesOn prior b = (b.setMode prior).emits [.takePending, .alarmWaitTest, .admissionTest] := by
  unfold clearGoesOn
  cases hx : b.fault.highest with
  | none => rfl
  | some x =>
    rw [hx] at h
    exact if_neg (by simpa using h)

theorem onClear_held {s : State} {rx : Rx} {r : FaultRecord} (hb : rx.broadcast = false) (hm : s.ctl.mode = .held)
    (hr : s.fault.record = some r) : s.onClear rx
      = clearGoesOn r.prior ((s.clearActs r.cause).modFault (fun f => { f with record := none })) := by
  unfold State.onClear
  rw [if_neg (by simp [hb]), hm, hr]
  rfl

theorem highest_none {f : FaultUnit} (h : f.pendingSet = []) : f.highest = none := by
  unfold FaultUnit.highest
  rw [List.findSome?_eq_none_iff]
  intro c _
  rw [h]
  rfl

/-! ### The prior mode restored -/

/-- The record emptied and the prior mode taken. -/
def restored (m : Mode) (s : State) : State :=
  { s with ctl := { s.ctl with mode := m }, fault := { s.fault with record := none } }

theorem modeTo_awake {m : Mode} (c : Control) (h : m ≠ .resting) : modeTo m c = { c with mode := m } := by
  unfold modeTo
  rw [if_neg h, if_neg h]

/-- What leaving HELD for a mode other than LOCAL makes known, where nothing has been kept back (R193). -/
theorem onModeChanged_leaveHeld {s : State} {m : Mode} (hs : s.ctl.mode = m) (hw : s.works = true) (hm : m ≠ .held)
    (hl : m ≠ .localMode) (hd : s.drive.restful = true) (hq : s.unitsQuiet = true) (hk : s.pins.key = .auto)
    (hwait : s.chamber.waiter = .none) (hn : s.notices = []) : s.onModeChanged .held m
      = { s with notices := s.units.map Notice.beginCrossing ++ [.onwardTest, .admissionTest] } := by
  unfold State.onModeChanged State.leaveHeld
  rw [if_neg (by simp [hw]), if_neg hm, if_pos rfl]
  dsimp only
  rw [localRestored_not_local (by rw [hs]; exact hl), decideGrant_restful hd, unfreezeUnits_quiet hq, localTest_auto hk,
    testWaiter_none hwait, emits_eq, hn, List.nil_append]

/-- The station in which HELD has kept nothing back: no motion held, the units quiet, nobody waiting, no batch to go on or to let
in, the key at AUTO. -/
structure NothingKept (s : State) : Prop where
  restful : s.drive.restful = true
  quiet : s.unitsQuiet = true
  waiter : s.chamber.waiter = .none
  batch : s.keepsBatch = true
  shut : s.shutToEntry = true
  key : s.pins.key = .auto

theorem NothingKept.act_beginCrossing {s : State} (h : NothingKept s) {t : Notice}
    (ht : t ∈ s.units.map Notice.beginCrossing) : State.act t s = s := by
  obtain ⟨u, -, rfl⟩ := List.mem_map.mp ht
  exact beginCrossing_quiet h.quiet u

/-- HELD is left for IN_SERVICE or WAKING by a CLEAR with nothing pending: the record and the mode alone change. -/
theorem ran_restored {f : State → State} {s a : State} {m : Mode} (hm : m = .inService ∨ m = .waking)
    (hf : f s = State.emits [.takePending, .alarmWaitTest, .admissionTest]
      (State.emit (.modeChanged .held m) (restored m a)))
    (hpend : a.fault.pendingSet = []) (h : NothingKept (restored m a)) (hn : a.notices = []) (hp : a.pending = s.pending) :
    ran f s = .next (restored m a) := by
  have hworks : (restored m a).works = true := by
    unfold State.works restored; rcases hm with rfl | rfl <;> rfl
  have hheld : m ≠ .held := by rcases hm with rfl | rfl <;> decide
  have hlocal : m ≠ .localMode := by rcases hm with rfl | rfl <;> decide
  have hact := onModeChanged_leaveHeld (s := restored m a) rfl hworks hheld hlocal h.restful h.quiet h.key h.waiter hn
  have hunits : (restored m a).units.length ≤ 2 := by unfold State.units; split <;> simp
  have hf' : f s = { restored m a with
      notices := .modeChanged .held m :: [.takePending, .alarmWaitTest, .admissionTest] } := by
    rw [hf, emits_eq, emit_eq, show (restored m a).notices = [] from hn]
    rfl
  refine ran_inert_more hf' hn (by simp; omega) hact (fun t ht => ?_) hp
  rcases List.mem_append.mp ht with ht | ht
  · rcases List.mem_append.mp ht with ht | ht
    · exact h.act_beginCrossing ht
    · rcases List.mem_pair.mp ht with rfl | rfl
      · exact onwardTest_keeps_batch h.batch
      · exact admissionTest_shut h.shut
  · simp only [List.mem_cons, List.not_mem_nil, or_false] at ht
    rcases ht with rfl | rfl | rfl
    · exact takePending_empty hpend
    · exact alarmWaitTest_quiet h.quiet
    · exact admissionTest_shut h.shut

theorem nothingKept_after {k : Kind} {src : Addr} {s : State} {m : Mode} (hd : s.drive.restful = true)
    (hq : s.unitsQuiet = true) (hw : s.chamber.waiter = .none) (hb : s.keepsBatch = true) (hs : s.shutToEntry = true)
    (hk : s.pins.key = .auto) : NothingKept (restored m (s.after k src)) := by
  unfold restored State.after State.noted
  split <;> exact ⟨hd, hq, hw, hb, hs, hk⟩

/-- Settles O50: the owner's cases; with nothing pending and nothing kept back by what leaving HELD makes known. -/
theorem clearTaken : Obligations.ClearTaken := by
  intro s dst p h a
  have hcalm : a.notices = [] := after_calm h
  have hpending : a.pending = s.pending := after_pending _ _ _
  have hctl : a.ctl = s.ctl := after_ctl _ _ _
  have hfault : a.fault = s.fault := after_fault _ _ _
  refine ⟨fun hb => ?_, fun hb hm hr => ?_, fun r hb hm hr => ?_⟩
  · exact ran_owner h (onClear_broadcast (decide_eq_true hb)) hcalm hpending
  · exact ran_refused h hb (onClear_notHeld (decide_eq_false hb) (by rw [after_ctl]; exact hm)) (by decide) hr rfl
  · intro acted b
    have hacted : a.clearActs r.cause = acted := clearActs_eq _ _
    have howner : s.receive .clear deskAddr dst p State.onClear = clearGoesOn r.prior b := by
      refine ((receive_accepted h _).trans (onClear_held (s := a) (decide_eq_false hb) (by rw [hctl]; exact hm)
        (by rw [hfault]; exact hr))).trans ?_
      rw [hacted]
      rfl
    refine ⟨fun x hx hdesk => ?_, fun hall => ?_, fun hpend hc1 hc2 hprior hd hq hw hbatch hshut hkey hclash hi => ?_⟩
    · exact congrArg (fun t => Host.Outcome.next (finish s t)) (howner.trans (clearGoesOn_desk hx hdesk))
    · exact congrArg (fun t => Host.Outcome.next (finish s t)) (howner.trans (clearGoesOn_restores hall))
    · have hacted' : acted = a := by
        show (if r.cause = .claimOrphaned then _ else _ : State) = a
        rw [if_neg hc1, if_neg hc2]
      have hb' : b = { a with fault := { a.fault with record := none } } := by
        show ({ acted with fault := { acted.fault with record := none } } : State) = _
        rw [hacted']
      have hpend' : a.fault.pendingSet = [] := by rw [hfault]; exact hpend
      let c : State := { a with fault := { a.fault with record := none } }
      have hnone : c.fault.highest = none := highest_none hpend'
      rw [hb', clearGoesOn_restores (b := c) (by rw [hnone]; rfl)] at howner
      have hawake : r.prior ≠ .resting := by rcases hprior with hp | hp <;> rw [hp] <;> decide
      have hne : r.prior ≠ s.ctl.mode := by rw [hm]; rcases hprior with hp | hp <;> rw [hp] <;> decide
      have hdue : State.intervalDue { c with ctl := modeTo r.prior c.ctl } = c.presence.interval :=
        (intervalDue_normal (s := c) hawake ((after_clash .clear deskAddr s).trans hclash)).trans
          ((after_interval .clear deskAddr s).trans hi).symm
      have hset := setMode_sameInterval (s := c) (m := r.prior) (by show r.prior ≠ a.ctl.mode; rw [hctl]; exact hne) hdue
      rw [modeTo_awake _ hawake, show c.ctl.mode = .held from (congrArg Control.mode hctl).trans hm] at hset
      have hrun := ran_restored (a := a) hprior (howner.trans (congrArg _ hset)) hpend'
        (nothingKept_after hd hq hw hbatch hshut hkey) hcalm hpending
      unfold restored at hrun
      rw [hctl, hfault] at hrun
      exact hrun

end Sys2Proof.StationModes
end

section
/-! The panel: the key, the selector and the element keys (R50 to R55). -/

namespace Sys2Proof.StationModes
open Sys2Proof Sys2Proof.Machine Sys2Proof.FlightLink Sys2Proof.StartUp

/-! ### Notices that each change the station -/

/-- A notice is acted on, and what its acting makes known comes before the rest. -/
theorem settle_act {b c : State} {t : Notice} {us : List Notice} (hb : b.notices = [])
    (h : State.act t b = { c with notices := us }) (ts : List Notice) (n : Nat) :
    State.settle (n + 1) { b with notices := t :: ts } = State.settle n { c with notices := us ++ ts } := by
  have hbb : { b with notices := [] } = b := by rw [← hb]
  rw [settle_cons, hbb, h]

/-- A notice on which a state does nothing is passed over. -/
theorem settle_pass {b : State} {t : Notice} (hb : b.notices = []) (h : State.act t b = b) (ts : List Notice) (n : Nat) :
    State.settle (n + 1) { b with notices := t :: ts } = State.settle n { b with notices := ts } :=
  settle_act (c := b) (us := []) hb (by rw [h, ← hb]) ts n

/-! ### The key (R50, R51, R55) -/

/-- The key at a position. -/
def keyed (q : KeyPos) (s : State) : State := { s with pins := { s.pins with key := q } }

theorem onKey_unread {s : State} {q : KeyPos} (h : q = s.pins.key ∨ s.works = false) : s.onKey q = keyed q s := by
  unfold State.onKey
  refine if_pos (h.imp id (fun hw => ?_))
  rw [show State.works { s with pins := { s.pins with key := q } } = s.works from rfl, hw]
  decide

/-- Acting on the key leaves the tables no notice changes. -/
theorem onKey_still (q : KeyPos) (s : State) : (s.onKey q).still = (keyed q s).still := by
  unfold State.onKey
  dsimp only
  split
  · rfl
  · cases q with
    | localPos => exact (keyToLocal_keeps (Keeps.refl (keyed .localPos s))).1
    | auto => exact (keyToAuto_keeps (Keeps.refl (keyed .auto s))).1

/-- The claim of local working on the own chamber (R51). -/
def localClaim : SelfClaim := { claimant := .lower, purpose := .localWork, key := 0 }

/-- Local working PENDING at the lower boundary (R50). -/
def localBegun (s : State) : State :=
  { s with ctl := { s.ctl with localState := .pending, localUnit := .lower, localPhase := .crossings } }

/-- Local working PENDING with the own chamber granted to it (R51, R64). -/
def localGranted (s : State) : State :=
  { s with ctl := { s.ctl with localState := .pending, localUnit := .lower, localPhase := .own },
           chamber := { s.chamber with holder := .self localClaim } }

/-- Local working at the lower boundary, the batch in the chamber noted (R51, R55). -/
def localBegins (s : State) : State :=
  { s with
    ctl := { s.ctl with mode := .localMode, localState := .working, localUnit := .lower, localPhase := .idle,
                        notedKey := if s.chamber.occupancy = .occupied then s.chamber.key else 0 },
    chamber := { s.chamber with holder := .self localClaim } }

/-- A station below which and above whose own boundary there is nothing to claim, at rest in IN_SERVICE. -/
structure LocalReady (s : State) : Prop where
  mode : s.ctl.mode = .inService
  lowest : s.hasLower = false
  inner : s.isHead = false
  holder : s.chamber.holder = .free
  waiter : s.chamber.waiter = .none
  quiet : s.unitsQuiet = true
  restful : s.drive.restful = true
  clash : s.presence.clash = false
  interval : s.presence.interval = .normal
  calm : s.notices = []

/-- With the key at LOCAL local working becomes PENDING, and the grant decision and its claims follow (R50). -/
theorem localTest_begins {s : State} (h : LocalReady s) (hk : s.pins.key = .localPos) (hl : s.ctl.localState = .auto) :
    s.localTest = { localBegun s with notices := [.grantDecision, .localClaims] } := by
  have hbound : s.localBoundary = .lower := by unfold State.localBoundary; rw [h.inner]; rfl
  have hquiet : (localBegun s).unitsQuiet = true := h.quiet
  unfold State.localTest
  rw [if_pos ⟨h.mode, hk, hl⟩]
  dsimp only
  rw [hbound]
  show State.emits _ (localBegun s).suspendClaims = _
  rw [suspendClaims_quiet hquiet, emits_eq, show (localBegun s).notices = [] from h.calm]
  rfl

/-- No crossing of the lower boundary holds a claim where the register is FREE and there is no chamber below (R51). -/
theorem noCrossingClaims_free {s : State} (h : LocalReady s) : s.noCrossingClaims = true := by
  unfold State.noCrossingClaims State.units State.crossHoldsAny State.crossHoldsOwn State.crossHoldsLower
    State.needsLower
  rw [h.inner, h.holder, h.lowest]
  rfl

/-- The own chamber is asked and granted at once (R51, R64). -/
theorem localClaims_granted {s : State} (h : LocalReady s) : (localBegun s).localClaims
    = { localGranted s with notices := [.ownClaim .lower .localWork .held] } := by
  have hclaims : (localBegun s).noCrossingClaims = true := noCrossingClaims_free (s := s) h
  have hholder : s.chamber.holder = .free := h.holder
  have hholds : ((localBegun s).setLocalPhase .own).holdsOwn .lower = false := by
    unfold State.holdsOwn State.setLocalPhase localBegun; rw [hholder]
  have hwaits : ((localBegun s).setLocalPhase .own).waitsOwn .lower = false := by
    unfold State.waitsOwn State.setLocalPhase localBegun; rw [h.waiter]
  have hfree : ((localBegun s).setLocalPhase .own).chamber.holder.kind = .free := by
    unfold State.setLocalPhase localBegun; rw [hholder]; rfl
  unfold State.localClaims
  rw [if_pos ⟨rfl, rfl, hclaims⟩]
  unfold State.askOwn
  show (if ((localBegun s).setLocalPhase .own).holdsOwn .lower || ((localBegun s).setLocalPhase .own).waitsOwn .lower
    then _ else _ : State) = _
  rw [hholds, hwaits, if_neg (by decide), if_pos hfree, emit_eq]
  show ({ localGranted s with notices := s.notices ++ _ } : State) = _
  rw [h.calm]
  rfl

/-- With the own chamber held local working begins: the mode becomes LOCAL (R51). -/
theorem localOwn_held {s : State} (h : LocalReady s) : (localGranted s).localOwn .held
    = { localBegins s with notices := [.modeChanged .inService .localMode] } := by
  have hneeds : (localGranted s).needsLower .lower = false := by
    unfold State.needsLower; rw [show (localGranted s).hasLower = s.hasLower from rfl, h.lowest]; rfl
  let w : State := { localGranted s with ctl := { (localGranted s).ctl with
    localState := .working, localPhase := .idle,
    notedKey := if s.chamber.occupancy = .occupied then s.chamber.key else 0 } }
  have hmode : w.ctl.mode = .inService := h.mode
  have hdue : State.intervalDue { w with ctl := modeTo .localMode w.ctl } = w.presence.interval :=
    (intervalDue_normal (s := w) (by simp [modeTo]) h.clash).trans h.interval.symm
  have hset := setMode_sameInterval (s := w) (m := .localMode) (by rw [hmode]; decide) hdue
  unfold State.localOwn
  rw [if_pos ⟨rfl, rfl⟩]
  show (if (localGranted s).needsLower .lower then _ else (localGranted s).localWorking : State) = _
  rw [hneeds, if_neg (by decide)]
  show w.setMode .localMode = _
  rw [hset, hmode, modeTo_awake _ (by decide), emit_eq, show w.notices = [] from h.calm]
  rfl

/-- Turning the key to LOCAL: every step of what it makes known, to the end (R50, R51). -/
theorem settle_keyToLocal {s : State} (h : LocalReady s) (n : Nat) :
    State.settle (n + 5) { localBegun s with notices := [.grantDecision, .localClaims] } = localBegins s := by
  have hbegun : (localBegun s).notices = [] := h.calm
  have hgranted : (localGranted s).notices = [] := h.calm
  have hbegins : (localBegins s).notices = [] := h.calm
  have hmode : State.act (.modeChanged .inService .localMode) (localBegins s)
      = { localBegins s with notices := [.admissionTest] } :=
    act_modeChanged_plain rfl (by decide) (by decide) (by decide) h.restful
      (localTest_mode (by simp [localBegins])) hbegins
  have hadmit : State.act .admissionTest (localBegins s) = localBegins s :=
    admissionTest_mode (by simp [localBegins])
  have hgrant : State.act .grantDecision (localBegun s) = localBegun s :=
    decideGrant_restful (s := localBegun s) h.restful
  have hclaims : State.act .localClaims (localBegun s)
      = { localGranted s with notices := [.ownClaim .lower .localWork .held] } := localClaims_granted h
  have hown : State.act (.ownClaim .lower .localWork .held) (localGranted s)
      = { localBegins s with notices := [.modeChanged .inService .localMode] } := localOwn_held h
  rw [settle_pass hbegun hgrant _ (n + 4), settle_act hbegun hclaims [] (n + 3), List.append_nil,
    settle_act hgranted hown [] (n + 2), List.append_nil,
    settle_act hbegins hmode [] (n + 1), List.append_nil, settle_pass hbegins hadmit [] n]
  exact (settle_nil _ rfl).trans (by rw [← hbegins])

theorem onKey_toLocal {s : State} (h : LocalReady s) (hk : s.pins.key = .auto) :
    s.onKey .localPos = (keyed .localPos s).localTest := by
  unfold State.onKey
  rw [if_neg (by
    rw [hk, show State.works { s with pins := { s.pins with key := .localPos } } = s.works from rfl]
    unfold State.works
    rw [h.mode]
    decide)]
  show (keyed .localPos s).keyToLocal = _
  unfold State.keyToLocal
  rw [show (keyed .localPos s).ctl.mode = .inService from h.mode]

/-! ### The element keys (R53) -/

theorem onElementKey_local {s : State} {e : Element} {t : Target} (hm : s.ctl.mode = .localMode)
    (hu : elementUnit e = s.ctl.localUnit) (hl : s.ctl.localState = .working) :
    s.onElementKey e t = s.requestMotion .panel e t := by
  unfold State.onElementKey
  exact if_pos ⟨hm, hu, Or.inl hl⟩

theorem onElementKey_elsewhere {s : State} {e : Element} {t : Target}
    (h : s.ctl.mode ≠ .localMode ∨ elementUnit e ≠ s.ctl.localUnit) : s.onElementKey e t = s := by
  unfold State.onElementKey
  exact if_neg (fun hc => h.elim (fun hm => hm hc.1) (fun hu => hu hc.2.1))

/-- A request that is not answered at once waits in its slot for a grant, the Drive Arbiter being at rest (R85). -/
theorem requestMotion_restful {s : State} (src : Source) {e : Element} {t : Target} (hd : s.drive.restful = true)
    (hn : s.notices = []) (he : s.element e ≠ restState t)
    (ho : t = .toOpen → s.element e ≠ .failed ∧ s.claimsHeld (elementUnit e) = true) :
    s.requestMotion src e t = { s.setSlot src (some ⟨e, t, .pending, 0⟩) with notices := [.grantDecision] } := by
  unfold State.requestMotion
  dsimp only
  rw [withdraw_restful hd, ite_self, restful_slot hd, if_neg (by simp), if_neg he, if_neg (fun hc => (ho hc.1).1 hc.2),
    if_neg (fun hc => hc.2 (ho hc.1).2), emit_eq, show (s.setSlot src _).notices = [] from hn]
  rfl

/-- PANEL is permitted in local working under STOP_CLEAR (R42). -/
theorem permits_panel {s : State} {t : Target} (hp : s.ctl.pumpReady = true) (hm : s.ctl.mode = .localMode)
    (hs : s.ctl.stop = .stopClear) (hl : s.ctl.localState = .working) : s.permits .panel t = true := by
  unfold State.permits
  rw [hp, hm, hs, hl]
  rfl

/-- A request that meets R88 is not barred at its grant. -/
theorem motionBar_none {s : State} {m : Motion}
    (h : m.target = .toOpen → s.element m.element ≠ .failed ∧ s.claimsHeld (elementUnit m.element) = true) :
    s.motionBar m = none := by
  cases ht : m.target with
  | toClosed => exact motionBar_toClosed ht
  | toOpen =>
    obtain ⟨hf, hc⟩ := h ht
    unfold State.motionBar
    rw [ht, if_neg (by decide), if_neg hf, if_pos hc]

/-- The grant of a motion that stands alone in its slot (R84, R89). -/
theorem decideGrant_asked {s : State} {src : Source} {e : Element} {t : Target} (hd : s.drive.restful = true)
    (hp : s.permits src t = true)
    (ho : t = .toOpen → s.element e ≠ .failed ∧ s.claimsHeld (elementUnit e) = true) :
    (s.setSlot src (some ⟨e, t, .pending, 0⟩)).decideGrant = { s with drive := { s.drive with
      elements := s.drive.elements.set (elementIdx e) (drivenState t),
      slots := s.drive.slots.set (sourceIdx src) (some {
        element := e, target := t, phase := .running, allowance := s.travelLimit e }) } } := by
  rw [decideGrant_one (s := s.setSlot src (some ⟨e, t, .pending, 0⟩)) (src := src)
    (fun x => slot_single (restful_slot hd) src x _) rfl (restful_stack (s := s) hd) hp (motionBar_none ho)]
  unfold State.grant State.setSlot State.setElement
  simp only [Vector.set_set]
  rfl

/-- Settles O53: the key by what its turn makes known, step by step; an element key by the request it makes and its grant. -/
theorem panelInputs : Obligations.PanelInputs := by
  intro s hn
  refine ⟨fun q => ran_quiet rfl hn rfl, fun q => ?_, fun q hq => ?_, ?_, ?_, fun e t h => ?_⟩
  · exact ran_still (onKey_still q s) rfl
  · exact ran_quiet (onKey_unread hq) hn rfl
  · intro hk hm hl hlow hhead hhold hwait hq hd hc hi
    have hready : LocalReady s := ⟨hm, hlow, hhead, hhold, hwait, hq, hd, hc, hi, hn⟩
    have hready' : LocalReady (keyed .localPos s) := ⟨hm, hlow, hhead, hhold, hwait, hq, hd, hc, hi, hn⟩
    exact ran_settle ((onKey_toLocal hready hk).trans (localTest_begins hready' rfl hl))
      (settle_keyToLocal hready' 4091) rfl rfl
  · intro e t hm hu hl hs hp hd he ho
    refine ran_one ((onElementKey_local hm hu hl).trans (requestMotion_restful .panel hd hn he ho)) ?_ hn rfl
    rw [show ({ s.setSlot .panel (some ⟨e, t, .pending, 0⟩) with notices := [] } : State)
      = s.setSlot .panel (some ⟨e, t, .pending, 0⟩) by rw [← hn]; rfl]
    exact decideGrant_asked hd (permits_panel hp hm hs hl) ho
  · exact ran_quiet (onElementKey_elsewhere h) hn rfl

end Sys2Proof.StationModes
end

section
/-! Level readings, silence of a line, and the loss timer (R48, R57 to R60, R75). -/

namespace Sys2Proof.StationModes
open Sys2Proof Sys2Proof.Machine Sys2Proof.FlightLink Sys2Proof.StartUp

/-! ### The limit test (R59, R60) -/

/-- The chamber with an alarm state. -/
def alarmed (a : AlarmState) (s : State) : State := { s with chamber := { s.chamber with alarm := a } }

/-- The limits are configured values. -/
theorem alarmOf_eq (s : State) (v : Nat) :
    s.alarmOf v = if s.cfg.overflow < v then .high else if v < s.cfg.floor then .low else .normal := rfl

/-- What an entry into HIGH or LOW shuts: the lower sluice, and at the head station the head sluice, where the others
ask station k+1 to close (R60). -/
def shutIn (s : State) : State :=
  let closed := (s.wake .alarm).placeSafety .lower
  if s.isHead = true then closed.placeSafety .head else closed.send .chamber .alarmClose (stationAddr (s.k + 1)) []

/-- Waking and closing leave who the station is. -/
theorem closed_loader (s : State) : ((s.wake .alarm).placeSafety .lower).loader = s.loader :=
  keeps_loader (placeSafety_keeps _ (wake_keeps _ (Keeps.refl s)))

theorem raiseAlarm_eq (v limit : Nat) (s : State) : s.raiseAlarm v limit
    = (shutIn s).emit (.raise .levelAlarm (BitVec.ofNat 32 v) (BitVec.ofNat 32 limit) .none) := by
  have hhead : ((s.wake .alarm).placeSafety .lower).isHead = s.isHead := by
    unfold State.isHead State.k State.n State.cfg; rw [closed_loader]
  have haddr : ((s.wake .alarm).placeSafety .lower).upperAddr = stationAddr (s.k + 1) := by
    unfold State.upperAddr State.k; rw [closed_loader]
  unfold State.raiseAlarm shutIn
  dsimp only
  rw [hhead, haddr]

/-- What the limit test makes of a new alarm state (R59). -/
def limitActs (v : Nat) (s : State) : AlarmState → State
  | .normal => s.emit .alarmWaitTest
  | .high => State.emits [.raise .levelAlarm (BitVec.ofNat 32 v) (BitVec.ofNat 32 s.cfg.overflow) .none, .alarmWaitTest]
      (shutIn s)
  | .low => State.emits [.raise .levelAlarm (BitVec.ofNat 32 v) (BitVec.ofNat 32 s.cfg.floor) .none, .alarmWaitTest]
      (shutIn s)

theorem emit_emit (t u : Notice) (s : State) : (s.emit t).emit u = s.emits [t, u] := by
  unfold State.emit State.emits
  simp

theorem limitTest_eq (v : Nat) (s : State) : s.limitTest v =
    if s.alarmOf v = s.chamber.alarm then s else limitActs v (alarmed (s.alarmOf v) s) (s.alarmOf v) := by
  unfold State.limitTest
  dsimp only
  split
  · rfl
  · cases s.alarmOf v with
    | normal => rfl
    | high => exact (congrArg _ (raiseAlarm_eq _ _ (alarmed .high s))).trans (emit_emit _ _ _)
    | low => exact (congrArg _ (raiseAlarm_eq _ _ (alarmed .low s))).trans (emit_emit _ _ _)

theorem shutIn_keeps {s₀ s : State} (h : Keeps s₀ s) : Keeps s₀ (shutIn s) := by
  have hclosed := placeSafety_keeps .lower (wake_keeps .alarm h)
  unfold shutIn
  dsimp only
  split
  · exact placeSafety_keeps _ hclosed
  · exact send_keeps _ _ _ _ hclosed

theorem limitActs_still (v : Nat) (s : State) (a : AlarmState) : (limitActs v s a).still = s.still := by
  cases a with
  | normal => rfl
  | high => exact (shutIn_keeps (Keeps.refl s)).1
  | low => exact (shutIn_keeps (Keeps.refl s)).1

/-- Of the tables no notice changes the limit test gives the alarm state alone. -/
theorem limitTest_still (v : Nat) (s : State) : (s.limitTest v).still = { s.still with alarm := s.alarmOf v } := by
  rw [limitTest_eq]
  split
  · next h => rw [h]; rfl
  · exact limitActs_still _ _ _

/-! ### A reading (R57 to R59, R75) -/

/-- The feed, or the test of the waiter, that follows a reading (R67, R75). -/
def feedAfter (wasValid : Bool) (s : State) : State :=
  if wasValid = true then s.feedOnReading else if s.chamber.holder.kind = .free then s.testWaiter else s.sendFeed

theorem feedAfter_keeps {s₀ s : State} (wasValid : Bool) (h : Keeps s₀ s) : Keeps s₀ (feedAfter wasValid s) := by
  unfold feedAfter
  split
  · exact feedOnReading_keeps h
  · split
    · exact testWaiter_keeps h
    · exact sendFeed_keeps h

/-- A level change is made known where the level was not VALID with that value. -/
def madeKnown (old : Level) (v : Nat) (s : State) : State :=
  if old.valid = true ∧ old.value = v then s else s.emit .levelsChanged

theorem madeKnown_still (old : Level) (v : Nat) (s : State) : (madeKnown old v s).still = s.still := by
  unfold madeKnown
  split <;> rfl

theorem reads_of {s : State} {line : LevelLine} (hw : s.works = true) (hr : s.readsLine line = true) :
    (s.works && s.readsLine line) = true := by rw [hw, hr]; rfl

theorem onReading_chamber {s : State} {v : BitVec 16} (hw : s.works = true) (hv : v.toNat ≤ 2000) :
    s.onReading .chamber v true = madeKnown s.chamber.level v.toNat (feedAfter s.chamber.level.valid
      ((s.setLevel .chamber (validLevel v.toNat)).limitTest v.toNat)) := by
  unfold State.onReading
  exact (if_pos (reads_of hw rfl)).trans (if_pos ⟨rfl, hv⟩)

theorem onReading_outer {s : State} {v : BitVec 16} (hw : s.works = true) (hr : s.readsLine .outer = true)
    (hv : v.toNat ≤ 2000) : s.onReading .outer v true
      = madeKnown s.chamber.outer v.toNat (s.setLevel .outer (validLevel v.toNat)) := by
  unfold State.onReading
  exact (if_pos (reads_of hw hr)).trans (if_pos ⟨rfl, hv⟩)

/-- A level that becomes, or stays, UNKNOWN; with a chamber level the feed stops (R57, R75). -/
def unknownLevel (line : LevelLine) (s : State) : State :=
  let t := s.setLevel line (s.levelOf line).toUnknown
  if (s.levelOf line).valid = true then t.stopFeed.emit .levelsChanged else t

theorem onReading_unknown {s : State} {line : LevelLine} {v : BitVec 16} {valid : Bool} (hw : s.works = true)
    (hr : s.readsLine line = true) (h : valid = false ∨ 2000 < v.toNat) :
    s.onReading line v valid = unknownLevel line s := by
  unfold State.onReading
  refine (if_pos (reads_of hw hr)).trans (if_neg (fun hc => ?_))
  rcases h with h | h
  · rw [h] at hc; exact absurd hc.1 (by decide)
  · omega

theorem levelStale_unknown {s : State} {line : LevelLine} (h : (s.levelOf line).valid = true) :
    s.levelStale line = unknownLevel line s := by
  unfold State.levelStale unknownLevel
  rw [if_pos h]
  exact (if_pos h).symm

theorem unknownLevel_still (line : LevelLine) (s : State) :
    (unknownLevel line s).still = (s.setLevel line (s.levelOf line).toUnknown).still := by
  unfold unknownLevel
  dsimp only
  split
  · exact (stopFeed_keeps (Keeps.refl _)).1
  · rfl

theorem onReading_unread {s : State} {line : LevelLine} {v : BitVec 16} {valid : Bool}
    (h : s.works = false ∨ s.readsLine line = false) : s.onReading line v valid = s := by
  unfold State.onReading
  exact if_neg (by rcases h with h | h <;> simp [h])

theorem levelLoss_runs {s : State} {line : LevelLine} (h : (s.levelOf line).lossTimer.isSome = true) :
    s.levelLoss line
      = State.emit (s.sensorRaise line) (s.setLevel line { s.levelOf line with lossTimer := none }) := by
  unfold State.levelLoss
  exact if_pos h

/-- Settles O54: each row by what its effect is; the still view of a reading by that of the limit test. -/
theorem levelReadings : Obligations.LevelReadings := by
  intro s put unknown read
  have hput : ∀ line x, put line x s.still = (s.setLevel line x).still := fun line x => (setLevel_still s line x).symm
  refine ⟨fun line v hw hr hv => ?_, fun line v valid hw hr h => ?_, fun v hn hw hv hvalid hvalue hfed halarm => ?_,
    fun v hw hv => ?_, fun line v valid hn h => ?_, fun line h => ?_, fun line h => ?_⟩
  · cases line with
    | chamber =>
      refine ran_still ?_ rfl
      rw [onReading_chamber hw hv, madeKnown_still, (feedAfter_keeps _ (Keeps.refl _)).1, limitTest_still]
      rfl
    | outer =>
      refine ran_still ?_ rfl
      rw [onReading_outer hw hr hv, madeKnown_still]
      rfl
  · refine ran_still ?_ (by cases line <;> rfl)
    rw [onReading_unknown hw hr h, unknownLevel_still, hput]
    rfl
  · refine ran_quiet ?_ hn rfl
    let x : State := s.setLevel .chamber (validLevel v.toNat)
    have htest : x.limitTest v.toNat = x := (limitTest_eq _ _).trans (if_pos halarm)
    have hfeed : feedAfter true x = x := by
      unfold feedAfter State.feedOnReading
      rw [if_pos rfl, if_neg]
      exact not_not_intro hfed.symm
    rw [onReading_chamber hw hv, hvalid]
    show madeKnown _ _ (feedAfter true (x.limitTest v.toNat)) = _
    rw [htest, hfeed]
    exact if_pos ⟨hvalid, hvalue⟩
  · intro alarm x closed shut raised tested fed
    refine congrArg (fun t => Host.Outcome.next (finish s t)) ((onReading_chamber hw hv).trans ?_)
    have htested : (s.setLevel .chamber (validLevel v.toNat)).limitTest v.toNat = tested := by
      rw [limitTest_eq]
      show (if alarm = s.chamber.alarm then _ else limitActs v.toNat x alarm : State)
        = if alarm = s.chamber.alarm then x else _
      split
      · next h =>
        show _ = ({ s with chamber := { s.chamber with level := read v.toNat, alarm := alarm } } : State)
        rw [h]; rfl
      · cases alarm <;> rfl
    rw [htested]
    rfl
  · exact ran_quiet (onReading_unread h) hn rfl
  · refine ran_still ?_ (by cases line <;> rfl)
    rw [levelStale_unknown h, unknownLevel_still, hput]
    rfl
  · have hloss := levelLoss_runs h
    refine ⟨_, rfl, ?_, congrArg (finish s) hloss⟩
    rw [finish_still, hloss, hput]
    cases line <;> rfl

end Sys2Proof.StationModes
end

section
/-! End switches, the travel allowance, the permission and the drive outputs (R42, R79 to R86). -/

namespace Sys2Proof.StationModes
open Sys2Proof Sys2Proof.Machine Sys2Proof.FlightLink Sys2Proof.StartUp

/-! ### A switch change (R80) -/

/-- The pins with the end switches of an element in a pattern. -/
def switched (e : Element) (sw : Switches) (s : State) : State :=
  { s with pins := { s.pins with switches := s.pins.switches.set (elementIdx e) sw } }

theorem switched_switchesOf (e : Element) (sw : Switches) (s : State) : (switched e sw s).switchesOf e = sw := by
  unfold State.switchesOf switched
  simp

theorem onSwitches_idle {s : State} {e : Element} {sw : Switches}
    (h : s.switchesOf e = sw ∨ s.works = false ∨ s.drives e = false) : s.onSwitches e sw = switched e sw s := by
  unfold State.onSwitches
  refine if_pos (h.imp Eq.symm (Or.imp (fun hw => ?_) (fun hd => ?_)))
  · simp [hw]
  · simp [hd]

/-- A switch change that is acted on: of a driven element by R81, of any other by R82. -/
theorem onSwitches_judged {s : State} {e : Element} {sw : Switches} (hw : s.works = true) (hd : s.drives e = true)
    (h : s.switchesOf e ≠ sw) : s.onSwitches e sw = match (switched e sw s).drivenBy e with
      | some (src, m) => (switched e sw s).judgeDriven src m
      | none => (switched e sw s).judgeAtRest e := by
  unfold State.onSwitches
  refine if_neg ?_
  rintro (hc | hc | hc)
  · exact h hc.symm
  · exact hc hw
  · exact hc hd

theorem onSwitches_driven {s : State} {e : Element} {sw : Switches} {src : Source} {m : Motion} (hw : s.works = true)
    (hd : s.drives e = true) (h : s.switchesOf e ≠ sw) (hm : s.drivenBy e = some (src, m)) :
    s.onSwitches e sw = (switched e sw s).judgeDriven src m := by
  rw [onSwitches_judged hw hd h, show (switched e sw s).drivenBy e = s.drivenBy e from rfl, hm]

theorem onSwitches_atRest {s : State} {e : Element} {sw : Switches} (hw : s.works = true)
    (hd : s.drives e = true) (h : s.switchesOf e ≠ sw) (hm : s.drivenBy e = none) :
    s.onSwitches e sw = (switched e sw s).judgeAtRest e := by
  rw [onSwitches_judged hw hd h, show (switched e sw s).drivenBy e = s.drivenBy e from rfl, hm]

/-- Judging a switch change leaves the tables no notice changes, its pin apart. -/
theorem onSwitches_still (e : Element) (sw : Switches) (s : State) :
    (s.onSwitches e sw).still = (switched e sw s).still := by
  unfold State.onSwitches
  dsimp only
  split
  · rfl
  · split
    · next src m hm =>
      obtain ⟨hslot, -, hphase⟩ := drivenBy_some hm
      exact (judgeDriven_keeps src m hslot hphase (Keeps.refl (switched e sw s))).1
    · next hnone => exact (judgeAtRest_keeps e hnone (Keeps.refl (switched e sw s))).1

/-! ### A driven element (R81) -/

theorem conflict_switched (e : Element) (c o : Bool) (s : State) :
    (switched e ⟨c, o⟩ s).conflict e = .raise .positionConflict (BitVec.ofNat 32 (elementCode e))
      (BitVec.ofNat 32 ((if c then 1 else 0) + (if o then 2 else 0))) (Bound.ofUnit (elementUnit e)) := by
  unfold State.conflict
  rw [switched_switchesOf]
  cases c <;> cases o <;> rfl

/-- A motion of another source than SAFETY ends (R86). -/
theorem endWith_told {src : Source} (h : src ≠ .safety) (m : Motion) (n : MotionNotice) (raised : List Notice)
    (s : State) : s.endWith src m n raised = ((s.clearSlot src).tell src m n).emits (raised ++ [.grantDecision]) := by
  unfold State.endWith State.retire
  rw [if_neg h]

/-- The switches show the target end of a motion, and it alone. -/
def showsEnd (c o : Bool) : Target → Prop
  | .toClosed => c = true ∧ o = false
  | .toOpen => c = false ∧ o = true

theorem atEnd_iff (c o : Bool) (t : Target) : atEnd ⟨c, o⟩ t = true ↔ showsEnd c o t := by
  cases t <;> cases c <;> cases o <;> simp [atEnd, showsEnd]

theorem showsEnd_one {c o : Bool} {t : Target} (h : showsEnd c o t) : (c && o) = false := by
  cases t <;> obtain ⟨rfl, rfl⟩ := h <;> rfl

theorem judgeDriven_conflict {s : State} {m : Motion} {c o : Bool} (src : Source) (hc : c = true) (ho : o = true) :
    (switched m.element ⟨c, o⟩ s).judgeDriven src m
      = ((switched m.element ⟨c, o⟩ s).setElement m.element .failed).endWith src m .failed
        [(switched m.element ⟨c, o⟩ s).conflict m.element] := by
  unfold State.judgeDriven
  rw [switched_switchesOf]
  exact if_pos (by simp [hc, ho])

theorem judgeDriven_shown {s : State} {m : Motion} {c o : Bool} (src : Source) (h : showsEnd c o m.target) :
    (switched m.element ⟨c, o⟩ s).judgeDriven src m
      = ((switched m.element ⟨c, o⟩ s).reachEnd m.element m.target).endMotion src m .complete := by
  unfold State.judgeDriven
  rw [switched_switchesOf]
  exact (if_neg (by simp [showsEnd_one h])).trans (if_pos ((atEnd_iff c o m.target).mpr h))

theorem judgeDriven_other {s : State} {m : Motion} {c o : Bool} (src : Source) (h₂ : ¬ (c = true ∧ o = true))
    (h : ¬ showsEnd c o m.target) :
    (switched m.element ⟨c, o⟩ s).judgeDriven src m = switched m.element ⟨c, o⟩ s := by
  unfold State.judgeDriven
  rw [switched_switchesOf]
  exact (if_neg (by simpa using h₂)).trans (if_neg (fun hc => h ((atEnd_iff c o m.target).mp hc)))

/-! ### An element at rest (R82) -/

theorem judgeAtRest_rested {s : State} {e : Element} {src : Source} {m : Motion}
    (h : s.restedMotion e = some (src, m)) :
    s.judgeAtRest e = (s.reachEnd e m.target).endMotion src m .complete := by
  unfold State.judgeAtRest
  rw [h]

theorem judgeAtRest_failed {s : State} {e : Element} {c o : Bool} (h : (switched e ⟨c, o⟩ s).restedMotion e = none)
    (hf : s.element e = .failed) : (switched e ⟨c, o⟩ s).judgeAtRest e
      = if c = true ∧ o = false then (switched e ⟨c, o⟩ s).reachClosed e else switched e ⟨c, o⟩ s := by
  unfold State.judgeAtRest
  rw [h, switched_switchesOf]
  refine (if_pos hf).trans (if_congr ?_ rfl rfl)
  exact atEnd_iff c o .toClosed

theorem judgeAtRest_fails {s : State} {e : Element} {sw : Switches} (h : (switched e sw s).restedMotion e = none)
    (hf : s.element e ≠ .failed) : (switched e sw s).judgeAtRest e =
      let y := State.emit ((switched e sw s).conflict e) (((switched e sw s).setElement e .failed).failMotions e)
      if s.hasMotion e then y.emit .grantDecision else y := by
  unfold State.judgeAtRest
  rw [h]
  exact if_neg hf

/-! ### The panel's motion alone, complete (R86) -/

/-- The state behind an opening of the panel that is complete, with no other motion. -/
def panelOpened (e : Element) (s : State) : State :=
  { switched e ⟨false, true⟩ s with
      drive := { s.drive with elements := s.drive.elements.set (elementIdx e) .opened
                              slots := Vector.replicate 4 none } }

theorem panelAlone_driven {s : State} {m : Motion} (h : s.drive.slots = #v[none, some m, none, none])
    (hp : m.phase = .running) : s.drivenBy m.element = some (.panel, m) := by
  unfold State.drivenBy allSources State.slot
  simp only [h]
  simp [sourceIdx, hp]

theorem panelAlone_complete {s : State} {m : Motion} (hn : s.notices = []) (ht : m.target = .toOpen)
    (h : s.drive.slots = #v[none, some m, none, none]) (hstack : s.drive.stack = []) :
    ((switched m.element ⟨false, true⟩ s).reachEnd m.element m.target).endMotion .panel m .complete
      = { panelOpened m.element s with
          notices := [.motion .panel m.element .toOpen .complete false, .grantDecision] } := by
  unfold State.endMotion
  rw [endWith_told (by decide), ht]
  unfold panelOpened
  simp [State.reachEnd, State.setElement, State.clearSlot, State.setSlot, State.setStack, State.tell, State.tellFree,
    unitOfSource?, State.emit, State.emits, switched, h, hstack, hn, sourceIdx, ht]
  rfl

theorem panelOpened_restful (e : Element) {s : State} (hstack : s.drive.stack = []) (hset : s.drive.safetySet = []) :
    (panelOpened e s).drive.restful = true := by
  unfold panelOpened Drive.restful
  simp [hstack, hset]

/-! ### The allowance (R84) -/

theorem allowanceOut_running {s : State} {src : Source} {m : Motion} (hr : s.runningSource = some src)
    (hs : s.slot src = some m) (hp : m.phase = .running) :
    s.allowanceOut = (s.setElement m.element .halted).endWith src m .timedOut
      [.raise .motionTimeout (BitVec.ofNat 32 (elementCode m.element)) (BitVec.ofNat 32 (targetCode m.target))
        (Bound.ofUnit (elementUnit m.element))] := by
  unfold State.allowanceOut
  rw [hr]
  dsimp only
  rw [hs]
  exact if_pos hp

theorem allowanceOut_none {s : State} (hr : s.runningSource = none) : s.allowanceOut = s := by
  unfold State.allowanceOut
  rw [hr]

/-! ### The permission and the outputs (R42, R79) -/

theorem permits_iff (s : State) (src : Source) (t : Target) : s.permits src t = true ↔ s.ctl.pumpReady = true
    ∧ (src = .safety ∧ (s.ctl.mode = .inService ∨ s.ctl.mode = .localMode ∨ s.ctl.mode = .held)
      ∨ (src = .seqHead ∨ src = .seqLower) ∧ s.ctl.mode = .inService ∧ s.ctl.stop = .stopClear
      ∨ src = .panel ∧ s.ctl.mode = .localMode ∧ s.ctl.stop = .stopClear
        ∧ (s.ctl.localState = .working ∨ s.ctl.localState = .closing ∧ t = .toClosed)) := by
  unfold State.permits
  rw [Bool.and_eq_true]
  refine and_congr_right (fun _ => ?_)
  cases s.ctl.mode <;> cases src <;> simp

theorem pumpOutput_iff (s : State) : s.pumpOutput = true ↔
    s.ctl.mode = .waking ∨ s.ctl.mode = .inService ∨ s.ctl.mode = .localMode ∨ s.ctl.mode = .held := by
  unfold State.pumpOutput
  cases s.ctl.mode <;> simp

theorem openDrive_iff (s : State) (e : Element) :
    s.openDrive e = true ↔ s.pumpOutput = true ∧ s.element e = .opening := by
  unfold State.openDrive
  simp

theorem closeDrive_iff (s : State) (e : Element) :
    s.closeDrive e = true ↔ s.pumpOutput = true ∧ s.element e = .closing := by
  unfold State.closeDrive
  simp

/-- Settles O55: a switch change is judged by the motion that drives the element, by the motion that rests there, or by
the element's state; the permission and the outputs by their tables. -/
theorem switchesJudged : Obligations.SwitchesJudged := by
  intro s pinned
  refine ⟨fun e c o hn h => ?_, fun e c o => ?_, fun e c o hw hd hne => ?_,
    fun m hn hw hd hne hp ht hslots hstack hset => ?_, fun src m hsrc hr hs hp => ?_, fun hn hr => ?_, permits_iff s,
    pumpOutput_iff s, fun e => ⟨openDrive_iff s e, closeDrive_iff s e⟩⟩
  · exact ran_quiet (onSwitches_idle h) hn rfl
  · exact ran_still (onSwitches_still e ⟨c, o⟩ s) rfl
  · intro x answers shows conflict
    have hconflict : x.conflict e = conflict := conflict_switched e c o s
    have hshows : ∀ t, shows t ↔ showsEnd c o t := fun t => by cases t <;> rfl
    have answer : ∀ t, s.onSwitches e ⟨c, o⟩ = t → answers t := fun t h =>
      congrArg (fun t => Host.Outcome.next (finish s t)) h
    refine ⟨fun src m hm he => ?_, fun hm => ?_⟩
    · subst he
      have hjudged := onSwitches_driven hw hd hne hm
      refine ⟨fun hc ho hsrc => answer _ (hjudged.trans ?_), fun hc ho hsrc => answer _ (hjudged.trans ?_),
        fun hs hsrc => answer _ (hjudged.trans ?_), fun hs hsrc => answer _ (hjudged.trans ?_),
        fun hco hs => answer _ (hjudged.trans ?_)⟩
      · rw [judgeDriven_conflict src hc ho, endWith_told hsrc, ← hconflict]
        rfl
      · rw [judgeDriven_conflict src hc ho, hsrc, ← hconflict]
        rfl
      · rw [judgeDriven_shown src ((hshows _).mp hs)]
        exact endWith_told hsrc _ _ _ _
      · rw [judgeDriven_shown src ((hshows _).mp hs), hsrc]
        rfl
      · exact judgeDriven_other src hco (fun h => hs ((hshows _).mpr h))
    · have hjudged := onSwitches_atRest hw hd hne hm
      refine ⟨fun src m hr => answer _ (hjudged.trans (judgeAtRest_rested hr)),
        fun hr hf => answer _ (hjudged.trans (judgeAtRest_failed hr hf)), fun hr hf => answer _ (hjudged.trans ?_)⟩
      rw [← hconflict]
      exact judgeAtRest_fails hr hf
  · have hjudged := onSwitches_driven hw hd hne (panelAlone_driven hslots hp)
    have hshown : showsEnd false true m.target := by rw [ht]; exact ⟨rfl, rfl⟩
    rw [judgeDriven_shown .panel hshown, panelAlone_complete hn ht hslots hstack] at hjudged
    refine ran_inert hjudged hn (by simp) (fun t ht => ?_) rfl
    rcases List.mem_pair.mp ht with rfl | rfl
    · rfl
    · exact decideGrant_restful (panelOpened_restful m.element hstack hset)
  · refine congrArg (fun t => Host.Outcome.next (finish s t)) ((allowanceOut_running hr hs hp).trans ?_)
    exact endWith_told hsrc _ _ _ _
  · exact ran_quiet (allowanceOut_none hr) hn rfl

end Sys2Proof.StationModes
end

section
/-! A raise: its level, its mark and recovery, and its place in the record or the pending set (R184 to R194). -/

namespace Sys2Proof.StationModes
open Sys2Proof Sys2Proof.Machine Sys2Proof.FlightLink Sys2Proof.StartUp

/-! ### Level, mark and recovery (R185 to R187) -/

theorem escalates_eq (s : State) (c : Cause) (p : Option Place) : s.escalates c p
    = p.any (fun p => s.fault.marks.any (fun m => decide (m.cause = c) && decide (m.place = p))) := by
  cases p <;> rfl

theorem raiseLevel_eq (s : State) (c : Cause) (p : Option Place) : s.raiseLevel c p =
    if s.escalates c p = true ∨ c.delegable = false ∨ s.delegation c 0 = false then .desk
      else if s.delegation c 1 = true then .localLevel else .flight := by
  unfold State.raiseLevel State.bitLevel
  cases s.escalates c p <;> cases c.delegable <;> cases s.delegation c 0 <;> cases s.delegation c 1 <;> rfl

theorem escalates_desk {s : State} {c : Cause} {p : Option Place} (h : s.escalates c p = true) :
    s.raiseLevel c p = .desk := by
  rw [raiseLevel_eq]
  exact if_pos (Or.inl h)

/-- The repeat marks with the one of a raise (R186). -/
def marksWith (c : Cause) (p : Option Place) (ms : List RepeatMark) : List RepeatMark :=
  match p with
  | some p => ms.filter (fun m => m.cause ≠ c) ++ [⟨c, p⟩]
  | none => ms

theorem setMark_eq (c : Cause) (p : Option Place) (s : State) :
    s.setMark c p = { s with fault := { s.fault with marks := marksWith c p s.fault.marks } } := by
  cases p <;> rfl

/-- The state in which a raise below DESK is dealt with: the mark is set and the recovery begun. -/
def begun (c : Cause) (v1 : BitVec 32) (b : Bound) (p : Option Place) (s : State) : State :=
  (s.setMark c p).startRecovery c v1 b p

/-- What a mark and a recovery begun leave as they were. -/
theorem begun_keeps (c : Cause) (v1 : BitVec 32) (b : Bound) (p : Option Place) (s : State) :
    ∃ rs, (begun c v1 b p s).fault = { s.fault with marks := marksWith c p s.fault.marks, recoveries := rs }
      ∧ (begun c v1 b p s).ctl = s.ctl ∧ (begun c v1 b p s).link = s.link := by
  obtain ⟨rs, hview, -⟩ := startRecovery_faultView c v1 b p (s.setMark c p)
  rw [setMark_eq] at hview
  unfold begun
  rw [setMark_eq]
  exact ⟨rs, congrArg Prod.fst hview, congrArg (fun v => v.2.1) hview, congrArg (fun v => v.2.2.1) hview⟩

/-- The recoveries that begin with a raise (R187). -/
theorem begun_recoveries (c : Cause) (v1 : BitVec 32) (b : Bound) (p : Option Place) (s : State) :
    let others := s.fault.recoveries.filter (fun r => r.cause ≠ c)
    (∀ e, elementOfCode? v1.toNat = some e → (c = .positionConflict ∨ c = .motionTimeout) →
        (begun c v1 b p s).fault.recoveries = others ++ [⟨c, p, some e, 0⟩])
      ∧ (c = .peerLost → (begun c v1 b p s).fault.recoveries = others ++ [⟨c, p, none, v1.toNat⟩])
      ∧ (c = .transferFail → (begun c v1 b p s).fault.recoveries = others ++ [⟨c, p, none, 0⟩]) := by
  obtain ⟨rs, hview, helement, hpeer, htransfer⟩ := startRecovery_faultView c v1 b p (s.setMark c p)
  have hrs : (begun c v1 b p s).fault.recoveries = rs := congrArg (fun v => v.1.recoveries) hview
  rw [setMark_eq] at helement hpeer htransfer
  rw [hrs]
  exact ⟨fun e he hc => helement hc e he, hpeer, htransfer⟩

/-! ### How a raise is dealt with (R188) -/

/-- The record of a raise, its prior mode the one that stands. -/
def raised (c : Cause) (v1 v2 : BitVec 32) (b : Bound) (s : State) : FaultRecord :=
  { cause := c, level := s.raiseLevel c (s.placeOf c b), bound := b, value1 := v1, value2 := v2,
    step := (s.placeOf c b).bind Place.step, prior := s.ctl.mode, valuesLost := false }

theorem onRaise_desk {s : State} {c : Cause} {v1 v2 : BitVec 32} {b : Bound}
    (h : s.raiseLevel c (s.placeOf c b) = .desk) :
    s.onRaise c v1 v2 b = s.dealRaise (raised c v1 v2 b s) (s.escalates c (s.placeOf c b)) :=
  congrArg (State.dealRaise _ _) (if_pos h)

theorem onRaise_below {s : State} {c : Cause} {v1 v2 : BitVec 32} {b : Bound}
    (h : s.raiseLevel c (s.placeOf c b) ≠ .desk) : s.onRaise c v1 v2 b
      = (begun c v1 b (s.placeOf c b) s).dealRaise (raised c v1 v2 b s) (s.escalates c (s.placeOf c b)) :=
  congrArg (State.dealRaise _ _) (if_neg h)

/-- A raise is dealt with in a state whose record, pending causes and control are those before it. -/
theorem onRaise_dealt (s : State) (c : Cause) (v1 v2 : BitVec 32) (b : Bound) :
    ∃ y : State, s.onRaise c v1 v2 b = y.dealRaise (raised c v1 v2 b s) (s.escalates c (s.placeOf c b))
      ∧ y.fault.record = s.fault.record ∧ y.fault.pendingSet = s.fault.pendingSet ∧ y.ctl = s.ctl := by
  by_cases h : s.raiseLevel c (s.placeOf c b) = .desk
  · exact ⟨s, onRaise_desk h, rfl, rfl, rfl⟩
  · obtain ⟨rs, hfault, hctl, -⟩ := begun_keeps c v1 b (s.placeOf c b) s
    exact ⟨_, onRaise_below h, by rw [hfault], by rw [hfault], hctl⟩

theorem dealRaise_empty {s : State} {r : FaultRecord} {esc : Bool} (h : s.fault.record = none) :
    s.dealRaise r esc = s.recordFresh r := by
  unfold State.dealRaise
  rw [h]

/-- A raise of the recorded cause that has escalated from FLIGHT is raised in place. -/
theorem dealRaise_inPlace {s : State} {r old : FaultRecord} (h : s.fault.record = some old) (hc : old.cause = r.cause)
    (hl : old.level = .flight) : s.dealRaise r true = s.recordFresh r := by
  unfold State.dealRaise
  rw [h]
  exact (if_pos hc).trans (if_pos ⟨rfl, hl⟩)

theorem dealRaise_stands {s : State} {r old : FaultRecord} {esc : Bool} (h : s.fault.record = some old)
    (hc : old.cause = r.cause) (hesc : esc = false ∨ old.level ≠ .flight) : s.dealRaise r esc = s := by
  unfold State.dealRaise
  rw [h]
  refine (if_pos hc).trans (if_neg ?_)
  rintro ⟨he, hl⟩
  rcases hesc with hf | hf
  · rw [hf] at he; exact absurd he (by decide)
  · exact hf hl

theorem dealRaise_pending {s : State} {r old : FaultRecord} {esc : Bool} (h : s.fault.record = some old)
    (hc : old.cause ≠ r.cause) : s.dealRaise r esc
      = { s with fault := { s.fault with pendingSet := addPending r.cause r.level s.fault.pendingSet } } := by
  unfold State.dealRaise
  rw [h]
  exact if_neg hc

/-- A cause joins the pending set once, at the higher of its levels. -/
theorem addPending_eq (c : Cause) (l : FaultLevel) (set : List PendingCause) : addPending c l set =
    if set.any (fun x => x.cause = c) then
      set.map (fun x => if x.cause = c ∧ x.level.code < l.code then { x with level := l } else x)
    else set ++ [⟨c, l⟩] := by
  unfold addPending
  refine if_congr Iff.rfl (List.map_congr_left (fun x _ => ?_)) rfl
  rw [pending_higher_eq]
  by_cases hc : x.cause = c <;> by_cases hl : x.level.code < l.code <;> simp [hc, hl]

/-! ### A record made (R49, R188, R189, R194) -/

/-- The mode in which a cause is recorded: a DESK cause wakes a RESTING station (R49). -/
def recordMode (l : FaultLevel) (s : State) : Mode :=
  if s.ctl.mode = .resting ∧ l = .desk then .waking else s.ctl.mode

theorem recordMode_below {l : FaultLevel} (h : l ≠ .desk) (s : State) : recordMode l s = s.ctl.mode :=
  if_neg (fun hc => h hc.2)

theorem wakeForDesk_below {l : FaultLevel} (h : l ≠ .desk) (c : Cause) (s : State) : s.wakeForDesk c l = s := by
  unfold State.wakeForDesk
  exact if_neg h

theorem wakeForDesk_awake {s : State} (h : s.ctl.mode ≠ .resting) (c : Cause) (l : FaultLevel) :
    s.wakeForDesk c l = s := by
  unfold State.wakeForDesk
  rw [wake_other _ h, ite_self]

theorem recordFresh_eq (r : FaultRecord) (s : State) : s.recordFresh r
    = ((s.wakeForDesk r.cause r.level).record { r with prior := recordMode r.level s }).takePending := by
  unfold State.recordFresh
  dsimp only
  rw [(wakeForDesk_faultCore r.cause r.level s).2]
  rfl

/-- A DESK cause recorded stands; it loses its mark and its recovery, and makes the mode HELD, CONFIG_INVALID apart. -/
theorem recordFresh_desk {r : FaultRecord} (h : r.level = .desk) (s : State) :
    (s.recordFresh r).fault = { s.fault with
        record := some { r with prior := recordMode r.level s }
        marks := s.fault.marks.filter (fun m => m.cause ≠ r.cause)
        recoveries := s.fault.recoveries.filter (fun x => x.cause ≠ r.cause) }
      ∧ (s.recordFresh r).ctl.mode = if r.cause = .configInvalid then recordMode r.level s else .held := by
  obtain ⟨hwoken, hmode⟩ := wakeForDesk_faultCore r.cause r.level s
  obtain ⟨hfault, hheld⟩ := record_desk (r := { r with prior := recordMode r.level s }) h
    (s.wakeForDesk r.cause r.level)
  rw [hwoken] at hfault
  rw [hmode] at hheld
  rw [recordFresh_eq, takePending_recorded (congrArg FaultUnit.record hfault)]
  exact ⟨hfault, hheld⟩

theorem recordFresh_below {r : FaultRecord} (h : r.level ≠ .desk) (s : State) :
    s.recordFresh r = (s.record { r with prior := s.ctl.mode }).takePending := by
  rw [recordFresh_eq, wakeForDesk_below h, recordMode_below h]

/-- A LOCAL cause clears at once (R189). -/
theorem recordFresh_local {r : FaultRecord} (h : r.level = .localLevel) {s : State} (hp : s.fault.pendingSet = []) :
    (s.recordFresh r).fault = { s.fault with record := none } ∧ (s.recordFresh r).ctl.mode = s.ctl.mode := by
  obtain ⟨hfault, hmode⟩ := record_local (r := { r with prior := s.ctl.mode }) h s
  rw [recordFresh_below (by rw [h]; decide), takePending_empty ((congrArg FaultUnit.pendingSet hfault).trans hp)]
  exact ⟨hfault, hmode⟩

/-- A FLIGHT cause stands while its recovery is under way (R189). -/
theorem recordFresh_flight {r : FaultRecord} (h : r.level = .flight) {s : State} (hp : s.fault.pendingSet = []) :
    (s.recordFresh r).fault
        = { s.fault with record := if s.underWay r.cause then some { r with prior := s.ctl.mode } else none }
      ∧ (s.recordFresh r).ctl.mode = s.ctl.mode := by
  obtain ⟨hfault, hmode⟩ := record_flight (r := { r with prior := s.ctl.mode }) h s
  rw [recordFresh_below (by rw [h]; decide), takePending_empty ((congrArg FaultUnit.pendingSet hfault).trans hp)]
  exact ⟨hfault, hmode⟩

theorem highest_mem {f : FaultUnit} {x : PendingCause} (h : f.highest = some x) : x ∈ f.pendingSet := by
  unfold FaultUnit.highest at h
  obtain ⟨c, -, hc⟩ := List.exists_of_findSome?_eq_some h
  exact List.mem_of_find?_eq_some hc

/-- The record of a pending cause, its values lost (R194). -/
def pendingRecord (x : PendingCause) (prior : Mode) : FaultRecord :=
  { cause := x.cause, level := x.level, bound := .none, value1 := 0, value2 := 0, step := none, prior := prior,
    valuesLost := true }

theorem takeAll_recorded {s : State} {r : FaultRecord} (h : s.fault.record = some r) (n : Nat) : s.takeAll n = s := by
  cases n with
  | zero => rfl
  | succ n => unfold State.takeAll; rw [h]

/-- The state in which a pending cause is recorded: the station is woken where it must be, and the cause has left the
set. -/
def taken (x : PendingCause) (s : State) : State :=
  (s.wakeForDesk x.cause x.level).modFault
    (fun f => { f with pendingSet := f.pendingSet.filter (fun y => y.cause ≠ x.cause) })

theorem taken_fault (x : PendingCause) (s : State) : (taken x s).fault
    = { s.fault with pendingSet := s.fault.pendingSet.filter (fun y => y.cause ≠ x.cause) } := by
  unfold taken State.modFault
  rw [(wakeForDesk_faultCore x.cause x.level s).1]

theorem taken_mode (x : PendingCause) (s : State) : (taken x s).ctl.mode = recordMode x.level s :=
  (wakeForDesk_faultCore x.cause x.level s).2

theorem takeAll_first {s : State} {x : PendingCause} (hr : s.fault.record = none) (hx : s.fault.highest = some x)
    (n : Nat) :
    s.takeAll (n + 1) = State.takeAll n ((taken x s).record (pendingRecord x (recordMode x.level s))) := by
  conv_lhs => unfold State.takeAll
  rw [hr, hx, ← taken_mode x s]
  rfl

/-- With the record empty, a highest pending cause at DESK is taken, and it stands. -/
theorem takePending_desk {s : State} {x : PendingCause} (hr : s.fault.record = none) (hx : s.fault.highest = some x)
    (hl : x.level = .desk) :
    s.takePending.fault = { s.fault with
        record := some (pendingRecord x (recordMode x.level s))
        pendingSet := s.fault.pendingSet.filter (fun y => y.cause ≠ x.cause)
        marks := s.fault.marks.filter (fun m => m.cause ≠ x.cause)
        recoveries := s.fault.recoveries.filter (fun r => r.cause ≠ x.cause) }
      ∧ s.takePending.ctl.mode = if x.cause = .configInvalid then recordMode x.level s else .held := by
  obtain ⟨n, hn⟩ := Nat.exists_eq_succ_of_ne_zero (List.length_pos_of_mem (highest_mem hx)).ne'
  obtain ⟨hfault, hheld⟩ := record_desk (r := pendingRecord x (recordMode x.level s)) hl (taken x s)
  rw [taken_fault] at hfault
  rw [taken_mode] at hheld
  unfold State.takePending
  rw [hn, takeAll_first hr hx, takeAll_recorded (congrArg FaultUnit.record hfault)]
  exact ⟨hfault, hheld⟩

/-- A LOCAL cause clears, and a highest pending cause at DESK is recorded at once (R189, R194). -/
theorem recordFresh_local_desk {r : FaultRecord} (h : r.level = .localLevel) {s : State} {x : PendingCause}
    (hx : s.fault.highest = some x) (hl : x.level = .desk) : (s.recordFresh r).fault = { s.fault with
        record := some (pendingRecord x (recordMode x.level s))
        pendingSet := s.fault.pendingSet.filter (fun y => y.cause ≠ x.cause)
        marks := s.fault.marks.filter (fun m => m.cause ≠ x.cause)
        recoveries := s.fault.recoveries.filter (fun r => r.cause ≠ x.cause) }
      ∧ (s.recordFresh r).ctl.mode = if x.cause = .configInvalid then recordMode x.level s else .held := by
  obtain ⟨hfault, hmode⟩ := record_local (r := { r with prior := s.ctl.mode }) h s
  obtain ⟨htaken, hheld⟩ := takePending_desk (congrArg FaultUnit.record hfault)
    ((congrArg FaultUnit.highest hfault).trans hx) hl
  have hprior : recordMode x.level (s.record { r with prior := s.ctl.mode }) = recordMode x.level s := by
    unfold recordMode
    rw [hmode]
  rw [hfault, hprior] at htaken
  rw [hprior] at hheld
  rw [recordFresh_below (by rw [h]; decide)]
  exact ⟨htaken, hheld⟩

/-- A cause below DESK that is not raised in place leaves the marks and the recoveries, where no cause is pending beside
an empty record. -/
theorem dealRaise_below {s : State} {r : FaultRecord} (h : r.level ≠ .desk)
    (halone : s.fault.record = none → s.fault.pendingSet = []) :
    (s.dealRaise r false).fault.marks = s.fault.marks
      ∧ (s.dealRaise r false).fault.recoveries = s.fault.recoveries := by
  cases hr : s.fault.record with
  | none =>
    rw [dealRaise_empty hr]
    cases hl : r.level with
    | desk => exact absurd hl h
    | localLevel => rw [(recordFresh_local hl (halone hr)).1]; exact ⟨rfl, rfl⟩
    | flight => rw [(recordFresh_flight hl (halone hr)).1]; exact ⟨rfl, rfl⟩
  | some old =>
    by_cases hc : old.cause = r.cause
    · rw [dealRaise_stands hr hc (Or.inl rfl)]; exact ⟨rfl, rfl⟩
    · rw [dealRaise_pending hr hc]; exact ⟨rfl, rfl⟩

/-! ### The frames of a record (R190) -/

/-- The state with the FAULT_NOTE of a record queued, which a LINK_DEGRADED of a fault frame does not send. -/
def noted (r : FaultRecord) (s : State) : State :=
  if r.cause = .linkDegraded ∧ (r.value1 = BitVec.ofNat 32 Kind.faultNote.code
      ∨ r.value1 = BitVec.ofNat 32 Kind.faultClear.code) then s
  else s.queued .fault .faultNote broadcastAddr
    ([byte r.cause.code, byte (r.level.code * 64 + r.bound.code * 16 + bit r.valuesLost * 8)]
      ++ bytes32 r.value1.toNat ++ bytes32 r.value2.toNat)

theorem room_link {s y : State} (h : y.link = s.link) (n : Nat) : y.room n = s.room n := by
  unfold State.room
  rw [h]

theorem queued_link {s y : State} (h : y.link = s.link) (b : Block) {k : Kind} (hk : k.plain = true) (dst : Addr)
    (p : List Byte) : (y.queued b k dst p).link = (s.queued b k dst p).link := by
  rw [queued_eq _ _ _ _ _ hk, queued_eq _ _ _ _ _ hk, h]

theorem noted_link {s y : State} (h : y.link = s.link) (r : FaultRecord) : (noted r y).link = (noted r s).link := by
  unfold noted
  split
  · exact h
  · exact queued_link h _ (by decide) _ _

theorem room_one {s : State} (h : s.room 2 = true) : s.room 1 = true := by
  obtain ⟨hwaiting, hbacklog, hused⟩ := room_parts h
  exact room_of_parts hwaiting hbacklog (by omega)

/-- With room for one frame more than the note, the room for that frame is left. -/
theorem noted_room {s : State} (h : s.room 2 = true) (r : FaultRecord) : (noted r s).room 1 = true := by
  unfold noted
  split
  · exact room_one h
  · obtain ⟨l, hl, hroom, -⟩ := offer_only (n := 1) (o := frame .fault .faultNote broadcastAddr _) h rfl rfl
    rw [← hl] at hroom
    rw [← send_room _ _ _ _ (room_one h)]
    exact hroom

theorem sendNote_room {s : State} (h : s.room 1 = true) (r : FaultRecord) : s.sendNote r false = noted r s := by
  unfold State.sendNote noted
  split
  · rfl
  · exact send_room .fault .faultNote broadcastAddr _ h

/-- Setting the mode HELD leaves the queue where the interval stays NORMAL. -/
theorem setMode_held_link {s : State} (hc : s.presence.clash = false) (hi : s.presence.interval = .normal) :
    (s.setMode .held).link = s.link := by
  by_cases hm : Mode.held = s.ctl.mode
  · unfold State.setMode
    rw [if_pos hm]
  · have hdue : State.intervalDue { s with ctl := modeTo .held s.ctl } = s.presence.interval := by
      rw [hi]
      exact intervalDue_normal (by rw [modeTo_awake s.ctl (by decide)]; exact Mode.noConfusion) hc
    rw [setMode_sameInterval hm hdue]
    rfl

theorem record_desk_link {r : FaultRecord} (h : r.level = .desk) {s : State} (hr : s.room 1 = true)
    (hc : s.presence.clash = false) (hi : s.presence.interval = .normal) : (s.record r).link = (noted r s).link := by
  rw [record_desk_eq h]
  unfold State.actDesk
  generalize hy : State.endRecovery r.cause (State.clearMark r.cause (s.modFault _)) = y
  have hlink : y.link = s.link := by rw [← hy]; rfl
  have hpresence : y.presence = s.presence := by rw [← hy]; rfl
  have hnote := sendNote_faultCore r false y
  have hsent : (y.sendNote r false).presence = s.presence := (congrArg (fun v => v.2.2.1) hnote).trans hpresence
  have hnoted : (y.sendNote r false).link = (noted r s).link := by
    rw [sendNote_room ((room_link hlink 1).trans hr)]
    exact noted_link hlink r
  dsimp only
  split
  · exact hnoted
  · rw [setMode_held_link (by rw [hsent]; exact hc) (by rw [hsent]; exact hi)]
    exact hnoted

theorem recordFresh_desk_link {r : FaultRecord} (h : r.level = .desk) {s : State} (hm : s.ctl.mode ≠ .resting)
    (hr : s.room 1 = true) (hc : s.presence.clash = false) (hi : s.presence.interval = .normal) :
    (s.recordFresh r).link = (noted r s).link := by
  obtain ⟨hfault, -⟩ := record_desk (r := { r with prior := recordMode r.level s }) h s
  rw [recordFresh_eq, wakeForDesk_awake hm, takePending_recorded (congrArg FaultUnit.record hfault)]
  exact record_desk_link (r := { r with prior := recordMode r.level s }) h hr hc hi

/-- A FLIGHT cause recorded sends its note and, with no recovery under way, FAULT_CLEAR behind it. -/
theorem record_flight_link {r : FaultRecord} (h : r.level = .flight) {s : State} (hr : s.room 1 = true)
    (hclear : s.underWay r.cause = false → s.room 2 = true) : (s.record r).link =
      if s.underWay r.cause then (noted r s).link
      else ((noted r s).queued .fault .faultClear broadcastAddr [byte r.cause.code]).link := by
  unfold State.record
  rw [h]
  dsimp only
  generalize hy : s.modFault _ = y
  have hlink : y.link = s.link := by rw [← hy]; rfl
  have hrecoveries : y.fault.recoveries = s.fault.recoveries := by rw [← hy]; rfl
  have hnote : y.sendNote r false = noted r y := sendNote_room ((room_link hlink 1).trans hr) r
  have hunder : (y.sendNote r false).underWay r.cause = s.underWay r.cause := by
    unfold State.underWay
    rw [← hrecoveries]
    exact congrArg (fun v => v.1.recoveries.any (fun x => x.cause = r.cause)) (sendNote_faultCore r false y)
  rw [hunder, hnote]
  cases hu : s.underWay r.cause with
  | true => exact noted_link hlink r
  | false =>
    show ((noted r y).sendFaultClear r.cause).link = _
    unfold State.sendFaultClear
    rw [send_room _ _ _ _ (noted_room ((room_link hlink 2).trans (hclear hu)) r)]
    exact queued_link (noted_link hlink r) _ (by decide) _ _

theorem recordFresh_flight_link {r : FaultRecord} (h : r.level = .flight) {s : State} (hp : s.fault.pendingSet = [])
    (hr : s.room 1 = true) (hclear : s.underWay r.cause = false → s.room 2 = true) : (s.recordFresh r).link =
      if s.underWay r.cause then (noted r s).link
      else ((noted r s).queued .fault .faultClear broadcastAddr [byte r.cause.code]).link := by
  rw [recordFresh_below (by rw [h]; decide), takePending_empty ((congrArg FaultUnit.pendingSet
    (record_flight (r := { r with prior := s.ctl.mode }) h s).1).trans hp)]
  exact record_flight_link (r := { r with prior := s.ctl.mode }) h hr hclear

/-- The note of a raise, by its level. -/
theorem noted_raised {s : State} {c : Cause} {b : Bound} {l : FaultLevel} (h : s.raiseLevel c (s.placeOf c b) = l)
    (v1 v2 : BitVec 32) (y : State) : noted (raised c v1 v2 b s) y =
      if c = .linkDegraded ∧ (v1 = BitVec.ofNat 32 Kind.faultNote.code
        ∨ v1 = BitVec.ofNat 32 Kind.faultClear.code) then y
      else y.queued .fault .faultNote broadcastAddr
        ([byte c.code, byte (l.code * 64 + b.code * 16)] ++ bytes32 v1.toNat ++ bytes32 v2.toNat) := by
  subst h
  rfl

/-! ### What a raise leaves -/

section
variable {s : State} {c : Cause} {v1 v2 : BitVec 32} {b : Bound}

/-- The record that a raise makes, its prior mode the one in which it is recorded. -/
def raisedRecord (c : Cause) (v1 v2 : BitVec 32) (b : Bound) (s : State) : FaultRecord :=
  { raised c v1 v2 b s with prior := recordMode (raised c v1 v2 b s).level s }

theorem raisedRecord_below (h : (raised c v1 v2 b s).level ≠ .desk) :
    raisedRecord c v1 v2 b s = raised c v1 v2 b s := by
  unfold raisedRecord
  rw [recordMode_below h]
  rfl

theorem escalates_below (h : (raised c v1 v2 b s).level ≠ .desk) : s.escalates c (s.placeOf c b) = false :=
  Bool.eq_false_iff.mpr (fun he => h (escalates_desk he))

theorem raise_below_marks (h : (raised c v1 v2 b s).level ≠ .desk)
    (ha : s.fault.record = none → s.fault.pendingSet = []) :
    (s.onRaise c v1 v2 b).fault.marks = marksWith c (s.placeOf c b) s.fault.marks
      ∧ (s.onRaise c v1 v2 b).fault.recoveries = (begun c v1 b (s.placeOf c b) s).fault.recoveries := by
  obtain ⟨rs, hfault, -⟩ := begun_keeps c v1 b (s.placeOf c b) s
  rw [onRaise_below h, escalates_below h]
  obtain ⟨hmarks, hrecoveries⟩ := dealRaise_below (s := begun c v1 b (s.placeOf c b) s) h (by rw [hfault]; exact ha)
  exact ⟨hmarks.trans (congrArg FaultUnit.marks hfault), hrecoveries⟩

/-- Whether a recovery is under way is settled when a raise below DESK begins it. -/
theorem raise_below_underWay (hp : s.fault.pendingSet = []) (h : (raised c v1 v2 b s).level ≠ .desk) :
    (s.onRaise c v1 v2 b).underWay c = (begun c v1 b (s.placeOf c b) s).underWay c := by
  unfold State.underWay
  rw [(raise_below_marks h (fun _ => hp)).2]

theorem raise_empty_below (hr : s.fault.record = none) (h : (raised c v1 v2 b s).level ≠ .desk) :
    s.onRaise c v1 v2 b = (begun c v1 b (s.placeOf c b) s).recordFresh (raised c v1 v2 b s) := by
  obtain ⟨rs, hfault, -⟩ := begun_keeps c v1 b (s.placeOf c b) s
  rw [onRaise_below h, dealRaise_empty (by rw [hfault]; exact hr)]

/-- A DESK raise is recorded: in the empty record, or in place where it has escalated from FLIGHT. -/
theorem raise_recorded (h : (raised c v1 v2 b s).level = .desk)
    (hr : s.fault.record = none ∨ ∃ old, s.fault.record = some old ∧ old.cause = c
      ∧ s.escalates c (s.placeOf c b) = true ∧ old.level = .flight) :
    s.onRaise c v1 v2 b = s.recordFresh (raised c v1 v2 b s) := by
  rw [onRaise_desk h]
  rcases hr with hr | ⟨old, hr, hc, he, hl⟩
  · exact dealRaise_empty hr
  · rw [he]
    exact dealRaise_inPlace hr hc hl

/-- A DESK raise that is recorded: it stands, and makes the mode HELD (R189, R192). -/
theorem raise_recorded_desk (h : (raised c v1 v2 b s).level = .desk)
    (hr : s.fault.record = none ∨ ∃ old, s.fault.record = some old ∧ old.cause = c
      ∧ s.escalates c (s.placeOf c b) = true ∧ old.level = .flight) :
    (s.onRaise c v1 v2 b).fault = { s.fault with
        record := some (raisedRecord c v1 v2 b s)
        marks := s.fault.marks.filter (fun m => m.cause ≠ c)
        recoveries := s.fault.recoveries.filter (fun x => x.cause ≠ c) }
      ∧ (s.onRaise c v1 v2 b).ctl.mode
        = if c = .configInvalid then recordMode (raised c v1 v2 b s).level s else .held := by
  rw [raise_recorded h hr]
  exact recordFresh_desk h s

theorem raise_below (hr : s.fault.record = none) (hp : s.fault.pendingSet = [])
    (h : (raised c v1 v2 b s).level ≠ .desk) :
    (s.onRaise c v1 v2 b).fault.pendingSet = [] ∧ (s.onRaise c v1 v2 b).ctl.mode = s.ctl.mode
      ∧ (s.onRaise c v1 v2 b).fault.record
        = if (raised c v1 v2 b s).level = .flight ∧ (s.onRaise c v1 v2 b).underWay c = true
          then some (raised c v1 v2 b s) else none := by
  obtain ⟨rs, hfault, hctl, -⟩ := begun_keeps c v1 b (s.placeOf c b) s
  have hpending : (begun c v1 b (s.placeOf c b) s).fault.pendingSet = [] :=
    (congrArg FaultUnit.pendingSet hfault).trans hp
  rw [raise_below_underWay hp h, raise_empty_below hr h]
  cases hl : (raised c v1 v2 b s).level with
  | desk => exact absurd hl h
  | localLevel =>
    obtain ⟨hf, hm⟩ := recordFresh_local hl hpending
    rw [hf, hm, hctl]
    exact ⟨hpending, rfl, (if_neg (fun hc => FaultLevel.noConfusion hc.1)).symm⟩
  | flight =>
    obtain ⟨hf, hm⟩ := recordFresh_flight hl hpending
    rw [hf, hm, hctl]
    exact ⟨hpending, rfl, if_congr (by simp [raised]) rfl rfl⟩

theorem raise_local_desk {x : PendingCause} (hr : s.fault.record = none) (hx : s.fault.highest = some x)
    (h : (raised c v1 v2 b s).level = .localLevel) (hl : x.level = .desk) :
    (s.onRaise c v1 v2 b).fault.record = some (pendingRecord x (recordMode x.level s))
      ∧ (s.onRaise c v1 v2 b).fault.pendingSet = s.fault.pendingSet.filter (fun y => y.cause ≠ x.cause)
      ∧ (s.onRaise c v1 v2 b).fault.marks
        = (marksWith c (s.placeOf c b) s.fault.marks).filter (fun m => m.cause ≠ x.cause)
      ∧ (s.onRaise c v1 v2 b).ctl.mode = if x.cause = .configInvalid then recordMode x.level s else .held := by
  obtain ⟨rs, hfault, hctl, -⟩ := begun_keeps c v1 b (s.placeOf c b) s
  have hmode : recordMode x.level (begun c v1 b (s.placeOf c b) s) = recordMode x.level s := by
    unfold recordMode
    rw [hctl]
  obtain ⟨hf, hm⟩ := recordFresh_local_desk h (s := begun c v1 b (s.placeOf c b) s)
    (by rw [hfault]; exact hx) hl
  rw [hmode, hfault] at hf
  rw [hmode] at hm
  rw [raise_empty_below hr (by rw [h]; decide), hf]
  exact ⟨rfl, rfl, rfl, hm⟩

theorem raise_stands {old : FaultRecord} (hr : s.fault.record = some old) (hc : old.cause = c)
    (h : s.escalates c (s.placeOf c b) = false ∨ old.level ≠ .flight) :
    (s.onRaise c v1 v2 b).fault.record = some old ∧ (s.onRaise c v1 v2 b).fault.pendingSet = s.fault.pendingSet
      ∧ (s.onRaise c v1 v2 b).ctl.mode = s.ctl.mode := by
  obtain ⟨y, hy, hrecord, hpending, hctl⟩ := onRaise_dealt s c v1 v2 b
  rw [hy, dealRaise_stands (hrecord.trans hr) hc h, hrecord, hpending, hctl]
  exact ⟨hr, rfl, rfl⟩

theorem raise_pending {old : FaultRecord} (hr : s.fault.record = some old) (hc : old.cause ≠ c) :
    (s.onRaise c v1 v2 b).fault.record = some old ∧ (s.onRaise c v1 v2 b).ctl.mode = s.ctl.mode
      ∧ (s.onRaise c v1 v2 b).fault.pendingSet = addPending c (raised c v1 v2 b s).level s.fault.pendingSet := by
  obtain ⟨y, hy, hrecord, hpending, hctl⟩ := onRaise_dealt s c v1 v2 b
  rw [hy, dealRaise_pending (hrecord.trans hr) hc, hpending]
  exact ⟨hrecord.trans hr, congrArg Control.mode hctl, rfl⟩

/-- A raise at FLIGHT sends its note, and with no recovery under way FAULT_CLEAR behind it. -/
theorem raise_flight_link (h : (raised c v1 v2 b s).level = .flight) (hr : s.fault.record = none)
    (hp : s.fault.pendingSet = []) (hroom : s.room 1 = true)
    (hclear : (s.onRaise c v1 v2 b).underWay c = false → s.room 2 = true) : (s.onRaise c v1 v2 b).link =
      if (s.onRaise c v1 v2 b).underWay c then (noted (raised c v1 v2 b s) s).link
      else ((noted (raised c v1 v2 b s) s).queued .fault .faultClear broadcastAddr [byte c.code]).link := by
  have hbelow : (raised c v1 v2 b s).level ≠ .desk := by rw [h]; decide
  obtain ⟨rs, hfault, -, hlink⟩ := begun_keeps c v1 b (s.placeOf c b) s
  rw [raise_below_underWay hp hbelow] at hclear ⊢
  rw [raise_empty_below hr hbelow, recordFresh_flight_link h ((congrArg FaultUnit.pendingSet hfault).trans hp)
    ((room_link hlink 1).trans hroom) (fun hu => (room_link hlink 2).trans (hclear hu))]
  exact if_congr Iff.rfl (noted_link hlink _) (queued_link (noted_link hlink _) _ (by decide) _ _)

end

/-- Settles O60: a raise is dealt with behind its mark and its recovery where it is below DESK, and as it stands at
DESK; what it leaves is that of the record made, of the record that stands, or of the pending set. -/
theorem faultRaised : Obligations.FaultRaised := by
  intro s c v1 v2 b stands place bits again level marked others wakes prior new t underWay alone
  have hplace : place = s.placeOf c b := (placeOf_eq s c b).symm
  have hagain : again = s.escalates c place := (escalates_eq s c place).symm
  have hlevel : level = s.raiseLevel c place := by rw [raiseLevel_eq, ← hagain]; rfl
  have hmarked : marked = marksWith c place s.fault.marks := rfl
  have hprior : prior = recordMode level s := rfl
  have hnew : new = { raised c v1 v2 b s with level := level, step := place.bind Place.step, prior := prior } := rfl
  clear_value place again level marked prior new
  subst hplace hagain hlevel hmarked hprior hnew
  obtain ⟨helement, hpeer, htransfer⟩ := begun_recoveries c v1 b (s.placeOf c b) s
  refine ⟨fun hl ha => (raise_below_marks hl ha).1,
    fun hl ha e he hc => (raise_below_marks hl ha).2.trans (helement e he hc),
    fun hl ha hc => (raise_below_marks hl ha).2.trans (hpeer hc),
    fun hl ha hc => (raise_below_marks hl ha).2.trans (htransfer hc),
    fun hr hl => ?_, fun hr hp hl => ?_, fun x hr hx hl hxl => ?_, fun old hr hc ha hl => ?_,
    fun old hr hc hno => raise_stands hr hc hno, fun old hr hc => ?_,
    fun hroom => ⟨fun hl hm hclash hi hr => ?_, fun hl hr hp hu => ?_, fun hl hr hp hu hroom₂ => ?_⟩⟩
  · obtain ⟨hfault, hmode⟩ := raise_recorded_desk (v1 := v1) (v2 := v2) hl (Or.inl hr)
    have hfault : t.fault = _ := hfault
    rw [hfault]
    exact ⟨rfl, rfl, rfl, rfl, hmode⟩
  · obtain ⟨hpending, hmode, hrecord⟩ := raise_below (v1 := v1) (v2 := v2) hr hp hl
    refine ⟨hpending, hmode, hrecord.trans ?_⟩
    rw [← raisedRecord_below hl]
    rfl
  · obtain ⟨hrecord, hpending, hmarks, hmode⟩ := raise_local_desk (v1 := v1) (v2 := v2) hr hx hl hxl
    have hwoken : recordMode x.level s = if s.ctl.mode = .resting then Mode.waking else s.ctl.mode :=
      if_congr (and_iff_left hxl) rfl rfl
    rw [hwoken] at hrecord hmode
    refine ⟨hrecord.trans ?_, hpending, hmarks, hmode⟩
    unfold pendingRecord
    rw [hxl]
  · obtain ⟨hfault, hmode⟩ := raise_recorded_desk (v1 := v1) (v2 := v2) (escalates_desk ha)
      (Or.inr ⟨old, hr, hc, ha, hl⟩)
    have hfault : t.fault = _ := hfault
    rw [hfault]
    exact ⟨rfl, rfl, rfl, rfl, hmode⟩
  · obtain ⟨hrecord, hmode, hpending⟩ := raise_pending (v1 := v1) (v2 := v2) hr hc
    exact ⟨hrecord, hmode, hpending.trans (addPending_eq _ _ _)⟩
  · have hrec := raise_recorded (v1 := v1) (v2 := v2) hl hr
    have hlink := (congrArg State.link hrec).trans (recordFresh_desk_link hl hm hroom hclash hi)
    rw [noted_raised hl] at hlink
    exact hlink
  · have hlink := raise_flight_link (v1 := v1) (v2 := v2) hl hr hp hroom
      (fun hno => absurd (hno.symm.trans hu) (by decide))
    have hunder : (s.onRaise c v1 v2 b).underWay c = true := hu
    rw [hunder, if_pos rfl, noted_raised hl] at hlink
    exact hlink
  · have hlink := raise_flight_link (v1 := v1) (v2 := v2) hl hr hp hroom (fun _ => hroom₂)
    have hunder : (s.onRaise c v1 v2 b).underWay c = false := hu
    rw [hunder, if_neg (by decide), noted_raised hl] at hlink
    exact hlink

end Sys2Proof.StationModes
end

section
/-! CLAIM_DROP (R61, R62, R67, R68, R75). -/

namespace Sys2Proof.Chambers
open Sys2Proof Sys2Proof.Machine

/-! ### The register becomes FREE (R67, R75, R88) -/

/-- The claim register FREE and the 1 s to the next feed stopped. -/
def registerFree (s : State) : State := { s with chamber := { s.chamber with holder := .free, feedTimer := none } }

/-- With no motion held nothing ceases, and with nobody waiting nobody is granted: the feed stops and the units learn of it. -/
theorem holderFreed_eq {s x : State} (hd : s.drive.restful = true) (hx : (registerFree s).stopFeed = x)
    (hw : x.chamber.waiter = .none) : s.holderFreed = x.emits [.holderFree, .localClaims] := by
  have hceased : (registerFree s).claimsCeased = registerFree s := claimsCeased_restful hd
  show ((registerFree s).claimsCeased.stopFeed.testWaiter).emits _ = _
  rw [hceased, hx, testWaiter_none hw]

/-- A feed that alone waits for a place is taken back where it is no longer to be sent (R75, log entry 79). -/
theorem stopFeed_alone {s : State} {f : Offer} (ht : s.feedTag = none) (hb : f.block = .chamber) (hk : f.kind = .levelFeed)
    (hw : s.link.waiting = [f]) (hbk : s.link.backlog = []) (hr : s.link.requests = []) :
    s.stopFeed = { s with link := { s.link with waiting := [] }, chamber := { s.chamber with feedTimer := none } } := by
  have hwaits : s.link.hasWaiting .chamber .levelFeed = true := by
    unfold Link.hasWaiting Link.unplaced
    simp [hw, hb, hk]
  have hdrop : s.link.dropUnplaced .levelFeed = { s.link with waiting := [] } := by
    unfold Link.dropUnplaced
    rw [hw, hbk]
    simp [hk, hbk]
  let taken : State := { s with link := { s.link with waiting := [] }, chamber := { s.chamber with feedTimer := none } }
  have hfill : taken.fillQueue.serveAll = taken := by rw [fillQueue_none (s := taken) rfl hbk, serveAll_eq (s := taken) hr]
  unfold State.stopFeed
  rw [ht, hwaits, hdrop]
  exact hfill

/-- A register that becomes FREE prompts nothing in quiet units or outside PENDING. -/
theorem act_holderFreed {x : State} (hq : x.unitsQuiet = true) (hl : x.ctl.localState = .auto) :
    ∀ t ∈ [Notice.holderFree, .localClaims], State.act t x = x := by
  intro t ht
  rcases List.mem_pair.mp ht with rfl | rfl
  · exact onHolderFree_quiet hq
  · exact localClaims_not_pending (by rw [hl]; decide)

/-! ### What a drop comes to (R62, R68) -/

theorem releaseUpper_other {s : State} {c : UpperClaim} (hp : c.purpose ≠ .gateDown) (arrived : Bool) :
    s.releaseUpper c arrived = s.holderFreed := by
  unfold State.releaseUpper
  rw [if_neg hp]

theorem releaseUpper_arrived {s : State} {c : UpperClaim} (hp : c.purpose = .gateDown) :
    s.releaseUpper c true = ((s.setOccupancy .occupied c.key).emit (.handIn c.key s.upperAddr)).holderFreed := by
  unfold State.releaseUpper
  rw [if_pos hp]
  rfl

theorem releaseUpper_unused {s : State} {c : UpperClaim} (hp : c.purpose = .gateDown) :
    s.releaseUpper c false
      = ((s.setStore (s.store.returnReservation c.key)).setOccupancy .empty 0).holderFreed := by
  unfold State.releaseUpper
  rw [if_pos hp]
  rfl

/-- A drop with the holder's tag releases its claim; the batch has arrived where the drop says so and names it (R68). -/
theorem onClaimDrop_holder {s : State} {rx : Rx} {c : UpperClaim}
    (h : s.chamber.holder = .upper c ∨ s.chamber.holder = .orphaned c) (ht : c.tag = byteAt rx.payload 0) :
    s.onClaimDrop rx
      = s.releaseUpper c (decide (byteAt rx.payload 1 % 2 = 1 ∧ keyAt rx.payload 2 = c.key)) := by
  unfold State.onClaimDrop
  rw [field_0_1, Bool.decide_and]
  rcases h with h | h <;>
  · rw [h]
    exact if_pos ht

/-- A drop without the holder's tag is for the waiting ask. -/
theorem onClaimDrop_waiter {s : State} {rx : Rx} (h : s.chamber.holder.upperTag? ≠ some (byteAt rx.payload 0)) :
    (∀ w, s.chamber.waiter = .upper w → w.tag = byteAt rx.payload 0 → s.onClaimDrop rx = s.setWaiter .none)
      ∧ ((∀ w, s.chamber.waiter = .upper w → w.tag ≠ byteAt rx.payload 0) → s.onClaimDrop rx = s) := by
  have hdrop : s.onClaimDrop rx = match s.chamber.waiter with
      | .upper w => if w.tag = byteAt rx.payload 0 then s.setWaiter .none else s
      | _ => s := by
    unfold State.onClaimDrop
    cases hh : s.chamber.holder with
    | free => rfl
    | self c => rfl
    | upper c | orphaned c => exact if_neg (fun ht => h (by rw [hh, ← ht]; rfl))
  refine ⟨fun w hw ht => ?_, fun hno => ?_⟩
  · rw [hdrop, hw]
    exact if_pos ht
  · rw [hdrop]
    cases hw : s.chamber.waiter with
    | none | self c => rfl
    | upper w => exact if_neg (hno w hw)

/-- Settles O32: a drop with the holder's tag by the purpose of its claim, any other by the waiting ask. -/
theorem claimDropped : Obligations.ClaimDropped := by
  intro s src dst p h a tag freed
  have hcalm : a.notices = [] := after_calm h
  have hpending : a.pending = s.pending := after_pending _ _ _
  have hchamber : a.chamber = s.chamber := after_chamber _ _ _
  have hstore : a.store = s.store := after_store _ _ _
  have haddr : a.upperAddr = src := src_upper h rfl
  have howner : s.receive .claimDrop src dst p State.onClaimDrop = State.onClaimDrop (s.rxOf .claimDrop src dst p) a :=
    receive_accepted h _
  refine ⟨fun c hc ht => ?_, fun w hno hw ht => ?_, fun hno hw => ?_⟩
  · rw [onClaimDrop_holder (c := c) (by rw [hchamber]; exact hc) ht] at howner
    refine ⟨fun hp => ?_, fun hp hw hq hd hl => ?_, fun hp hbit hkey => ?_, fun hp hno => ?_⟩
    · rw [releaseUpper_other hp] at howner
      exact congrArg (fun t => Host.Outcome.next (finish s t)) howner
    · intro free
      have hfree : registerFree a = free := by unfold registerFree; rw [hchamber]
      have hrest : a.drive.restful = true := after_restful hd
      have hquiet : a.unitsQuiet = true := (after_units _ _ _).trans hq
      have hauto : a.ctl.localState = .auto := (congrArg Control.localState (after_ctl .claimDrop src s)).trans hl
      rw [releaseUpper_other hp] at howner
      refine ⟨fun hnone => ?_, fun f hb hk hone hbk hr => ?_⟩
      · rw [holderFreed_eq (x := free) hrest (by rw [hfree]; exact stopFeed_none hnone) hw, emits_eq,
          show free.notices = [] from hcalm] at howner
        exact ran_inert howner hcalm (by simp) (act_holderFreed hquiet hauto) hpending
      · have hstop : (registerFree a).stopFeed = { free with link := { a.link with waiting := [] } } := by
          rw [hfree]
          exact stopFeed_alone rfl hb hk hone hbk hr
        rw [holderFreed_eq hrest hstop hw, emits_eq, show free.notices = [] from hcalm] at howner
        exact ran_inert howner hcalm (by simp) (act_holderFreed hquiet hauto) hpending
    · have harrived : decide (byteAt p 1 % 2 = 1 ∧ keyAt p 2 = c.key) = true := decide_eq_true ⟨hbit, hkey⟩
      have hrelease := howner.trans (congrArg (a.releaseUpper c) harrived)
      rw [releaseUpper_arrived hp, haddr] at hrelease
      exact congrArg (fun t => Host.Outcome.next (finish s t)) hrelease
    · have hunused : decide (byteAt p 1 % 2 = 1 ∧ keyAt p 2 = c.key) = false := decide_eq_false hno
      have hrelease := howner.trans (congrArg (a.releaseUpper c) hunused)
      rw [releaseUpper_unused hp, hstore] at hrelease
      exact congrArg (fun t => Host.Outcome.next (finish s t)) hrelease
  all_goals
    obtain ⟨htakes, hleaves⟩ := onClaimDrop_waiter (s := a) (rx := s.rxOf .claimDrop src dst p) (by rw [hchamber]; exact hno)
    rw [hchamber] at htakes hleaves
  · refine ran_quiet ((howner.trans (htakes w hw ht)).trans ?_) hcalm hpending
    unfold State.setWaiter State.modChamber
    rw [hchamber]
  · exact ran_quiet (howner.trans (hleaves hw)) hcalm hpending

end Sys2Proof.Chambers
end

section
/-! LEVEL_FEED and the age of the fed level (R76, R107). -/

namespace Sys2Proof.Chambers
open Sys2Proof Sys2Proof.Machine

/-- The station with this level as the fed level. -/
def fedWith (f : FedLevel) (s : State) : State := { s with chamber := { s.chamber with fed := some f } }

/-- A feed under the tag of the HELD claim is the fed level now, and a change of it is made known. -/
theorem onLevelFeed_mine {s : State} {rx : Rx} {old : FedLevel} (hn : s.notices = []) (hst : s.chamber.lower.state = .held)
    (ht : s.chamber.lower.tag = byteAt rx.payload 0) (hf : s.chamber.fed = some old) :
    let fed := fedWith { value := be16 rx.payload 1, age := 0, fresh := true } s
    s.onLevelFeed rx = if old.fresh = true ∧ old.value = be16 rx.payload 1 then fed
      else { fed with notices := [.levelsChanged] } := by
  intro fed
  have hmade : fed.emit .levelsChanged = { fed with notices := [.levelsChanged] } := by
    rw [emit_eq, show fed.notices = [] from hn]
    rfl
  unfold State.onLevelFeed
  dsimp only
  rw [hf]
  dsimp only
  rw [if_pos ⟨hst, ht⟩, ← hmade]
  rfl

/-- Any other feed changes nothing. -/
theorem onLevelFeed_other {s : State} {rx : Rx} (h : s.chamber.lower.state ≠ .held
    ∨ s.chamber.lower.tag ≠ byteAt rx.payload 0 ∨ s.chamber.fed = none) : s.onLevelFeed rx = s := by
  unfold State.onLevelFeed
  cases hf : s.chamber.fed with
  | none => rfl
  | some old =>
    refine if_neg (fun hmine => ?_)
    rcases h with h | h | h
    · exact h hmine.1
    · exact h hmine.2
    · rw [hf] at h; cases h

/-- A FRESH fed level whose age has reached 3 s is STALE, which is made known. -/
theorem fedStale_fresh {s : State} {f : FedLevel} (hn : s.notices = []) (hf : s.chamber.fed = some f) (hx : f.fresh = true) :
    s.fedStale = { fedWith { f with fresh := false } s with notices := [.levelsChanged] } := by
  unfold State.fedStale
  rw [hf]
  dsimp only
  rw [if_pos hx, emit_eq]
  show ({ fedWith { f with fresh := false } s with notices := s.notices ++ [.levelsChanged] } : State) = _
  rw [hn]
  rfl

/-- Quiet units do nothing on a change of the levels. -/
theorem act_levelsChanged_quiet {x : State} (hq : x.unitsQuiet = true) :
    ∀ t ∈ [Notice.levelsChanged], State.act t x = x := by
  intro t ht
  rw [List.mem_singleton.mp ht]
  exact onLevelsChanged_quiet hq

/-- Settles O33: the feed by its tag and the level before it; quiet units do nothing on a change of the fed level. -/
theorem levelFeedTaken : Obligations.LevelFeedTaken := by
  intro s
  refine ⟨fun src dst p h => ?_, fun f hn hf hx => ?_⟩
  · intro a fed
    have hcalm : a.notices = [] := after_calm h
    have hpending : a.pending = s.pending := after_pending _ _ _
    have hchamber : a.chamber = s.chamber := after_chamber _ _ _
    have hfed : fedWith { value := be16 p 1, age := 0, fresh := true } a = fed := by unfold fedWith; rw [hchamber]
    have howner : s.receive .levelFeed src dst p State.onLevelFeed = State.onLevelFeed (s.rxOf .levelFeed src dst p) a :=
      receive_accepted h _
    have hmine : ∀ old, s.chamber.lower.state = .held → s.chamber.lower.tag = byteAt p 0 → s.chamber.fed = some old →
        s.receive .levelFeed src dst p State.onLevelFeed = if old.fresh = true ∧ old.value = be16 p 1 then fed
          else { fed with notices := [.levelsChanged] } := by
      intro old hst ht ho
      rw [← hfed]
      rw [← hchamber] at hst ht ho
      exact howner.trans (onLevelFeed_mine (s := a) hcalm hst ht ho)
    refine ⟨fun old hst ht ho => ?_, fun old hst ht ho hsame => ?_, fun hother => ?_⟩
    · exact congrArg (fun t => Host.Outcome.next (finish s t)) (hmine old hst ht ho)
    · by_cases hc : old.fresh = true ∧ old.value = be16 p 1
      · exact ran_quiet ((hmine old hst ht ho).trans (if_pos hc)) hcalm hpending
      · have hquiet : a.unitsQuiet = true := (after_units _ _ _).trans (hsame.resolve_right hc)
        exact ran_inert ((hmine old hst ht ho).trans (if_neg hc)) hcalm (by simp) (act_levelsChanged_quiet hquiet) hpending
    · exact ran_quiet (howner.trans (onLevelFeed_other (by rw [hchamber]; exact hother))) hcalm hpending
  · intro stale
    have hstale : s.fedStale = { stale with notices := [.levelsChanged] } := fedStale_fresh hn hf hx
    exact ⟨congrArg (fun t => Host.Outcome.next (finish s t)) hstale,
      fun hq => ran_inert hstale hn (by simp) (act_levelsChanged_quiet hq) rfl⟩

end Sys2Proof.Chambers
end

section
/-! XFER_ASK, XFER_BAD and XFER_END (R61, R159, R160). -/

namespace Sys2Proof.Chambers
open Sys2Proof Sys2Proof.Machine

/-! ### XFER_ASK -/

/-- The batch can be sent to this station: it is the chamber's, wholly RESIDENT or SENDING, and goes there next (R160). -/
def sendable (s : State) (key : BatchKey) (src : Addr) : Prop :=
  key = s.chamber.key
    ∧ (∀ r ∈ s.store.batch key, r.state = .resident ∨ r.state = .sending)
    ∧ (if keyFromHead key then src.toNat + 1 = s.k else src.toNat = s.k + 1)

theorem sendable_after (k : Kind) (src src' : Addr) (key : BatchKey) (s : State) :
    sendable (s.after k src) key src' ↔ sendable s key src' := by
  unfold sendable
  rw [after_chamber, after_store, after_k]

theorem onXferAsk_notHeld {s : State} {rx : Rx} (h : s.store.batch (keyAt rx.payload 1) = []) :
    s.onXferAsk rx = s.refuseRx .xferAsk rx .notHeld := by
  unfold State.onXferAsk
  dsimp only
  rw [h]
  rfl

/-- The test of R160 as `onXferAsk` makes it. -/
theorem not_sendable_iff (s : State) (key : BatchKey) (src : Addr) :
    (key ≠ s.chamber.key ∨ ¬ (s.store.batch key).all (fun r => r.state = .resident || r.state = .sending)
      ∨ ¬ s.isNextFor key src) ↔ ¬ sendable s key src := by
  rw [all_held_iff, isNextFor_iff]
  unfold sendable
  rw [not_and_or, not_and_or]

theorem onXferAsk_held {s : State} {rx : Rx} (h : s.store.batch (keyAt rx.payload 1) ≠ []) :
    (¬ sendable s (keyAt rx.payload 1) rx.src → s.onXferAsk rx = s.refuseRx .xferAsk rx .busy)
      ∧ (sendable s (keyAt rx.payload 1) rx.src →
        s.onXferAsk rx = s.acceptXfer (keyAt rx.payload 1) (byteAt rx.payload 2) rx.src) := by
  have hne : ¬ (s.store.batch (keyAt rx.payload 1)).isEmpty = true := fun he => h (List.isEmpty_iff.mp he)
  unfold State.onXferAsk
  dsimp only
  rw [if_neg hne]
  exact ⟨fun hno => if_pos ((not_sendable_iff _ _ _).mpr hno), fun hok => if_neg (fun hc => (not_sendable_iff _ _ _).mp hc hok)⟩

/-- The batch's records SENDING under its custody, an OCCUPIED chamber LEAVING (R61, R160). -/
def custodyTaken (key : BatchKey) (s : State) : State :=
  { s with
    store := { s.store.move key .resident .sending with custody := key },
    chamber := if s.chamber.occupancy = .occupied then { s.chamber with occupancy := .leaving } else s.chamber,
    notices := if s.chamber.occupancy = .occupied then [.occupancyChanged] else [] }

/-- The stream of the batch begun in place of the one before (R159). -/
def streamBegun (key : BatchKey) (attempt : Nat) (dst : Addr) (s : State) : State :=
  let b := s.abandonStream
  State.streamNext { b with
    link := { b.link with nextStream := b.link.nextStream + 1 },
    store := { b.store with stream := some {
      number := b.link.nextStream, key := key, dst := dst, attempt := attempt,
      segments := s.store.streamSegments key } } }

theorem acceptXfer_eq {s : State} {key : BatchKey} (hn : s.notices = []) (hk : key = s.chamber.key) (attempt : Nat)
    (dst : Addr) : s.acceptXfer key attempt dst
      = if s.store.stream.any (fun r => r.key = key && r.attempt = attempt) then custodyTaken key s
        else streamBegun key attempt dst (custodyTaken key s) := by
  have hcustody : (if s.chamber.occupancy = .occupied then
        State.setOccupancy .leaving key { s with store := { s.store.move key .resident .sending with custody := key } }
      else { s with store := { s.store.move key .resident .sending with custody := key } }) = custodyTaken key s := by
    unfold custodyTaken
    split
    · unfold State.setOccupancy
      dsimp only
      rw [if_neg (fun hc => hc hk), emit_eq, hk]
      dsimp only
      rw [hn]
      rfl
    · rw [← hn]
  unfold State.acceptXfer
  dsimp only
  rw [hcustody]
  unfold streamBegun
  rw [abandonStream_streamSegments]
  rfl

theorem custodyTaken_still (key : BatchKey) (s : State) : (custodyTaken key s).still = { s.still with custody := key } := by
  unfold custodyTaken State.still
  dsimp only
  split <;> rfl

theorem streamBegun_still (key : BatchKey) (attempt : Nat) (dst : Addr) (s : State) :
    (streamBegun key attempt dst s).still = s.still := by
  have hbegun := setStream_keeps (some
    { number := s.abandonStream.link.nextStream, key := key, dst := dst, attempt := attempt,
      segments := s.store.streamSegments key }) (takeStream_keeps (abandonStream_keeps (Keeps.refl s)))
  exact (streamNext_keeps hbegun).1

/-! ### XFER_BAD and XFER_END -/

theorem onXferBad_custody {s : State} {rx : Rx} (h0 : keyAt rx.payload 0 ≠ 0) (hc : keyAt rx.payload 0 = s.store.custody) :
    s.onXferBad rx = s.abandonStream := if_pos ⟨h0, hc⟩

theorem onXferBad_other {s : State} {rx : Rx} (h : ¬ (keyAt rx.payload 0 ≠ 0 ∧ keyAt rx.payload 0 = s.store.custody)) :
    s.onXferBad rx = s := if_neg h

/-- The batch handed over: its stream abandoned, its SENDING records freed, the custody key cleared (R160). -/
def custodyGone (key : BatchKey) (s : State) : State :=
  let freed := s.abandonStream.freeBatch key .sending
  { freed with store := { freed.store with custody := 0 } }

/-- A change of the Record Store leaves the chamber batch. -/
theorem setStore_chamberKey (st : Store) (s : State) : (s.setStore st).chamber.key = s.chamber.key := by
  obtain ⟨holds, low, timer, h⟩ := setStore_unsent st s
  exact congrArg (fun t => t.chamber.key) h

theorem custodyGone_chamberKey (key : BatchKey) (s : State) : (custodyGone key s).chamber.key = s.chamber.key := by
  have hleft : s.abandonStream.chamber.key = s.chamber.key := by rw [abandonStream_eq]
  exact (setStore_chamberKey _ _).trans hleft

theorem custodyGone_still (key : BatchKey) (s : State) : (custodyGone key s).still = { s.still with custody := 0 } := by
  have hfreed := (freeBatch_keeps key .sending (abandonStream_keeps (Keeps.refl s))).1
  exact congrArg (fun v => { v with custody := 0 }) hfreed

theorem onXferEnd_custody {s : State} {rx : Rx} (h0 : keyAt rx.payload 0 ≠ 0) (hc : keyAt rx.payload 0 = s.store.custody) :
    s.onXferEnd rx = if keyAt rx.payload 0 = s.chamber.key then (custodyGone (keyAt rx.payload 0) s).setOccupancy .empty 0
      else custodyGone (keyAt rx.payload 0) s := by
  rw [← custodyGone_chamberKey (keyAt rx.payload 0) s]
  exact if_pos ⟨h0, hc⟩

theorem onXferEnd_other {s : State} {rx : Rx} (h : keyAt rx.payload 0 = 0 ∨ keyAt rx.payload 0 ≠ s.store.custody) :
    s.onXferEnd rx = s := by
  refine if_neg (fun hc => ?_)
  rcases h with h | h
  · exact hc.1 h
  · exact h hc.2

/-- The station after a frame was handed over: what no notice changes stands as the owner left it. -/
theorem finish_owned {s x : State} {v : StillView} (hx : x.still = v) (hv : v.pending = s.pending) :
    (finish s x).still = v := by
  rw [finish_still, hx, ← hv]

/-- Settles O38: XFER_ASK by the tests of R160 in their order, XFER_BAD and XFER_END by whether they name the custody key. -/
theorem transferAsked : Obligations.TransferAsked := by
  intro s src dst p
  refine ⟨fun h => ?_, fun h => ?_, fun h => ?_⟩
  · intro a key ready moved refused
    have hcalm : a.notices = [] := after_calm h
    have hpending : a.pending = s.pending := after_pending _ _ _
    have hchamber : a.chamber = s.chamber := after_chamber _ _ _
    have hstore : a.store = s.store := after_store _ _ _
    have haddressed : dst ≠ broadcastAddr := by
      intro hd
      unfold State.accepts at h
      simp [hd, Kind.isRequest] at h
    have hready : ready ↔ sendable a key src := (sendable_after _ _ _ _ _).symm
    have hmoved : custodyTaken key a = moved := by
      unfold custodyTaken
      rw [hchamber, hstore]
    refine ⟨fun hnone hr => ?_, fun hsome hno hr => ?_, fun hsome hok => ?_⟩
    · rw [← hstore] at hnone
      exact ran_refused h haddressed (onXferAsk_notHeld (s := a) hnone) (by decide) hr rfl
    all_goals
      rw [← hstore] at hsome
      have hheld := onXferAsk_held (s := a) (rx := s.rxOf .xferAsk src dst p) hsome
    · exact ran_refused h haddressed (hheld.1 (fun hc => hno (hready.mpr hc))) (by decide) hr rfl
    · have haccept := (receive_accepted h State.onXferAsk).trans (hheld.2 (hready.mp hok))
      have hbegin := haccept.trans (acceptXfer_eq hcalm (hready.mp hok).1 (byteAt p 2) src)
      rw [hmoved, hstore] at hbegin
      refine ⟨finish s (if s.store.stream.any (fun r => r.key = key && r.attempt = byteAt p 2) then moved
        else streamBegun key (byteAt p 2) src moved), congrArg (fun t => Host.Outcome.next (finish s t)) hbegin, rfl,
        finish_owned (v := { a.still with custody := key }) ?_ hpending⟩
      have hstill : moved.still = { a.still with custody := key } := by rw [← hmoved]; exact custodyTaken_still key a
      split
      · exact hstill
      · exact (streamBegun_still _ _ _ _).trans hstill
  · have hstore : (s.after .xferBad src).store = s.store := after_store _ _ _
    have howner : s.receive .xferBad src dst p State.onXferBad
        = State.onXferBad (s.rxOf .xferBad src dst p) (s.after .xferBad src) := receive_accepted h _
    by_cases hc : keyAt p 0 ≠ 0 ∧ keyAt p 0 = s.store.custody
    · rw [if_pos hc]
      rw [← hstore] at hc
      have hbroken := howner.trans ((onXferBad_custody (s := s.after .xferBad src) hc.1 hc.2).trans (abandonStream_eq _))
      rw [hstore] at hbroken
      exact ran_quiet hbroken (after_calm h) (after_pending .xferBad src s)
    · rw [if_neg hc]
      rw [← hstore] at hc
      exact ran_quiet (howner.trans (onXferBad_other hc)) (after_calm h) (after_pending _ _ _)
  · intro a key freed done
    have hcalm : a.notices = [] := after_calm h
    have hpending : a.pending = s.pending := after_pending _ _ _
    have hchamber : a.chamber = s.chamber := after_chamber _ _ _
    have hstore : a.store = s.store := after_store _ _ _
    have howner : s.receive .xferEnd src dst p State.onXferEnd = State.onXferEnd (s.rxOf .xferEnd src dst p) a :=
      receive_accepted h _
    refine ⟨fun h0 hc => ?_, fun hno => ?_⟩
    · rw [← hstore] at hc
      have hended := howner.trans (onXferEnd_custody (s := a) h0 hc)
      rw [hchamber] at hended
      refine ⟨finish s (if key = s.chamber.key then done.setOccupancy .empty 0 else done),
        congrArg (fun t => Host.Outcome.next (finish s t)) hended, rfl,
        finish_owned (v := { a.still with custody := 0 }) ?_ hpending⟩
      have hstill : done.still = { a.still with custody := 0 } := custodyGone_still key a
      split
      · exact (setOccupancy_keeps _ _ (Keeps.refl _)).1.trans hstill
      · exact hstill
    · rw [← hstore] at hno
      exact ran_quiet (howner.trans (onXferEnd_other hno)) hcalm hpending

end Sys2Proof.Chambers
end

section
/-! The timers of the claims (R64, R72, R73, R75, R106). -/

namespace Sys2Proof.Chambers
open Sys2Proof Sys2Proof.Machine

/-- The claim wait limit takes the SELF waiter away, and its unit and the Fault Unit learn of it (R64). -/
theorem selfWaitExpiry_self {s : State} {c : SelfClaim} (hn : s.notices = []) (hw : s.chamber.waiter = .self c)
    (ht : s.chamber.selfTimer.isSome = true) : s.selfWaitExpiry = { s with
      chamber := { s.chamber with waiter := .none, selfTimer := none },
      notices := [.ownClaim c.claimant c.purpose .timedOut,
        .raise .claimTimeout (BitVec.ofNat 32 s.k) 0 (Bound.ofUnit c.claimant)] } := by
  obtain ⟨left, hleft⟩ := Option.isSome_iff_exists.mp ht
  unfold State.selfWaitExpiry
  rw [hw, hleft]
  dsimp only
  rw [emits_eq]
  unfold State.modChamber
  dsimp only
  rw [hn]
  rfl

/-- The claim wait limit gives the ask up, and its unit and the Fault Unit learn of it (R72). -/
theorem claimWaitExpiry_runs {s : State} (ht : s.chamber.lower.timer.isSome = true)
    (hst : s.chamber.lower.state = .asked ∨ s.chamber.lower.state = .waiting) :
    s.claimWaitExpiry = s.giveUpAsk.emits [.lowerClaim s.chamber.lower.purpose .timedOut,
      .raise .claimTimeout (BitVec.ofNat 32 (s.k - 1)) (BitVec.ofNat 32 s.chamber.lower.tag) .lower] :=
  if_pos ⟨ht, hst⟩

/-- With no request waiting, the end of a cancelled tag's 2 s takes it off the list alone (R73). -/
theorem cancelledTagExpiry_eq {s : State} (tag : Nat) (hr : s.link.requests = []) :
    s.cancelledTagExpiry tag = { s with chamber := { s.chamber with
      cancelled := s.chamber.cancelled.filter (fun t => !(t.tag = tag && t.left.isSome)) } } := by
  unfold State.cancelledTagExpiry
  split
  · exact serveAll_eq hr
  · next hnone =>
    have hsame : s.chamber.cancelled.filter (fun t => !(t.tag = tag && t.left.isSome)) = s.chamber.cancelled := by
      refine List.filter_eq_self.mpr (fun t ht => ?_)
      rw [Bool.not_eq_true']
      exact Bool.eq_false_iff.mpr (fun hc => hnone (List.any_eq_true.mpr ⟨t, ht, hc⟩))
    rw [hsame]

/-- A feed is sent under the tag of the claim that holds the register from above. -/
theorem feedTag_upperTag {s : State} {tag : Nat} (h : s.feedTag = some tag) : s.chamber.holder.upperTag? = some tag := by
  unfold State.feedTag at h
  cases hh : s.chamber.holder with
  | free | self c => rw [hh] at h; cases h
  | upper c | orphaned c =>
    rw [hh] at h
    dsimp only at h
    split at h
    · exact h
    · cases h

theorem sendFeed_none {s : State} (h : s.feedTag = none) : s.sendFeed = s := by
  unfold State.sendFeed
  rw [h]

/-- With none queued and no offer that waits, a feed is offered, and its level is the one last fed (R75). -/
theorem sendFeed_room {s : State} {tag : Nat} (h : s.feedTag = some tag)
    (hq : s.link.hasQueued .chamber .levelFeed = false) (hr : s.room 1 = true) :
    s.sendFeed = State.queued .chamber .levelFeed s.upperAddr (byte tag :: bytes16 s.chamber.level.value)
      { s with chamber := { s.chamber with lastFed := s.chamber.level.value } } := by
  have hw : s.link.hasWaiting .chamber .levelFeed = false := by
    obtain ⟨hwaiting, hbacklog, -⟩ := room_parts hr
    unfold Link.hasWaiting Link.unplaced
    rw [hwaiting, hbacklog]
    rfl
  unfold State.sendFeed
  rw [h]
  refine ((if_neg (Bool.eq_false_iff.mp hq)).trans (if_neg (Bool.eq_false_iff.mp hw))).trans ?_
  exact send_room (s := { s with chamber := _ }) _ _ _ _ hr

/-- A feed under the holder's tag changes the queue as any frame does, and starts the 1 s to the next (R75, log entry 10). -/
theorem queued_feed {s : State} {tag : Nat} (h : s.chamber.holder.upperTag? = some tag) (ht : tag < 256) (dst : Addr)
    (level : List Byte) : s.queued .chamber .levelFeed dst (byte tag :: level) = { s with
      link := Link.refreshHead (Link.insert
        ((frame .chamber .levelFeed dst (byte tag :: level)).toFrame s.link.nextId (byte tag :: level))
        { s.link with nextId := s.link.nextId + 1 }),
      chamber := { s.chamber with feedTimer := some (sec 1) } } := by
  rw [queued_fed (Or.inr rfl), byteAt_byte_cons _ _ ht]
  exact if_pos h

theorem feedTimerExpiry_runs {s : State} (h : s.chamber.feedTimer.isSome = true) :
    s.feedTimerExpiry = State.sendFeed { s with chamber := { s.chamber with feedTimer := none } } := if_pos h

/-- The feed timer's end with room in the queue: the level is fed, and the timer starts again. -/
theorem feedTimerExpiry_room {s : State} {tag : Nat} (hrun : s.chamber.feedTimer.isSome = true) (h : s.feedTag = some tag)
    (ht : tag < 256) (hq : s.link.hasQueued .chamber .levelFeed = false) (hr : s.room 1 = true) :
    s.feedTimerExpiry
      = { s.queued .chamber .levelFeed s.upperAddr (byte tag :: bytes16 s.chamber.level.value) with
          chamber := { s.chamber with feedTimer := some (sec 1), lastFed := s.chamber.level.value } } := by
  have htag := feedTag_upperTag h
  let ended : State := { s with chamber := { s.chamber with feedTimer := none } }
  let noted : State := { ended with chamber := { ended.chamber with lastFed := s.chamber.level.value } }
  rw [queued_feed htag ht]
  calc s.feedTimerExpiry
      = ended.sendFeed := feedTimerExpiry_runs hrun
    _ = noted.queued .chamber .levelFeed s.upperAddr (byte tag :: bytes16 s.chamber.level.value) :=
        sendFeed_room (s := ended) h hq hr
    _ = _ := queued_feed (s := noted) htag ht _ _

theorem claimRetry_runs {s : State} {u : UnitId} (h : (s.unit u).retryTimer.isSome = true) :
    s.claimRetry u = (s.modUnit u (fun b => { b with retryTimer := none })).claimOn u := if_pos h

/-- A unit that is not at its claims does not go on with them. -/
theorem claimOn_not {s : State} {u : UnitId} (h : (s.unit u).claims = false) : s.claimOn u = s := by
  unfold State.claimOn
  rw [h]
  rfl

/-- Settles O58: each timer by the equation of its end. -/
theorem claimTimers : Obligations.ClaimTimers := by
  intro s hn
  refine ⟨fun c hw ht => ?_, fun ht hst => ?_, fun tag hr => ?_, fun ht => ?_, fun u ht => ?_⟩
  · exact congrArg (fun t => Host.Outcome.next (finish s t)) (selfWaitExpiry_self hn hw ht)
  · exact congrArg (fun t => Host.Outcome.next (finish s t)) (claimWaitExpiry_runs ht hst)
  · exact ran_quiet (cancelledTagExpiry_eq tag hr) hn rfl
  · refine ⟨fun hnone => ?_, fun tag hf hlt hq hr => ?_⟩
    · exact ran_quiet ((feedTimerExpiry_runs ht).trans (sendFeed_none hnone)) hn rfl
    · refine ran_quiet (feedTimerExpiry_room ht hf hlt hq hr) ?_ ?_ <;> rw [queued_feed (feedTag_upperTag hf) hlt]
      exact hn
  · intro t
    have hretry := claimRetry_runs ht
    refine ⟨congrArg (fun t => Host.Outcome.next (finish s t)) hretry, fun hclaims => ?_⟩
    have hidle : (t.unit u).claims = false := by
      rw [unit_modUnit]
      exact hclaims
    exact ran_quiet (hretry.trans (claimOn_not hidle)) ((modUnit_notices _ _ _).trans hn) (modUnit_pending _ _ _)

end Sys2Proof.Chambers
end

section
/-! Which expiry is due: each block's list of expiries, read off as the timers that have run out (log entry 5). -/

namespace Sys2Proof.Clock
open Sys2Proof Sys2Proof.Machine

/-! ### One condition -/

theorem out_iff {t : Timer} : Timer.out t = true ↔ t = some 0 := decide_eq_true_iff

theorem resendDue_iff {f : TxFrame} :
    f.resendDue = true ↔ f.widenDue = false ∧ ∃ a, f.widenAge = some a ∧ ms 50 ≤ a := by
  unfold TxFrame.resendDue
  rw [Bool.and_eq_true, Bool.not_eq_true', Option.any_eq_true]
  simp only [decide_eq_true_eq]

theorem silent_iff {p : Peer} :
    p.silent = true ↔ p.presence = .present ∧ ∃ v, p.interval = some v ∧ 3 * v.span ≤ p.since := by
  unfold Peer.silent
  rw [Bool.and_eq_true, Option.any_eq_true]
  simp only [decide_eq_true_eq]

/-- The crossing's timers run while it is not frozen and the stop state is STOP_CLEAR (R115, R116). -/
theorem crossTimersRun_iff {s : State} {u : UnitId} :
    s.crossTimersRun u = true ↔ (s.unit u).frozen = false ∧ s.ctl.stop = .stopClear := by
  unfold State.crossTimersRun
  rw [Bool.and_eq_true, Bool.not_eq_true', decide_eq_true_eq]

theorem out_and_runs_iff {s : State} {u : UnitId} {t : Timer} : (Timer.out t && s.crossTimersRun u) = true
    ↔ t = some 0 ∧ (s.unit u).frozen = false ∧ s.ctl.stop = .stopClear := by
  rw [Bool.and_eq_true, out_iff, crossTimersRun_iff]

theorem fedStale_iff {fed : Option FedLevel} : fed.any (fun f => f.fresh && decide (sec 3 ≤ f.age)) = true
    ↔ ∃ f, fed = some f ∧ f.fresh = true ∧ sec 3 ≤ f.age := by
  rw [Option.any_eq_true]
  simp only [Bool.and_eq_true, decide_eq_true_eq]

theorem some_mem_cons_dueIf {l : List (Option Instr)} {p : Bool} {i c : Instr} :
    some c ∈ dueIf p i :: l ↔ (i = c ∧ p = true) ∨ some c ∈ l := by
  rw [List.mem_cons, some_dueIf, and_comm]

theorem some_mem_map_dueIf {α : Type} {l : List α} {p : α → Bool} {f : α → Instr} {c : Instr} :
    some c ∈ l.map (fun x => dueIf (p x) (f x)) ↔ ∃ x ∈ l, f x = c ∧ p x = true := by
  simp only [List.mem_map, dueIf_some, and_comm]

/-! ### The timers behind the expiry commands -/

/-- What has run out where an expiry command is due; no other command is. -/
def RanOut (s : State) : Instr → Prop
  | .backoffExpiry => s.link.backoff = some 0
  | .widenResendExpiry => ∃ f ∈ s.link.txq, f.widenDue = false ∧ ∃ a, f.widenAge = some a ∧ ms 50 ≤ a
  | .widenHoldExpiry dst => ∃ h ∈ s.link.holds, h.dst = dst ∧ h.left = 0
  | .widenSlotExpiry q => ∃ u a n, s.link.widenSlots[partyIdx q] = .pending u a n ∧ ms 100 ≤ a
  | .replyDeadlineExpiry tag => ∃ e ∈ s.link.entries, e.tag = tag ∧ e.deadline = some 0
  | .beaconTimerExpiry => s.presence.beaconTimer = some 0
  | .peerSilenceTimeout i => s.presence.peers[i].presence = .present
      ∧ ∃ v, s.presence.peers[i].interval = some v ∧ 3 * v.span ≤ s.presence.peers[i].since
  | .deskSilenceTimeout => s.presence.desk = .present ∧ sec 30 ≤ s.presence.deskSince
  | .clashCalmExpiry => s.presence.calmTimer = some 0
  | .wakeSettleExpiry => s.ctl.wakeTimer = some 0
  | .resumeSettleExpiry => s.ctl.resumeTimer = some 0
  | .levelStaleTimeout line => (s.levelOf line).staleTimer = some 0
  | .levelLossExpiry line => (s.levelOf line).lossTimer = some 0
  | .selfWaitExpiry => s.chamber.selfTimer = some 0
  | .claimWaitExpiry => s.chamber.lower.timer = some 0
  | .cancelledTagExpiry tag => ∃ c ∈ s.chamber.cancelled, c.tag = tag ∧ c.left = some 0
  | .levelFeedTimerExpiry => s.chamber.feedTimer = some 0
  | .fedLevelStale => ∃ f, s.chamber.fed = some f ∧ f.fresh = true ∧ sec 3 ≤ f.age
  | .travelAllowanceExpiry => ∃ src m, s.slot src = some m ∧ m.phase = .running ∧ m.allowance = 0
  | .onwardRetryExpiry => s.onward.retryTimer = some 0
  | .onwardRepeatExpiry => s.onward.repeatTimer = some 0
  | .claimRetryExpiry u => (s.unit u).retryTimer = some 0
  | .equalizeTimerExpiry u =>
      (s.unit u).equalizeTimer = some 0 ∧ (s.unit u).frozen = false ∧ s.ctl.stop = .stopClear
  | .entryTimeLimitExpiry u => (s.unit u).entryTimer = some 0 ∧ (s.unit u).frozen = false ∧ s.ctl.stop = .stopClear
  | .resolutionTimerExpiry r => ∃ e ∈ s.approach.queue, e.registration = r ∧ e.resolution = some 0
  | .holdEntryExpiry q => (s.holdOf q).left = some 0
  | .sweepTimerExpiry => s.token.sweepTimer = some 0
  | .recoveryTimerExpiry => s.token.recovery = .running 0
  | .gapTimerExpiry => s.store.gapTimer = some 0
  | .attemptWaitExpiry => s.store.attemptWait = some 0
  | .lowStoreRepeatExpiry => s.store.lowTimer = some 0
  | .minuteTimerExpiry => s.tariff.minuteTimer = some 0
  | .flasherToggle => s.flasherTimer = some 0
  | _ => False

/-! ### The list of all that is due -/

/-- What the drives and the onward request have due. -/
def dueOnward (s : State) : List (Option Instr) :=
  [dueIf s.allowanceUp .travelAllowanceExpiry, dueIf (Timer.out s.onward.retryTimer) .onwardRetryExpiry,
    dueIf (Timer.out s.onward.repeatTimer) .onwardRepeatExpiry]

/-- The list `State.due` takes its first command from. -/
def expiries (s : State) : List (Option Instr) :=
  s.dueLink ++ s.duePresence ++ s.dueChamber ++ dueOnward s ++ s.dueUnit .lower ++ s.dueUnit .head ++ s.dueRest

theorem due_eq (s : State) : s.due = (expiries s).findSome? id := rfl

theorem mem_expiries {s : State} {c : Instr} : some c ∈ expiries s
    ↔ some c ∈ s.dueLink ∨ some c ∈ s.duePresence ∨ some c ∈ s.dueChamber ∨ some c ∈ dueOnward s
      ∨ (∃ u, some c ∈ s.dueUnit u) ∨ some c ∈ s.dueRest := by
  have hunits : (∃ u, some c ∈ s.dueUnit u) ↔ some c ∈ s.dueUnit .lower ∨ some c ∈ s.dueUnit .head :=
    ⟨fun ⟨u, hu⟩ => by cases u with | lower => exact .inl hu | head => exact .inr hu,
      fun hu => hu.elim (⟨_, ·⟩) (⟨_, ·⟩)⟩
  simp only [expiries, List.mem_append, hunits, or_assoc]

/-! ### From the lists to the timers, and back -/

section
variable {s : State} {c : Instr}

theorem ranOut_of_dueLink (h : some c ∈ s.dueLink) : RanOut s c := by
  simp only [State.dueLink, List.mem_append, some_mem_cons_dueIf, some_mem_map_dueIf, List.not_mem_nil, or_false,
    decide_eq_true_eq, List.any_eq_true, out_iff, resendDue_iff, lapsed_iff, or_assoc] at h
  rcases h with ⟨rfl, hout⟩ | ⟨rfl, hframe⟩ | ⟨hold, hmem, rfl, hleft⟩ | ⟨party, -, rfl, hslot⟩
    | ⟨entry, hmem, rfl, hout⟩
  · exact hout
  · exact hframe
  · exact ⟨hold, hmem, rfl, hleft⟩
  · exact hslot
  · exact ⟨entry, hmem, rfl, hout⟩

theorem ranOut_of_duePresence (h : some c ∈ s.duePresence) : RanOut s c := by
  simp only [State.duePresence, List.mem_append, some_mem_cons_dueIf, some_mem_map_dueIf, List.not_mem_nil, or_false,
    Bool.and_eq_true, decide_eq_true_eq, out_iff, silent_iff, or_assoc] at h
  rcases h with ⟨rfl, hout⟩ | ⟨station, -, rfl, hout⟩ | ⟨rfl, hout⟩ | ⟨rfl, hout⟩ | ⟨rfl, hout⟩ | ⟨rfl, hout⟩
  all_goals exact hout

theorem ranOut_of_dueChamber (h : some c ∈ s.dueChamber) : RanOut s c := by
  simp only [State.dueChamber, List.mem_append, some_mem_cons_dueIf, some_mem_map_dueIf, List.not_mem_nil, or_false,
    out_iff, fedStale_iff, or_assoc] at h
  rcases h with ⟨rfl, hout⟩ | ⟨rfl, hout⟩ | ⟨rfl, hout⟩ | ⟨rfl, hout⟩ | ⟨rfl, hout⟩ | ⟨rfl, hout⟩
    | ⟨tag, hmem, rfl, hleft⟩ | ⟨rfl, hout⟩ | ⟨rfl, hout⟩
  · exact hout
  · exact hout
  · exact hout
  · exact hout
  · exact hout
  · exact hout
  · exact ⟨tag, hmem, rfl, hleft⟩
  · exact hout
  · exact hout

theorem ranOut_of_dueOnward (h : some c ∈ dueOnward s) : RanOut s c := by
  simp only [dueOnward, some_mem_cons_dueIf, List.not_mem_nil, or_false, out_iff, allowanceUp_iff] at h
  rcases h with ⟨rfl, hout⟩ | ⟨rfl, hout⟩ | ⟨rfl, hout⟩ <;> exact hout

theorem ranOut_of_dueUnit {u : UnitId} (h : some c ∈ s.dueUnit u) : RanOut s c := by
  simp only [State.dueUnit, some_mem_cons_dueIf, List.not_mem_nil, or_false, out_iff, out_and_runs_iff] at h
  rcases h with ⟨rfl, hout⟩ | ⟨rfl, hout⟩ | ⟨rfl, hout⟩ <;> exact hout

theorem ranOut_of_dueRest (h : some c ∈ s.dueRest) : RanOut s c := by
  simp only [State.dueRest, List.mem_append, some_mem_cons_dueIf, some_mem_map_dueIf, List.not_mem_nil, or_false,
    decide_eq_true_eq, out_iff, or_assoc] at h
  rcases h with ⟨entry, hmem, rfl, hout⟩ | ⟨party, -, rfl, hout⟩ | ⟨rfl, hout⟩ | ⟨rfl, hout⟩ | ⟨rfl, hout⟩ | ⟨rfl, hout⟩
    | ⟨rfl, hout⟩ | ⟨rfl, hout⟩ | ⟨rfl, hout⟩
  · exact ⟨entry, hmem, rfl, hout⟩
  all_goals exact hout

theorem ranOut_of_expiries (h : some c ∈ expiries s) : RanOut s c := by
  rcases mem_expiries.mp h with h | h | h | h | ⟨u, h⟩ | h
  · exact ranOut_of_dueLink h
  · exact ranOut_of_duePresence h
  · exact ranOut_of_dueChamber h
  · exact ranOut_of_dueOnward h
  · exact ranOut_of_dueUnit h
  · exact ranOut_of_dueRest h

/-- What has run out stands in its own block's list. -/
theorem expiries_of_ranOut (h : RanOut s c) : some c ∈ expiries s := by
  rw [mem_expiries]
  cases c with
  | backoffExpiry | widenResendExpiry | widenHoldExpiry | widenSlotExpiry | replyDeadlineExpiry =>
    refine .inl ?_
    simp only [State.dueLink, List.mem_append, some_mem_cons_dueIf, some_mem_map_dueIf, List.not_mem_nil, or_false,
      decide_eq_true_eq, List.any_eq_true, out_iff, resendDue_iff, lapsed_iff, allParties_mem, reduceCtorEq,
      Instr.widenHoldExpiry.injEq, Instr.widenSlotExpiry.injEq, Instr.replyDeadlineExpiry.injEq, exists_eq_left,
      false_and, and_false, exists_false, false_or, true_and]
    exact h
  | beaconTimerExpiry | peerSilenceTimeout | deskSilenceTimeout | clashCalmExpiry | wakeSettleExpiry
  | resumeSettleExpiry =>
    refine .inr (.inl ?_)
    simp only [State.duePresence, List.mem_append, some_mem_cons_dueIf, some_mem_map_dueIf, List.not_mem_nil, or_false,
      Bool.and_eq_true, decide_eq_true_eq, out_iff, silent_iff, List.mem_finRange, reduceCtorEq,
      Instr.peerSilenceTimeout.injEq, exists_eq_left, false_and, and_false, exists_false, false_or, true_and]
    exact h
  | levelStaleTimeout line | levelLossExpiry line =>
    refine .inr (.inr (.inl ?_))
    simp only [State.dueChamber, List.mem_append, some_mem_cons_dueIf, some_mem_map_dueIf, List.not_mem_nil, or_false,
      out_iff, reduceCtorEq, Instr.levelStaleTimeout.injEq, Instr.levelLossExpiry.injEq, false_and, and_false,
      exists_false, false_or]
    cases line with
    | chamber => exact .inl ⟨rfl, h⟩
    | outer => exact .inr ⟨rfl, h⟩
  | selfWaitExpiry | claimWaitExpiry | cancelledTagExpiry | levelFeedTimerExpiry | fedLevelStale =>
    refine .inr (.inr (.inl ?_))
    simp only [State.dueChamber, List.mem_append, some_mem_cons_dueIf, some_mem_map_dueIf, List.not_mem_nil, or_false,
      out_iff, fedStale_iff, reduceCtorEq, Instr.cancelledTagExpiry.injEq, false_and, and_false, exists_false, false_or,
      true_and]
    exact h
  | travelAllowanceExpiry | onwardRetryExpiry | onwardRepeatExpiry =>
    refine .inr (.inr (.inr (.inl ?_)))
    simp only [dueOnward, some_mem_cons_dueIf, List.not_mem_nil, or_false, out_iff, allowanceUp_iff, reduceCtorEq,
      false_and, false_or, true_and]
    exact h
  | claimRetryExpiry u | equalizeTimerExpiry u | entryTimeLimitExpiry u =>
    refine .inr (.inr (.inr (.inr (.inl ⟨u, ?_⟩))))
    simp only [State.dueUnit, some_mem_cons_dueIf, List.not_mem_nil, or_false, out_iff, out_and_runs_iff, reduceCtorEq,
      false_and, false_or, true_and]
    exact h
  | resolutionTimerExpiry | holdEntryExpiry | sweepTimerExpiry | recoveryTimerExpiry | gapTimerExpiry
  | attemptWaitExpiry | lowStoreRepeatExpiry | minuteTimerExpiry | flasherToggle =>
    refine .inr (.inr (.inr (.inr (.inr ?_))))
    simp only [State.dueRest, List.mem_append, some_mem_cons_dueIf, some_mem_map_dueIf, List.not_mem_nil, or_false,
      decide_eq_true_eq, out_iff, allParties_mem, reduceCtorEq, Instr.resolutionTimerExpiry.injEq,
      Instr.holdEntryExpiry.injEq, exists_eq_left, false_and, and_false, exists_false, false_or, true_and]
    exact h
  | _ => exact h.elim

theorem ranOut_of_due (h : s.due = some c) : RanOut s c := by
  rw [due_eq] at h
  exact ranOut_of_expiries (findSome_id_some h)

/-- Where nothing is due, no timer has run out. -/
theorem not_ranOut_of_no_due (h : s.due = none) (c : Instr) : ¬ RanOut s c := by
  rw [due_eq, findSome_id_none] at h
  exact fun hc => Option.some_ne_none c (h _ (expiries_of_ranOut hc))

end
end Sys2Proof.Clock
end

section
/-! One bit time (log entry 1). -/

namespace Sys2Proof.Clock
open Sys2Proof Sys2Proof.Machine

/-- Only a driving motion uses its allowance (R84). -/
theorem drive_tick (d : Drive) : d.tick = { d with slots := d.slots.map (fun x => x.map (fun m =>
    { m with allowance := m.allowance - (if m.phase = .running then 1 else 0) })) } := by
  have hmotion : ∀ m : Motion, (if m.phase = .running then { m with allowance := m.allowance - 1 } else m)
      = { m with allowance := m.allowance - (if m.phase = .running then 1 else 0) } := by
    intro m
    split <;> rfl
  unfold Drive.tick
  simp only [hmotion]

/-- Only the HELD lower claim grows older. -/
theorem heldFor_tick (l : LowerClaim) : (if l.state = .held then l.heldFor + 1 else l.heldFor)
    = l.heldFor + (if l.state = .held then 1 else 0) := by
  split <;> rfl

/-- The equalize timer and the entry time limit pass while the crossing is not frozen and the stop state is STOP_CLEAR
(R115, R116). -/
theorem unit_tick (s : State) (u : UnitId) : (s.unit u).tick (s.crossTimersRun u) =
    let runs := (s.unit u).frozen = false ∧ s.ctl.stop = .stopClear
    { s.unit u with
      retryTimer := Timer.down (s.unit u).retryTimer,
      equalizeTimer := if runs then Timer.down (s.unit u).equalizeTimer else (s.unit u).equalizeTimer,
      entryTimer := if runs then Timer.down (s.unit u).entryTimer else (s.unit u).entryTimer } := by
  unfold BoundaryUnit.tick
  simp only [crossTimersRun_iff]

/-- With no command waiting and nothing left to act on, a step runs the expiry that is due. -/
theorem step_due {s : State} {c : Instr} (hp : s.pending = []) (hn : s.notices = []) (h : s.due = some c) :
    step s = exec c s := by
  unfold step State.idle
  simp only [hp, hn, h, ne_eq, not_true_eq_false, if_false]

/-- Where none is due, one bit time passes. -/
theorem step_tick {s : State} (hp : s.pending = []) (hn : s.notices = []) (h : s.due = none) :
    step s = .next s.tick := by
  unfold step State.idle
  simp only [hp, hn, h, ne_eq, not_true_eq_false, if_false]

/-- Settles O2: the step by its two ways, what is due by `RanOut`, and the bit time block by block. -/
theorem idleStep : Obligations.IdleStep := by
  intro s
  refine ⟨fun hp hn => ⟨fun _ => step_due hp hn, step_tick hp hn⟩, fun _ => ranOut_of_due, not_ranOut_of_no_due, ?_⟩
  have hlower := unit_tick s .lower
  have hhead := unit_tick s .head
  dsimp only [State.unit] at hlower hhead
  unfold State.tick Chamber.tick
  rw [drive_tick, heldFor_tick, hlower, hhead]
  rfl

end Sys2Proof.Clock
end

section
/-! The faulted marks that FAULT_NOTE and FAULT_CLEAR keep (R102, R191). -/

namespace Sys2Proof.Crossings
open Sys2Proof Sys2Proof.Machine

/-! ### The mark of an address (R191) -/

theorem accepts_fields {s : State} {k : Kind} {src dst : Addr} {p : List Byte} (h : s.accepts k src dst p = true) :
    fieldsOk k p = true := by
  unfold State.accepts at h
  simp only [Bool.and_eq_true] at h
  obtain ⟨⟨-, hfields⟩, -⟩ := h
  exact hfields

/-- The desk's and the own address have no mark. -/
theorem faultSource_none {s : State} {src : Addr} (h : src = deskAddr ∨ src = s.ownAddr) : s.faultSource? src = none :=
  if_pos h

theorem faultSource_other {s : State} {src : Addr} (hd : src ≠ deskAddr) (ho : src ≠ s.ownAddr) :
    s.faultSource? src = some (peerIdx src.toNat) :=
  if_neg (not_or.mpr ⟨hd, ho⟩)

/-- The level code of FLIGHT is 2 (12.2). -/
theorem ofCode_flight {n : Nat} {l : FaultLevel} (h : FaultLevel.ofCode? n = some l) : l = .flight ↔ n = 2 := by
  unfold FaultLevel.ofCode? at h
  split at h <;> cases h <;> decide

/-- A note whose fields can be read gives a level: FLIGHT where its code is 2 (R190). -/
theorem noteLevel_of_fields {p : List Byte} (h : fieldsOk .faultNote p = true) :
    ∃ l, noteLevel? p = some l ∧ (l = .flight ↔ byteAt p 1 / 64 = 2) := by
  simp only [fieldsOk, Bool.and_eq_true, decide_eq_true_eq] at h
  obtain ⟨⟨⟨hlen, -⟩, hlevel⟩, -⟩ := h
  obtain ⟨l, hl⟩ := Option.isSome_iff_exists.mp hlevel
  refine ⟨l, (if_neg (by omega)).trans hl, ?_⟩
  rw [ofCode_flight hl, FlightLink.byteAt_type]

theorem onFaultNote_unmarked {s : State} {rx : Rx} (h : rx.src = deskAddr ∨ rx.src = s.ownAddr) : s.onFaultNote rx = s := by
  unfold State.onFaultNote
  rw [faultSource_none h]

theorem onFaultClear_unmarked {s : State} {rx : Rx} (h : rx.src = deskAddr ∨ rx.src = s.ownAddr) :
    s.onFaultClear rx = s := by
  unfold State.onFaultClear
  rw [faultSource_none h]

theorem onFaultNote_other {s : State} {rx : Rx} (hd : rx.src ≠ deskAddr) (ho : rx.src ≠ s.ownAddr)
    (hf : fieldsOk .faultNote rx.payload = true) :
    s.onFaultNote rx = s.setFaulted (peerIdx rx.src.toNat) (decide (byteAt rx.payload 1 / 64 = 2)) := by
  obtain ⟨l, hl, hflight⟩ := noteLevel_of_fields hf
  unfold State.onFaultNote
  rw [faultSource_other hd ho, hl]
  simp only [hflight]

theorem onFaultClear_other {s : State} {rx : Rx} (hd : rx.src ≠ deskAddr) (ho : rx.src ≠ s.ownAddr) :
    s.onFaultClear rx = s.setFaulted (peerIdx rx.src.toNat) false := by
  unfold State.onFaultClear
  rw [faultSource_other hd ho]

/-! ### What a change of the mark leads to (R102) -/

/-- The peer table with one address's mark set or cleared. -/
def marked (i : Fin 16) (v : Bool) (s : State) : Vector Peer 16 :=
  s.presence.peers.set i { s.presence.peers[i] with faulted := v }

/-- The station with one address's mark set or cleared. -/
def withMark (i : Fin 16) (v : Bool) (s : State) : State :=
  { s with presence := { s.presence with peers := marked i v s } }

theorem marked_after (k : Kind) (src : Addr) (i : Fin 16) (v : Bool) (s : State) :
    marked i v (s.after k src) = marked i v s := by
  unfold marked
  rw [after_peers]

theorem withMark_same {s : State} {i : Fin 16} {v : Bool} (h : s.presence.peers[i].faulted = v) : withMark i v s = s := by
  subst h
  unfold withMark marked
  rw [show ({ s.presence.peers[i] with faulted := s.presence.peers[i].faulted } : Peer) = s.presence.peers[i] from rfl]
  simp only [Fin.getElem_fin, Vector.set_getElem_self]

theorem setFaulted_same {s : State} {i : Fin 16} {v : Bool} (h : s.presence.peers[i].faulted = v) :
    s.setFaulted i v = s := if_pos h

theorem setFaulted_changed {s : State} {i : Fin 16} {v : Bool} (h : s.presence.peers[i].faulted ≠ v) :
    s.setFaulted i v = (withMark i v s).emit (if v then .markSet i else .markCleared i) := if_neg h

/-- The setting of a mark leads to nothing on another address than the next upstream station's, or where no CROSS_ASK
waits unsent (R102). -/
theorem onMarkSet_inert {s : State} {i : Fin 16} (h : i.val ≠ s.k + 1 ∨ s.link.unsentAsk .crossAsk = false) :
    s.onMarkSet i = s := by
  unfold State.onMarkSet State.doIf
  rcases h with hother | hnone
  · simp [hother]
  · have hkept : s.withholdOnward = s := if_neg (Bool.eq_false_iff.mp hnone)
    rw [hkept, ite_self]

/-- A change of the mark leads to nothing: the mark stands so already, or its setting is one of `onMarkSet_inert`. -/
def markInert (i : Fin 16) (v : Bool) (s : State) : Prop :=
  (v = true ∧ (i.val ≠ s.k + 1 ∨ s.link.unsentAsk .crossAsk = false)) ∨ s.presence.peers[i].faulted = v

theorem finish_setFaulted {s a : State} {i : Fin 16} {v : Bool} (hn : a.notices = []) (hp : a.pending = s.pending)
    (h : markInert i v a) : finish s (a.setFaulted i v) = withMark i v a := by
  by_cases hsame : a.presence.peers[i].faulted = v
  · rw [setFaulted_same hsame, withMark_same hsame, finish_quiet hn, ← hp]
  · obtain ⟨rfl, hset⟩ := h.resolve_right hsame
    rw [setFaulted_changed hsame, if_pos rfl, emit_eq, show (withMark i true a).notices = [] from hn]
    refine finish_inert (b := withMark i true a) hn (by simp) (fun t ht => ?_) hp
    rw [List.mem_singleton.mp ht]
    exact onMarkSet_inert hset

/-- An accepted frame whose owner changes a mark: of the tables that no notice's acting changes, the marks alone differ. -/
theorem ran_setFaulted {s : State} {k : Kind} {src dst : Addr} {p : List Byte} (h : s.accepts k src dst p = true)
    {owner : Rx → State → State} {i : Fin 16} {v : Bool}
    (ho : owner (s.rxOf k src dst p) (s.after k src) = (s.after k src).setFaulted i v) :
    ∃ t, ran (State.receive k src dst p owner) s = .next t ∧ t.still = { (s.after k src).still with peers := marked i v s }
      ∧ (markInert i v s → t = { s.after k src with
          presence := { (s.after k src).presence with peers := marked i v s } }) := by
  refine ⟨_, ran_accepted h owner, ?_, fun hinert => ?_⟩
  · rw [finish_still, ho, setFaulted_still, ← marked_after k src, ← after_pending k src s]
    rfl
  · have hafter : markInert i v (s.after k src) := by
      unfold markInert
      rw [after_k, after_peers]
      exact hinert
    rw [ho, finish_setFaulted (after_calm h) (after_pending k src s) hafter, withMark,
      marked_after]

/-- Settles O49: the owner of each frame by its source, and what a change of the mark leads to. -/
theorem faultNotes : Obligations.FaultNotes := by
  intro s src dst p _
  refine ⟨fun h => ⟨fun hsrc => ?_, fun hd ho => ?_⟩, fun h => ⟨fun hsrc => ?_, fun hd ho => ?_⟩⟩
  · refine ran_owner h (onFaultNote_unmarked ?_) (after_calm h) (after_pending _ src s)
    rw [after_ownAddr]
    exact hsrc
  · refine ran_setFaulted h (onFaultNote_other hd ?_ (accepts_fields h))
    rw [after_ownAddr]
    exact ho
  · refine ran_owner h (onFaultClear_unmarked ?_) (after_calm h) (after_pending _ src s)
    rw [after_ownAddr]
    exact hsrc
  · have howner : (s.after .faultClear src).onFaultClear (s.rxOf .faultClear src dst p)
        = (s.after .faultClear src).setFaulted (peerIdx src.toNat) false :=
      onFaultClear_other hd (by rw [after_ownAddr]; exact ho)
    obtain ⟨t, hrun, hstill, hinert⟩ := ran_setFaulted h howner
    refine ⟨t, hrun, hstill, fun hclear => (hinert (.inr hclear)).trans ?_⟩
    rw [← marked_after .faultClear src]
    exact withMark_same (by rw [after_peers]; exact hclear)

end Sys2Proof.Crossings
end

section
/-! The crossing watched: the detector's count, the equalize timer and entry time limit, and the move lights (R107 to
R116, R198). -/

namespace Sys2Proof.Crossings
open Sys2Proof Sys2Proof.Machine

/-! ### Changes of one unit -/

theorem modUnit_modUnit (s : State) (u : UnitId) (f g : BoundaryUnit → BoundaryUnit) :
    (s.modUnit u f).modUnit u g = s.modUnit u (fun b => g (f b)) := by
  cases u <;> rfl

/-- A change of a unit rests on that unit's value alone. -/
theorem modUnit_congr {s : State} {u : UnitId} {f g : BoundaryUnit → BoundaryUnit} (h : f (s.unit u) = g (s.unit u)) :
    s.modUnit u f = s.modUnit u g := by
  cases u
  · exact congrArg (fun b => { s with lowerUnit := b }) h
  · exact congrArg (fun b => { s with headUnit := b }) h

/-- What it is for a crossing to act in its step: hold NONE, not frozen, no claim asked again (R100, R116). -/
theorem acts_iff {b : BoundaryUnit} {st : Step} : b.acts st = true ↔
    b.step = some st ∧ b.hold = .none ∧ b.frozen = false ∧ b.reclaim = false ∧ ∃ c, b.active? = some c := by
  unfold BoundaryUnit.acts BoundaryUnit.worksIn BoundaryUnit.idle
  simp only [Bool.and_eq_true, decide_eq_true_eq, FlightLink.free_iff, Bool.not_eq_true', Option.isNone_eq_false_iff,
    Option.isSome_iff_exists]
  tauto

/-! ### The detector (R110, R111) -/

/-- The unit with this count of vessels. -/
def counted (u : UnitId) (n : Nat) (s : State) : State := s.modUnit u (fun b => { b with count := n })

/-- A count that does not fit: the crossing waits for its recovery, and DETECTOR_MISMATCH is raised (R111). -/
def mismatched (u : UnitId) (n v1 v2 : Nat) (s : State) : State := State.emit
  (.raise .detectorMismatch (BitVec.ofNat 32 v1) (BitVec.ofNat 32 v2) (Bound.ofUnit u))
  (s.modUnit u (fun b => { b with count := n, hold := .recoveryWait, wanted := none, mismatch := true }))

theorem mismatchHold_counted (u : UnitId) (n v1 v2 : Nat) (s : State) :
    ((counted u n s).mismatchHold u).raiseMismatch u v1 v2 = mismatched u n v1 v2 s := by
  unfold State.mismatchHold State.setHold counted State.raiseMismatch mismatched
  rw [modUnit_modUnit, modUnit_modUnit]

theorem counted_same {s : State} {u : UnitId} {n : Nat} (h : (s.unit u).count = n) : counted u n s = s := by
  subst h
  cases u <;> rfl

theorem counted_unit (u : UnitId) (n : Nat) (s : State) : (counted u n s).unit u = { s.unit u with count := n } :=
  unit_modUnit s u _

/-- A pulse while a crossing is in TRANSIT, by its direction and the count. -/
theorem onPassage_transit {s : State} {u : UnitId} {c : Crossing} (hw : s.works = true) (hu : u ∈ s.units)
    (hc : (s.unit u).active? = some c) (ht : (s.unit u).step = some .transit) (d : Direction) :
    s.onPassage u d =
      if d = c.direction then
        if c.vessels < (s.unit u).count + 1 then mismatched u ((s.unit u).count + 1) ((s.unit u).count + 1) c.vessels s
        else (counted u ((s.unit u).count + 1) s).transitTest u
      else if (s.unit u).count = 0 then mismatched u 0 0 (directionCode d) s
      else (counted u ((s.unit u).count - 1) s).transitTest u := by
  have hup : s.modUnit u (fun b => { b with count := b.count + 1 }) = counted u ((s.unit u).count + 1) s :=
    modUnit_congr rfl
  have hback : s.modUnit u (fun b => { b with count := b.count - 1 }) = counted u ((s.unit u).count - 1) s :=
    modUnit_congr rfl
  unfold State.onPassage
  simp only [hw, units_contains hu, hc, ht, hup, hback, mismatchHold_counted, Bool.not_true, Bool.or_self,
    Bool.false_eq_true, if_false]
  by_cases hzero : (s.unit u).count = 0
  · rw [← mismatchHold_counted u 0, counted_same hzero]
  · simp only [if_neg hzero]

/-- A pulse with no crossing in TRANSIT (R111). -/
theorem onPassage_stray {s : State} {u : UnitId} (hw : s.works = true) (hu : u ∈ s.units)
    (h : (s.unit u).active? = none ∨ (s.unit u).step ≠ some .transit) (d : Direction) :
    s.onPassage u d = s.raiseMismatch u 0 (directionCode d) := by
  unfold State.onPassage
  simp only [hw, units_contains hu, Bool.not_true, Bool.or_self, Bool.false_eq_true, if_false]
  split
  · next hc ht =>
    rcases h with hnone | hstep
    · rw [hnone] at hc; cases hc
    · exact absurd ht hstep
  · rfl

/-- A pulse that the station does not take (log entry 27). -/
theorem onPassage_barred {s : State} {u : UnitId} (h : s.works = false ∨ u ∉ s.units) (d : Direction) :
    s.onPassage u d = s := by
  refine if_pos ?_
  rcases h with hw | hu
  · rw [hw]; rfl
  · simp [hu]

/-! ### The end of TRANSIT (R110, R113) -/

/-- While the count is not complete, TRANSIT goes on. -/
theorem transitTest_incomplete {s : State} {u : UnitId} {c : Crossing} (hc : (s.unit u).active? = some c)
    (hm : (s.unit u).mismatch = false) (hn : (s.unit u).count ≠ c.vessels) : s.transitTest u = s := by
  unfold State.transitTest
  dsimp only
  rw [hc]
  split
  · next h =>
    cases h
    exact if_neg (by simp [hm, hn])
  · rfl

theorem transitTest_complete {s : State} {u : UnitId} {c : Crossing} (hc : (s.unit u).active? = some c)
    (ha : (s.unit u).acts .transit = true) (hn : (s.unit u).count = c.vessels) : s.transitTest u = s.endTransit u := by
  unfold State.transitTest
  dsimp only
  rw [hc, ha]
  exact if_pos (.inr hn)

/-- A count that does not complete leaves the crossing in TRANSIT. -/
theorem counted_goesOn {s : State} {u : UnitId} {c : Crossing} {n : Nat} (hc : (s.unit u).active? = some c)
    (hm : (s.unit u).mismatch = false) (hn : n ≠ c.vessels) : (counted u n s).transitTest u = counted u n s := by
  refine transitTest_incomplete (c := c) ?_ ?_ ?_ <;> rw [counted_unit]
  exacts [hc, hm, hn]

theorem counted_ends {s : State} {u : UnitId} {c : Crossing} {n : Nat} (hc : (s.unit u).active? = some c)
    (ha : (s.unit u).acts .transit = true) (hn : n = c.vessels) :
    (counted u n s).transitTest u = (counted u n s).endTransit u := by
  refine transitTest_complete (c := c) ?_ ?_ ?_ <;> rw [counted_unit]
  exacts [hc, ha, hn]

/-- The hooks of an ENTRY: its records and members, then the occupancy by whether any vessel entered (R110, R113). -/
theorem transitHooks_entry {c : Crossing} (hk : c.kind = .entry) (n : Nat) (s : State) :
    s.transitHooks c n = ((s.entryRecords c.key n).entryMembers c.key n).setOccupancy
      (if n = 0 then .empty else .occupied) (if n = 0 then 0 else c.key) := by
  unfold State.transitHooks
  rw [hk]
  dsimp only
  split_ifs <;> rfl

/-- The hooks of R113, then CLOSE. -/
theorem endTransit_hooks {s : State} {u : UnitId} {c : Crossing} (hc : (s.unit u).active? = some c)
    (ht : (s.unit u).step = some .transit) :
    let h := s.transitHooks c (s.unit u).count
    s.endTransit u = (h.modUnit u (h.entered .closeGate c)).emits [.stepDone u c.key .transit, .enterStep u] := by
  intro h
  have hunit : h.unit u = s.unit u := transitHooks_unit c _ s u
  unfold State.endTransit
  rw [hc]
  show h.advance u = _
  unfold State.advance
  dsimp only
  rw [hunit, hc, ht]
  exact StationModes.emit_emit _ _ _

/-! ### The equalize timer and the entry time limit (R108, R110, R115, R116) -/

theorem equalizeExpiry_runs {s : State} {u : UnitId} (hs : (s.unit u).step = some .equalize)
    (ht : (s.unit u).equalizeTimer.isSome = true) (hr : s.crossTimersRun u = true) :
    s.equalizeExpiry u = State.emit
      (.raise .equalizeTimeout (levelValue (s.upperLevel u)) (levelValue (s.lowerLevel u)) (Bound.ofUnit u))
      (State.setHold u .recoveryWait (State.placeSafety (unitClass u)
        (State.withdrawMotion u (sluiceOf u) .toClosed (State.withdrawMotion u (sluiceOf u) .toOpen
          (s.modUnit u (fun b => { b with equalizeTimer := none })))))) := by
  let ended := s.modUnit u (fun b => { b with equalizeTimer := none })
  let shut := (ended.withdrawMotion u (sluiceOf u) .toOpen).withdrawMotion u (sluiceOf u) .toClosed
  have hchamber : shut.chamber = s.chamber := by
    rw [withdrawMotion_chamber, withdrawMotion_chamber, modUnit_chamber]
  have hloader : shut.loader = s.loader := by
    rw [withdrawMotion_loader, withdrawMotion_loader, modUnit_loader]
  obtain ⟨hupper, hlower⟩ := levels_of_eq hchamber hloader u
  rw [← hupper, ← hlower]
  exact if_pos ⟨hs, ht, hr⟩

/-- Outside its step, or while the timers are paused, a timer of the crossing has no end (log entry 2). -/
theorem timer_stands {s : State} {u : UnitId} {st : Step} (h : (s.unit u).step ≠ some st ∨ s.crossTimersRun u = false)
    (running : Prop) : ¬ ((s.unit u).step = some st ∧ running ∧ s.crossTimersRun u = true) := by
  rintro ⟨hstep, -, hruns⟩
  rcases h with h | h
  · exact h hstep
  · rw [hruns] at h; cases h

theorem equalizeExpiry_stands {s : State} {u : UnitId}
    (h : (s.unit u).step ≠ some .equalize ∨ s.crossTimersRun u = false) : s.equalizeExpiry u = s :=
  if_neg (timer_stands h _)

theorem entryExpiry_runs {s : State} {u : UnitId} (ha : (s.unit u).acts .transit = true)
    (ht : (s.unit u).entryTimer.isSome = true) (hr : s.crossTimersRun u = true) :
    s.entryExpiry u = State.endTransit u (s.modUnit u (fun b =>
      { b with entryTimer := none }.mapActive (fun c => { c with vessels := b.count }))) := by
  obtain ⟨hs, -⟩ := acts_iff.mp ha
  unfold State.entryExpiry
  dsimp only
  rw [if_pos ⟨hs, ht, hr⟩, if_pos ha, modUnit_modUnit]

theorem entryExpiry_stands {s : State} {u : UnitId}
    (h : (s.unit u).step ≠ some .transit ∨ s.crossTimersRun u = false) : s.entryExpiry u = s :=
  if_neg (timer_stands h _)

/-! ### The move lights (R110, R115, R116, R198) -/

theorem showsGo_iff (s : State) (u : UnitId) (lowerSide : Bool) : s.showsGo u lowerSide = true ↔
    ∃ c, (s.unit u).active? = some c ∧ (s.unit u).step = some .transit ∧ (s.unit u).hold = .none
      ∧ (s.unit u).frozen = false ∧ (s.unit u).reclaim = false ∧ s.ctl.stop = .stopClear ∧ s.works = true
      ∧ (c.direction = .up ↔ lowerSide = true) := by
  have hacts : ((s.unit u).worksIn .transit && !(s.unit u).reclaim) = (s.unit u).acts .transit := rfl
  unfold State.showsGo
  dsimp only
  rw [hacts]
  cases hc : (s.unit u).active? with
  | none => simp
  | some c =>
    have hside : (decide (c.direction = .up) == lowerSide) = true ↔ (c.direction = .up ↔ lowerSide = true) := by
      cases c.direction <;> cases lowerSide <;> decide
    simp only [Bool.and_eq_true, decide_eq_true_eq, acts_iff, hside, hc, Option.some.injEq, exists_eq_left',
      exists_eq', and_true, and_assoc]

theorem mem_units_iff {s : State} {u : UnitId} : u ∈ s.units ↔ u = .lower ∨ s.isHead = true := by
  unfold State.units
  cases u <;> cases s.isHead <;> simp

/-- A station that works drives the lights of its own units' gates. -/
theorem hasMoveLights_works {s : State} (h : s.works = true) (u : UnitId) :
    s.hasMoveLights u = decide (u ∈ s.units) := by
  unfold State.hasMoveLights
  rw [h, Bool.eq_iff_iff]
  simp [mem_units_iff]

theorem lampsDriven_works {s : State} (h : s.works = true) : s.lampsDriven = true := by
  unfold State.works at h
  rw [Bool.and_eq_true] at h
  unfold State.lampsDriven
  rw [h.1]
  rfl

theorem showsGo_idle {s : State} (h : s.works = false) (u : UnitId) (lowerSide : Bool) : s.showsGo u lowerSide = false := by
  refine Bool.eq_false_iff.mpr (fun hgo => ?_)
  obtain ⟨-, -, -, -, -, -, -, hw, -⟩ := (showsGo_iff s u lowerSide).mp hgo
  rw [h] at hw
  cases hw

theorem moveLights_works {s : State} (h : s.works = true) (u : UnitId) (lowerSide : Bool) :
    s.moveGreen u lowerSide = (decide (u ∈ s.units) && s.showsGo u lowerSide)
      ∧ s.moveRed u lowerSide = (decide (u ∈ s.units) && !s.showsGo u lowerSide) := by
  unfold State.moveGreen State.moveRed
  rw [hasMoveLights_works h, lampsDriven_works h]
  exact ⟨rfl, rfl⟩

theorem moveLights_idle {s : State} (h : s.works = false) (u : UnitId) (lowerSide : Bool) :
    s.moveGreen u lowerSide = false
      ∧ s.moveRed u lowerSide = !(decide (s.ctl.mode = .loading) && !s.loader.sampled && !s.loader.fromRestart) := by
  unfold State.moveGreen State.moveRed State.hasMoveLights State.lampsDriven
  rw [showsGo_idle h, h]
  simp [Bool.not_and]

/-! ### The obligation -/

theorem ran_eq {f : State → State} {s t : State} (h : f s = t) : ran f s = .next (finish s t) := by
  unfold ran
  rw [h]

/-- A command that changes one unit alone makes nothing known. -/
theorem ran_modUnit {f : State → State} {g : BoundaryUnit → BoundaryUnit} {s : State} {u : UnitId}
    (hn : s.notices = []) (h : f s = s.modUnit u g) : ran f s = .next (s.modUnit u g) :=
  ran_quiet h ((modUnit_notices s u g).trans hn) (modUnit_pending s u g)

/-- The obligation's change of the unit, by the unit's own count, is `counted`. -/
theorem counted_eq {s : State} {u : UnitId} {n : Nat} {f : Nat → Nat} (h : f (s.unit u).count = n) :
    counted u n s = s.modUnit u (fun b => { b with count := f b.count }) := by
  subst h
  exact modUnit_congr rfl

/-- Settles O56: a pulse by the crossing in TRANSIT and its count, the two timers by whether they run, the lights by what
they show. -/
theorem crossingWatched : Obligations.CrossingWatched := by
  intro s u hn b
  refine ⟨fun c hw hu hc ht hm => ⟨fun hlt => ?_, fun d hd hpos hne => ?_⟩,
    fun c hw hu hc ht => ⟨fun heq hf hh hr => ?_, fun hgt => ?_, fun d hd hzero => ?_⟩, fun c hc ht => ?_,
    fun lowerSide => ⟨showsGo_iff s u lowerSide, fun h => moveLights_works h u lowerSide,
      fun h => moveLights_idle h u lowerSide⟩, fun d hw hu h => ran_eq (onPassage_stray hw hu h d),
    fun d h => ran_quiet (onPassage_barred h d) hn rfl, fun hs ht hr => ran_eq (equalizeExpiry_runs hs ht hr),
    fun h => ran_quiet (equalizeExpiry_stands h) hn rfl, fun ha ht hr => ran_eq (entryExpiry_runs ha ht hr),
    fun h => ran_quiet (entryExpiry_stands h) hn rfl⟩
  · refine ran_modUnit hn ?_
    rw [onPassage_transit hw hu hc ht, if_pos rfl, if_neg hlt.le.not_gt, counted_goesOn hc hm hlt.ne]
    exact counted_eq (f := (· + 1)) rfl
  · refine ran_modUnit hn ?_
    rw [onPassage_transit hw hu hc ht, if_neg hd, if_neg hpos.ne', counted_goesOn hc hm hne]
    exact counted_eq (f := (· - 1)) rfl
  · refine ran_eq ?_
    rw [onPassage_transit hw hu hc ht, if_pos rfl, if_neg heq.le.not_gt]
    exact counted_ends hc (acts_iff.mpr ⟨ht, hh, hf, hr, c, hc⟩) heq
  · refine ran_eq ?_
    rw [onPassage_transit hw hu hc ht, if_pos rfl, if_pos hgt]
    rfl
  · refine ran_eq ?_
    rw [onPassage_transit hw hu hc ht, if_neg hd, if_pos hzero]
    rfl
  · intro h
    have hhooks : h = s.transitHooks c b.count := by
      obtain ⟨kind, direction, -⟩ := c
      cases kind with
      | entry => exact (transitHooks_entry rfl _ _).symm
      | exit => rfl
      | inner => cases direction <;> rfl
    rw [hhooks]
    exact endTransit_hooks hc ht

end Sys2Proof.Crossings
end

section
/-! What prompts the admission test alone, and the hold table (R135, R136). -/

namespace Sys2Proof.Approaches
open Sys2Proof Sys2Proof.Machine

/-- A command that makes known only that a batch might be admitted, where none can be, answers its effect. -/
theorem ran_admissionTest {f : State → State} {s b : State} (hf : f s = b.emit .admissionTest) (hn : b.notices = [])
    (hshut : b.shutToEntry = true) (hp : b.pending = s.pending) : ran f s = .next b := by
  rw [emit_eq, hn] at hf
  refine ran_inert hf hn (by decide) (fun t ht => ?_) hp
  rw [List.mem_singleton.mp ht]
  exact admissionTest_shut hshut

/-! ### The hold table -/

theorem applyHold_sets {s : State} {p : Party} {t : Nat} (ht : t ≠ 0) (hr : (s.holdOf p).renewals < 16) :
    s.applyHold p t = s.setHoldEntry p { left := some (sec t), renewals := (s.holdOf p).renewals + 1 } := by
  unfold State.applyHold
  exact if_neg (fun h => h.elim ht hr.ne)

theorem applyHold_clears {s : State} {p : Party} {t : Nat} (h : t = 0 ∨ (s.holdOf p).renewals = 16) :
    s.applyHold p t = s.clearHold p := if_pos h

theorem holdExpiry_runs {s : State} {p : Party} (h : (s.holdOf p).left.isSome = true) : s.holdExpiry p = s.clearHold p :=
  if_pos h

/-- The hold table is no part of what bars every batch whatever the token. -/
theorem setHoldEntry_shut (p : Party) (e : HoldEntry) (s : State) : (s.setHoldEntry p e).shutToEntry = s.shutToEntry := rfl

/-- Clearing an entry where no batch could be admitted changes the entry alone. -/
theorem ran_clearHold {f : State → State} {s b : State} {p : Party} (hf : f s = b.clearHold p) (hn : b.notices = [])
    (hshut : b.shutToEntry = true) (hp : b.pending = s.pending) : ran f s = .next (b.setHoldEntry p ⟨none, 0⟩) :=
  ran_admissionTest hf hn ((setHoldEntry_shut p _ b).trans hshut) hp

/-- Settles O40: a HOLD sets or clears its sender's entry; clearing prompts the admission test, which admits nothing. -/
theorem holdTaken : Obligations.HoldTaken := by
  intro s cleared
  refine ⟨fun src dst p h => ?_, fun q hn ht hshut => ran_clearHold (holdExpiry_runs ht) hn hshut rfl⟩
  intro a e
  have happ : a.approach = s.approach := after_approach _ _ _
  have hentry : a.holdOf (partyOf src) = e := by unfold State.holdOf; rw [happ]
  have hset : ∀ x : HoldEntry, a.setHoldEntry (partyOf src) x
      = { a with approach := { s.approach with holds := s.approach.holds.set (partyIdx (partyOf src)) x } } := by
    intro x; unfold State.setHoldEntry; rw [happ]
  have howner : s.receive .hold src dst p State.onHold = a.applyHold (partyOf src) (byteAt p 0) := receive_accepted h _
  have hcalm : a.notices = [] := after_calm h
  have hpending : a.pending = s.pending := after_pending _ _ _
  refine ⟨fun ht hr => ?_, fun hclear hshut => ?_⟩
  · have hsets := applyHold_sets (s := a) ht (by rw [hentry]; exact hr)
    rw [hentry, hset] at hsets
    exact ran_quiet (howner.trans hsets) hcalm hpending
  · have hclears := applyHold_clears (s := a) (p := partyOf src) (by rw [hentry]; exact hclear)
    exact (ran_clearHold (howner.trans hclears) hcalm ((after_shut _ _ _).trans hshut) hpending).trans
      (congrArg Host.Outcome.next (hset _))

end Sys2Proof.Approaches
end

section
/-! The call post and the approach queue: CALL, CANCEL, the sending of an answer, the resolution timer (R121 to R125, R197). -/

namespace Sys2Proof.Approaches
open Sys2Proof Sys2Proof.Machine

/-! ### Records read (R121) -/

theorem readsCall_answers {s : State} {len : Byte} (h : s.readsCall len = true) : s.approach.answers.length < 8 := by
  unfold State.readsCall at h
  simp only [Bool.and_eq_true, decide_eq_true_eq] at h
  exact h.2

/-- The station with an answer at the end of the answer queue. -/
def answered (r : BitVec 32) (x : CallResult) (pos : Nat) (t : State) : State :=
  { t with approach := { t.approach with answers := t.approach.answers ++ [⟨r, x, pos⟩] } }

theorem onCall_unread {s : State} {len : Byte} (h : s.readsCall len = false) (r : BitVec 32) : s.onCall r len = s := by
  unfold State.onCall; rw [h]; rfl

theorem onCancel_unread {s : State} {len : Byte} (h : s.readsCall len = false) (r : BitVec 32) : s.onCancel r len = s := by
  unfold State.onCancel; rw [h]; rfl

theorem onCall_unconfigured {s : State} {len : Byte} (h : s.readsCall len = true) (hm : s.ctl.mode = .unconfigured)
    (r : BitVec 32) : s.onCall r len = answered r .closed 0 s := by
  unfold State.onCall
  rw [h, if_neg (by decide), if_pos hm]
  exact answer_room r .closed 0 (readsCall_answers h)

theorem onCancel_unconfigured {s : State} {len : Byte} (h : s.readsCall len = true) (hm : s.ctl.mode = .unconfigured)
    (r : BitVec 32) : s.onCancel r len = answered r .closed 0 s := by
  unfold State.onCancel
  rw [h, if_neg (by decide), if_pos hm]
  exact answer_room r .closed 0 (readsCall_answers h)

theorem onCall_deals {s : State} {len : Byte} (h : s.readsCall len = true) (hm : s.ctl.mode ≠ .unconfigured)
    (hr : s.ctl.mode ≠ .resting) (r : BitVec 32) : s.onCall r len = s.dealCall r len.toNat := by
  unfold State.onCall
  rw [h, if_neg (by decide), if_neg hm, wake_other _ hr]

/-- A CANCEL takes its vessel out of the queue, or finds it not queued (R123). -/
theorem onCancel_deals {s : State} {len : Byte} (h : s.readsCall len = true) (hm : s.ctl.mode ≠ .unconfigured)
    (r : BitVec 32) : s.onCancel r len
      = if s.isQueued r then answered r .accepted 0 (s.unqueue r) else answered r .notQueued 0 s := by
  unfold State.onCancel
  rw [h, if_neg (by decide), if_neg hm]
  have hroom := readsCall_answers h
  exact if_congr Iff.rfl (answer_room (s := s.unqueue r) r .accepted 0 hroom) (answer_room r .notQueued 0 hroom)

/-! ### A vessel joins the queue (R122) -/

/-- The station with a vessel at the tail of the queue, answered ACCEPTED with its position. -/
def joined (e : QueueEntry) (s : State) : State :=
  answered e.registration .accepted (s.approach.queue.length + 1)
    { s with approach := { s.approach with queue := s.approach.queue ++ [{ e with order := s.approach.nextOrder }],
                                           nextOrder := s.approach.nextOrder + 1 } }

theorem enqueue_room {s : State} (h : s.approach.answers.length < 8) (e : QueueEntry) : s.enqueue e = joined e s := by
  unfold State.enqueue
  refine (answer_room _ _ _ (by exact h)).trans ?_
  unfold joined answered State.modApproach
  simp only [List.length_append, List.length_singleton]

/-- Starting the timer of a vessel that has just joined changes no other entry: none had its registration. -/
theorem joined_modUnresolved {s : State} {e : QueueEntry} (hq : s.isQueued e.registration = false) (hready : e.ready = false)
    (t : Timer) : (joined e s).modUnresolved e.registration (fun x => { x with resolution := t })
      = joined { e with resolution := t } s := by
  have hothers : s.approach.queue.map (fun x =>
      if x.registration = e.registration ∧ x.ready = false then { x with resolution := t } else x) = s.approach.queue := by
    refine (List.map_congr_left (fun x hx => ?_)).trans (List.map_id _)
    have hne : x.registration ≠ e.registration := by simpa using List.any_eq_false.mp hq x hx
    exact if_neg (fun h => hne h.1)
  unfold State.modUnresolved State.modApproach joined answered
  simp [hothers, hready]

theorem beginResolution_absent {s : State} (h : s.presence.desk = .absent) (r : BitVec 32) :
    s.beginResolution r = s.modUnresolved r (fun e => { e with resolution := some (sec 2) }) := by
  have hdesk : ∀ f, (s.modUnresolved r f).presence.desk = .absent := fun _ => h
  unfold State.beginResolution
  rw [h, if_neg (by decide)]
  dsimp only
  rw [hdesk, if_neg (by decide)]

/-- A lookup changes the vessel table alone (R168). -/
theorem touchVessel_eq (r : BitVec 32) (s : State) : ∃ t : VesselTable, s.touchVessel r = s.setVessels t := by
  unfold State.touchVessel
  cases s.vessels.find r with
  | some x => exact ⟨_, rfl⟩
  | none => exact ⟨s.vessels, rfl⟩

/-! ### The tests of a CALL (R122) -/

section
variable {s : State} {r : BitVec 32} {len : Nat} (ha : s.approach.answers.length < 8)
include ha

theorem dealCall_full (hl : 12 ≤ s.approach.queue.length) : s.dealCall r len = answered r .queueFull 0 s := by
  unfold State.dealCall
  rw [if_pos hl]
  exact answer_room _ _ _ ha

theorem dealCall_duplicate (hl : s.approach.queue.length < 12)
    (hd : s.isQueued r = true ∨ s.approach.batch.any (fun b => b.hasMember r) = true) :
    s.dealCall r len = answered r .duplicate 0 s := by
  unfold State.dealCall
  rw [if_neg hl.not_ge, if_pos (by simpa using hd)]
  exact answer_room _ _ _ ha

variable (hl : s.approach.queue.length < 12) (hq : s.isQueued r = false)
  (hb : s.approach.batch.any (fun b => b.hasMember r) = false)
include hl hq hb

/-- A vessel of the table is judged by its entry, and joins READY. -/
theorem dealCall_hit {v : Vessel} (hv : s.lookupVessel r = some v) : s.dealCall r len =
    if v.barred then answered r .barred 0 (s.touchVessel r)
    else if s.cfg.capacity < v.lengthClass then answered r .closed 0 (s.touchVessel r)
    else State.emit .admissionTest (joined {
      registration := r, ready := true, cls := v.cls, group := v.group, account := v.account,
      lengthClass := v.lengthClass, deferral := 0, order := 0, defaultGroup := false, resolution := none }
        (s.touchVessel r)) := by
  obtain ⟨t, ht⟩ := touchVessel_eq r s
  have hroom : (s.setVessels t).approach.answers.length < 8 := ha
  unfold State.dealCall
  rw [if_neg hl.not_ge, if_neg (by simp [hq, hb]), hv, ht]
  dsimp only
  rw [answer_room _ _ _ hroom, answer_room _ _ _ hroom, enqueue_room hroom]
  rfl

theorem dealCall_miss_long (hv : s.lookupVessel r = none) (hc : s.cfg.capacity < len) :
    s.dealCall r len = answered r .closed 0 s := by
  unfold State.dealCall
  rw [if_neg hl.not_ge, if_neg (by simp [hq, hb]), hv]
  dsimp only
  rw [if_pos hc]
  exact answer_room _ _ _ ha

/-- A vessel the table does not hold joins UNRESOLVED; with the desk ABSENT nobody is asked, and its timer runs. -/
theorem dealCall_miss_absent (hv : s.lookupVessel r = none) (hc : len ≤ s.cfg.capacity) (hd : s.presence.desk = .absent) :
    s.dealCall r len = joined {
      registration := r, ready := false, cls := .pleasure, group := 0, account := 0, lengthClass := len,
      deferral := 0, order := 0, defaultGroup := false, resolution := some (sec 2) } s := by
  unfold State.dealCall
  rw [if_neg hl.not_ge, if_neg (by simp [hq, hb]), hv]
  dsimp only
  rw [if_neg hc.not_gt, enqueue_room ha]
  exact (beginResolution_absent (s := joined _ s) hd r).trans (joined_modUnresolved hq rfl _)

end

/-! ### The resolution timer (R125) -/

theorem resolutionExpiry_runs {s : State} {r : BitVec 32} {e : QueueEntry} (he : s.unresolved? r = some e)
    (ht : e.resolution.isSome = true) : s.resolutionExpiry r = s.defaultReg r := by
  unfold State.resolutionExpiry
  rw [he]
  exact if_pos ht

theorem shut_occupied {s : State} (h : s.chamber.occupancy ≠ .empty) : s.shutToEntry = true := by
  unfold State.shutToEntry; simp [h]

/-! ### The obligation -/

/-- Settles O57: each record by the tests it meets; a READY vessel prompts the admission test, which admits nothing while the
chamber is not EMPTY. -/
theorem callsTaken : Obligations.CallsTaken := by
  intro s r hn answered' queued
  refine ⟨fun len h => ⟨ran_quiet (onCall_unread h r) hn rfl, ran_quiet (onCancel_unread h r) hn rfl⟩,
    fun len h hm => ⟨ran_quiet (onCall_unconfigured h hm r) hn rfl, ran_quiet (onCancel_unconfigured h hm r) hn rfl⟩,
    fun len h hm hrest ho => ?_, fun len h hm => ?_, ran_quiet (f := State.answerSent) rfl hn rfl, fun e he ht ho => ?_⟩
  · intro joined' found
    have ha := readsCall_answers h
    have hdeal := onCall_deals h hm hrest r
    refine ⟨fun hl => ran_quiet (hdeal.trans (dealCall_full ha hl)) hn rfl,
      fun hl hd => ran_quiet (hdeal.trans (dealCall_duplicate ha hl hd)) hn rfl,
      fun hl hq hb => ⟨fun v hv => ?_,
        fun hv hc => ran_quiet (hdeal.trans (dealCall_miss_long ha hl hq hb hv hc)) hn rfl,
        fun hv hc hd => ran_quiet (hdeal.trans (dealCall_miss_absent ha hl hq hb hv hc hd)) hn rfl⟩⟩
    have hhit := hdeal.trans (dealCall_hit ha hl hq hb hv)
    obtain ⟨t, ht⟩ : ∃ t, found = s.setVessels t := touchVessel_eq r s
    rw [show s.touchVessel r = s.setVessels t from ht] at hhit
    rw [ht]
    by_cases hbar : v.barred = true
    · rw [if_pos hbar] at hhit ⊢
      exact ran_quiet hhit hn rfl
    rw [if_neg hbar] at hhit ⊢
    by_cases hlong : s.cfg.capacity < v.lengthClass
    · rw [if_pos hlong] at hhit ⊢
      exact ran_quiet hhit hn rfl
    · rw [if_neg hlong] at hhit ⊢
      exact ran_admissionTest hhit hn (shut_occupied ho) rfl
  · have hdeal := onCancel_deals h hm r
    rw [show s.isQueued r = queued from rfl] at hdeal
    cases hq : queued <;> rw [hq] at hdeal <;> exact ran_quiet hdeal hn rfl
  · refine (ran_admissionTest (resolutionExpiry_runs he ht) hn (shut_occupied ho) rfl).trans ?_
    unfold State.modUnresolved State.modApproach State.defaultEntry
    simp

end Sys2Proof.Approaches
end

section
/-! The in-flight list and the token: EXIT_NOTE, the sweep, the recovery timer (R143 to R145, R149). -/

namespace Sys2Proof.Approaches
open Sys2Proof Sys2Proof.Machine

/-! ### A change of the token alone -/

theorem modToken_same {s : State} {g : Token → Token} (h : g s.token = s.token) : s.modToken g = s := by
  unfold State.modToken; rw [h]

/-- The token is no part of what bars every batch whatever the token. -/
theorem modToken_shut (g : Token → Token) (s : State) : (s.modToken g).shutToEntry = s.shutToEntry := rfl

/-- A change of the token that at most prompts the admission test, where no batch can be admitted, changes the token alone. -/
theorem ran_modToken {f : State → State} {s b : State} {g : Token → Token}
    (hf : f s = b.modToken g ∨ f s = (b.modToken g).emit .admissionTest) (hn : b.notices = [])
    (hshut : b.shutToEntry = true) (hp : b.pending = s.pending) : ran f s = .next (b.modToken g) := by
  rcases hf with hsilent | hprompts
  · exact ran_quiet hsilent hn hp
  · exact ran_admissionTest hprompts hn ((modToken_shut g b).trans hshut) hp

/-! ### EXIT_NOTE (R143, R144) -/

/-- The in-flight list without a key. -/
def landed (key : BatchKey) (t : Token) : Token := { t with inFlight := t.inFlight.filter (fun x => x.key ≠ key) }

theorem landed_unlisted {key : BatchKey} {t : Token} (h : ¬ t.inFlight.any (fun x => x.key = key) = true) :
    landed key t = t := by
  have hall : t.inFlight.filter (fun x => x.key ≠ key) = t.inFlight := by
    rw [List.filter_eq_self]
    simpa using h
  unfold landed; rw [hall]

/-- The key is out of the list afterwards, whether it stood there or not; the admission test is prompted only if it did. -/
theorem leaveFlight_landed (key : BatchKey) (s : State) : s.leaveFlight key = s.modToken (landed key)
    ∨ s.leaveFlight key = (s.modToken (landed key)).emit .admissionTest := by
  unfold State.leaveFlight
  split
  · exact Or.inr rfl
  · next hlisted => exact Or.inl (modToken_same (landed_unlisted hlisted)).symm

theorem onExitNote_own {s : State} {rx : Rx} (h : keyAt rx.payload 0 ≠ 0 ∧ (keyFromHead (keyAt rx.payload 0) = !s.isFoot)) :
    s.onExitNote rx = s.modToken (landed (keyAt rx.payload 0))
      ∨ s.onExitNote rx = (s.modToken (landed (keyAt rx.payload 0))).emit .admissionTest := by
  rw [show s.onExitNote rx = s.leaveFlight (keyAt rx.payload 0) from if_pos h]
  exact leaveFlight_landed _ s

theorem onExitNote_other {s : State} {rx : Rx}
    (h : ¬ (keyAt rx.payload 0 ≠ 0 ∧ (keyFromHead (keyAt rx.payload 0) = !s.isFoot))) : s.onExitNote rx = s := if_neg h

theorem after_isFoot (k : Kind) (src : Addr) (s : State) : (s.after k src).isFoot = s.isFoot := by
  unfold State.isFoot; rw [after_k]

/-! ### The recovery (R149) -/

theorem recoveryTest_notRanOut {s : State} (h : s.token.recovery ≠ .ranOut) : s.recoveryTest = s :=
  if_neg (fun hout => h hout.1)

theorem recoveryTest_reported {s : State} (h : s.noBatchReported = false) : s.recoveryTest = s :=
  if_neg (by simp [h])

/-- The token taken: the next epoch, turn count 0, an empty list. -/
def recovered (t : Token) : Token :=
  { t with state := .held, epoch := t.epoch + 1, turns := 0, inFlight := [], recovery := .stopped }

theorem recoveryTest_recovers {s : State} (hr : s.token.recovery = .ranOut) (h : s.noBatchReported = true) :
    s.recoveryTest = (s.modToken recovered).emit .admissionTest := if_pos ⟨hr, h⟩

theorem recoveryExpiry_runs {s : State} {left : Span} (h : s.token.recovery = .running left) :
    s.recoveryExpiry = State.recoveryTest (s.modToken (fun t => { t with recovery := .ranOut })) := by
  unfold State.recoveryExpiry; rw [h]

/-- The recovery timer's end takes the token where no batch is reported. -/
theorem recoveryExpiry_recovers {s : State} {left : Span} (h : s.token.recovery = .running left)
    (hnone : s.noBatchReported = true) : s.recoveryExpiry = (s.modToken recovered).emit .admissionTest :=
  (recoveryExpiry_runs h).trans (recoveryTest_recovers rfl hnone)

/-- Where one is reported the timer stands run out. -/
theorem recoveryExpiry_waits {s : State} {left : Span} (h : s.token.recovery = .running left)
    (hsome : s.noBatchReported = false) : s.recoveryExpiry = s.modToken (fun t => { t with recovery := .ranOut }) :=
  (recoveryExpiry_runs h).trans (recoveryTest_reported hsome)

/-! ### The sweep (R145) -/

/-- The token after a sweep: the keys missed 3 times are out, and the timer starts again. -/
def sweptToken (s : State) (t : Token) : Token :=
  { t with inFlight := (t.inFlight.map s.swept).filter (fun x => x.misses < 3), sweepTimer := some (sec 2) }

/-- A sweep with no recovery to test again; the admission test is prompted only if a key left the list. -/
theorem sweep_runs {s : State} (ht : s.token.sweepTimer.isSome = true) (hr : s.token.recovery ≠ .ranOut) :
    s.sweep = s.modToken (sweptToken s) ∨ s.sweep = (s.modToken (sweptToken s)).emit .admissionTest := by
  unfold State.sweep
  rw [if_pos ht]
  dsimp only
  split
  · exact Or.inr (recoveryTest_notRanOut hr)
  · exact Or.inl (recoveryTest_notRanOut hr)

/-! ### The obligation -/

/-- Settles O41: each of the three changes the token alone, and the admission test it may prompt admits nothing. -/
theorem flightListKept : Obligations.FlightListKept := by
  intro s hshut
  refine ⟨fun src dst p h => ?exitNote, fun hn ht hr => ran_modToken (sweep_runs ht hr) hn hshut rfl,
    fun left hn hr => ?recovery⟩
  case exitNote =>
    have howner := receive_accepted h State.onExitNote
    have hcalm := after_calm h
    have hpending := after_pending .exitNote src s
    rw [← after_isFoot .exitNote src s, ← after_token .exitNote src s]
    split
    · next hown =>
      have hlands := onExitNote_own (rx := s.rxOf .exitNote src dst p) hown
      rw [← howner] at hlands
      exact ran_modToken hlands hcalm ((after_shut _ _ _).trans hshut) hpending
    · next hother => exact ran_quiet (howner.trans (onExitNote_other hother)) hcalm hpending
  case recovery =>
    cases hb : s.noBatchReported with
    | true => exact ran_modToken (Or.inr (recoveryExpiry_recovers hr hb)) hn hshut rfl
    | false => exact ran_modToken (Or.inl (recoveryExpiry_waits hr hb)) hn hshut rfl

end Sys2Proof.Approaches
end

section
/-! The toll log as the desk reads it and removes from it (R181, R182). -/

namespace Sys2Proof.PageStore
open Sys2Proof Sys2Proof.Machine

/-- A request sent to all is handed to no owner (R7). -/
theorem request_addressed {s : State} {k : Kind} {src dst : Addr} {p : List Byte} (h : s.accepts k src dst p = true)
    (hk : k.isRequest = true) : dst ≠ broadcastAddr := by
  intro hd
  unfold State.accepts at h
  simp [hd, hk] at h

/-! ### TOLL_READ (R181) -/

theorem onTollRead_empty {s : State} {rx : Rx} (h : s.store.log = []) :
    s.onTollRead rx = s.refuseRx .tollRead rx .notHeld := by
  unfold State.onTollRead
  rw [h]

/-- The stream of a record to the desk under a tag, with the next stream number (R181). -/
def readBegun (tag : Nat) (r : Record) (b : State) : State :=
  State.readNext { b with
    link := { b.link with nextStream := b.link.nextStream + 1 },
    toll := { b.toll with
      stream := some { number := b.link.nextStream, tag := tag, logNumber := r.logNumber, total := r.total,
                       segments := r.segments 1 } } }

/-- The oldest record is read in place of what was read before. -/
theorem onTollRead_oldest {s : State} {rx : Rx} {r : Record} {rest : List Record} (h : s.store.log = r :: rest) :
    s.onTollRead rx = readBegun (byteAt rx.payload 0) r s.abandonRead := by
  unfold State.onTollRead
  rw [h]
  rfl

theorem abandonRead_none {s : State} (h : s.toll.stream = none) : s.abandonRead = s := by
  unfold State.abandonRead
  rw [h]

/-! ### TOLL_REMOVE (R182) -/

/-- The record's pages freed, the log wait tested again, the places left told to the desk (R179, R182). -/
def recordRemoved (r : Record) (b : State) : State :=
  State.offerTollReady (State.emit .logWaitTest (b.setStore (b.store.freeOne r)))

theorem onTollRemove_oldest {s : State} {rx : Rx} {r : Record} {rest : List Record} (h : s.store.log = r :: rest)
    (hr : r.logNumber = be16 rx.payload 0) : s.onTollRemove rx
      = recordRemoved r (if s.toll.stream.any (fun x => x.logNumber = r.logNumber) then s.abandonRead else s) := by
  unfold State.onTollRemove
  rw [h]
  exact if_pos hr

/-- A removal that does not name the oldest record, or finds the log empty, is refused. -/
theorem onTollRemove_other {s : State} {rx : Rx}
    (h : s.store.log.head?.all (fun r => r.logNumber ≠ be16 rx.payload 0) = true) :
    s.onTollRemove rx = s.refuseRx .tollRemove rx .badField := by
  unfold State.onTollRemove
  cases hlog : s.store.log with
  | nil => rfl
  | cons r rest =>
    rw [hlog] at h
    exact if_neg (by simpa using h)

/-! ### The obligation -/

/-- Settles O48: each frame by the record that stands at the front of the log. -/
theorem tollFrames : Obligations.TollFrames := by
  intro s dst p
  refine ⟨fun h => ?read, fun h => ?remove, abandonRead_none⟩
  case read =>
    intro a
    have hstore : a.store = s.store := after_store _ _ _
    rw [← hstore]
    refine ⟨fun hempty hroom => ?_, fun r rest hlog => ?_⟩
    · exact ran_refused h (request_addressed h rfl) (onTollRead_empty hempty) (by decide) hroom rfl
    · exact Crossings.ran_eq ((receive_accepted h _).trans (onTollRead_oldest hlog))
  case remove =>
    intro a
    have hstore : a.store = s.store := after_store _ _ _
    have htoll : a.toll = s.toll := after_toll _ _ _
    rw [← hstore, ← htoll]
    refine ⟨fun r rest hlog hnamed => ?_, fun hother hall => ?_, fun hother haddressed hroom => ?_⟩
    · exact Crossings.ran_eq ((receive_accepted h _).trans (onTollRemove_oldest hlog hnamed))
    · have hrefused := (receive_accepted h _).trans (onTollRemove_other (s := a) (rx := s.rxOf .tollRemove deskAddr dst p) hother)
      have hsilent : a.refuseRx .tollRemove (s.rxOf .tollRemove deskAddr dst p) .badField = a := by
        unfold State.refuseRx State.rxOf
        rw [decide_eq_true hall]
        exact refuse_bc _ _ _ _
      exact ran_quiet (hrefused.trans hsilent) (after_calm h) (after_pending _ _ _)
    · exact ran_refused h haddressed (onTollRemove_other hother) (by decide) hroom rfl

end Sys2Proof.PageStore
end

section
/-! The timers of the record store: the gap, the wait between attempts, the low-store repeat (R161, R162, R164, R165). -/

namespace Sys2Proof.PageStore
open Sys2Proof Sys2Proof.Machine

/-! ### The inbound transfer (R161, R162, R164) -/

theorem gapExpiry_runs {s : State} (h : s.store.gapTimer.isSome = true) : s.gapExpiry = s.attemptFailed true := if_pos h

theorem attemptWaitExpiry_runs {s : State} (h : s.store.attemptWait.isSome = true) :
    s.attemptWaitExpiry = State.transferTest { s with store := { s.store with attemptWait := none } } := if_pos h

/-- The transfer's next attempt can begin, once no wait runs: it is PAUSED, its sender PRESENT and unmarked (R161). -/
def attemptReady (s : State) : Prop :=
  s.works = true ∧ s.store.inbound.state = .paused ∧ s.isPresent s.senderNo = true ∧ s.isMarked s.senderNo = false

/-- The test of R161 as `transferTest` makes it. -/
theorem attemptReady_iff {s : State} (hw : s.store.attemptWait = none) :
    (s.works && s.store.inbound.state = .paused && s.store.attemptWait.isNone && s.isPresent s.senderNo
      && !s.isMarked s.senderNo) = true ↔ attemptReady s := by
  unfold attemptReady
  rw [hw]
  simp only [Bool.and_eq_true, decide_eq_true_eq, Option.isNone_none, and_true, Bool.not_eq_true', and_assoc]

/-- The transfer at the first segment of its next attempt. -/
def nextAttempt (i : Inbound) : Inbound :=
  { i with state := .asking, attempt := i.attempt + 1, position := 1, index := 0, records := 0, lineCount := 0,
           carryFollows := false }

theorem transferTest_begins {s : State} (hw : s.store.attemptWait = none) (h : attemptReady s) : s.transferTest
    = State.request
        { block := .record, kind := .xferAsk, dst := s.store.inbound.sender,
          body := [s.store.inbound.key, byte (s.store.inbound.attempt + 1)], upper := none, key := s.store.inbound.key }
        (s.modInbound nextAttempt) := if_pos ((attemptReady_iff hw).mpr h)

theorem transferTest_waits {s : State} (hw : s.store.attemptWait = none) (h : ¬ attemptReady s) : s.transferTest = s :=
  if_neg (fun hc => h ((attemptReady_iff hw).mp hc))

/-! ### The low store (R165) -/

theorem lowStoreRepeat_low {s : State} (h : s.store.low = true) (ht : s.store.lowTimer.isSome = true) :
    s.lowStoreRepeat = State.holdEnds 30 { s with store := { s.store with lowTimer := some (sec 10) } } := if_pos ⟨h, ht⟩

theorem lowStoreRepeat_normal {s : State} (h : s.store.low = false) : s.lowStoreRepeat = s :=
  if_neg (fun hc => Bool.false_ne_true (h.symm.trans hc.1))

/-! ### The obligation -/

/-- Settles O59: the gap timer's end is a failed attempt, the end of the 1 s the test of R161, the last a repeat. -/
theorem storeTimers : Obligations.StoreTimers := by
  intro s hn i
  refine ⟨fun hgap => ?gap, fun hwait => ?wait, fun hlow ht => Crossings.ran_eq (lowStoreRepeat_low hlow ht),
    fun hnormal => ran_quiet (lowStoreRepeat_normal hnormal) hn rfl⟩
  case gap => exact Crossings.ran_eq ((gapExpiry_runs hgap).trans (FlightLink.attemptFailed_eq rfl))
  case wait =>
    intro t
    have hruns : s.attemptWaitExpiry = t.transferTest := attemptWaitExpiry_runs hwait
    refine ⟨fun hw hp hpresent hmark => ?_, fun hnot => ?_⟩
    · have hready : attemptReady t := ⟨hw, hp, hpresent, hmark⟩
      exact Crossings.ran_eq (hruns.trans (transferTest_begins rfl hready))
    · have hbarred : ¬ attemptReady t := by
        rintro ⟨hw, hp, hpresent, hmark⟩
        rcases hnot with h | h | h | h
        · exact Bool.false_ne_true (h.symm.trans hw)
        · exact h hp
        · exact Bool.false_ne_true (h.symm.trans hpresent)
        · exact Bool.false_ne_true (hmark.symm.trans h)
      exact ran_quiet (hruns.trans (transferTest_waits rfl hbarred)) hn rfl

end Sys2Proof.PageStore
end

section
/-! The station clock: TIME, the minute timer and the ageing pass (R172, R173). -/

namespace Sys2Proof.Tariffs
open Sys2Proof Sys2Proof.Machine

/-- The Vessel Table with every slot changed alike. -/
def eachSlot (f : Option Vessel → Option Vessel) (t : VesselTable) : VesselTable :=
  { home := t.home.map f, overflow := t.overflow.map f }

theorem clockNow_known {s : State} (h : s.tariff.known = true) : s.clockNow = some (s.tariff.day, s.tariff.minute) :=
  if_pos h

/-- While the time is known, the ageing pass goes over every slot (R172). -/
theorem agePass_known {c : Tariff} (h : c.known = true) (s : State) : State.agePass { s with tariff := c } = { s with
    tariff := c, vessels := eachSlot (ageKeeps (some (c.day, c.minute)) s.cfg.agePeriod) s.vessels } := by
  unfold State.agePass
  rw [if_pos h, clockNow_known h]
  rfl

/-- The clock at a time, its minute timer started afresh (R173). -/
def clockAt (now : BitVec 16 × Nat) (c : Tariff) : Tariff :=
  { c with day := now.1, minute := now.2, minuteTimer := some (sec 60) }

/-- The time of a TIME's payload (12.2). -/
def timeIn (p : List Byte) : BitVec 16 × Nat := (BitVec.ofNat 16 (be16 p 0), be16 p 2)

/-- The first TIME gives its time to every entry whose last seen is unknown; a later one leaves the table (R172). -/
def seenAt (known : Bool) (now : BitVec 16 × Nat) (t : VesselTable) : VesselTable :=
  if known then t else eachSlot (seenFirst (some now)) t

theorem onTime_eq (rx : Rx) (s : State) : s.onTime rx = { s with
    tariff := { clockAt (timeIn rx.payload) s.tariff with known := true },
    vessels := eachSlot (ageKeeps (some (timeIn rx.payload)) s.cfg.agePeriod)
      (seenAt s.tariff.known (timeIn rx.payload) s.vessels) } := by
  have haged := fun t : VesselTable =>
    agePass_known (c := { clockAt (timeIn rx.payload) s.tariff with known := true }) rfl { s with vessels := t }
  unfold State.onTime
  cases s.tariff.known with
  | true => exact haged s.vessels
  | false => exact haged (eachSlot (seenFirst (some (timeIn rx.payload))) s.vessels)

/-- The minute after a time: 1439 is followed by 0 of the next day (R173). -/
def nextMinute (day : BitVec 16) (minute : Nat) : BitVec 16 × Nat :=
  if minute = 1439 then (day + 1, 0) else (day, minute + 1)

/-- What the minute timer's end makes of the clock is the time that follows. -/
theorem clockAt_nextMinute (c : Tariff) : clockAt (nextMinute c.day c.minute) c = { c with
    minute := if c.minute = 1439 then 0 else c.minute + 1, day := if c.minute = 1439 then c.day + 1 else c.day,
    minuteTimer := some (sec 60) } := by
  unfold clockAt nextMinute
  split <;> rfl

theorem minuteExpiry_known {s : State} (hk : s.tariff.known = true) (ht : s.tariff.minuteTimer.isSome = true) :
    s.minuteExpiry = { s with
      tariff := clockAt (nextMinute s.tariff.day s.tariff.minute) s.tariff,
      vessels := eachSlot (ageKeeps (some (nextMinute s.tariff.day s.tariff.minute)) s.cfg.agePeriod) s.vessels } := by
  have haged := agePass_known (c := clockAt (nextMinute s.tariff.day s.tariff.minute) s.tariff) hk s
  have hclock := congrArg (fun c => State.agePass { s with tariff := c }) (clockAt_nextMinute s.tariff)
  exact (if_pos ⟨hk, ht⟩).trans (hclock.symm.trans haged)

/-- Settles O45: the owner of TIME and the minute timer's end set the clock, and the ageing pass follows at a known time. -/
theorem clockSet : Obligations.ClockSet := by
  intro s aged
  refine ⟨fun dst p h => ?time, fun hn hknown ht => ?minute⟩
  case time =>
    have howner := onTime_eq (s.rxOf .time deskAddr dst p) (s.after .time deskAddr)
    rw [after_tariff, after_vessels, after_cfg] at howner
    exact ran_owner h howner (after_calm h) (after_pending .time deskAddr s)
  case minute =>
    exact ran_quiet (minuteExpiry_known hknown ht) hn rfl

end Sys2Proof.Tariffs
end

section
/-! Frames turned away: fields that cannot be read (R5, R7, R8), and kinds an UNCONFIGURED station takes from none (R9). -/

namespace Sys2Proof.Tariffs
open Sys2Proof Sys2Proof.Machine

theorem noted_roleTest (k : Kind) (src : Addr) (s : State) : (s.noted src).roleTest k src = s.roleTest k src := by
  unfold State.roleTest State.roleMet State.isEnd State.isFoot State.isHead State.k State.n State.cfg
  rw [noted_loader]

/-- A frame heard and bound for the station meets the tests that its mode calls for (R5, R9). -/
theorem receive_taken {s : State} {src dst : Addr} (h : s.follows src = true) (ht : s.isTaken dst = true) (k : Kind)
    (p : List Byte) (owner : Rx → State → State) : s.receive k src dst p owner
      = if s.ctl.mode = .unconfigured then (s.noted src).takeUnconfigured k src dst p owner
        else (s.noted src).takeFrame k src dst p owner := by
  obtain ⟨hh, hv⟩ := follows_hears h
  unfold State.receive
  rw [hh, hv, follows_reportSource h]
  dsimp only
  rw [noted_taken, ht, noted_ctl]
  rfl

/-- A frame with a field out of range, or of the wrong length, is refused once its sender's widen slot is used (R5, R7). -/
theorem receive_badField {s : State} {k : Kind} {src dst : Addr} {p : List Byte} (h : s.follows src = true)
    (ht : s.isTaken dst = true) (hm : s.ctl.mode ≠ .unconfigured) (hr : s.roleTest k src = true)
    (hf : fieldsOk k p = false) (owner : Rx → State → State) : s.receive k src dst p owner
      = (s.after k src).refuse src (decide (dst = broadcastAddr)) (BitVec.ofNat 6 k.code) (refusedTag k p) .badField := by
  have hrole : (s.noted src).roleTest k src = true := (noted_roleTest k src s).trans hr
  rw [receive_taken h ht, if_neg hm]
  unfold State.takeFrame
  dsimp only
  rw [hrole, hf]
  unfold State.after State.setWidenSlot State.widenSlot
  rw [noted_link]
  rfl

/-- An UNCONFIGURED station refuses BUSY a kind that it acts on neither addressed nor sent to all (R9, R28). -/
theorem receive_busy {s : State} {k : Kind} {src dst : Addr} {p : List Byte} (h : s.follows src = true)
    (ht : s.isTaken dst = true) (hm : s.ctl.mode = .unconfigured) (ha : k.takenUnconfigured = false)
    (hb : k.broadcastUnconfigured = false) (owner : Rx → State → State) : s.receive k src dst p owner
      = (s.noted src).refuse src (decide (dst = broadcastAddr)) (BitVec.ofNat 6 k.code) (refusedTag k p) .busy := by
  rw [receive_taken h ht, if_pos hm]
  unfold State.takeUnconfigured
  by_cases hd : dst = broadcastAddr
  · rw [if_pos hd, hb, decide_eq_true hd, refuse_bc]
    rfl
  · rw [if_neg hd, ha, decide_eq_false hd]
    rfl

/-- What a command answers whose frame is refused: the REFUSE where there is room, nothing to a frame sent to all (R8). -/
theorem ran_refusal {f : State → State} {s t : State} {src dst : Addr} {kind : BitVec 6} {tag : Nat} {r : Reason}
    {q : List Byte} (h : f s = t.refuse src (decide (dst = broadcastAddr)) kind tag r)
    (hk : kind ≠ BitVec.ofNat 6 Kind.refuse.code) (hq : [byte r.code, byte kind.toNat, byte tag] = q)
    (hn : t.notices = []) (hp : t.pending = s.pending) (hr : t.room 1 = true) :
    ran f s = .next (if dst = broadcastAddr then t else t.queued .link .refuse src q) := by
  by_cases hd : dst = broadcastAddr
  · rw [decide_eq_true hd, refuse_bc] at h
    rw [if_pos hd]
    exact ran_quiet h hn hp
  · rw [decide_eq_false hd, refuse_room _ _ _ _ hk hr, hq] at h
    rw [if_neg hd]
    exact ran_quiet h (queued_calm hn) (queued_pend hp)

/-- What the command of a frame with unreadable fields answers (R5, R7, R8). -/
theorem ran_badField {s : State} {k : Kind} {src dst : Addr} {p q : List Byte} (h : s.follows src = true)
    (ht : s.isTaken dst = true) (hm : s.ctl.mode ≠ .unconfigured) (hr : s.roleTest k src = true)
    (hf : fieldsOk k p = false) (hroom : s.room 1 = true) (hk : BitVec.ofNat 6 k.code ≠ BitVec.ofNat 6 Kind.refuse.code)
    (hq : [byte Reason.badField.code, byte (BitVec.ofNat 6 k.code).toNat, byte (refusedTag k p)] = q)
    (owner : Rx → State → State) : ran (State.receive k src dst p owner) s
      = .next (if dst = broadcastAddr then s.after k src else (s.after k src).queued .link .refuse src q) :=
  ran_refusal (receive_badField h ht hm hr hf owner) hk hq ((after_notices k src s).trans (follows_calm h))
    (after_pending k src s) (after_room k src hroom)

/-- What the command of a frame of such a kind answers in UNCONFIGURED (R8, R9). -/
theorem ran_busy {s : State} {k : Kind} {src dst : Addr} {p q : List Byte} (h : s.follows src = true)
    (ht : s.isTaken dst = true) (hm : s.ctl.mode = .unconfigured) (ha : k.takenUnconfigured = false)
    (hb : k.broadcastUnconfigured = false) (hroom : s.room 1 = true)
    (hk : BitVec.ofNat 6 k.code ≠ BitVec.ofNat 6 Kind.refuse.code)
    (hq : [byte Reason.busy.code, byte (BitVec.ofNat 6 k.code).toNat, byte (refusedTag k p)] = q)
    (owner : Rx → State → State) : ran (State.receive k src dst p owner) s
      = .next (if dst = broadcastAddr then s.noted src else (s.noted src).queued .link .refuse src q) :=
  ran_refusal (receive_busy h ht hm ha hb owner) hk hq (noted_calm h) (noted_pending src s) (noted_room hroom)

/-- A frame that is heard, taken, in its role and readable is handed over, where it is no request sent to all. -/
theorem accepts_of {s : State} {k : Kind} {src dst : Addr} {p : List Byte} (h : s.follows src = true)
    (ht : s.isTaken dst = true) (hm : s.ctl.mode ≠ .unconfigured) (hr : s.roleTest k src = true)
    (hf : fieldsOk k p = true) (hq : k.isRequest = false) : s.accepts k src dst p = true := by
  unfold State.accepts
  rw [h, ht, hr, hf, hq, decide_eq_true hm, Bool.and_false]
  rfl

end Sys2Proof.Tariffs
end

section
/-! The rate tables: RATE_SET, RATE_COMMIT, and the price of a line (R175, R176). -/

namespace Sys2Proof.Tariffs
open Sys2Proof Sys2Proof.Machine

/-! ### The tables (R175) -/

theorem rateIdx_group {g b : Nat} (hg : g < 8) (hb : b < 4) : (rateIdx g b).val / 4 = g := by
  show (4 * g + b) % 32 / 4 = g
  omega

/-- The active table with one group's amounts taken from the staged table. -/
def groupCommitted (g : Nat) (c : Tariff) : Vector (BitVec 16) 32 :=
  Vector.ofFn (fun i => if i.val / 4 = g then c.staged[i] else c.active[i])

theorem groupCommitted_own {g b : Nat} (c : Tariff) (hg : g < 8) (hb : b < 4) :
    (groupCommitted g c)[rateIdx g b] = c.staged[rateIdx g b] := by
  unfold groupCommitted
  rw [Fin.getElem_fin, Vector.getElem_ofFn]
  exact if_pos (rateIdx_group hg hb)

theorem groupCommitted_other {g g' b : Nat} (c : Tariff) (hg : g' < 8) (hb : b < 4) (hne : g' ≠ g) :
    (groupCommitted g c)[rateIdx g' b] = c.active[rateIdx g' b] := by
  unfold groupCommitted
  rw [Fin.getElem_fin, Vector.getElem_ofFn]
  exact if_neg (by rw [rateIdx_group hg hb]; exact hne)

/-! ### The owners (R175) -/

theorem field_5_3 (n : Nat) (h : n < 256) : field n 5 3 = n / 32 := by unfold field; omega

theorem field_3_2 (n : Nat) : field n 3 2 = n / 8 % 4 := by unfold field; omega

theorem onRateSet_eq (rx : Rx) (s : State) : s.onRateSet rx = { s with tariff := { s.tariff with
    staged := s.tariff.staged.set (rateIdx (byteAt rx.payload 0 / 32) (byteAt rx.payload 0 / 8 % 4))
      (BitVec.ofNat 16 (be16 rx.payload 1)) } } := by
  unfold State.onRateSet
  simp only [field_5_3 _ (byteAt_lt _ _), field_3_2]

theorem onRateCommit_all {rx : Rx} (h : byteAt rx.payload 0 = 8) (s : State) :
    s.onRateCommit rx = { s with tariff := { s.tariff with active := s.tariff.staged } } := by
  unfold State.onRateCommit
  dsimp only
  rw [if_pos h]

theorem onRateCommit_group {rx : Rx} (h : byteAt rx.payload 0 < 8) (s : State) : s.onRateCommit rx
    = { s with tariff := { s.tariff with active := groupCommitted (byteAt rx.payload 0) s.tariff } } := by
  unfold State.onRateCommit
  dsimp only
  rw [if_neg (by omega)]
  rfl

/-- A frame whose owner changes the Tariff Unit alone makes nothing known. -/
theorem ran_tariff {s : State} {k : Kind} {src dst : Addr} {p : List Byte} (h : s.accepts k src dst p = true)
    {owner : Rx → State → State} {c : Tariff}
    (ho : owner (s.rxOf k src dst p) (s.after k src) = { s.after k src with tariff := c }) :
    ran (State.receive k src dst p owner) s = .next { s.after k src with tariff := c } :=
  ran_owner h ho (after_calm h) (after_pending k src s)

/-! ### The fields (12.2) -/

theorem rateCommit_fields {p : List Byte} : fieldsOk .rateCommit p = true ↔ p.length = 1 ∧ byteAt p 0 ≤ 8 := by
  show (decide (p.length = 1) && decide (byteAt p 0 ≤ 8)) = true ↔ _
  rw [Bool.and_eq_true, decide_eq_true_eq, decide_eq_true_eq]

theorem rateCommit_unreadable {p : List Byte} (h : p.length ≠ 1 ∨ 8 < byteAt p 0) : fieldsOk .rateCommit p = false := by
  rw [Bool.eq_false_iff, ne_eq, rateCommit_fields]
  omega

/-! ### Prices (R176) -/

theorem feesOf_toNat {n : Nat} (h : n < 4294967296) : (feesOf n).toNat = n := by
  unfold feesOf
  rw [if_pos h, BitVec.toNat_ofNat]
  exact Nat.mod_eq_of_lt h

theorem priceNow_chamber {c : VClass} (hc : c ≠ .exempt) (g len : Nat) (s : State) :
    s.priceNow .chamber c g len = feesOf (s.tariff.active[rateIdx g s.bandNow].toNat * len) := if_neg hc

/-- A rate times a length class of at most 8 fits the 32 bits of an amount. -/
theorem rate_fits (a : BitVec 16) {len : Nat} (h : len ≤ 8) : a.toNat * len < 4294967296 := by
  have hrate : a.toNat * len ≤ 65536 * 8 := Nat.mul_le_mul a.isLt.le h
  omega

/-! ### The obligation -/

/-- Settles O46: the two frames by their fields and the mode, the price by the active table's amount. -/
theorem ratesSet : Obligations.RatesSet := by
  intro s dst p h ht refused
  refine ⟨fun hm hlen => ?set, fun hm hlen hg => ?group, fun hm hlen hg => ?all, fun hm hr hlen => ?setBad,
    fun hm hr hbad => ?commitBad, fun hm hr => ⟨?setBusy, ?commitBusy⟩, fun c g len hc _ hlen => ?price⟩
  case set =>
    have hacc : s.accepts .rateSet deskAddr dst p = true := accepts_of h ht hm rfl (decide_eq_true hlen) rfl
    have howner := onRateSet_eq (s.rxOf .rateSet deskAddr dst p) (s.after .rateSet deskAddr)
    rw [after_tariff] at howner
    exact ran_tariff hacc howner
  case group =>
    have hacc : s.accepts .rateCommit deskAddr dst p = true :=
      accepts_of h ht hm rfl (rateCommit_fields.mpr ⟨hlen, hg.le⟩) rfl
    have howner := onRateCommit_group (rx := s.rxOf .rateCommit deskAddr dst p) hg (s.after .rateCommit deskAddr)
    rw [after_tariff] at howner
    exact ⟨groupCommitted (byteAt p 0) s.tariff, ran_tariff hacc howner, fun b hb => groupCommitted_own _ hg hb,
      fun g' b hg' hb hne => groupCommitted_other _ hg' hb hne⟩
  case all =>
    have hacc : s.accepts .rateCommit deskAddr dst p = true :=
      accepts_of h ht hm rfl (rateCommit_fields.mpr ⟨hlen, hg.le⟩) rfl
    have howner := onRateCommit_all (rx := s.rxOf .rateCommit deskAddr dst p) hg (s.after .rateCommit deskAddr)
    rw [after_tariff] at howner
    exact ran_tariff hacc howner
  case setBad => exact ran_badField (k := .rateSet) h ht hm rfl (decide_eq_false hlen) hr (by decide) rfl _
  case commitBad => exact ran_badField (k := .rateCommit) h ht hm rfl (rateCommit_unreadable hbad) hr (by decide) rfl _
  case setBusy => exact ran_busy (k := .rateSet) h ht hm rfl rfl hr (by decide) rfl _
  case commitBusy => exact ran_busy (k := .rateCommit) h ht hm rfl rfl hr (by decide) rfl _
  case price =>
    rw [priceNow_chamber hc]
    exact feesOf_toNat (rate_fits _ hlen)

end Sys2Proof.Tariffs
end

section
/-! The band of a minute, and the line that carries it (R154, R156, R174, R176). -/

namespace Sys2Proof.Tariffs
open Sys2Proof Sys2Proof.Machine

/-! ### The boundary minutes (R25) -/

/-- A record that passes gives the settings its bytes hold, and passes every range test. -/
theorem passed_tests {strap : BitVec 4} {p : List Byte} {c : Settings} (h : checkRecord strap p = .passed c) :
    c = settingsOf p ∧ ∀ t ∈ fieldTests p, t.2 = true := by
  unfold checkRecord at h
  dsimp only at h
  split_ifs at h
  split at h
  · cases h
  · rename_i hnone
    rw [List.find?_eq_none] at hnone
    cases h
    exact ⟨rfl, fun t ht => by simpa using hnone t ht⟩

theorem passed_bands {strap : BitVec 4} {p : List Byte} {c : Settings} (h : checkRecord strap p = .passed c) :
    c.band1 < c.band2 ∧ c.band2 < c.band3 ∧ c.band3 < 1440 := by
  obtain ⟨rfl, htests⟩ := passed_tests h
  have h2 := of_decide_eq_true
    (htests (22, decide ((settingsOf p).band2 < 1440 ∧ (settingsOf p).band1 < (settingsOf p).band2)) (by simp [fieldTests]))
  have h3 := of_decide_eq_true
    (htests (23, decide ((settingsOf p).band3 < 1440 ∧ (settingsOf p).band2 < (settingsOf p).band3)) (by simp [fieldTests]))
  exact ⟨h2.2, h3.2, h3.1⟩

/-! ### The band (R174) -/

theorem bandNow_unknown {s : State} (h : s.tariff.known = false) : s.bandNow = 0 :=
  if_neg (Bool.eq_false_iff.mp h)

theorem bandNow_known {s : State} (h : s.tariff.known = true) : s.bandNow = bandOf s.cfg s.tariff.minute := if_pos h

/-- The four intervals that rising boundary minutes cut the day into. -/
theorem bandOf_intervals {c : Settings} (m : Nat) (h12 : c.band1 < c.band2) (h23 : c.band2 < c.band3) :
    (m < c.band1 → bandOf c m = 0) ∧ (c.band1 ≤ m → m < c.band2 → bandOf c m = 1)
      ∧ (c.band2 ≤ m → m < c.band3 → bandOf c m = 2) ∧ (c.band3 ≤ m → bandOf c m = 3) := by
  unfold bandOf
  refine ⟨fun hm => if_pos hm, fun h1 hm => ?_, fun h2 hm => ?_, fun h3 => ?_⟩
  · rw [if_neg (by omega), if_pos hm]
  · rw [if_neg (by omega), if_neg (by omega), if_pos hm]
  · rw [if_neg (by omega), if_neg (by omega), if_neg (by omega)]

/-! ### A record found by its place -/

theorem recordAt_setStore (st : Store) (s : State) (key : BatchKey) (pos : Nat) :
    (s.setStore st).store.recordAt key pos = st.recordAt key pos := by
  obtain ⟨low, timer, h⟩ := setStore_store st s
  rw [h]
  rfl

/-- A change that leaves a record at its place is seen there. -/
theorem recordAt_update {st : Store} {r : Record} {f : Record → Record} (hk : (f r).key = r.key)
    (hp : (f r).position = r.position) (hs : (f r).state = r.state) (h : st.recordAt r.key r.position = some r) :
    (st.update r f).recordAt r.key r.position = some (f r) := by
  refine changeFirst_find st.records h ?_
  have hstands := List.find?_some h
  unfold Record.standsAt at hstands ⊢
  rw [hk, hp, hs]
  exact hstands

/-- An allocation does not see a change that leaves what every record counts toward its batch. -/
theorem alloc_update {st : Store} (r : Record) {f : Record → Record} (hf : ∀ k x, recvOf k (f x) = recvOf k x)
    (key : BatchKey) (receiving : Bool) : (st.update r f).alloc key receiving = st.alloc key receiving := by
  have hremaining : (st.update r f).remaining = st.remaining := by
    funext x
    unfold Store.remaining
    rw [receivingPages_eq, receivingPages_eq]
    exact congrArg (x.promise - ·) (changeFirst_recv_same _ _ _ _ (hf x.key))
  have hreserved : (st.update r f).reserved = st.reserved := by
    unfold Store.reserved
    rw [hremaining]
    rfl
  unfold Store.alloc Store.available
  rw [hremaining, hreserved]
  rfl

/-! ### A line appended (R154, R156) -/

/-- A line for the record has a place: it begins no page, or a page can be had. -/
def lineHasPlace (r : Record) (st : Store) : Prop :=
  r.lines.length % 4 ≠ 0 ∨ (st.alloc r.key (r.state = .receiving)).isSome = true

/-- With a place the line is appended; without, the record keeps its lines. -/
theorem appendLine_lines {st : Store} {r : Record} (l : Line) (h : st.recordAt r.key r.position = some r) :
    ∃ r', (st.appendLine l r).recordAt r.key r.position = some r'
      ∧ (lineHasPlace r st → r'.lines = r.lines ++ [l]) ∧ (¬ lineHasPlace r st → r'.lines = r.lines) := by
  unfold Store.appendLine
  by_cases hpage : r.lines.length % 4 = 0
  · rw [if_pos hpage]
    cases halloc : st.alloc r.key (r.state = .receiving) with
    | none =>
      have hfull : ¬ lineHasPlace r st := by
        unfold lineHasPlace
        rw [halloc]
        simp [hpage]
      exact ⟨_, recordAt_update (f := Record.toCarry l.amount) rfl rfl rfl h, fun hp => absurd hp hfull, fun _ => rfl⟩
    | some page =>
      have hplace : lineHasPlace r st := .inr (by rw [halloc]; rfl)
      exact ⟨_, recordAt_update (st := { st with free := page.2 }) (f := fun x => { x with
        lines := x.lines ++ [l], pages := x.pages ++ [page.1] }) rfl rfl rfl h, fun _ => rfl, fun hn => absurd hplace hn⟩
  · rw [if_neg hpage]
    exact ⟨_, recordAt_update (f := fun x => { x with lines := x.lines ++ [l] }) rfl rfl rfl h, fun _ => rfl,
      fun hn => absurd (.inl hpage) hn⟩

/-! ### A line added (R156, R176) -/

/-- The line of this station that is priced now for a record. -/
def lineNow (kind : LineKind) (r : Record) (s : State) : Line :=
  { kind := kind, chamber := s.k, band := s.bandNow, amount := s.priceNow kind r.cls r.group r.lengthClass }

/-- The marks that every line leaves in its record's header (R156). -/
def lineMarks (kind : LineKind) (s : State) (x : Record) : Record :=
  { x with timeUnknown := x.timeUnknown || !s.tariff.known, assisted := x.assisted || kind = .assist }

/-- The record takes a line of the kind: one CHAMBER line of a chamber, and at most four ASSIST lines (R154, R156). -/
def takesLine (kind : LineKind) (r : Record) (s : State) : Prop :=
  (kind = .chamber → r.hasChamber s.k = false) ∧ (kind = .assist → r.assists < 4)

theorem addLine_taken {s : State} {kind : LineKind} {key : BatchKey} {pos : Nat} {r : Record}
    (hr : s.store.recordAt key pos = some r) (ht : takesLine kind r s) : s.addLine kind key pos
      = s.setStore (Store.appendLine (lineNow kind r s) (lineMarks kind s r) (s.store.update r (lineMarks kind s))) := by
  unfold State.addLine
  rw [hr]
  cases kind with
  | chamber => exact if_neg (Bool.eq_false_iff.mp (ht.1 rfl))
  | assist => exact if_neg (Nat.not_le.mpr (ht.2 rfl))

/-- A second CHAMBER line of a chamber is not added; a fifth ASSIST line goes to the carry. -/
theorem addLine_notTaken {s : State} {kind : LineKind} {key : BatchKey} {pos : Nat} {r : Record}
    (hr : s.store.recordAt key pos = some r) (ht : ¬ takesLine kind r s) :
    s.addLine kind key pos = s ∨ s.addLine kind key pos = s.setStore
      (s.store.update r (fun x => (lineMarks kind s x).toCarry (lineNow kind r s).amount)) := by
  unfold State.addLine
  rw [hr]
  cases kind with
  | chamber =>
    have hhas : r.hasChamber s.k = true := by
      by_contra hc
      exact ht ⟨fun _ => Bool.eq_false_iff.mpr hc, fun hk => nomatch hk⟩
    exact .inl (if_pos hhas)
  | assist =>
    have hfour : 4 ≤ r.assists := by
      by_contra hc
      exact ht ⟨fun hk => (nomatch hk), fun _ => Nat.lt_of_not_le hc⟩
    exact .inr (if_pos hfour)

/-- A record that takes a line gets it, priced now, where it has a place; otherwise it keeps its lines. -/
theorem addLine_lines {s : State} {kind : LineKind} {key : BatchKey} {pos : Nat} {r : Record}
    (hr : s.store.recordAt key pos = some r) :
    ∃ r', (s.addLine kind key pos).store.recordAt key pos = some r'
      ∧ (takesLine kind r s → lineHasPlace r s.store → r'.lines = r.lines ++ [lineNow kind r s])
      ∧ (r'.lines = r.lines ∨ r'.lines = r.lines ++ [lineNow kind r s]) := by
  obtain ⟨rfl, rfl, -⟩ := recordAt_find hr
  by_cases ht : takesLine kind r s
  · have hmarked : (s.store.update r (lineMarks kind s)).recordAt r.key r.position = some (lineMarks kind s r) :=
      recordAt_update rfl rfl rfl hr
    have hplace : lineHasPlace (lineMarks kind s r) (s.store.update r (lineMarks kind s)) ↔ lineHasPlace r s.store := by
      unfold lineHasPlace
      rw [alloc_update r (f := lineMarks kind s) (fun k x => recvOf_same rfl rfl rfl k)]
      rfl
    obtain ⟨r', hat, happended, hkept⟩ := appendLine_lines (r := lineMarks kind s r) (lineNow kind r s) hmarked
    rw [addLine_taken hr ht, recordAt_setStore]
    refine ⟨r', hat, fun _ hp => happended (hplace.mpr hp), ?_⟩
    by_cases hp : lineHasPlace r s.store
    · exact .inr (happended (hplace.mpr hp))
    · exact .inl (hkept (hp ∘ hplace.mp))
  · rcases addLine_notTaken hr ht with hsame | hcarry
    · rw [hsame]
      exact ⟨r, hr, fun hc => absurd hc ht, .inl rfl⟩
    · rw [hcarry, recordAt_setStore]
      exact ⟨_, recordAt_update rfl rfl rfl hr, fun hc => absurd hc ht, .inl rfl⟩

/-! ### The obligation -/

/-- Settles O47: the record by its range tests, the band by the interval of the minute, the line by `addLine_lines`. -/
theorem bandOfMinute : Obligations.BandOfMinute := by
  refine ⟨fun strap p c => passed_bands, fun s => ⟨bandNow_unknown, fun hk h12 h23 => ?_, fun kind key pos r hr => ?_⟩⟩
  · rw [bandNow_known hk]
    exact bandOf_intervals _ h12 h23
  · intro line after
    obtain ⟨r', hat, happended, hlines⟩ := addLine_lines (kind := kind) hr
    refine ⟨⟨r', hat, hlines⟩, fun hchamber hassist hplace => ?_⟩
    have hafter : after = some r' := hat
    rw [hafter]
    exact congrArg some (happended ⟨hchamber, hassist⟩ hplace)

end Sys2Proof.Tariffs
end

section
/-! The Fault Unit after START and RESTART, and once LOADING has ended (R27, R39, R195). -/

namespace Sys2Proof.Faults
open Sys2Proof Sys2Proof.Machine Sys2Proof.StartUp

/-! ### START and RESTART -/

/-- The state of the Fault Unit that R195 lists, with the faulted marks of the peer table (R39). -/
structure FaultUnitClean (t : State) : Prop where
  record : t.fault.record = none
  pendingSet : t.fault.pendingSet = []
  marks : t.fault.marks = []
  recoveries : t.fault.recoveries = []
  unmarked : ∀ i : Fin 16, t.presence.peers[i].faulted = false

theorem initial_peer_unmarked (i : Fin 16) : Presence.initial.peers[i].faulted = false :=
  congrArg Peer.faulted (Vector.getElem_replicate i.isLt)

theorem clean_of_initial {t : State} (hf : t.fault = FaultUnit.initial) (hp : t.presence = Presence.initial) :
    FaultUnitClean t where
  record := congrArg FaultUnit.record hf
  pendingSet := congrArg FaultUnit.pendingSet hf
  marks := congrArg FaultUnit.marks hf
  recoveries := congrArg FaultUnit.recoveries hf
  unmarked i := by rw [hp]; exact initial_peer_unmarked i

theorem startState_clean (s : State) : FaultUnitClean s.startState := clean_of_initial rfl rfl

/-- RESTART keeps nothing of the Fault Unit and nothing of the peer table (R30). -/
theorem restartState_clean (s : State) : FaultUnitClean s.restartState := clean_of_initial rfl rfl

theorem exec_start (s : State) : exec .start s = .next s.startState := ran_quiet rfl rfl rfl

theorem exec_restart {s : State} {dst : Addr} (h : s.catches deskAddr = true) (hd : dst = s.ownAddr)
    (hb : dst ≠ broadcastAddr) (ha : s.ctl.mode = .unconfigured ∨ s.restartAllowed = true) :
    exec (.restart deskAddr dst []) s = .next s.restartState :=
  ran_quiet (receive_restart h hd hb ha) rfl rfl

/-! ### The end of LOADING -/

/-- Whatever LOADING goes on from, the configured values are the record's once it has passed (R26). -/
theorem loadingPassed_settings (c : Settings) (s : State) : (s.loadingPassed c).loader.settings = some c := by
  have htail (atEnd : Bool) (y : State) (hy : y.loader.settings = some c) :
      (State.loadingTail atEnd y).loader.settings = some c := by
    obtain ⟨-, -, -, -, -, hloader, -⟩ := loadingTail_wakes atEnd y
    rw [hloader, hy]
  rcases hstands : s.keptStands c with _ | _
  · rcases hr : s.loader.fromRestart with _ | _
    · rw [loadingPassed_fresh hr]; exact htail _ _ rfl
    · rw [loadingPassed_setAside hr hstands]; exact htail _ _ rfl
  · obtain ⟨atEnd, hpassed⟩ := loadingPassed_kept hstands
    rw [hpassed]; exact htail _ _ rfl

theorem finish_loader (s x : State) : (finish s x).loader = x.loader := congrArg StillView.loader (finish_still s x)

/-- The record's command leaves the record's values, whatever is acted on behind it. -/
theorem exec_record_settings {s : State} {bytes : List Byte} {c : Settings} (hm : s.ctl.mode = .loading)
    (hs : s.loader.sampled = true) (hc : checkRecord s.loader.strap bytes = .passed c) :
    ∃ t, exec (.configRecordRead bytes) s = .next t ∧ t.loader.settings = some c := by
  refine ⟨finish s (s.loadingPassed c),
    congrArg (fun t => Host.Outcome.next (finish s t)) (recordRead_passed hm hs hc), ?_⟩
  rw [finish_loader, loadingPassed_settings]

theorem delegation_configured {t : State} {c : Settings} (h : t.loader.settings = some c) (x : Cause) (off : Nat) :
    t.delegation x off = c.delegation.getLsbD (2 * (x.code - 1) + off) := by
  unfold State.delegation
  rw [h, Option.any_some]

/-! ### The obligation -/

/-- Settles O8: START and RESTART leave the unit and the peer table as START has them; the passed record by
`loadingPassed_settings`, which no notice changes; the failed one by `recordFailed`. -/
theorem faultUnitAfterReset : Obligations.FaultUnitAfterReset := by
  unfold Obligations.FaultUnitAfterReset
  intro clean
  have hclean {t : State} (h : FaultUnitClean t) : clean t :=
    ⟨h.record, h.pendingSet, h.marks, h.recoveries, h.unmarked⟩
  refine ⟨fun s => ⟨_, exec_start s, hclean (startState_clean s)⟩,
    fun s dst h hd hb ha => ⟨_, exec_restart h hd hb ha, hclean (restartState_clean s)⟩,
    fun s bytes c hm hs hc => ?_, fun s bytes reason pos serial hm hs hfault hlink hn hc => ?_⟩
  · obtain ⟨t, hrun, hsettings⟩ := exec_record_settings hm hs hc
    exact ⟨t, hrun, hsettings, delegation_configured hsettings⟩
  · obtain ⟨t, r, hrun, -, -, hrecord, hcause, -, -, hv1, hv2, -⟩ :=
      recordFailed s bytes reason pos serial hm hs hfault hlink hn hc
    exact ⟨t, r, hrun, hrecord, hcause, hv1, hv2⟩

end Sys2Proof.Faults
end

section
/-! The front of the queue, and what every command answers (2.1, log entry 1). -/

namespace Sys2Proof.Commands
open Sys2Proof Sys2Proof.Machine

/-! ### The command at the front -/

/-- The command at the front acts on the station with the queue's rest. -/
theorem step_front {s : State} {c : Instr} {rest : List Instr} (h : s.pending = c :: rest) :
    step s = exec c { s with pending := rest } := by
  unfold step
  rw [h]

/-- Settles O1: with the command taken off the front of its queue the station is as it was before. -/
theorem stepRunsFront : Obligations.StepRunsFront := by
  unfold Obligations.StepRunsFront
  intro c s
  exact step_front rfl

/-! ### What a command answers -/

/-- Every row of the command table is an effect of the command alone, run by `ran`: no arm ends in a
fault or a refusal. -/
theorem exec_eq_ran (c : Instr) : ∃ effect : State → State, ∀ s, exec c s = ran effect s := by
  cases c <;> exact ⟨_, fun _ => rfl⟩

/-- Settles O3: every command is an effect that `ran` runs (`exec_eq_ran`), and `ran` ends in a next state with the queue as
it stood before the effect (`ran_next`). -/
theorem everyCommandAnswers : Obligations.EveryCommandAnswers := by
  unfold Obligations.EveryCommandAnswers
  intro c s
  obtain ⟨effect, heffect⟩ := exec_eq_ran c
  rw [heffect s]
  exact ran_next effect s

end Sys2Proof.Commands
end
